-- ==== Sys2Proof/Word.lean ====
section
/-! DEFINITION. The bit-vector widths the spec names: bytes of the host's view, 64-bit words of `MEM`
and of the register space, 32-bit command words (00_scope R5). -/

namespace Sys2Proof

/-- One byte of the host's view of `MEM` (20_memory R44). -/
abbrev Byte := BitVec 8

/-- A 64-bit word: the unit of `MEM` (20_memory R40) and of every register access (10_state R34). -/
abbrev Word := BitVec 64

/-- A 32-bit command word (30_encoding R60). -/
abbrev CmdWord := BitVec 32

end Sys2Proof
end

