-- ==== Sys2Proof/Syntax.lean ====
section
/-! DEFINITION. The 23 commands, one constructor per row of spec/opcode_table.json (30_encoding R63). -/

namespace Sys2Proof

/-- A decoded command word. The only operand in the word is the bit count `k` of `WBITS` and `RBITS`
(30_encoding R62). -/
inductive Instr where
  | nop
  | srst
  | wbits (k : BitVec 7)
  | wbit
  | rbits (k : BitVec 7)
  | rbit
  | flush
  | tell
  | seekr
  | seekw
  | fwdxf
  | invxf
  | expb
  | fscale
  | iscale
  | prec
  | encpl
  | decpl
  | padblk
  | b2c
  | c2b
  | encblk
  | decblk
  deriving DecidableEq, Repr

end Sys2Proof
end

