-- ==== Sys2Proof/WellFormed.lean ====
section
/-! DEFINITION. The one condition 30_encoding R61 puts on an instruction's operand. -/

namespace Sys2Proof

/-- The bit count of `WBITS` and `RBITS` is at most 64 (30_encoding R61 test 4); the other commands have no
operand and are always well formed. -/
def Instr.wellFormed : Instr → Bool
  | .wbits k => k.toNat ≤ 64
  | .rbits k => k.toNat ≤ 64
  | .nop => true
  | .srst => true
  | .wbit => true
  | .rbit => true
  | .flush => true
  | .tell => true
  | .seekr => true
  | .seekw => true
  | .fwdxf => true
  | .invxf => true
  | .expb => true
  | .fscale => true
  | .iscale => true
  | .prec => true
  | .encpl => true
  | .decpl => true
  | .padblk => true
  | .b2c => true
  | .c2b => true
  | .encblk => true
  | .decblk => true

end Sys2Proof
end

