-- ==== Sys2Proof/Decode.lean ====
section
/-! DEFINITION. Reading and writing command words (30_encoding R60 to R64). The decoder reads no state. -/

namespace Sys2Proof

/-- Why a command word is illegal: the four tests of 30_encoding R61, in their order. -/
inductive DecodeError where
  /-- Bits 23:7 are not zero (test 1). -/
  | reservedBits
  /-- Bits 31:24 are none of the 23 opcodes (test 2). -/
  | unknownOpcode
  /-- `IMM7` is not zero on a command that takes none (test 3). -/
  | strayImmediate
  /-- `IMM7` is above 64 on `WBITS` or `RBITS` (test 4). -/
  | countTooLarge
  deriving DecidableEq, Repr

/-- The field `OP`, bits 31:24 (30_encoding R60). -/
def cmdOp (c : CmdWord) : BitVec 8 := c.extractLsb' 24 8

/-- The field `RSV`, bits 23:7 (30_encoding R60). -/
def cmdRsv (c : CmdWord) : BitVec 17 := c.extractLsb' 7 17

/-- The field `IMM7`, bits 6:0 (30_encoding R60). -/
def cmdImm (c : CmdWord) : BitVec 7 := c.extractLsb' 0 7

/-- What an opcode selects: a command without immediate, or one of the two that take a bit count. -/
inductive OpKind where
  | plain (i : Instr)
  | counted (f : BitVec 7 → Instr)

/-- The opcode map of 30_encoding R63. -/
def opcodeKind (op : BitVec 8) : Option OpKind :=
  if op = 0x00#8 then some (.plain .nop)
  else if op = 0x01#8 then some (.plain .srst)
  else if op = 0x10#8 then some (.counted .wbits)
  else if op = 0x11#8 then some (.plain .wbit)
  else if op = 0x12#8 then some (.counted .rbits)
  else if op = 0x13#8 then some (.plain .rbit)
  else if op = 0x14#8 then some (.plain .flush)
  else if op = 0x15#8 then some (.plain .tell)
  else if op = 0x16#8 then some (.plain .seekr)
  else if op = 0x17#8 then some (.plain .seekw)
  else if op = 0x20#8 then some (.plain .fwdxf)
  else if op = 0x21#8 then some (.plain .invxf)
  else if op = 0x30#8 then some (.plain .expb)
  else if op = 0x31#8 then some (.plain .fscale)
  else if op = 0x32#8 then some (.plain .iscale)
  else if op = 0x33#8 then some (.plain .prec)
  else if op = 0x40#8 then some (.plain .encpl)
  else if op = 0x41#8 then some (.plain .decpl)
  else if op = 0x50#8 then some (.plain .padblk)
  else if op = 0x51#8 then some (.plain .b2c)
  else if op = 0x52#8 then some (.plain .c2b)
  else if op = 0x53#8 then some (.plain .encblk)
  else if op = 0x54#8 then some (.plain .decblk)
  else none

/-- Decoding a command word: the four tests of 30_encoding R61 in their order, then the opcode map. -/
def decodeWord (c : CmdWord) : Except DecodeError Instr :=
  if cmdRsv c ≠ 0 then .error .reservedBits
  else
    match opcodeKind (cmdOp c) with
    | none => .error .unknownOpcode
    | some (.plain i) => if cmdImm c ≠ 0 then .error .strayImmediate else .ok i
    | some (.counted f) => if 64 < (cmdImm c).toNat then .error .countTooLarge else .ok (f (cmdImm c))

/-- The opcode of each command (30_encoding R63). -/
def opcodeOf : Instr → BitVec 8
  | .nop => 0x00
  | .srst => 0x01
  | .wbits _ => 0x10
  | .wbit => 0x11
  | .rbits _ => 0x12
  | .rbit => 0x13
  | .flush => 0x14
  | .tell => 0x15
  | .seekr => 0x16
  | .seekw => 0x17
  | .fwdxf => 0x20
  | .invxf => 0x21
  | .expb => 0x30
  | .fscale => 0x31
  | .iscale => 0x32
  | .prec => 0x33
  | .encpl => 0x40
  | .decpl => 0x41
  | .padblk => 0x50
  | .b2c => 0x51
  | .c2b => 0x52
  | .encblk => 0x53
  | .decblk => 0x54

/-- The field `IMM7` of each command: the bit count of `WBITS` and `RBITS`, zero for every other command
(30_encoding R60). -/
def immOf : Instr → BitVec 7
  | .wbits k => k
  | .rbits k => k
  | .nop | .srst | .wbit | .rbit | .flush | .tell | .seekr | .seekw | .fwdxf | .invxf | .expb | .fscale
  | .iscale | .prec | .encpl | .decpl | .padblk | .b2c | .c2b | .encblk | .decblk => 0

/-- The command word of a command: `OP` in bits 31:24, zeros in 23:7, `IMM7` in 6:0 (30_encoding R60, R63). -/
def encode (i : Instr) : CmdWord :=
  opcodeOf i ++ (0#17 ++ immOf i)

/-- The instruction the decoder reads from an instruction whose bits are `w`, of which `nbits` are given and
the bits above them are 0. A command is one 32-bit word (30_encoding R60), so there is no word order to choose. -/
def decodeTableWord (nbits w : Nat) : Option Instr :=
  match decodeWord (BitVec.ofNat 32 (w % 2 ^ nbits)) with
  | .ok i => some i
  | .error _ => none

end Sys2Proof
end

