-- ==== Sys2Proof/Config.lean ====
section
/-! DEFINITION. What is fixed for the machine and what the spec leaves to the platform. The numeric
parameters of 00_scope R5 and R6 that commands compute with are in Machine/Params.lean. -/

namespace Sys2Proof

/-- The four scalar types (00_scope R6; the codes are those of 10_state R16). -/
inductive ScalarType where
  | i32
  | i64
  | f32
  | f64
  deriving DecidableEq, Repr

/-- The number of words the word-indexed space `MEM` can have: `CAPW` is 32 bits wide, so no buffer has
more than `2^32 - 1` words (10_state R22, 20_memory R40). DEDUCED, log 5; safe. -/
def Config.memWords : Nat := 4294967295

/-- What a byte of `MEM` that nothing has written reads as. The spec gives no value ("any value",
93_implementation_defined U2). DESIGN CHOICE, log 3; unsafe for a claim about one run from reset, and of no
effect on a statement over all states, since every content of `MEM` is some state's. -/
def Config.memFill : Byte := 0

/-- `REG_BASE`, the place of the register space in the host's address map: an open platform parameter that no
rule depends on (20_memory R49, 93_implementation_defined U7). Log 9; safe. -/
opaque Config.regBase : Nat

/-- `MEM_BASE`, the place of `MEM` in the host's address map: an open platform parameter that no rule depends
on (20_memory R49, 93_implementation_defined U7). Log 9; safe. -/
opaque Config.memBase : Nat

end Sys2Proof
end

