-- ==== Sys2Proof/Machine/State.lean ====
section
/-! DEFINITION. The machine's state as plain data (10_state R10: the complete architectural state), the
reasons a step can stop, and the state after hardware reset. The fields are grouped as 10_state groups them:
`cfg` holds what only the host and a reset write, `flt` the fault record, `fifo` the bitstream unit. -/

namespace Sys2Proof.Machine

/-- A register file of 256 registers of 64 bits: `BLK` (10_state R11) or `COEF` (10_state R15). -/
abbrev RegFile := Vector Word 256

/-- The bytes of `MEM`: (byte address, byte), addresses strictly rising, no entry equal to what an unlisted
byte reads as. Byte `b` is a byte of word `b / 8` (20_memory R44). -/
abbrev Mem := List Host.Cell

/-- The direction of the bitstream unit, `STATUS.DIR` (10_state R28): writing (0) or reading (1). -/
inductive Dir where
  | wr
  | rd
  deriving DecidableEq, Repr

/-- The five faults of the hardware (60_exceptions R180). They are recorded, never a stop (R185). -/
inductive HwFault where
  | capacity
  | nonfinite
  | badParam
  | illegal
  | dirErr
  deriving DecidableEq, Repr

/-- The registers that no command but `SRST` writes: `CTRL`, the four encoding parameters, the four fields
of `EXTENT`, `CAPW` and `ARG` (10_state R16 to R23). -/
structure Cfg where
  /-- `CTRL`: `TYPE` in bits 1:0, `DIMS` in bits 3:2 (R16). -/
  ctrl : BitVec 4
  /-- `MINBITS` (R17). -/
  minbits : BitVec 16
  /-- `MAXBITS` (R18). -/
  maxbits : BitVec 16
  /-- `MAXPREC` (R19). -/
  maxprec : BitVec 7
  /-- `MINEXP`, two's complement (R20). -/
  minexp : BitVec 16
  /-- `EXTENT.N0` (R21). -/
  n0 : BitVec 3
  /-- `EXTENT.N1` (R21). -/
  n1 : BitVec 3
  /-- `EXTENT.N2` (R21). -/
  n2 : BitVec 3
  /-- `EXTENT.N3` (R21). -/
  n3 : BitVec 3
  /-- `CAPW`, the capacity in words (R22). -/
  capw : BitVec 32
  /-- `ARG`, the operand of `WBITS`, `WBIT`, `SEEKR`, `SEEKW` (R23). -/
  arg : Word
  deriving DecidableEq, Repr

/-- The fault record: the five sticky flags `STATUS[4:0]`, `CAUSE` and `FINFO` (10_state R28 to R30). -/
structure FaultRec where
  flags : BitVec 5
  cause : BitVec 8
  finfo : Word
  deriving DecidableEq, Repr

/-- The bitstream unit: `DIR`, `PTR`, `BUF`, `NB` (10_state R28, R32). -/
structure Fifo where
  dir : Dir
  ptr : BitVec 32
  buf : Word
  nb : BitVec 7
  deriving DecidableEq, Repr

/-- One access of the host, performed between commands (00_scope R9). Offsets and addresses are relative to
`REG_BASE` and `MEM_BASE`; `bytes` is the width of the access. -/
inductive HostAccess where
  /-- A read of the register space (10_state R34). -/
  | regRead (offset bytes : Nat)
  /-- A write to the register space (10_state R34, R35); a write to `CMD` executes a command (R31). -/
  | regWrite (offset bytes : Nat) (value : Word)
  /-- A little-endian read of `MEM` at a byte address (20_memory R44). -/
  | memRead (addr bytes : Nat)
  /-- A little-endian write to `MEM` at a byte address (20_memory R40, R44). -/
  | memWrite (addr bytes : Nat) (value : Word)
  /-- The hardware reset input (70_reset_and_hazards R200). -/
  | reset
  deriving DecidableEq, Repr

/-- The state of the machine. All fields but the last two are the spec's (10_state R10). -/
structure State where
  /-- `BLK[0..255]` (R11). -/
  blk : RegFile
  /-- `COEF[0..255]` (R15). -/
  coef : RegFile
  /-- `CTRL`, parameters, `EXTENT`, `CAPW`, `ARG` (R16 to R23). -/
  cfg : Cfg
  /-- `RES` (R24). -/
  res : Word
  /-- `BITS` (R25). -/
  bits : BitVec 32
  /-- `EXPF` (R26). -/
  expf : BitVec 11
  /-- `PRECEFF` (R27). -/
  preceff : BitVec 7
  /-- `STATUS[4:0]`, `CAUSE`, `FINFO` (R28 to R30). -/
  flt : FaultRec
  /-- `DIR`, `PTR`, `BUF`, `NB` (R28, R32). -/
  fifo : Fifo
  /-- `MEM` (20_memory R40). -/
  mem : Mem
  /-- THE MODEL'S OWN: the host accesses not yet performed, oldest first. DESIGN CHOICE, log 1. -/
  hostq : List HostAccess
  /-- THE MODEL'S OWN: the value the latest host read returned. DESIGN CHOICE, log 2. -/
  rdata : Word
  deriving DecidableEq, Repr

/-- Why the model stops with a fault. No command raises one: the hardware's own faults are recorded in
`STATUS` and the machine goes on (60_exceptions R185). -/
inductive Fault where
  /-- Raised by a host access to `MEM` beyond the last word `CAPW` can name (20_memory R40, R41): there is no
  such memory. Safe: the model stops where a platform might have other memory. Log 5. -/
  | noSuchMemory
  deriving DecidableEq, Repr

/-- Why the model has no meaning for a step. -/
inductive Refusal where
  /-- Raised by an arm of `exec` whose command has no meaning yet; safe. -/
  | notModelled (mnemonic : String)
  /-- Raised by a host access that is outside the specification: a register access that is not an aligned
  64-bit access inside 0x0000 .. 0x17FF (10_state R34, 93_implementation_defined U6: "refuse"), or an access
  to `MEM` of a width other than 1, 2, 4 or 8 bytes (20_memory R44). Safe. Log 6 and log 7. -/
  | hostAccess
  deriving DecidableEq, Repr

/-- The configuration registers after reset (10_state R38). -/
def Cfg.reset : Cfg where
  ctrl := 0
  minbits := 0
  maxbits := 65535
  maxprec := 64
  minexp := 0x8000
  n0 := 4
  n1 := 4
  n2 := 4
  n3 := 4
  capw := 0
  arg := 0

/-- The fault record after reset: no flag, no cause (10_state R38). -/
def FaultRec.reset : FaultRec where
  flags := 0
  cause := 0
  finfo := 0

/-- The bitstream unit after reset: writing, at position 0 (10_state R38). -/
def Fifo.reset : Fifo where
  dir := .wr
  ptr := 0
  buf := 0
  nb := 0

/-- The machine right after hardware reset (10_state R38). `BLK` and `COEF`, for which R38 gives no value,
are 0: DESIGN CHOICE, log 4, unsafe. `MEM` lists nothing: DESIGN CHOICE, log 3, unsafe. -/
def State.reset : State where
  blk := Vector.replicate 256 0
  coef := Vector.replicate 256 0
  cfg := .reset
  res := 0
  bits := 0
  expf := 0
  preceff := 0
  flt := .reset
  fifo := .reset
  mem := []
  hostq := []
  rdata := 0

end Sys2Proof.Machine
end

