-- ==== Sys2Proof/Machine/Ops.lean ====
section
/-! DEFINITION. The named operations of the machine: updates of the state, bytes and words of `MEM`, the two
register files, recording a fault (60_exceptions R183), and the bitstream unit's `write_bits` and `read_bits`
(41_bitstream_fifo R80 to R82), on which every stream command rests. -/

namespace Sys2Proof.Machine

/-! ### Updates of one field -/

def State.setBlk (s : State) (v : RegFile) : State := { s with blk := v }
def State.setCoef (s : State) (v : RegFile) : State := { s with coef := v }
def State.setCfg (s : State) (v : Cfg) : State := { s with cfg := v }
def State.setRes (s : State) (v : Word) : State := { s with res := v }
def State.setBits (s : State) (v : BitVec 32) : State := { s with bits := v }
def State.setExpf (s : State) (v : BitVec 11) : State := { s with expf := v }
def State.setPreceff (s : State) (v : BitVec 7) : State := { s with preceff := v }
def State.setFlt (s : State) (v : FaultRec) : State := { s with flt := v }
def State.setFifo (s : State) (v : Fifo) : State := { s with fifo := v }
def State.setMem (s : State) (v : Mem) : State := { s with mem := v }
def State.setHostq (s : State) (v : List HostAccess) : State := { s with hostq := v }
def State.setRdata (s : State) (v : Word) : State := { s with rdata := v }

/-! ### `MEM` -/

/-- The canonical form of a memory: addresses strictly rising, no entry equal to the fill byte. -/
def Mem.wf : Mem → Bool
  | [] => true
  | [(_, v)] => v != Config.memFill
  | (a, v) :: (b, w) :: rest => v != Config.memFill && decide (a < b) && Mem.wf ((b, w) :: rest)

/-- The byte at a byte address (20_memory R44). -/
def Mem.readByte : Mem → Nat → Byte
  | [], _ => Config.memFill
  | (b, v) :: rest, a => if b = a then v else Mem.readByte rest a

/-- Every entry for an address taken out. -/
def Mem.erase : Mem → Nat → Mem
  | [], _ => []
  | (b, v) :: rest, a => if b = a then Mem.erase rest a else (b, v) :: Mem.erase rest a

/-- An entry put before the first entry of a higher address. -/
def Mem.insert : Mem → Nat → Byte → Mem
  | [], a, v => [(a, v)]
  | (b, w) :: rest, a, v => if a < b then (a, v) :: (b, w) :: rest else (b, w) :: Mem.insert rest a v

/-- One byte written; writing the fill byte leaves the address unlisted. -/
def Mem.writeByte (m : Mem) (a : Nat) (v : Byte) : Mem :=
  if v = Config.memFill then m.erase a else (m.erase a).insert a v

/-- `k` bytes from address `a` up, little-endian (20_memory R44). -/
def Mem.readBytes (m : Mem) : Nat → Nat → Nat
  | _, 0 => 0
  | a, k + 1 => (m.readByte a).toNat + 256 * m.readBytes (a + 1) k

/-- The low `k` bytes of `v` written from address `a` up, little-endian (20_memory R44). -/
def Mem.writeBytes (m : Mem) : Nat → Nat → Nat → Mem
  | _, 0, _ => m
  | a, k + 1, v => (m.writeByte a (BitVec.ofNat 8 v)).writeBytes (a + 1) k (v / 256)

/-- `MemRead(w, 64)`: the word at word index `w` (20_memory R41, R44). -/
def Mem.readWord (m : Mem) (w : Nat) : Word := BitVec.ofNat 64 (m.readBytes (8 * w) 8)

/-- `MemWrite(w, 64, v)`: the word at word index `w` set to `v` (20_memory R41, R44). -/
def Mem.writeWord (m : Mem) (w : Nat) (v : Word) : Mem := m.writeBytes (8 * w) 8 v.toNat

/-! ### Register files -/

/-- The list of the values of `f` at `0 .. n-1`. -/
def tab {α : Type} (n : Nat) (f : Nat → α) : List α := (List.range n).map f

theorem tab_length {α : Type} (n : Nat) (f : Nat → α) : (tab n f).length = n := by
  simp [tab]

/-- Register `i` of a file; there is none at 256 and above, and no access names one. -/
def RegFile.get (f : RegFile) (i : Nat) : Word := f.toList.getD i 0

/-- The file whose register `i` holds `g i`. -/
def RegFile.build (g : Nat → Word) : RegFile := ⟨(tab 256 g).toArray, by simp [tab_length]⟩

/-- Registers `0 .. n-1` set to the values of `g`, the others kept (10_state R11, R15). -/
def RegFile.writeLow (f : RegFile) (n : Nat) (g : Nat → Word) : RegFile :=
  .build fun i => if i < n then g i else f.get i

/-- One register set. -/
def RegFile.set (f : RegFile) (i : Nat) (v : Word) : RegFile :=
  .build fun j => if j = i then v else f.get j

/-! ### Faults -/

/-- The number of the fault's flag in `STATUS` (60_exceptions R180). -/
def HwFault.bit : HwFault → Nat
  | .capacity => 0
  | .nonfinite => 1
  | .badParam => 2
  | .illegal => 3
  | .dirErr => 4

/-- `raise F(info)` (60_exceptions R183): the sticky flag, `CAUSE = bit + 1` and `FINFO`, and nothing else. That
the command ends here is in the type of what it returns (`Run.raised`). -/
def State.raise (s : State) (f : HwFault) (info : Word) : State :=
  s.setFlt { flags := s.flt.flags ||| (1#5 <<< f.bit), cause := BitVec.ofNat 8 (f.bit + 1), finfo := info }

/-- How a piece of a command's pseudocode ends: it goes on with a value, or a fault has been recorded and the
command is over (60_exceptions R183). -/
inductive Run (α : Type) where
  | ok (a : α) (s : State)
  | raised (s : State)

/-- The state in which a piece of pseudocode ends; nothing is rolled back after a fault (60_exceptions R183). -/
def Run.state {α : Type} : Run α → State
  | .ok _ s => s
  | .raised s => s

/-- The next piece of pseudocode, which runs unless a fault ended the command. -/
def Run.bind {α β : Type} (r : Run α) (f : α → State → Run β) : Run β :=
  match r with
  | .ok a s => f a s
  | .raised s => .raised s

/-- What a command's step answers: the state its pseudocode ends in, faulted or not; a hardware fault does not
stop the machine (60_exceptions R185). -/
def Run.toOutcome {α : Type} (r : Run α) : Host.Outcome State Fault Refusal := .next r.state

/-! ### The bitstream unit -/

/-- `CAPBITS = 64 * CAPW` (41_bitstream_fifo R80). -/
def State.capBits (s : State) : Nat := 64 * s.cfg.capw.toNat

/-- `POS` (10_state R33): `64*PTR + NB` when writing, `64*PTR - NB` when reading. The difference is never
negative when the invariant of R32 holds (bits held while reading came from word `PTR - 1`); log 16. -/
def State.pos (s : State) : Nat :=
  match s.fifo.dir with
  | .wr => 64 * s.fifo.ptr.toNat + s.fifo.nb.toNat
  | .rd => 64 * s.fifo.ptr.toNat - s.fifo.nb.toNat

/-- `comb` of 41_bitstream_fifo R81: the bits held in `BUF` and, above them, the low `k` bits of `v`. -/
def State.comb (s : State) (v : Word) (k : Nat) : Nat :=
  s.fifo.buf.toNat + v.toNat % 2 ^ k * 2 ^ s.fifo.nb.toNat

/-- The part of `write_bits` after its two checks (41_bitstream_fifo R81). -/
def State.pushBits (s : State) (v : Word) (k : Nat) : State :=
  let comb := s.comb v k
  if 64 ≤ s.fifo.nb.toNat + k then
    (s.setMem (s.mem.writeWord s.fifo.ptr.toNat (BitVec.ofNat 64 comb))).setFifo
      { s.fifo with
        ptr := s.fifo.ptr + 1
        buf := BitVec.ofNat 64 (comb / 2 ^ 64)
        nb := BitVec.ofNat 7 (s.fifo.nb.toNat + k - 64) }
  else
    s.setFifo { s.fifo with buf := BitVec.ofNat 64 comb, nb := BitVec.ofNat 7 (s.fifo.nb.toNat + k) }

/-- `write_bits(v, k)` (41_bitstream_fifo R81). -/
def writeBits (v : Word) (k : Nat) (s : State) : Run Unit :=
  if s.fifo.dir ≠ .wr then .raised (s.raise .dirErr 0)
  else if s.capBits < s.pos + k then .raised (s.raise .capacity (BitVec.ofNat 64 s.pos))
  else .ok () (s.pushBits v k)

/-- The value `read_bits(k)` returns once its two checks have passed (41_bitstream_fifo R82). -/
def State.pullValue (s : State) (k : Nat) : Word :=
  if k ≤ s.fifo.nb.toNat then BitVec.ofNat 64 (s.fifo.buf.toNat % 2 ^ k)
  else
    BitVec.ofNat 64 (s.fifo.buf.toNat
      + (s.mem.readWord s.fifo.ptr.toNat).toNat % 2 ^ (k - s.fifo.nb.toNat) * 2 ^ s.fifo.nb.toNat)

/-- The state `read_bits(k)` leaves once its two checks have passed (41_bitstream_fifo R82). -/
def State.pullBits (s : State) (k : Nat) : State :=
  if k ≤ s.fifo.nb.toNat then
    s.setFifo
      { s.fifo with
        buf := BitVec.ofNat 64 (s.fifo.buf.toNat / 2 ^ k)
        nb := BitVec.ofNat 7 (s.fifo.nb.toNat - k) }
  else
    s.setFifo
      { s.fifo with
        ptr := s.fifo.ptr + 1
        buf := BitVec.ofNat 64 ((s.mem.readWord s.fifo.ptr.toNat).toNat / 2 ^ (k - s.fifo.nb.toNat))
        nb := BitVec.ofNat 7 (64 - (k - s.fifo.nb.toNat)) }

/-- `read_bits(k)` (41_bitstream_fifo R82); the value is zero-extended to 64 bits. -/
def readBits (k : Nat) (s : State) : Run Word :=
  if s.fifo.dir ≠ .rd then .raised (s.raise .dirErr 0)
  else if s.capBits < s.pos + k then .raised (s.raise .capacity (BitVec.ofNat 64 s.pos))
  else .ok (s.pullValue k) (s.pullBits k)

/-- One bit of a block written and counted: `write_bits(b, 1); BITS <- BITS + 1` (44_bitplane_coder R144,
45_block_codec R166). -/
def writeCounted (b : Bool) (s : State) : Run Unit :=
  (writeBits (BitVec.ofNat 64 b.toNat) 1 s).bind fun _ s' => .ok () (s'.setBits (s'.bits + 1))

/-- One bit of a block read and counted: `read_bits(1); BITS <- BITS + 1` (44_bitplane_coder R144,
45_block_codec R166). -/
def readCounted (s : State) : Run Bool :=
  (readBits 1 s).bind fun v s' => .ok (v.getLsbD 0) (s'.setBits (s'.bits + 1))

end Sys2Proof.Machine
end

