-- ==== Sys2Proof/Machine/Params.lean ====
section
/-! DEFINITION. The per-type and per-dimensionality constants of 00_scope R6. -/

namespace Sys2Proof

/-- The scalar type a `TYPE` code selects (10_state R16): 0 = I32, 1 = I64, 2 = F32, 3 = F64. -/
def ScalarType.ofCode (c : BitVec 2) : ScalarType :=
  if c = 0 then .i32 else if c = 1 then .i64 else if c = 2 then .f32 else .f64

/-- `N`, the integer storage width (00_scope R5, R6). -/
def ScalarType.width : ScalarType → Nat
  | .i32 => 32
  | .i64 => 64
  | .f32 => 32
  | .f64 => 64

/-- Whether the type is a floating-point type (00_scope R6). -/
def ScalarType.isFloat : ScalarType → Bool
  | .i32 => false
  | .i64 => false
  | .f32 => true
  | .f64 => true

/-- `EBITS` (00_scope R6). The integer types have none; the 0 there is never used (log 19). -/
def ScalarType.ebits : ScalarType → Nat
  | .i32 => 0
  | .i64 => 0
  | .f32 => 8
  | .f64 => 11

/-- `FBITS` (00_scope R6). The integer types have none; the 0 there is never used (log 19). -/
def ScalarType.fbits : ScalarType → Nat
  | .i32 => 0
  | .i64 => 0
  | .f32 => 23
  | .f64 => 52

/-- `BIAS` (00_scope R6). The integer types have none; the 0 there is never used (log 19). -/
def ScalarType.bias : ScalarType → Nat
  | .i32 => 0
  | .i64 => 0
  | .f32 => 127
  | .f64 => 1023

/-- `RAW = 2^EBITS - 1`, the header of a raw block (43_exponent_scaler, opening; R126). -/
def ScalarType.raw (t : ScalarType) : Nat := 2 ^ t.ebits - 1

/-- `HR(d)`, the head-room of the transform (00_scope R6). -/
def headRoom (d : Nat) : Nat :=
  if d = 1 then 2 else if d = 2 then 4 else if d = 3 then 5 else 7

/-- `MBITS(N, d) = N - 1 - HR(d)` (00_scope R6). -/
def ScalarType.mbits (t : ScalarType) (d : Nat) : Nat := t.width - 1 - headRoom d

/-- `HEAD(N, d) = MBITS(N, d) - (FBITS + 1)` (00_scope R6). -/
def ScalarType.head (t : ScalarType) (d : Nat) : Nat := t.mbits d - (t.fbits + 1)

/-- `G(d) = d + 2`, the guard planes of a tolerance (00_scope R6). -/
def guardPlanes (d : Nat) : Nat := d + 2

end Sys2Proof
end

