-- ==== Sys2Proof/Machine/Operands.lean ====
section
/-! DEFINITION. The operand forms: the registers a command takes its operands from, read and written by the
container rule of 10_state R13. No command names a register number (30_encoding R62). -/

namespace Sys2Proof.Machine

/-- `TYPE`, `CTRL[1:0]` (10_state R16). -/
def State.ty (s : State) : ScalarType := .ofCode (s.cfg.ctrl.extractLsb' 0 2)

/-- `d = DIMS + 1`, `DIMS = CTRL[3:2]` (10_state R16). -/
def State.dim (s : State) : Nat := (s.cfg.ctrl.extractLsb' 2 2).toNat + 1

/-- `n = 4^d`, the block size (00_scope R6). -/
def State.size (s : State) : Nat := 4 ^ s.dim

/-- `N`, the storage width of the current type (00_scope R6). -/
def State.width (s : State) : Nat := s.ty.width

/-- `E = EXPF[EBITS-1:0]` (43_exponent_scaler, opening; 10_state R26). -/
def State.expE (s : State) : Nat := s.expf.toNat % 2 ^ s.ty.ebits

/-- `sext_16(MINEXP)` (10_state R20). -/
def State.minExp (s : State) : Int := s.cfg.minexp.toInt

/-- `EXTENT.Na` (10_state R21). -/
def State.extent (s : State) (a : Nat) : Nat :=
  if a = 0 then s.cfg.n0.toNat
  else if a = 1 then s.cfg.n1.toNat
  else if a = 2 then s.cfg.n2.toNat
  else s.cfg.n3.toNat

/-- The `N`-bit value in a 64-bit container (10_state R13). -/
def fromContainer (N : Nat) (w : Word) : BitVec N := w.setWidth N

/-- The 64-bit container of an `N`-bit value, zero-extended (10_state R13). -/
def toContainer {N : Nat} (v : BitVec N) : Word := v.setWidth 64

/-- The `N`-bit values of registers `0 .. n-1` of a file (10_state R13). -/
def RegFile.values (f : RegFile) (N n : Nat) : List (BitVec N) := tab n fun i => fromContainer N (f.get i)

/-- Registers `0 .. n-1` of a file set to the containers of the values of a list (10_state R13). -/
def RegFile.putValues {N : Nat} (f : RegFile) (n : Nat) (vs : List (BitVec N)) : RegFile :=
  f.writeLow n fun i => toContainer (vs.getD i 0)

/-- The block's samples: `BLK[i][N-1:0]`, `i = 0 .. n-1` (10_state R11, R13). -/
def State.samples (s : State) : List (BitVec s.width) := s.blk.values s.width s.size

/-- The block's coefficients: `COEF[j][N-1:0]`, `j = 0 .. n-1` (10_state R15, R13). -/
def State.coeffs (s : State) : List (BitVec s.width) := s.coef.values s.width s.size

/-- `for i: BLK[i] <- zext_64(vs[i])` (10_state R13). -/
def State.putSamples {N : Nat} (s : State) (vs : List (BitVec N)) : State :=
  s.setBlk (s.blk.putValues s.size vs)

/-- `for j: COEF[j] <- zext_64(vs[j])` (10_state R13). -/
def State.putCoeffs {N : Nat} (s : State) (vs : List (BitVec N)) : State :=
  s.setCoef (s.coef.putValues s.size vs)

/-- Digit `a` of a natural index: the coordinate on axis `a` (10_state R14). -/
def coord (i a : Nat) : Nat := i / 4 ^ a % 4

end Sys2Proof.Machine
end

