-- ==== Sys2Proof/Machine/Flags.lean ====
section
/-! DEFINITION. `STATUS`: the five sticky fault flags, the derived field `POLICY` and the direction bit (10_state
R28, R36). A flag is set by `State.raise` (Machine/Ops.lean) and cleared by the host or a reset only. -/

namespace Sys2Proof.Machine

/-- `POLICY` (10_state R36): 3 reversible, 2 accuracy, 1 precision, 0 rate. -/
def State.policy (s : State) : Nat :=
  if s.minExp = -32768 then 3
  else if s.minExp > -32767 then 2
  else if s.cfg.maxprec.toNat < s.width then 1
  else 0

/-- `DIR` as the bit `STATUS[16]` (10_state R28). -/
def Dir.bit : Dir → Nat
  | .wr => 0
  | .rd => 1

/-- The value a read of `STATUS` returns: flags in 4:0, `POLICY` in 9:8, `DIR` in 16, other bits zero (10_state
R28). -/
def State.status (s : State) : Word :=
  BitVec.ofNat 64 (s.flt.flags.toNat + 2 ^ 8 * s.policy + 2 ^ 16 * s.fifo.dir.bit)

/-- A host write of `v` to `STATUS` clears every flag `k` with `v[k] = 1` and changes nothing else (10_state
R28). -/
def State.clearFlags (s : State) (v : Word) : State :=
  s.setFlt { s.flt with flags := s.flt.flags &&& ~~~(v.setWidth 5) }

end Sys2Proof.Machine
end

