-- ==== Sys2Proof/Machine/Bitstream.lean ====
section
/-! DEFINITION. The bitstream_fifo commands (41_bitstream_fifo R83 to R90). -/

namespace Sys2Proof.Machine

/-- `RES <- v` after a read (41_bitstream_fifo R89, R90). -/
def storeRes (r : Run Word) : Run Unit := r.bind fun v s => .ok () (s.setRes v)

/-- `WBITS k` (41_bitstream_fifo R83). A count above 64 is the fault `ILLEGAL` on the command's own word; the
decoder raises it first, so this form runs only when a count that is not well formed is executed directly
(log 13). -/
def execWbits (k : BitVec 7) (s : State) : Host.Outcome State Fault Refusal :=
  if 64 < k.toNat then .next (s.raise .illegal ((encode (.wbits k)).setWidth 64))
  else (writeBits s.cfg.arg k.toNat s).toOutcome

/-- `WBIT` (41_bitstream_fifo R84): `write_bits(ARG[0], 1)`. -/
def execWbit (s : State) : Host.Outcome State Fault Refusal :=
  (writeBits (BitVec.ofNat 64 (s.cfg.arg.toNat % 2)) 1 s).toOutcome

/-- `RBITS k` (41_bitstream_fifo R89). A count above 64 as for `WBITS`. -/
def execRbits (k : BitVec 7) (s : State) : Host.Outcome State Fault Refusal :=
  if 64 < k.toNat then .next (s.raise .illegal ((encode (.rbits k)).setWidth 64))
  else (storeRes (readBits k.toNat s)).toOutcome

/-- `RBIT` (41_bitstream_fifo R90): `RES <- zext_64(read_bits(1))`. -/
def execRbit (s : State) : Host.Outcome State Fault Refusal := (storeRes (readBits 1 s)).toOutcome

/-- `FLUSH` with `DIR` = WR (41_bitstream_fifo R85): the pending word stored with zero padding. -/
def flushWr (s : State) : Run Unit :=
  if s.fifo.nb = 0 then .ok () (s.setRes 0)
  else if s.cfg.capw.toNat ≤ s.fifo.ptr.toNat then .raised (s.raise .capacity (BitVec.ofNat 64 s.pos))
  else
    .ok () (((s.setMem (s.mem.writeWord s.fifo.ptr.toNat s.fifo.buf)).setRes
      (BitVec.ofNat 64 (64 - s.fifo.nb.toNat))).setFifo
        { s.fifo with ptr := s.fifo.ptr + 1, buf := 0, nb := 0 })

/-- `FLUSH` with `DIR` = RD (41_bitstream_fifo R85): the rest of the current word skipped. -/
def flushRd (s : State) : State :=
  (s.setRes (BitVec.ofNat 64 s.fifo.nb.toNat)).setFifo { s.fifo with buf := 0, nb := 0 }

/-- `FLUSH` (41_bitstream_fifo R85). -/
def execFlush (s : State) : Host.Outcome State Fault Refusal :=
  match s.fifo.dir with
  | .wr => (flushWr s).toOutcome
  | .rd => .next (flushRd s)

/-- `TELL` (41_bitstream_fifo R86): `RES <- POS`. -/
def execTell (s : State) : Host.Outcome State Fault Refusal := .next (s.setRes (BitVec.ofNat 64 s.pos))

/-- The bitstream unit after a successful `SEEKR` to position `p` (41_bitstream_fifo R87). -/
def seekReadFifo (m : Mem) (p : Nat) : Fifo :=
  if p % 64 ≠ 0 then
    { dir := .rd
      ptr := BitVec.ofNat 32 (p / 64 + 1)
      buf := BitVec.ofNat 64 ((m.readWord (p / 64)).toNat / 2 ^ (p % 64))
      nb := BitVec.ofNat 7 (64 - p % 64) }
  else { dir := .rd, ptr := BitVec.ofNat 32 (p / 64), buf := 0, nb := 0 }

/-- `SEEKR` (41_bitstream_fifo R87). -/
def execSeekr (s : State) : Host.Outcome State Fault Refusal :=
  if s.capBits < s.cfg.arg.toNat then .next (s.raise .capacity s.cfg.arg)
  else .next (s.setFifo (seekReadFifo s.mem s.cfg.arg.toNat))

/-- The bitstream unit after a successful `SEEKW` to position `p` that is not a roll-back (41_bitstream_fifo
R88, second branch). -/
def seekWriteFifo (m : Mem) (p : Nat) : Fifo :=
  if p % 64 ≠ 0 then
    { dir := .wr
      ptr := BitVec.ofNat 32 (p / 64)
      buf := BitVec.ofNat 64 ((m.readWord (p / 64)).toNat % 2 ^ (p % 64))
      nb := BitVec.ofNat 7 (p % 64) }
  else { dir := .wr, ptr := BitVec.ofNat 32 (p / 64), buf := 0, nb := 0 }

/-- Whether `SEEKW` to `p` rolls back inside the word still held in `BUF` (41_bitstream_fifo R88, first
branch). -/
def State.rollsBack (s : State) (p : Nat) : Bool :=
  s.fifo.dir = .wr && p / 64 = s.fifo.ptr.toNat && p % 64 ≤ s.fifo.nb.toNat

/-- `SEEKW` (41_bitstream_fifo R88). -/
def execSeekw (s : State) : Host.Outcome State Fault Refusal :=
  if s.capBits < s.cfg.arg.toNat then .next (s.raise .capacity s.cfg.arg)
  else if s.rollsBack s.cfg.arg.toNat then
    .next (s.setFifo
      { s.fifo with
        buf := BitVec.ofNat 64 (s.fifo.buf.toNat % 2 ^ (s.cfg.arg.toNat % 64))
        nb := BitVec.ofNat 7 (s.cfg.arg.toNat % 64) })
  else .next (s.setFifo (seekWriteFifo s.mem s.cfg.arg.toNat))

end Sys2Proof.Machine
end

