-- ==== Sys2Proof/Machine/CoderWork.lean ====
section
/-! DEFINITION. The types of the bit-plane coder's work values and endings (44_bitplane_coder R142, R144). -/

namespace Sys2Proof.Machine

/-- The work values of one `DECPL` or `DECBLK`, per coefficient: `MAG`, `SGN` (true for 1) and the mark `SIGF`
(44_bitplane_coder R142). -/
structure Work where
  mag : List Nat
  sgn : List Bool
  sig : List Bool
  deriving DecidableEq, Repr

/-- How a piece of the coder's traversal ends: it goes on; `stop_coder` has ended the traversal, which is no
fault; or a fault has ended the command (44_bitplane_coder R144). -/
inductive Flow (α : Type) where
  | go (a : α) (s : State)
  | stop (a : α) (s : State)
  | raised (s : State)

end Sys2Proof.Machine
end

