-- ==== Sys2Proof/Machine/Coder.lean ====
section
/-! DEFINITION. The embedded_bitplane_coder commands ENCPL and DECPL (44_bitplane_coder). The encoder's
traversal is stated as the list of bits it emits, which depends on the coefficients only; `emitAll` passes that
list through `emit`, which is where `MAXBITS` or a fault cuts it short (R144; log 15). -/

namespace Sys2Proof.Machine

/-- The next piece of a traversal, which runs unless `stop_coder` or a fault came first (44_bitplane_coder
R144). -/
def Flow.andThen {α : Type} (r : Flow α) (f : α → State → Flow α) : Flow α :=
  match r with
  | .go a s => f a s
  | .stop a s => .stop a s
  | .raised s => .raised s

/-- The end of a traversal as a piece of its command: `stop_coder` is a normal end (44_bitplane_coder R144). -/
def Flow.toRun {α : Type} (r : Flow α) : Run α :=
  match r with
  | .go a s => .ok a s
  | .stop a s => .ok a s
  | .raised s => .raised s

/-- `SGN` of a coefficient (44_bitplane_coder R141). -/
def coefSign {N : Nat} (x : BitVec N) : Bool := x.toInt < 0

/-- `MAG` of a coefficient, `0 .. 2^(N-1)` (44_bitplane_coder R141). -/
def coefMag {N : Nat} (x : BitVec N) : Nat := x.toInt.natAbs

/-- The coefficient of a magnitude and a sign: `wrap_N(SGN ? -MAG : MAG)` (44_bitplane_coder R141). -/
def coefOf (N : Nat) (mag : Nat) (sgn : Bool) : BitVec N :=
  if sgn then -BitVec.ofNat N mag else BitVec.ofNat N mag

/-- `prec = min(PRECEFF, N)` (44_bitplane_coder R145). -/
def State.planes (s : State) : Nat := min s.preceff.toNat s.width

/-- The planes coded, in order: `N-1` down to `N-prec` (44_bitplane_coder R146, R147). -/
def planeList (N prec : Nat) : List Nat := tab prec fun p => N - 1 - p

/-- The test bit of a group: some coefficient in `[lo, lo+s)` has a 1 bit at or above plane `k`
(44_bitplane_coder R146). -/
def groupTest (mag : List Nat) (lo s k : Nat) : Bool :=
  (List.range s).any fun j => decide (mag.getD (lo + j) 0 / 2 ^ k ≠ 0)

/-- `enc_group(lo, 4^depth, k)` (44_bitplane_coder R146, R143): the bits emitted and the marks `SIGF` after. -/
def encGroup (mag : List Nat) (sgn : List Bool) (k : Nat) : Nat → Nat → List Bool → List Bool × List Bool
  | 0, lo, sig =>
    let b := (mag.getD lo 0).testBit k
    if b && !sig.getD lo false then ([true, sgn.getD lo false], sig.set lo true) else ([b], sig)
  | depth + 1, lo, sig =>
    if groupTest mag lo (4 ^ (depth + 1)) k then
      let r0 := encGroup mag sgn k depth lo sig
      let r1 := encGroup mag sgn k depth (lo + 4 ^ depth) r0.2
      let r2 := encGroup mag sgn k depth (lo + 2 * 4 ^ depth) r1.2
      let r3 := encGroup mag sgn k depth (lo + 3 * 4 ^ depth) r2.2
      (true :: (r0.1 ++ r1.1 ++ r2.1 ++ r3.1), r3.2)
    else ([false], sig)

/-- The bits of the planes of a list, in order (44_bitplane_coder R146). -/
def encPlanes (mag : List Nat) (sgn : List Bool) (d : Nat) : List Nat → List Bool → List Bool
  | [], _ => []
  | k :: ks, sig =>
    let r := encGroup mag sgn k d 0 sig
    r.1 ++ encPlanes mag sgn d ks r.2

/-- Every bit `encode_planes` would emit for the coefficients `C` and `prec` planes (44_bitplane_coder R141,
R142, R146). -/
def planeBits {N : Nat} (d prec : Nat) (C : List (BitVec N)) : List Bool :=
  encPlanes (C.map coefMag) (C.map coefSign) d (planeList N prec) (C.map fun _ => false)

/-- `emit` of each bit of a list (44_bitplane_coder R144). -/
def emitAll : List Bool → State → Flow Unit
  | [], s => .go () s
  | b :: bs, s =>
    if s.cfg.maxbits.toNat ≤ s.bits.toNat then .stop () s
    else
      match writeCounted b s with
      | .ok _ s' => emitAll bs s'
      | .raised s' => .raised s'

/-- `encode_planes()` on what `COEF` holds (44_bitplane_coder R146). -/
def encodePlanes (s : State) : Run Unit := (emitAll (planeBits s.dim s.planes s.coeffs) s).toRun

/-- `take()` (44_bitplane_coder R144). -/
def takeBit (s : State) : Flow Bool :=
  if s.cfg.maxbits.toNat ≤ s.bits.toNat then .stop false s
  else
    match readCounted s with
    | .ok b s' => .go b s'
    | .raised s' => .raised s'

/-- `MAG[lo] + b * 2^k` (44_bitplane_coder R147). -/
def Work.addBit (w : Work) (lo k : Nat) (b : Bool) : Work :=
  { w with mag := w.mag.set lo (w.mag.getD lo 0 + b.toNat * 2 ^ k) }

/-- `SIGF[lo] <- 1` (44_bitplane_coder R147). -/
def Work.mark (w : Work) (lo : Nat) : Work := { w with sig := w.sig.set lo true }

/-- `SGN[lo] = b` (44_bitplane_coder R147). -/
def Work.setSign (w : Work) (lo : Nat) (b : Bool) : Work := { w with sgn := w.sgn.set lo b }

/-- The leaf of `dec_group` (44_bitplane_coder R147, R148). -/
def decLeaf (k lo : Nat) (w : Work) (s : State) : Flow Work :=
  match takeBit s with
  | .raised s1 => .raised s1
  | .stop _ s1 => .stop w s1
  | .go b s1 =>
    let w1 := w.addBit lo k b
    if b && !w.sig.getD lo false then
      match takeBit s1 with
      | .raised s2 => .raised s2
      | .stop _ s2 => .stop (w1.mark lo) s2
      | .go sg s2 => .go ((w1.mark lo).setSign lo sg) s2
    else .go w1 s1

/-- `dec_group(lo, 4^depth, k)` (44_bitplane_coder R147, R143). -/
def decGroup (k : Nat) : Nat → Nat → Work → State → Flow Work
  | 0, lo, w, s => decLeaf k lo w s
  | depth + 1, lo, w, s =>
    match takeBit s with
    | .raised s1 => .raised s1
    | .stop _ s1 => .stop w s1
    | .go t s1 =>
      if t then
        (((decGroup k depth lo w s1).andThen (decGroup k depth (lo + 4 ^ depth))).andThen
          (decGroup k depth (lo + 2 * 4 ^ depth))).andThen (decGroup k depth (lo + 3 * 4 ^ depth))
      else .go w s1

/-- The planes of a list decoded in order (44_bitplane_coder R147). -/
def decPlanes (d : Nat) : List Nat → Work → State → Flow Work
  | [], w, s => .go w s
  | k :: ks, w, s => (decGroup k d 0 w s).andThen (decPlanes d ks)

/-- The work values at the start of a decode: all zero (44_bitplane_coder R142, R147). -/
def Work.zero (n : Nat) : Work where
  mag := List.replicate n 0
  sgn := List.replicate n false
  sig := List.replicate n false

/-- The coefficients of the work values (44_bitplane_coder R141, R152). -/
def Work.coeffs (w : Work) (N n : Nat) : List (BitVec N) :=
  tab n fun j => coefOf N (w.mag.getD j 0) (w.sgn.getD j false)

/-- `decode_planes()` and `COEF <- result`, the latter only when no fault ended the traversal (44_bitplane_coder
R147, R152). -/
def decodePlanes (s : State) : Run Unit :=
  (decPlanes s.dim (planeList s.width s.planes) (.zero s.size) s).toRun.bind fun w s' =>
    .ok () (s'.putCoeffs (w.coeffs s.width s.size))

/-- `ENCPL` (44_bitplane_coder R151). -/
def execEncpl (s : State) : Host.Outcome State Fault Refusal :=
  (if s.fifo.dir ≠ .wr then .raised (s.raise .dirErr 0) else encodePlanes s).toOutcome

/-- `DECPL` (44_bitplane_coder R152). -/
def execDecpl (s : State) : Host.Outcome State Fault Refusal :=
  (if s.fifo.dir ≠ .rd then .raised (s.raise .dirErr 0) else decodePlanes s).toOutcome

end Sys2Proof.Machine
end

