-- ==== Sys2Proof/Machine/Scaler.lean ====
section
/-! DEFINITION. The exponent_scaler commands EXPB, FSCALE, ISCALE, PREC (43_exponent_scaler). The functions of
one sample take the scalar type `t`, which is F32 or F64 wherever a command calls them (R120). -/

namespace Sys2Proof.Machine

/-- `sign(b) = b[N-1]` (43_exponent_scaler R121). -/
def signBit {N : Nat} (b : BitVec N) : Bool := b.getLsbD (N - 1)

/-- `ef(b) = b[N-2:FBITS]` (43_exponent_scaler R121). -/
def expField (t : ScalarType) {N : Nat} (b : BitVec N) : Nat := b.toNat / 2 ^ t.fbits % 2 ^ t.ebits

/-- `frac(b) = b[FBITS-1:0]` (43_exponent_scaler R121). -/
def fracField (t : ScalarType) {N : Nat} (b : BitVec N) : Nat := b.toNat % 2 ^ t.fbits

/-- `M(b)`, the integer significand (43_exponent_scaler R121). -/
def significand (t : ScalarType) {N : Nat} (b : BitVec N) : Nat :=
  (if expField t b ≠ 0 then 2 ^ t.fbits else 0) + fracField t b

/-- `ee(b) = max(ef, 1)`, the effective exponent (43_exponent_scaler R121). -/
def effExp (t : ScalarType) {N : Nat} (b : BitVec N) : Nat := max (expField t b) 1

/-- `nonfinite(b)` (43_exponent_scaler R122). -/
def nonfinite (t : ScalarType) {N : Nat} (b : BitVec N) : Bool := expField t b = t.raw

/-- `iszero(b)` (43_exponent_scaler R122): `+0.0` or `-0.0`. -/
def isZero (t : ScalarType) {N : Nat} (b : BitVec N) : Bool := expField t b = 0 && fracField t b = 0

/-- `first_nonfinite`: the lowest index of a non-finite sample (43_exponent_scaler R122). -/
def firstNonfinite (t : ScalarType) {N : Nat} (B : List (BitVec N)) : Option Nat := B.findIdx? (nonfinite t)

/-- `block_exponent` (43_exponent_scaler R123). -/
def blockExponent (t : ScalarType) {N : Nat} : List (BitVec N) → Nat
  | [] => 0
  | b :: rest => if isZero t b then blockExponent t rest else max (effExp t b) (blockExponent t rest)

/-- The magnitude `mag` of `fscale1` before it is wrapped (43_exponent_scaler R124): `M * 2^k` for
`k = HEAD - (E - ee) >= 0`, `floor(M / 2^(-k))` for `k < 0`. -/
def scaledMag (t : ScalarType) (d : Nat) {N : Nat} (b : BitVec N) (E : Nat) : Nat :=
  if E ≤ t.head d + effExp t b then significand t b * 2 ^ (t.head d + effExp t b - E)
  else significand t b / 2 ^ (E - (t.head d + effExp t b))

/-- `fscale1(b, E)` (43_exponent_scaler R124). -/
def fscale1 (t : ScalarType) (d : Nat) {N : Nat} (b : BitVec N) (E : Nat) : BitVec N :=
  if signBit b then -BitVec.ofNat N (scaledMag t d b E) else BitVec.ofNat N (scaledMag t d b E)

/-- `floor(mag * 2^t)` of 43_exponent_scaler R125, `t = E - HEAD - 1`: the magnitude in units of the smallest
subnormal, truncated. -/
def subnormalUnits (t : ScalarType) (d mag E : Nat) : Nat :=
  if t.head d + 1 ≤ E then mag * 2 ^ (E - (t.head d + 1)) else mag / 2 ^ (t.head d + 1 - E)

/-- The fields `ef` and `fr` that `iscale1` gives a magnitude of `U` units (43_exponent_scaler R125). `U` is
already truncated, which changes neither the place of its leading one nor a further truncation. -/
def floatFields (t : ScalarType) (U : Nat) : Nat × Nat :=
  if U < 2 ^ t.fbits then (0, U)
  else if t.raw ≤ Nat.log2 U - t.fbits + 1 then (t.raw - 1, 2 ^ t.fbits - 1)
  else (Nat.log2 U - t.fbits + 1, U / 2 ^ (Nat.log2 U - t.fbits) - 2 ^ t.fbits)

/-- `iscale1(q, E)` (43_exponent_scaler R125). -/
def iscale1 (t : ScalarType) (d : Nat) {N : Nat} (q : BitVec N) (E : Nat) : BitVec N :=
  let mag := q.toInt.natAbs
  if mag = 0 then 0
  else
    let f := floatFields t (subnormalUnits t d mag E)
    BitVec.ofNat N ((if q.toInt < 0 then 2 ^ (N - 1) else 0) + f.1 * 2 ^ t.fbits + f.2)

/-- The forward direction on one sample for any `E` (43_exponent_scaler R131): 0 for `E` = 0, the pattern itself
for `E` = `RAW` (R126), scaled otherwise. -/
def scaleSample (t : ScalarType) (d : Nat) {N : Nat} (E : Nat) (b : BitVec N) : BitVec N :=
  if E = 0 then 0 else if E = t.raw then b else fscale1 t d b E

/-- The inverse direction on one value for any `E` (43_exponent_scaler R132). -/
def unscaleSample (t : ScalarType) (d : Nat) {N : Nat} (E : Nat) (q : BitVec N) : BitVec N :=
  if E = 0 then 0 else if E = t.raw then q else iscale1 t d q E

/-- `exact(BLK, E)` (43_exponent_scaler R127). -/
def exactBlock (t : ScalarType) (d : Nat) {N : Nat} (B : List (BitVec N)) (E : Nat) : Bool :=
  B.all fun b => iscale1 t d (fscale1 t d b E) E = b

/-- `kmin` of 43_exponent_scaler R128, for `1 <= E < RAW`. -/
def toleranceFloor (t : ScalarType) (d : Nat) (minExp : Int) (E : Nat) : Nat :=
  (min (max (minExp - ((E : Int) - t.bias - t.fbits - t.head d) - guardPlanes d) 0) t.width).toNat

/-- `precision(E)` (43_exponent_scaler R128) from `MAXPREC`, `sext_16(MINEXP)`, the type and `d`. -/
def precisionOf (t : ScalarType) (d maxprec : Nat) (minExp : Int) (E : Nat) : Nat :=
  if t.isFloat then
    if E = 0 then 0
    else if E = t.raw then min maxprec t.width
    else min maxprec (t.width - toleranceFloor t d minExp E)
  else min maxprec t.width

/-- `precision(E)` of the current registers (43_exponent_scaler R128). -/
def State.precision (s : State) (E : Nat) : Nat :=
  precisionOf s.ty s.dim s.cfg.maxprec.toNat s.minExp E

/-- The test `EXPB`, `FSCALE` and `ISCALE` begin with: `BADPARAM` 3 for an integer type (43_exponent_scaler R120,
60_exceptions R187). -/
def needFloat (s : State) (f : State → Run Unit) : Run Unit :=
  if s.ty.isFloat then f s else .raised (s.raise .badParam 3)

/-- The non-finite test (43_exponent_scaler R122): `NONFINITE` with the lowest index (60_exceptions R182). -/
def needFinite (s : State) (f : State → Run Unit) : Run Unit :=
  match firstNonfinite s.ty s.samples with
  | some i => .raised (s.raise .nonfinite (BitVec.ofNat 64 i))
  | none => f s

/-- `EXPF <- zext_11(block_exponent(BLK))` (43_exponent_scaler R130). -/
def State.storeExponent (s : State) : State :=
  s.setExpf (BitVec.ofNat 11 (blockExponent s.ty s.samples))

/-- `EXPB` (43_exponent_scaler R130). -/
def execExpb (s : State) : Host.Outcome State Fault Refusal :=
  (needFloat s fun s => needFinite s fun s => .ok () s.storeExponent).toOutcome

/-- `COEF` set to the samples scaled with `E` (43_exponent_scaler R131). -/
def State.scale (s : State) : State := s.putCoeffs (s.samples.map (scaleSample s.ty s.dim s.expE))

/-- `FSCALE` (43_exponent_scaler R131): the non-finite test is made unless `E` is `RAW`, also for `E` = 0
(log 17). -/
def execFscale (s : State) : Host.Outcome State Fault Refusal :=
  (needFloat s fun s =>
    if s.expE ≠ s.ty.raw then needFinite s fun s => .ok () s.scale else .ok () s.scale).toOutcome

/-- `BLK` set to the coefficients scaled back with `E` (43_exponent_scaler R132). -/
def State.unscale (s : State) : State := s.putSamples (s.coeffs.map (unscaleSample s.ty s.dim s.expE))

/-- `ISCALE` (43_exponent_scaler R132). -/
def execIscale (s : State) : Host.Outcome State Fault Refusal :=
  (needFloat s fun s => .ok () s.unscale).toOutcome

/-- `PREC` (43_exponent_scaler R133): `PRECEFF <- precision(E)`. -/
def execPrec (s : State) : Host.Outcome State Fault Refusal :=
  .next (s.setPreceff (BitVec.ofNat 7 (s.precision s.expE)))

end Sys2Proof.Machine
end

