-- ==== Sys2Proof/Machine/Line.lean ====
section
/-! DEFINITION. The line of four values the transform acts on (42_lifting_transform R100). -/

namespace Sys2Proof.Machine

/-- Four `N`-bit values: samples `a0 .. a3` of a line, or its coefficients `c0 .. c3`. -/
structure Line (N : Nat) where
  c0 : BitVec N
  c1 : BitVec N
  c2 : BitVec N
  c3 : BitVec N
  deriving DecidableEq, Repr

end Sys2Proof.Machine
end

