-- ==== Sys2Proof/Machine/Transform.lean ====
section
/-! DEFINITION. The lifting_transform_engine commands FWDXF and INVXF (42_lifting_transform). -/

namespace Sys2Proof.Machine

/-- Component `k` of a line. -/
def Line.get {N : Nat} (l : Line N) (k : Nat) : BitVec N :=
  if k = 0 then l.c0 else if k = 1 then l.c1 else if k = 2 then l.c2 else l.c3

/-- `fwd_lift` (42_lifting_transform R101): addition and subtraction wrap modulo `2^N`, `>>s` is the arithmetic
right shift (00_scope R7). -/
def fwdLift {N : Nat} (a : Line N) : Line N :=
  let d1 := a.c0 - a.c3
  let s1 := a.c3 + d1.sshiftRight 1
  let d2 := a.c1 - a.c2
  let s2 := a.c2 + d2.sshiftRight 1
  let h := s1 - s2
  let l := s2 + h.sshiftRight 1
  let v := d2 - d1.sshiftRight 1
  let u := d1 + v.sshiftRight 1
  ⟨l, u, h, v⟩

/-- `inv_lift` (42_lifting_transform R102), with `(l, u, h, v) = (c0, c1, c2, c3)`. -/
def invLift {N : Nat} (c : Line N) : Line N :=
  let d1 := c.c1 - c.c3.sshiftRight 1
  let d2 := c.c3 + d1.sshiftRight 1
  let s2 := c.c0 - c.c2.sshiftRight 1
  let s1 := c.c2 + s2
  let a2 := s2 - d2.sshiftRight 1
  let a1 := d2 + a2
  let a3 := s1 - d1.sshiftRight 1
  let a0 := d1 + a3
  ⟨a0, a1, a2, a3⟩

/-- The line along axis `a` whose member on coordinate 0 is `base` (10_state R14). -/
def lineAt {N : Nat} (T : List (BitVec N)) (a base : Nat) : Line N :=
  ⟨T.getD base 0, T.getD (base + 4 ^ a) 0, T.getD (base + 2 * 4 ^ a) 0, T.getD (base + 3 * 4 ^ a) 0⟩

/-- One pass along axis `a`: every line along the axis replaced by its image. The lines of a pass are disjoint,
so the pass is stated member by member (42_lifting_transform R104). -/
def linePass {N : Nat} (lift : Line N → Line N) (n a : Nat) (T : List (BitVec N)) : List (BitVec N) :=
  tab n fun i => (lift (lineAt T a (i - coord i a * 4 ^ a))).get (coord i a)

/-- `fwd_passes`: axes `0, 1, ..., d-1` (42_lifting_transform R104). -/
def fwdPasses {N : Nat} (n : Nat) : Nat → List (BitVec N) → List (BitVec N)
  | 0, T => T
  | d + 1, T => linePass fwdLift n d (fwdPasses n d T)

/-- The inverse passes: axes `d-1, ..., 1, 0` (42_lifting_transform R104). -/
def invPasses {N : Nat} (n : Nat) : Nat → List (BitVec N) → List (BitVec N)
  | 0, T => T
  | d + 1, T => invPasses n d (linePass invLift n d T)

/-- `PERM_1` (42_lifting_transform R105). -/
def perm1 : List Nat := [0, 1, 2, 3]

/-- `PERM_2` (42_lifting_transform R106). -/
def perm2 : List Nat := [0, 1, 4, 5, 2, 8, 6, 9, 3, 12, 10, 7, 13, 11, 14, 15]

/-- `PERM_3` (42_lifting_transform R107). -/
def perm3 : List Nat :=
  [0, 1, 4, 16, 5, 17, 20, 2, 8, 32, 21, 6, 9, 18, 24, 33] ++
  [36, 3, 12, 48, 22, 25, 37, 10, 34, 40, 7, 13, 19, 28, 49, 52] ++
  [26, 38, 41, 23, 29, 53, 11, 14, 35, 44, 50, 56, 42, 27, 30, 39] ++
  [45, 54, 57, 15, 51, 60, 43, 46, 58, 31, 55, 61, 47, 59, 62, 63]

/-- `PERM_4` (42_lifting_transform R108). -/
def perm4 : List Nat :=
  [0, 1, 4, 16, 64, 5, 17, 20, 65, 68, 80, 2, 8, 32, 128, 21] ++
  [69, 81, 84, 6, 9, 18, 24, 33, 36, 66, 72, 96, 129, 132, 144, 3] ++
  [12, 48, 192, 85, 22, 25, 37, 70, 73, 82, 88, 97, 100, 133, 145, 148] ++
  [10, 34, 40, 130, 136, 160, 7, 13, 19, 28, 49, 52, 67, 76, 112, 193] ++
  [196, 208, 86, 89, 101, 149, 26, 38, 41, 74, 98, 104, 134, 137, 146, 152] ++
  [161, 164, 23, 29, 53, 71, 77, 83, 92, 113, 116, 197, 209, 212, 11, 14] ++
  [35, 44, 50, 56, 131, 140, 176, 194, 200, 224, 90, 102, 105, 150, 153, 165] ++
  [42, 87, 93, 117, 138, 162, 168, 213, 27, 30, 39, 45, 54, 57, 75, 78] ++
  [99, 108, 114, 120, 135, 141, 147, 156, 177, 180, 198, 201, 210, 216, 225, 228] ++
  [15, 51, 60, 195, 204, 240, 106, 154, 166, 169, 91, 94, 103, 109, 118, 121] ++
  [151, 157, 181, 214, 217, 229, 43, 46, 58, 139, 142, 163, 172, 178, 184, 202] ++
  [226, 232, 31, 55, 61, 79, 115, 124, 199, 205, 211, 220, 241, 244, 170, 107] ++
  [110, 122, 155, 158, 167, 173, 182, 185, 218, 230, 233, 95, 119, 125, 215, 221] ++
  [245, 47, 59, 62, 143, 179, 188, 203, 206, 227, 236, 242, 248, 171, 174, 186] ++
  [234, 111, 123, 126, 159, 183, 189, 219, 222, 231, 237, 246, 249, 63, 207, 243] ++
  [252, 175, 187, 190, 235, 238, 250, 127, 223, 247, 253, 191, 239, 251, 254, 255]

/-- `PERM_d`, the sequency order for dimensionality `d` (42_lifting_transform R105 to R108): entry `j` is the
natural index at sequency index `j`. -/
def perm (d : Nat) : List Nat :=
  if d = 1 then perm1 else if d = 2 then perm2 else if d = 3 then perm3 else perm4

/-- The sequency index of natural index `i`: the `j` with `PERM_d[j] = i`. -/
def permIndex (d i : Nat) : Nat := (perm d).idxOf i

/-- `FWDXF` on the values of a block (42_lifting_transform R110): passes, then the sequency order. -/
def fwdTransform {N : Nat} (d : Nat) (T : List (BitVec N)) : List (BitVec N) :=
  let P := fwdPasses (4 ^ d) d T
  tab (4 ^ d) fun j => P.getD ((perm d).getD j 0) 0

/-- `INVXF` on the values of a block (42_lifting_transform R111): the sequency order undone, then the inverse
passes. -/
def invTransform {N : Nat} (d : Nat) (C : List (BitVec N)) : List (BitVec N) :=
  invPasses (4 ^ d) d (tab (4 ^ d) fun i => C.getD (permIndex d i) 0)

/-- `COEF` after the forward transform of what it holds (42_lifting_transform R110). -/
def State.forward (s : State) : State := s.putCoeffs (fwdTransform s.dim s.coeffs)

/-- `COEF` after the inverse transform of what it holds (42_lifting_transform R111). -/
def State.inverse (s : State) : State := s.putCoeffs (invTransform s.dim s.coeffs)

/-- `FWDXF` (42_lifting_transform R110). -/
def execFwdxf (s : State) : Host.Outcome State Fault Refusal := .next s.forward

/-- `INVXF` (42_lifting_transform R111). -/
def execInvxf (s : State) : Host.Outcome State Fault Refusal := .next s.inverse

end Sys2Proof.Machine
end

