-- ==== Sys2Proof/Machine/Block.lean ====
section
/-! DEFINITION. The block_codec commands PADBLK, B2C, C2B, ENCBLK and DECBLK (45_block_codec). -/

namespace Sys2Proof.Machine

/-- Every `EXTENT` field of an axis `a < d` is in 1 .. 4 (60_exceptions R187 condition 4, negated). -/
def State.extentsOk (s : State) : Bool :=
  (List.range s.dim).all fun a => 1 ≤ s.extent a && s.extent a ≤ 4

/-- One axis of `pad` (45_block_codec R161): coordinates `na .. 3` take the sample at coordinate `na - 1`. A
sample read is never one the same pass writes, so the pass is stated member by member. -/
def padAxis (N n na a : Nat) (f : RegFile) : RegFile :=
  f.writeLow n fun i =>
    if na ≤ coord i a then toContainer (fromContainer N (f.get (i - (coord i a - (na - 1)) * 4 ^ a))) else f.get i

/-- `pad` on axes `0 .. d-1`, in that order (45_block_codec R161). -/
def padAxes (N n : Nat) (ext : Nat → Nat) : Nat → RegFile → RegFile
  | 0, f => f
  | d + 1, f => padAxis N n (ext d) d (padAxes N n ext d f)

/-- `pad(BLK)` (45_block_codec R161). -/
def State.pad (s : State) : State := s.setBlk (padAxes s.width s.size s.extent s.dim s.blk)

/-- `PADBLK` (45_block_codec R172). -/
def execPadblk (s : State) : Host.Outcome State Fault Refusal :=
  if s.extentsOk then .next s.pad else .next (s.raise .badParam 4)

/-- `for i: COEF[i] <- zext_64(BLK[i][N-1:0])` (45_block_codec R173). -/
def State.blkToCoef (s : State) : State := s.putCoeffs s.samples

/-- `for i: BLK[i] <- zext_64(COEF[i][N-1:0])` (45_block_codec R174). -/
def State.coefToBlk (s : State) : State := s.putSamples s.coeffs

/-- `B2C` (45_block_codec R173). -/
def execB2c (s : State) : Host.Outcome State Fault Refusal := .next s.blkToCoef

/-- `C2B` (45_block_codec R174). -/
def execC2b (s : State) : Host.Outcome State Fault Refusal := .next s.coefToBlk

/-- The parameter check both block commands make, the number being `FINFO` (45_block_codec R163, 60_exceptions
R187): 1 for `MINBITS > MAXBITS`, 2 for a ceiling below the header of a float type. -/
def State.paramFault (s : State) : Option Nat :=
  if s.cfg.maxbits.toNat < s.cfg.minbits.toNat then some 1
  else if s.ty.isFloat && decide (s.cfg.maxbits.toNat < s.ty.ebits) then some 2
  else none

/-- The `MINBITS` floor when encoding (45_block_codec R166): while `BITS < MINBITS` one zero bit is written and
counted. The first argument bounds the loop; `MINBITS` rounds always suffice. -/
def padStream : Nat → State → Run Unit
  | 0, s => .ok () s
  | fuel + 1, s =>
    if s.bits.toNat < s.cfg.minbits.toNat then (writeCounted false s).bind fun _ s' => padStream fuel s'
    else .ok () s

/-- The `MINBITS` floor when decoding (45_block_codec R166): while `BITS < MINBITS` one bit is read and
counted. -/
def skipStream : Nat → State → Run Unit
  | 0, s => .ok () s
  | fuel + 1, s =>
    if s.bits.toNat < s.cfg.minbits.toNat then (readCounted s).bind fun _ s' => skipStream fuel s'
    else .ok () s

/-- `lossless(BLK, E)` (45_block_codec R164): exact for `E >= 1`, all patterns 0 for `E` = 0. -/
def lossless (t : ScalarType) (d : Nat) {N : Nat} (B : List (BitVec N)) (E : Nat) : Bool :=
  if E = 0 then B.all fun b => b = 0 else exactBlock t d B E

/-- Whether a block goes raw: the reversible setting and a loss in scaling (45_block_codec R164). -/
def State.goesRaw (s : State) : Bool :=
  s.minExp = -32768 && !lossless s.ty s.dim s.samples (blockExponent s.ty s.samples)

/-- `E` before the degenerate test: `RAW` for a raw block, else the block exponent (45_block_codec R175). -/
def State.chosenExponent (s : State) : Nat :=
  if s.goesRaw then s.ty.raw else blockExponent s.ty s.samples

/-- Whether a float block is coded as degenerate (45_block_codec R165). -/
def State.degenerate (s : State) : Bool :=
  s.chosenExponent = 0 || s.precision s.chosenExponent = 0

/-- The header `E` of a float block (45_block_codec R175, R165). -/
def State.headerExponent (s : State) : Nat := if s.degenerate then 0 else s.chosenExponent

/-- `PRECEFF` of a float block (45_block_codec R175, R165). -/
def State.headerPrecision (s : State) : Nat := if s.degenerate then 0 else s.precision s.chosenExponent

/-- `Q` of 45_block_codec R175: the samples scaled with the chosen exponent, or their patterns. -/
def State.fixedPoint (s : State) : List (BitVec s.width) :=
  s.samples.map (scaleSample s.ty s.dim s.chosenExponent)

/-- `COEF[0..n-1] <- 0`. -/
def State.zeroCoeffs (s : State) : State := s.putCoeffs (tab s.size fun _ => (0 : Word))

/-- The state in which the header of a float block is written: `EXPF`, `PRECEFF` and `COEF <- Q` (45_block_codec
R175). -/
def State.prepareFloat (s : State) : State :=
  ((s.setExpf (BitVec.ofNat 11 s.headerExponent)).setPreceff (BitVec.ofNat 7 s.headerPrecision)).putCoeffs
    s.fixedPoint

/-- `write_bits(E, EBITS); BITS <- BITS + EBITS` (45_block_codec R175). -/
def writeHeader (E : Nat) (s : State) : Run Unit :=
  (writeBits (BitVec.ofNat 64 E) s.ty.ebits s).bind fun _ s' =>
    .ok () (s'.setBits (s'.bits + BitVec.ofNat 32 s.ty.ebits))

/-- The float branch of `ENCBLK` after padding (45_block_codec R175). -/
def encodeFloat (s : State) : Run Unit :=
  needFinite s fun s =>
    (writeHeader s.headerExponent s.prepareFloat).bind fun _ s' =>
      if s.headerExponent = 0 then .ok () s'.zeroCoeffs else encodePlanes s'.forward

/-- The integer branch of `ENCBLK` after padding (45_block_codec R175). -/
def encodeInt (s : State) : Run Unit :=
  encodePlanes ((s.blkToCoef).setPreceff (BitVec.ofNat 7 (min s.cfg.maxprec.toNat s.width))).forward

/-- `ENCBLK` after its checks (45_block_codec R175). -/
def encodeBlock (s : State) : Run Unit :=
  let s1 := (s.setBits 0).pad
  (if s1.ty.isFloat then encodeFloat s1 else encodeInt s1).bind fun _ s2 => padStream s2.cfg.minbits.toNat s2

/-- `ENCBLK` (45_block_codec R175). -/
def execEncblk (s : State) : Host.Outcome State Fault Refusal :=
  if s.fifo.dir ≠ .wr then .next (s.raise .dirErr 0)
  else
    match s.paramFault with
    | some i => .next (s.raise .badParam (BitVec.ofNat 64 i))
    | none => if s.extentsOk then (encodeBlock s).toOutcome else .next (s.raise .badParam 4)

/-- `E = read_bits(EBITS); BITS <- BITS + EBITS` (45_block_codec R176). -/
def readHeader (s : State) : Run Word :=
  (readBits s.ty.ebits s).bind fun v s' => .ok v (s'.setBits (s'.bits + BitVec.ofNat 32 s.ty.ebits))

/-- `BLK <- 0` and `COEF <- 0`, the block of a header 0 (45_block_codec R176, R165). -/
def State.zeroBlock (s : State) : State := s.zeroCoeffs.putSamples (tab s.size fun _ => (0 : Word))

/-- The planes and the inverse transform of a block (45_block_codec R176). -/
def decodeCoeffs (s : State) : Run Unit := (decodePlanes s).bind fun _ s' => .ok () s'.inverse

/-- The float branch of `DECBLK` (45_block_codec R176). The last step scales with `E = EXPF[EBITS-1:0]`, which is
the header just stored. -/
def decodeFloat (s : State) : Run Unit :=
  (readHeader s).bind fun v s1 =>
    let E := v.toNat
    let s2 := (s1.setExpf (BitVec.ofNat 11 E)).setPreceff (BitVec.ofNat 7 (s1.precision E))
    if E = 0 then .ok () s2.zeroBlock
    else (decodeCoeffs s2).bind fun _ s3 => .ok () s3.unscale

/-- The integer branch of `DECBLK` (45_block_codec R176). -/
def decodeInt (s : State) : Run Unit :=
  (decodeCoeffs (s.setPreceff (BitVec.ofNat 7 (min s.cfg.maxprec.toNat s.width)))).bind fun _ s' =>
    .ok () s'.coefToBlk

/-- `DECBLK` after its checks (45_block_codec R176). -/
def decodeBlock (s : State) : Run Unit :=
  let s1 := s.setBits 0
  (if s1.ty.isFloat then decodeFloat s1 else decodeInt s1).bind fun _ s2 => skipStream s2.cfg.minbits.toNat s2

/-- `DECBLK` (45_block_codec R176). -/
def execDecblk (s : State) : Host.Outcome State Fault Refusal :=
  if s.fifo.dir ≠ .rd then .next (s.raise .dirErr 0)
  else
    match s.paramFault with
    | some i => .next (s.raise .badParam (BitVec.ofNat 64 i))
    | none => (decodeBlock s).toOutcome

end Sys2Proof.Machine
end

