-- ==== Sys2Proof/Machine/System.lean ====
section
/-! DEFINITION. The system commands NOP and SRST (45_block_codec R170, R171). -/

namespace Sys2Proof.Machine

/-- The registers of 10_state R38 set to their reset values, `BLK`, `COEF` and `MEM` kept (10_state R39). The
host's queue and the value of its latest read are not the hardware's and stay. -/
def State.softReset (s : State) : State :=
  { State.reset with blk := s.blk, coef := s.coef, mem := s.mem, hostq := s.hostq, rdata := s.rdata }

/-- `NOP` (45_block_codec R170): no effect. -/
def execNop (s : State) : Host.Outcome State Fault Refusal := .next s

/-- `SRST` (45_block_codec R171, 10_state R39). -/
def execSrst (s : State) : Host.Outcome State Fault Refusal := .next s.softReset

end Sys2Proof.Machine
end

