-- ==== Sys2Proof/Machine/Dispatch.lean ====
section
/-! DEFINITION. The command sequencer's dispatch: one arm per command (30_encoding R63). -/

namespace Sys2Proof.Machine

def exec (i : Instr) (s : State) : Host.Outcome State Fault Refusal :=
  match i with
  | .nop => Sys2Proof.Machine.execNop s
  | .srst => Sys2Proof.Machine.execSrst s
  | .wbits k => Sys2Proof.Machine.execWbits k s
  | .wbit => Sys2Proof.Machine.execWbit s
  | .rbits k => Sys2Proof.Machine.execRbits k s
  | .rbit => Sys2Proof.Machine.execRbit s
  | .flush => Sys2Proof.Machine.execFlush s
  | .tell => Sys2Proof.Machine.execTell s
  | .seekr => Sys2Proof.Machine.execSeekr s
  | .seekw => Sys2Proof.Machine.execSeekw s
  | .fwdxf => Sys2Proof.Machine.execFwdxf s
  | .invxf => Sys2Proof.Machine.execInvxf s
  | .expb => Sys2Proof.Machine.execExpb s
  | .fscale => Sys2Proof.Machine.execFscale s
  | .iscale => Sys2Proof.Machine.execIscale s
  | .prec => Sys2Proof.Machine.execPrec s
  | .encpl => Sys2Proof.Machine.execEncpl s
  | .decpl => Sys2Proof.Machine.execDecpl s
  | .padblk => Sys2Proof.Machine.execPadblk s
  | .b2c => Sys2Proof.Machine.execB2c s
  | .c2b => Sys2Proof.Machine.execC2b s
  | .encblk => Sys2Proof.Machine.execEncblk s
  | .decblk => Sys2Proof.Machine.execDecblk s

end Sys2Proof.Machine
end

