-- ==== Sys2Proof/Machine/RegName.lean ====
section
/-! DEFINITION. The names of the register map (10_state R34). -/

namespace Sys2Proof.Machine

/-- What stands at an aligned offset of the register space (10_state R34). -/
inductive RegName where
  | ctrl
  | minbits
  | maxbits
  | maxprec
  | minexp
  | extent
  | capw
  | arg
  | res
  | bits
  | expf
  | preceff
  | status
  | cause
  | finfo
  | cmd
  | bsptr
  | bsbuf
  | bsnb
  | blk (i : Nat)
  | coef (j : Nat)
  | unmapped
  deriving DecidableEq, Repr

end Sys2Proof.Machine
end

