-- ==== Sys2Proof/Machine/HostPort.lean ====
section
/-! DEFINITION. The host's side of the hardware: the register map, register reads and writes (10_state R28, R31,
R34, R35), host accesses to `MEM` (20_memory R40, R44), and hardware reset (70_reset_and_hazards R200). -/

namespace Sys2Proof.Machine

/-- The register map (10_state R34), for an offset that is a multiple of 8 below 0x1800. -/
def regAt (off : Nat) : RegName :=
  if off = 0x000 then .ctrl
  else if off = 0x008 then .minbits
  else if off = 0x010 then .maxbits
  else if off = 0x018 then .maxprec
  else if off = 0x020 then .minexp
  else if off = 0x028 then .extent
  else if off = 0x030 then .capw
  else if off = 0x038 then .arg
  else if off = 0x040 then .res
  else if off = 0x048 then .bits
  else if off = 0x050 then .expf
  else if off = 0x058 then .preceff
  else if off = 0x060 then .status
  else if off = 0x068 then .cause
  else if off = 0x070 then .finfo
  else if off = 0x078 then .cmd
  else if off = 0x080 then .bsptr
  else if off = 0x088 then .bsbuf
  else if off = 0x090 then .bsnb
  else if off < 0x800 then .unmapped
  else if off < 0x1000 then .blk ((off - 0x800) / 8)
  else .coef ((off - 0x1000) / 8)

/-- An access the register space defines: an aligned 64-bit access inside 0x0000 .. 0x17FF (10_state R34). -/
def regAccessOk (off bytes : Nat) : Bool := bytes = 8 && off % 8 = 0 && off < 0x1800

/-- The value of the register `EXTENT`: `N0` in 2:0, `N1` in 6:4, `N2` in 10:8, `N3` in 14:12 (10_state R21). -/
def Cfg.extentWord (c : Cfg) : Word :=
  BitVec.ofNat 64 (c.n0.toNat + 2 ^ 4 * c.n1.toNat + 2 ^ 8 * c.n2.toNat + 2 ^ 12 * c.n3.toNat)

/-- The value a host read returns (10_state R34): used bits, zero-extended; `CMD` and unmapped offsets read
zero. -/
def State.readReg (s : State) : RegName → Word
  | .ctrl => s.cfg.ctrl.setWidth 64
  | .minbits => s.cfg.minbits.setWidth 64
  | .maxbits => s.cfg.maxbits.setWidth 64
  | .maxprec => s.cfg.maxprec.setWidth 64
  | .minexp => s.cfg.minexp.setWidth 64
  | .extent => s.cfg.extentWord
  | .capw => s.cfg.capw.setWidth 64
  | .arg => s.cfg.arg
  | .res => s.res
  | .bits => s.bits.setWidth 64
  | .expf => s.expf.setWidth 64
  | .preceff => s.preceff.setWidth 64
  | .status => s.status
  | .cause => s.flt.cause.setWidth 64
  | .finfo => s.flt.finfo
  | .cmd => 0
  | .bsptr => s.fifo.ptr.setWidth 64
  | .bsbuf => s.fifo.buf
  | .bsnb => s.fifo.nb.setWidth 64
  | .blk i => s.blk.get i
  | .coef j => s.coef.get j
  | .unmapped => 0

/-- Executing the command word `c` (30_encoding R61): the command it decodes to, or `ILLEGAL` with the word. -/
def runCommand (c : CmdWord) (s : State) : Host.Outcome State Fault Refusal :=
  match decodeWord c with
  | .ok i => exec i s
  | .error _ => .next (s.raise .illegal (c.setWidth 64))

/-- A host write of `v` (10_state R35): each writable field takes its bits of `v`, all others are discarded;
read-only registers and unmapped offsets ignore the write; `STATUS` clears flags (R28); `CMD` executes `v[31:0]`
(R31). -/
def writeReg (r : RegName) (v : Word) (s : State) : Host.Outcome State Fault Refusal :=
  match r with
  | .ctrl => .next (s.setCfg { s.cfg with ctrl := v.setWidth 4 })
  | .minbits => .next (s.setCfg { s.cfg with minbits := v.setWidth 16 })
  | .maxbits => .next (s.setCfg { s.cfg with maxbits := v.setWidth 16 })
  | .maxprec => .next (s.setCfg { s.cfg with maxprec := v.setWidth 7 })
  | .minexp => .next (s.setCfg { s.cfg with minexp := v.setWidth 16 })
  | .extent =>
    .next (s.setCfg { s.cfg with
      n0 := v.extractLsb' 0 3, n1 := v.extractLsb' 4 3, n2 := v.extractLsb' 8 3, n3 := v.extractLsb' 12 3 })
  | .capw => .next (s.setCfg { s.cfg with capw := v.setWidth 32 })
  | .arg => .next (s.setCfg { s.cfg with arg := v })
  | .bits => .next (s.setBits (v.setWidth 32))
  | .expf => .next (s.setExpf (v.setWidth 11))
  | .preceff => .next (s.setPreceff (v.setWidth 7))
  | .status => .next (s.clearFlags v)
  | .cmd => runCommand (v.setWidth 32) s
  | .blk i => .next (s.setBlk (s.blk.set i v))
  | .coef j => .next (s.setCoef (s.coef.set j v))
  | .res | .cause | .finfo | .bsptr | .bsbuf | .bsnb | .unmapped => .next s

/-- The widths of a host access to `MEM`: a byte, 16, 32 or 64 bits (20_memory R44). -/
def memWidthOk (bytes : Nat) : Bool := bytes = 1 || bytes = 2 || bytes = 4 || bytes = 8

/-- An access that lies inside `MEM` (20_memory R40). -/
def memInside (addr bytes : Nat) : Bool := addr + bytes ≤ 8 * Config.memWords

/-- Hardware reset (70_reset_and_hazards R200, R201, 10_state R38): every register takes its reset value; `MEM` is
the host's and stays. Log 8. -/
def State.hardReset (s : State) : State :=
  { State.reset with mem := s.mem, hostq := s.hostq, rdata := s.rdata }

/-- One host access performed (00_scope R9). A read leaves its value in `rdata`. -/
def performAccess (a : HostAccess) (s : State) : Host.Outcome State Fault Refusal :=
  match a with
  | .regRead off bytes =>
    if regAccessOk off bytes then .next (s.setRdata (s.readReg (regAt off))) else .refused .hostAccess
  | .regWrite off bytes v =>
    if regAccessOk off bytes then writeReg (regAt off) v s else .refused .hostAccess
  | .memRead addr bytes =>
    if !memWidthOk bytes then .refused .hostAccess
    else if memInside addr bytes then .next (s.setRdata (BitVec.ofNat 64 (s.mem.readBytes addr bytes)))
    else .fault .noSuchMemory
  | .memWrite addr bytes v =>
    if !memWidthOk bytes then .refused .hostAccess
    else if memInside addr bytes then .next (s.setMem (s.mem.writeBytes addr bytes v.toNat))
    else .fault .noSuchMemory
  | .reset => .next s.hardReset

/-- One step: the oldest pending host access is taken from the queue and performed; with none pending the
hardware is idle and keeps all state (60_exceptions R195). Log 1. -/
def nextAccess (s : State) : Host.Outcome State Fault Refusal :=
  match s.hostq with
  | [] => .next s
  | a :: rest => performAccess a (s.setHostq rest)

/-- The host access that issues the command word `c`: a 64-bit write to `CMD` (10_state R31, 30_encoding R60). -/
def issueCommand (c : CmdWord) : HostAccess := .regWrite 0x078 8 (c.setWidth 64)

end Sys2Proof.Machine
end

