-- ==== Sys2Proof/Machine/Step.lean ====
section
/-! DEFINITION. One step of the machine, and where a command stands to be executed next. -/

namespace Sys2Proof.Machine

/-- One step: one host access, among them the writes to `CMD` that execute commands (00_scope R9). There is no
program counter and no fetch (10_state R12); how commands come to run is log 1. -/
def step (s : State) : Host.Outcome State Fault Refusal := nextAccess s

/-- `s` with the command whose bits are `w`, of which `nbits` are given, as the host's next access: a write of the
command word to `CMD`. -/
def State.withFetchWord (s : State) (nbits w : Nat) : State :=
  s.setHostq (issueCommand (BitVec.ofNat 32 (w % 2 ^ nbits)) :: s.hostq)

end Sys2Proof.Machine
end

