-- ==== Sys2Proof/Safety.lean ====
section
/-! DEFINITION. What counts as a sound state, in the terms claims use: the invariants 10_state R32 gives the
bitstream unit between commands, the canonical form of the memory, and the range of `CAUSE` (10_state R29). -/

namespace Sys2Proof.Machine

/-- `0 <= NB <= 63` and `BUF[63:NB] = 0`, in both directions (10_state R32). -/
def Fifo.bufferOk (f : Fifo) : Prop := f.nb.toNat < 64 ∧ f.buf.toNat < 2 ^ f.nb.toNat

/-- Bits held while reading came from word `PTR - 1` (10_state R32): there are none when `PTR` = 0. -/
def Fifo.readOk (f : Fifo) : Prop := f.dir = .rd → f.ptr = 0 → f.nb = 0

/-- `CAUSE` is 0 or the code of one of the five faults (10_state R29), and a flag that is set comes from a fault
that `CAUSE` has recorded since the last reset (10_state R28, R29). -/
def FaultRec.causeOk (f : FaultRec) : Prop := f.cause.toNat ≤ 5 ∧ (f.flags ≠ 0 → f.cause ≠ 0)

/-- The invariant of the machine between host accesses. -/
def State.Inv (s : State) : Prop :=
  s.fifo.bufferOk ∧ s.fifo.readOk ∧ s.mem.wf = true ∧ s.flt.causeOk

/-! ### The bit stream, as claims speak of it -/

/-- Stream bit `p` of a memory: bit `p mod 64` of word `p div 64` (20_memory R42). -/
def Mem.streamBit (m : Mem) (p : Nat) : Bool := (m.readWord (p / 64)).getLsbD (p % 64)

/-- Stream bit `p` as a writer has left it: stored in `MEM` below word `PTR`, pending in `BUF` from there on
(10_state R32, 20_memory R51). -/
def State.writtenBit (s : State) (p : Nat) : Bool :=
  if p < 64 * s.fifo.ptr.toNat then s.mem.streamBit p else s.fifo.buf.getLsbD (p - 64 * s.fifo.ptr.toNat)

/-- The `j`-th bit a reader will deliver next, counted from `POS`: first the bits held in `BUF`, then those of
word `PTR` and up (10_state R32, 20_memory R52). -/
def State.nextBit (s : State) (j : Nat) : Bool :=
  if j < s.fifo.nb.toNat then s.fifo.buf.getLsbD j
  else s.mem.streamBit (64 * s.fifo.ptr.toNat + (j - s.fifo.nb.toNat))

end Sys2Proof.Machine
end

