-- ==== Sys2Proof/Certificates/Slice0/Obligations.lean ====
section
/-! DEFINITION. The statements for the provers, from the spec's numbered rules, and the vocabulary they are
written in (namespace Sys2Proof.Claims). -/

namespace Sys2Proof.Claims

open Sys2Proof Sys2Proof.Machine

/-! ### Command words -/

/-- The 23 opcodes of 30_encoding R63. -/
def opcodes : List (BitVec 8) :=
  [0x00, 0x01, 0x10, 0x11, 0x12, 0x13, 0x14, 0x15, 0x16, 0x17, 0x20, 0x21] ++
  [0x30, 0x31, 0x32, 0x33, 0x40, 0x41, 0x50, 0x51, 0x52, 0x53, 0x54]

/-- The four tests of 30_encoding R61: `c` fails one of them. -/
def failsATest (c : CmdWord) : Prop :=
  c.extractLsb' 7 17 ≠ 0 ∨ c.extractLsb' 24 8 ∉ opcodes ∨
  (c.extractLsb' 24 8 ≠ 0x10 ∧ c.extractLsb' 24 8 ≠ 0x12 ∧ c.extractLsb' 0 7 ≠ 0) ∨
  ((c.extractLsb' 24 8 = 0x10 ∨ c.extractLsb' 24 8 = 0x12) ∧ 64 < (c.extractLsb' 0 7).toNat)

/-! ### Registers -/

/-- The bits a host write stores, per offset (10_state R34, the column "Used bits" of the rows that are RW). -/
def storedBits (off : Nat) : Word :=
  if off = 0x000 then 0xF
  else if off = 0x008 then 0xFFFF
  else if off = 0x010 then 0xFFFF
  else if off = 0x018 then 0x7F
  else if off = 0x020 then 0xFFFF
  else if off = 0x028 then 0x7777
  else if off = 0x030 then 0xFFFFFFFF
  else if off = 0x038 then 0xFFFFFFFFFFFFFFFF
  else if off = 0x048 then 0xFFFFFFFF
  else if off = 0x050 then 0x7FF
  else if off = 0x058 then 0x7F
  else if off < 0x800 then 0
  else 0xFFFFFFFFFFFFFFFF

/-- An aligned offset inside the register space (10_state R34). -/
def inSpace (off : Nat) : Prop := off % 8 = 0 ∧ off < 0x1800

/-- The values of 10_state R38's table, for every item it gives a value. -/
def resetValues (r : State) : Prop :=
  r.cfg.ctrl = 0 ∧ r.cfg.minbits = 0 ∧ r.cfg.maxbits = 65535 ∧ r.cfg.maxprec = 64 ∧ r.cfg.minexp = 0x8000 ∧
  r.readReg .extent = 0x4444 ∧ r.cfg.capw = 0 ∧ r.cfg.arg = 0 ∧ r.res = 0 ∧ r.bits = 0 ∧ r.expf = 0 ∧
  r.preceff = 0 ∧ r.readReg .status = 0x300 ∧ r.flt.flags = 0 ∧ r.flt.cause = 0 ∧ r.flt.finfo = 0 ∧
  r.fifo.dir = .wr ∧ r.fifo.ptr = 0 ∧ r.fifo.buf = 0 ∧ r.fifo.nb = 0 ∧ r.pos = 0

/-! ### Frames -/

/-- The commands that may write `BLK` (10_state R37). -/
def writesBlk : List Instr := [.padblk, .c2b, .iscale, .encblk, .decblk]

/-- The commands that may write `COEF` (10_state R37). -/
def writesCoef : List Instr := [.fwdxf, .invxf, .fscale, .decpl, .b2c, .encblk, .decblk]

/-- The write-side commands of the bitstream unit (70_reset_and_hazards R208). -/
def isWriteSide : Instr → Bool
  | .wbits _ | .wbit | .encpl | .encblk => true
  | _ => false

/-- The read-side commands of the bitstream unit (70_reset_and_hazards R208). -/
def isReadSide : Instr → Bool
  | .rbits _ | .rbit | .decpl | .decblk => true
  | _ => false

/-- The commands that may write `RES` (10_state R24, R37; `SRST` by R39). -/
def writesRes : Instr → Bool
  | .rbits _ | .rbit | .flush | .tell | .srst => true
  | _ => false

/-- The commands that may move the bitstream unit (10_state R37; `SRST` by R39). -/
def writesFifo : Instr → Bool
  | .wbits _ | .wbit | .rbits _ | .rbit | .flush | .seekr | .seekw | .encpl | .decpl | .encblk | .decblk
  | .srst => true
  | _ => false

/-- The commands that may store to `MEM` (20_memory R47). -/
def writesMem : Instr → Bool
  | .wbits _ | .wbit | .flush | .encpl | .encblk => true
  | _ => false

/-- Which fault a command can raise (60_exceptions R181; `ILLEGAL` only for a count above 64, which the decoder
has refused before). -/
def mayRaise : Instr → HwFault → Prop
  | .wbits k, f => f = .dirErr ∨ f = .capacity ∨ (f = .illegal ∧ 64 < k.toNat)
  | .rbits k, f => f = .dirErr ∨ f = .capacity ∨ (f = .illegal ∧ 64 < k.toNat)
  | .wbit, f => f = .dirErr ∨ f = .capacity
  | .rbit, f => f = .dirErr ∨ f = .capacity
  | .flush, f => f = .capacity
  | .seekr, f => f = .capacity
  | .seekw, f => f = .capacity
  | .expb, f => f = .badParam ∨ f = .nonfinite
  | .fscale, f => f = .badParam ∨ f = .nonfinite
  | .iscale, f => f = .badParam
  | .encpl, f => f = .dirErr ∨ f = .capacity
  | .decpl, f => f = .dirErr ∨ f = .capacity
  | .padblk, f => f = .badParam
  | .encblk, f => f ≠ .illegal
  | .decblk, f => f = .dirErr ∨ f = .badParam ∨ f = .capacity
  | _, _ => False

/-! ### The stream -/

/-- `t` is `s` after the bits `bs` have been written: nothing but the bitstream unit, `MEM` and `BITS` differs, the
stream has grown by `bs`, and no byte is stored outside the words from the old `PTR` up to the new one. -/
def appended (bs : List Bool) (s t : State) : Prop :=
  t = ((s.setFifo t.fifo).setMem t.mem).setBits t.bits ∧ t.fifo.dir = .wr ∧ t.fifo.bufferOk ∧
  t.pos = s.pos + bs.length ∧
  (∀ p < s.pos, t.writtenBit p = s.writtenBit p) ∧
  (∀ j < bs.length, t.writtenBit (s.pos + j) = bs.getD j false) ∧
  s.fifo.ptr.toNat ≤ t.fifo.ptr.toNat ∧
  (∀ a, a / 8 < s.fifo.ptr.toNat ∨ t.fifo.ptr.toNat ≤ a / 8 → t.mem.readByte a = s.mem.readByte a)

/-- `t` is `s` after `k` bits have been read: nothing but the bitstream unit and `BITS` differs, and the reader
stands `k` bits further in the same stream. -/
def advanced (k : Nat) (s t : State) : Prop :=
  t = (s.setFifo t.fifo).setBits t.bits ∧ t.fifo.dir = .rd ∧ t.fifo.bufferOk ∧ t.fifo.readOk ∧
  t.pos = s.pos + k ∧ ∀ j, t.nextBit j = s.nextBit (k + j)

/-- A writer ready for `k` more bits: direction WR, a sound buffer, and room (41_bitstream_fifo R80, R81). -/
def readyToWrite (s : State) (k : Nat) : Prop :=
  s.fifo.dir = .wr ∧ s.fifo.bufferOk ∧ s.pos + k ≤ s.capBits

/-- A reader ready for `k` more bits: direction RD, a sound buffer, and bits left (41_bitstream_fifo R80, R82). -/
def readyToRead (s : State) (k : Nat) : Prop :=
  s.fifo.dir = .rd ∧ s.fifo.bufferOk ∧ s.fifo.readOk ∧ s.pos + k ≤ s.capBits

/-- `ARG` set by the host (10_state R23). -/
def withArg (s : State) (v : Word) : State := s.setCfg { s.cfg with arg := v }

/-- The low `k` bits of a word, first bit of the stream first (20_memory R43). -/
def fieldBits (v : Word) (k : Nat) : List Bool := (List.range k).map fun j => v.getLsbD j

/-- `SET ARG, v; WBITS k` for each pair in turn; none if a command does not answer a next state or records a
fault. -/
def writeAll : List (Word × BitVec 7) → State → Option State
  | [], s => some s
  | (v, k) :: rest, s =>
    match exec (.wbits k) (withArg s v) with
    | .next t => if t.flt = s.flt then writeAll rest t else none
    | _ => none

/-- `RBITS k` for each count in turn, with the values left in `RES`; none if a command does not answer a next
state or records a fault. -/
def readAll : List (BitVec 7) → State → Option (List Word)
  | [], _ => some []
  | k :: rest, s =>
    match exec (.rbits k) s with
    | .next t => if t.flt = s.flt then (readAll rest t).map (t.res :: ·) else none
    | _ => none

/-- The number whose bits, low bit first, are the members of a list. -/
def bitsValue (bs : List Bool) : Nat := bs.foldr (fun b n => b.toNat + 2 * n) 0

/-- The values of the next fields of the given widths of a bit sequence. -/
def regrouped : List (BitVec 7) → List Bool → List Word
  | [], _ => []
  | k :: ks, bs => BitVec.ofNat 64 (bitsValue (bs.take k.toNat)) :: regrouped ks (bs.drop k.toNat)

/-! ### The transform -/

/-- The eight lines of `fwd_lift` (42_lifting_transform R101) relate the samples of a line to its coefficients. -/
def fwdLine {N : Nat} (a0 a1 a2 a3 c0 c1 c2 c3 : BitVec N) : Prop :=
  ∃ d1 s1 d2 s2 h l v u : BitVec N,
    d1 = a0 - a3 ∧ s1 = a3 + d1.sshiftRight 1 ∧ d2 = a1 - a2 ∧ s2 = a2 + d2.sshiftRight 1 ∧
    h = s1 - s2 ∧ l = s2 + h.sshiftRight 1 ∧ v = d2 - d1.sshiftRight 1 ∧ u = d1 + v.sshiftRight 1 ∧
    c0 = l ∧ c1 = u ∧ c2 = h ∧ c3 = v

/-- The eight lines of `inv_lift` (42_lifting_transform R102) relate the coefficients of a line to its samples. -/
def invLine {N : Nat} (l u h v a0 a1 a2 a3 : BitVec N) : Prop :=
  ∃ d1 d2 s2 s1 : BitVec N,
    d1 = u - v.sshiftRight 1 ∧ d2 = v + d1.sshiftRight 1 ∧ s2 = l - h.sshiftRight 1 ∧ s1 = h + s2 ∧
    a2 = s2 - d2.sshiftRight 1 ∧ a1 = d2 + a2 ∧ a3 = s1 - d1.sshiftRight 1 ∧ a0 = d1 + a3

/-- The sort key of 42_lifting_transform R109: total sequency, sum of squares, natural index. -/
def sequencyKey (i : Nat) : Nat × Nat × Nat :=
  (coord i 0 + coord i 1 + coord i 2 + coord i 3,
   coord i 0 ^ 2 + coord i 1 ^ 2 + coord i 2 ^ 2 + coord i 3 ^ 2, i)

/-- Lexicographic order of the keys. -/
def keyLt (x y : Nat × Nat × Nat) : Bool :=
  x.1 < y.1 || (x.1 = y.1 && (x.2.1 < y.2.1 || (x.2.1 = y.2.1 && x.2.2 < y.2.2)))

/-- Sample `i` of the block in `BLK` (10_state R13). -/
def sample (s : State) (i : Nat) : BitVec s.width := fromContainer s.width (s.blk.get i)

/-- Coefficient `j` of the block in `COEF` (10_state R13). -/
def coefficient (s : State) (j : Nat) : BitVec s.width := fromContainer s.width (s.coef.get j)

/-! ### The bit planes -/

/-- The bits of the coefficient of magnitude `mag` and sign `sgn` at plane `k`: its bit there, and right after its
first 1 bit (no plane above `k` holds one) its sign (44_bitplane_coder R146, R147: the branch `s = 1`). -/
def leafBits (mag : Nat) (sgn : Bool) (k : Nat) : List Bool :=
  if mag.testBit k then (if mag / 2 ^ (k + 1) = 0 then [true, sgn] else [true]) else [false]

/-- `bs` is what `enc_group(lo, s, k)` with `s = 4^depth` emits (44_bitplane_coder R146): a leaf its bits; a group 0
when no coefficient of it has a 1 bit at or above plane `k`, else 1 and then its subgroups at `lo + q*s/4`, `q` = 0,
1, 2, 3 in this order. -/
def groupEmits (mag : Nat → Nat) (sgn : Nat → Bool) (k : Nat) : Nat → Nat → List Bool → Prop
  | 0, lo, bs => bs = leafBits (mag lo) (sgn lo) k
  | depth + 1, lo, bs =>
    ((∀ i, lo ≤ i → i < lo + 4 ^ (depth + 1) → mag i / 2 ^ k = 0) ∧ bs = [false]) ∨
    ((∃ i, lo ≤ i ∧ i < lo + 4 ^ (depth + 1) ∧ mag i / 2 ^ k ≠ 0) ∧
      ∃ sub : Nat → List Bool, (∀ q < 4, groupEmits mag sgn k depth (lo + q * 4 ^ (depth + 1) / 4) (sub q)) ∧
        bs = true :: (sub 0 ++ sub 1 ++ sub 2 ++ sub 3))

/-- `bs` is what `dec_group(lo, s, k)` with `s = 4^depth` takes when it leaves the magnitudes `mag` and signs `sgn`
(44_bitplane_coder R147): a leaf its bits; a group 0, and then no coefficient of it has a 1 bit at plane `k`, or 1 and
then its subgroups at `lo + q*s/4`, `q` = 0, 1, 2, 3 in this order. -/
def groupTakes (mag : Nat → Nat) (sgn : Nat → Bool) (k : Nat) : Nat → Nat → List Bool → Prop
  | 0, lo, bs => bs = leafBits (mag lo) (sgn lo) k
  | depth + 1, lo, bs =>
    ((∀ i, lo ≤ i → i < lo + 4 ^ (depth + 1) → (mag i).testBit k = false) ∧ bs = [false]) ∨
    ∃ sub : Nat → List Bool, (∀ q < 4, groupTakes mag sgn k depth (lo + q * 4 ^ (depth + 1) / 4) (sub q)) ∧
      bs = true :: (sub 0 ++ sub 1 ++ sub 2 ++ sub 3)

/-- `bs` is, one after another, what the root group has at the planes `k` = `N-1` down to `N-prec` (44_bitplane_coder
R145 to R147). -/
def planeByPlane (N prec : Nat) (root : Nat → List Bool → Prop) (bs : List Bool) : Prop :=
  ∃ plane : Nat → List Bool, (∀ k < N, N ≤ k + prec → root k (plane k)) ∧
    bs = (List.range prec).flatMap fun p => plane (N - 1 - p)

/-- `bs` is what `encode_planes()` emits, when nothing stops it, for the coefficients `C` in sequency order, with
`MAG` and `SGN` of 44_bitplane_coder R141 (R146). -/
def encodes {N : Nat} (d prec : Nat) (C : Nat → BitVec N) (bs : List Bool) : Prop :=
  planeByPlane N prec
    (fun k => groupEmits (fun j => (C j).toInt.natAbs) (fun j => decide ((C j).toInt < 0)) k d 0) bs

/-- `decode_planes()` of `prec` planes, in state `s` behind the next `off` bits, with `MAXBITS` allowing `budget` bits
more, leaves the magnitudes `mag` and the signs `sgn` (44_bitplane_coder R147): they are those of a traversal that
takes the bits `bs`, which are the next bits of the stream up to the budget and, for the bits never received, 0. So a
cut leaves missing magnitude bits 0 and a missing sign positive (R148), and no plane not coded has a 1 bit. -/
def decodes (s : State) (off prec budget : Nat) (mag : Nat → Nat) (sgn : Nat → Bool) (bs : List Bool) : Prop :=
  planeByPlane s.width prec (fun k => groupTakes mag sgn k s.dim 0) bs ∧
  (∀ i < bs.length, bs.getD i false = (decide (i < budget) && s.nextBit (off + i))) ∧
  ∀ j < s.size, mag j < 2 ^ s.width ∧ mag j % 2 ^ (s.width - prec) = 0

/-- `zext_64(wrap_N(SGN ? -MAG : MAG))` (44_bitplane_coder R141, R152). -/
def signed (N mag : Nat) (sgn : Bool) : Word :=
  (BitVec.ofInt N (if sgn then -(mag : Int) else mag)).setWidth 64

/-- A magnitude without its bits below plane `p`: truncation toward zero (44_bitplane_coder R147). -/
def truncated (p mag : Nat) : Nat := mag / 2 ^ p * 2 ^ p

/-! ### Fault records -/

/-- The `STATUS` flag bit of each fault (60_exceptions R180); its `CAUSE` code is one more. -/
def flagBit : HwFault → Nat
  | .capacity => 0
  | .nonfinite => 1
  | .badParam => 2
  | .illegal => 3
  | .dirErr => 4

/-- The fault record `f` after a command that records nothing, or one fault with its information. -/
def recorded (s : State) (o : Option (HwFault × Word)) (f : FaultRec) : FaultRec :=
  match o with
  | none => f
  | some (fault, info) => ((s.setFlt f).raise fault info).flt

/-! ### Blocks -/

/-- The natural index of the sample that padding copies to index `i`: each coordinate of an axis `a < d` cut to
`na - 1` (45_block_codec R161). -/
def padSource (s : State) (i : Nat) : Nat :=
  ((List.range s.dim).map fun a => min (coord i a) (s.extent a - 1) * 4 ^ a).sum

/-- No check of the block commands fails for `ENCBLK` (45_block_codec R163). -/
def encChecksPass (s : State) : Prop :=
  s.cfg.minbits.toNat ≤ s.cfg.maxbits.toNat ∧
  (s.ty.isFloat = true → s.ty.ebits ≤ s.cfg.maxbits.toNat) ∧
  ∀ a < s.dim, 1 ≤ s.extent a ∧ s.extent a ≤ 4

/-- No check of the block commands fails for `DECBLK` (45_block_codec R163). -/
def decChecksPass (s : State) : Prop :=
  s.cfg.minbits.toNat ≤ s.cfg.maxbits.toNat ∧
  (s.ty.isFloat = true → s.ty.ebits ≤ s.cfg.maxbits.toNat)

/-- The most bits the planes of one block cost: `worst(N, d) = N * ((n-1)/3 + n) + n` (44_bitplane_coder R150). -/
def worst (N d : Nat) : Nat := N * ((4 ^ d - 1) / 3 + 4 ^ d) + 4 ^ d

/-- Every sample of the block is finite, or the type is an integer type (43_exponent_scaler R122). -/
def finiteBlock (s : State) : Prop :=
  s.ty.isFloat = true → ∀ i < s.size, nonfinite s.ty (sample s i) = false

/-- `E` of the block a state holds (padded) before the degenerate test: the block exponent, or `RAW` when the
reversible setting loses something (45_block_codec R175, R164). -/
def scalingExponent (s : State) : Nat :=
  let E := blockExponent s.ty s.samples
  if s.minExp = -32768 ∧ lossless s.ty s.dim s.samples E = false then s.ty.raw else E

/-- The header `E` and the plane count of the block a state holds (padded): both 0 for a degenerate block
(45_block_codec R165, R175). -/
def headerOf (s : State) : Nat × Nat :=
  let E := scalingExponent s
  let prec := precisionOf s.ty s.dim s.cfg.maxprec.toNat s.minExp E
  if E = 0 ∨ prec = 0 then (0, 0) else (E, prec)

/-- `Q` of 45_block_codec R175, in natural order: 0 for `E` = 0, the patterns for `RAW`, else the samples scaled. -/
def fixedSamples (s : State) : List (BitVec s.width) :=
  let E := scalingExponent s
  s.samples.map fun b => if E = 0 then 0 else if E = s.ty.raw then b else fscale1 s.ty s.dim b E

/-- The coefficients `ENCBLK` codes: the transformed samples of an integer block; those of `Q` of a float block; none
for a degenerate block (45_block_codec R175). -/
def codedCoeffs (s : State) : List (BitVec s.width) :=
  if s.ty.isFloat then
    if (headerOf s).1 = 0 then [] else fwdTransform s.dim (fixedSamples s)
  else fwdTransform s.dim s.samples

/-- The planes `ENCBLK` codes (45_block_codec R175). -/
def codedPlanes (s : State) : Nat :=
  if s.ty.isFloat then (headerOf s).2 else min s.cfg.maxprec.toNat s.width

/-- The header of a block in the stream: `EBITS` bits, least significant first, for float types (45_block_codec
R162). -/
def headerBits (s : State) : List Bool :=
  if s.ty.isFloat then fieldBits (BitVec.ofNat 64 (headerOf s).1) s.ty.ebits else []

/-- The planes of a block in the stream, cut by `MAXBITS` (45_block_codec R162). -/
def bodyBits (s : State) : List Bool :=
  if s.ty.isFloat ∧ (headerOf s).1 = 0 then []
  else (planeBits s.dim (codedPlanes s) (codedCoeffs s)).take (s.cfg.maxbits.toNat - (headerBits s).length)

/-- The stream of one block: header, planes, zero bits up to `MINBITS` (45_block_codec R162). -/
def blockBits (s : State) : List Bool :=
  let b := headerBits s ++ bodyBits s
  b ++ List.replicate (s.cfg.minbits.toNat - b.length) false

end Sys2Proof.Claims

open Sys2Proof Sys2Proof.Machine Sys2Proof.Claims

/-! ### Encoding -/

/-- 30_encoding R63: the words of the 23 commands decode to them (WBITS and RBITS at every count). -/
def Obligations.CommandWordsOfTheTable : Prop :=
  decodeWord 0x00000000 = .ok .nop ∧ decodeWord 0x01000000 = .ok .srst ∧
  decodeWord 0x11000000 = .ok .wbit ∧ decodeWord 0x13000000 = .ok .rbit ∧
  decodeWord 0x14000000 = .ok .flush ∧ decodeWord 0x15000000 = .ok .tell ∧
  decodeWord 0x16000000 = .ok .seekr ∧ decodeWord 0x17000000 = .ok .seekw ∧
  decodeWord 0x20000000 = .ok .fwdxf ∧ decodeWord 0x21000000 = .ok .invxf ∧
  decodeWord 0x30000000 = .ok .expb ∧ decodeWord 0x31000000 = .ok .fscale ∧
  decodeWord 0x32000000 = .ok .iscale ∧ decodeWord 0x33000000 = .ok .prec ∧
  decodeWord 0x40000000 = .ok .encpl ∧ decodeWord 0x41000000 = .ok .decpl ∧
  decodeWord 0x50000000 = .ok .padblk ∧ decodeWord 0x51000000 = .ok .b2c ∧
  decodeWord 0x52000000 = .ok .c2b ∧ decodeWord 0x53000000 = .ok .encblk ∧
  decodeWord 0x54000000 = .ok .decblk ∧
  (∀ k : Nat, k ≤ 64 → decodeWord (BitVec.ofNat 32 (0x10000000 + k)) = .ok (.wbits (BitVec.ofNat 7 k))) ∧
  (∀ k : Nat, k ≤ 64 → decodeWord (BitVec.ofNat 32 (0x12000000 + k)) = .ok (.rbits (BitVec.ofNat 7 k)))

/-- 30_encoding R60 to R63: decoding the word of a well-formed command gives the command back. -/
def Obligations.DecodeOfEncodeIsTheCommand : Prop :=
  ∀ i : Instr, i.wellFormed = true → decodeWord (encode i) = .ok i

/-- 30_encoding R60, R61: a word that decodes is the word of its command, which is well formed; so each legal word
has one meaning and no bit of it is dropped. -/
def Obligations.EncodeOfDecodeIsTheWord : Prop :=
  ∀ (c : CmdWord) (i : Instr), decodeWord c = .ok i → encode i = c ∧ i.wellFormed = true

/-- 30_encoding R61: a word that fails one of the four tests raises `ILLEGAL` with `FINFO` the word, zero-extended,
and does nothing else; every other word is executed as one command, that of its opcode and `IMM7`, the same one in
every state. -/
def Obligations.IllegalWordsAreThoseOfTheFourTests : Prop :=
  ∀ c : CmdWord,
    (failsATest c → ∀ s, runCommand c s = .next (s.raise .illegal (c.setWidth 64))) ∧
    (¬ failsATest c → ∃ i : Instr, i.wellFormed = true ∧ opcodeOf i = c.extractLsb' 24 8 ∧
      immOf i = c.extractLsb' 0 7 ∧
      ∀ s, runCommand c s = exec i s)

/-! ### Steps and the host -/

/-- 10_state R31: a host write of `v` to `CMD` executes the command word `v[31:0]` in one step, `v[63:32]` ignored;
an illegal word is recorded; a read of `CMD` returns zero. The queue of accesses is the model's (log 1). -/
def Obligations.StepRunsTheDecodedCommand : Prop :=
  ∀ (s : State) (rest : List HostAccess) (v : Word),
    (s.hostq = .regWrite 0x078 8 v :: rest →
      (∀ i, decodeWord (v.setWidth 32) = .ok i → step s = exec i (s.setHostq rest)) ∧
      (∀ e, decodeWord (v.setWidth 32) = .error e →
        step s = .next ((s.setHostq rest).raise .illegal ((v.setWidth 32).setWidth 64)))) ∧
    (s.hostq = .regRead 0x078 8 :: rest → step s = .next ((s.setHostq rest).setRdata 0))

/-- 60_exceptions R195: with no host access pending the hardware is idle and keeps all state. The queue of pending
accesses is the model's (log 1). -/
def Obligations.IdleKeepsAllState : Prop := ∀ s : State, s.hostq = [] → step s = .next s

/-- 10_state R34: a host read returns the register of the map, changes nothing but the model's record of the value
read, and an access that is not an aligned 64-bit access inside the space is refused. -/
def Obligations.HostReadsFollowTheRegisterMap : Prop :=
  ∀ s : State,
    (∀ off bytes, ¬ (bytes = 8 ∧ inSpace off) →
      performAccess (.regRead off bytes) s = .refused .hostAccess ∧
      ∀ v, performAccess (.regWrite off bytes v) s = .refused .hostAccess) ∧
    (∀ off, inSpace off → performAccess (.regRead off 8) s = .next (s.setRdata (s.readReg (regAt off)))) ∧
    s.readReg (regAt 0x000) = s.cfg.ctrl.setWidth 64 ∧ s.readReg (regAt 0x008) = s.cfg.minbits.setWidth 64 ∧
    s.readReg (regAt 0x010) = s.cfg.maxbits.setWidth 64 ∧ s.readReg (regAt 0x018) = s.cfg.maxprec.setWidth 64 ∧
    s.readReg (regAt 0x020) = s.cfg.minexp.setWidth 64 ∧
    (s.readReg (regAt 0x028)).extractLsb' 0 3 = s.cfg.n0 ∧ (s.readReg (regAt 0x028)).extractLsb' 4 3 = s.cfg.n1 ∧
    (s.readReg (regAt 0x028)).extractLsb' 8 3 = s.cfg.n2 ∧ (s.readReg (regAt 0x028)).extractLsb' 12 3 = s.cfg.n3 ∧
    s.readReg (regAt 0x028) &&& ~~~0x7777#64 = 0 ∧ s.readReg (regAt 0x030) = s.cfg.capw.setWidth 64 ∧
    s.readReg (regAt 0x038) = s.cfg.arg ∧ s.readReg (regAt 0x040) = s.res ∧
    s.readReg (regAt 0x048) = s.bits.setWidth 64 ∧ s.readReg (regAt 0x050) = s.expf.setWidth 64 ∧
    s.readReg (regAt 0x058) = s.preceff.setWidth 64 ∧ s.readReg (regAt 0x068) = s.flt.cause.setWidth 64 ∧
    s.readReg (regAt 0x070) = s.flt.finfo ∧ s.readReg (regAt 0x078) = 0 ∧
    s.readReg (regAt 0x080) = s.fifo.ptr.setWidth 64 ∧ s.readReg (regAt 0x088) = s.fifo.buf ∧
    s.readReg (regAt 0x090) = s.fifo.nb.setWidth 64 ∧
    (∀ k, 0x098 ≤ 8 * k → 8 * k < 0x800 → s.readReg (regAt (8 * k)) = 0) ∧
    (∀ i, i < 256 → s.readReg (regAt (0x0800 + 8 * i)) = s.blk.get i) ∧
    (∀ j, j < 256 → s.readReg (regAt (0x1000 + 8 * j)) = s.coef.get j)

/-- 10_state R35: a host write to a register that is neither `CMD` nor `STATUS` stores exactly the writable bits of
the value, discards all others, is never rejected, and changes nothing else. -/
def Obligations.HostWritesStoreExactlyTheWritableBits : Prop :=
  ∀ (s : State) (off : Nat) (v : Word), inSpace off → off ≠ 0x060 → off ≠ 0x078 →
    ∃ t, performAccess (.regWrite off 8 v) s = .next t ∧
      t.readReg (regAt off) = (v &&& storedBits off) ||| (s.readReg (regAt off) &&& ~~~storedBits off) ∧
      (∀ off', inSpace off' → off' ≠ off → off' ≠ 0x060 → t.readReg (regAt off') = s.readReg (regAt off')) ∧
      t.flt = s.flt ∧ t.fifo = s.fifo ∧ t.mem = s.mem ∧ t.hostq = s.hostq ∧ t.rdata = s.rdata

/-- 10_state R28, R36: what `STATUS` reads as, bit by bit (flags, `POLICY`, `DIR`, zeros), and that a host write
clears exactly the flags whose bit is 1 and changes nothing else. -/
def Obligations.StatusReadsAndClears : Prop :=
  ∀ (s : State) (v : Word),
    (∀ k < 5, (s.readReg (regAt 0x060)).getLsbD k = s.flt.flags.getLsbD k) ∧
    (s.readReg (regAt 0x060)).extractLsb' 8 2 =
      (if s.cfg.minexp.toInt = -32768 then 3 else if s.cfg.minexp.toInt > -32767 then 2
        else if s.cfg.maxprec.toNat < s.width then 1 else 0 : BitVec 2) ∧
    (s.readReg (regAt 0x060)).getLsbD 16 = decide (s.fifo.dir = .rd) ∧
    (∀ k, 5 ≤ k → k ≠ 8 → k ≠ 9 → k ≠ 16 → (s.readReg (regAt 0x060)).getLsbD k = false) ∧
    ∃ t, performAccess (.regWrite 0x060 8 v) s = .next t ∧ t = s.setFlt { s.flt with flags := t.flt.flags } ∧
      ∀ k < 5, t.flt.flags.getLsbD k = (s.flt.flags.getLsbD k && !v.getLsbD k)

/-- 20_memory R44: byte `b` is eight bits of word `b div 8`; a host load of 1, 2, 4 or 8 bytes at a byte address sees,
little-endian, the bits of the 64-bit words; stream bit `p` is bit `p mod 8` of byte `p div 8`. Accesses at any byte
address are the model's reading (log 7). -/
def Obligations.HostLoadsSeeLittleEndianWords : Prop :=
  ∀ s : State,
    (∀ a bytes, (bytes = 1 ∨ bytes = 2 ∨ bytes = 4 ∨ bytes = 8) → a + bytes ≤ 8 * Config.memWords →
      ∃ x, performAccess (.memRead a bytes) s = .next (s.setRdata x) ∧
        ∀ j < 64, x.getLsbD j = (decide (j < 8 * bytes) && s.mem.streamBit (8 * a + j))) ∧
    (∀ b, s.mem.readByte b = (s.mem.readWord (b / 8)).extractLsb' (8 * (b % 8)) 8) ∧
    (∀ p, s.mem.streamBit p = (s.mem.readByte (p / 8)).getLsbD (p % 8))

/-- 20_memory R40, R44: a host store of 1, 2, 4 or 8 bytes changes exactly the bytes it names. -/
def Obligations.HostStoresChangeExactlyTheirBytes : Prop :=
  ∀ (s : State) (a bytes : Nat) (v : Word),
    (bytes = 1 ∨ bytes = 2 ∨ bytes = 4 ∨ bytes = 8) → a + bytes ≤ 8 * Config.memWords →
      ∃ t, performAccess (.memWrite a bytes v) s = .next t ∧ t = s.setMem t.mem ∧
        (∀ j < bytes, t.mem.readByte (a + j) = v.extractLsb' (8 * j) 8) ∧
        ∀ b, b < a ∨ a + bytes ≤ b → t.mem.readByte b = s.mem.readByte b

/-! ### Reset and system commands -/

/-- 10_state R38: the values hardware reset leaves, power-on or reset input. (`BLK`, `COEF` and `MEM`, unspecified
there, are left out.) -/
def Obligations.ResetLeavesTheTabledValues : Prop :=
  resetValues State.reset ∧ ∀ s : State, ∃ r, performAccess .reset s = .next r ∧ resetValues r

/-- 10_state R39, 45_block_codec R171: `SRST` sets every register to its reset value except `BLK`, `COEF` and `MEM`,
which keep their contents, and raises nothing. -/
def Obligations.SoftResetKeepsBlocksAndMemory : Prop :=
  ∀ s : State, ∃ t, exec .srst s = .next t ∧
    t.cfg = State.reset.cfg ∧ t.res = 0 ∧ t.bits = 0 ∧ t.expf = 0 ∧ t.preceff = 0 ∧
    t.flt = State.reset.flt ∧ t.fifo = State.reset.fifo ∧
    t.blk = s.blk ∧ t.coef = s.coef ∧ t.mem = s.mem ∧ t.hostq = s.hostq ∧ t.rdata = s.rdata

/-- 45_block_codec R170: `NOP` writes nothing and raises nothing; a word with opcode 0 and any other bit set is not
a `NOP` but `ILLEGAL`. -/
def Obligations.NopWritesNothing : Prop :=
  decodeWord 0x00000000 = .ok .nop ∧ (∀ s : State, exec .nop s = .next s) ∧
  ∀ (c : CmdWord) (s : State), c.extractLsb' 24 8 = 0 → c ≠ 0 →
    runCommand c s = .next (s.raise .illegal (c.setWidth 64))

/-! ### bitstream_fifo -/

/-- 41_bitstream_fifo R81, R83, R84: `WBITS k` and `WBIT`, check by check and register by register, with every word
of `MEM` the store does not name unchanged. -/
def Obligations.WriteCommandsFollowWriteBits : Prop :=
  ∀ (s : State) (k : Nat) (x : Nat) (i : Instr),
    ((∃ kk : BitVec 7, i = .wbits kk ∧ kk.toNat = k ∧ k ≤ 64 ∧ x = s.cfg.arg.toNat % 2 ^ k) ∨
      (i = .wbit ∧ k = 1 ∧ x = s.cfg.arg.toNat % 2)) →
    (s.fifo.dir ≠ .wr → exec i s = .next (s.raise .dirErr 0)) ∧
    (s.fifo.dir = .wr → s.capBits < s.pos + k → exec i s = .next (s.raise .capacity (BitVec.ofNat 64 s.pos))) ∧
    (s.fifo.dir = .wr → s.pos + k ≤ s.capBits →
      ∃ t, exec i s = .next t ∧ t = (s.setFifo t.fifo).setMem t.mem ∧ t.fifo.dir = .wr ∧
        (64 ≤ s.fifo.nb.toNat + k →
          t.fifo.ptr = s.fifo.ptr + 1 ∧
          t.fifo.buf = BitVec.ofNat 64 ((s.fifo.buf.toNat + x * 2 ^ s.fifo.nb.toNat) / 2 ^ 64) ∧
          t.fifo.nb = BitVec.ofNat 7 (s.fifo.nb.toNat + k - 64) ∧
          t.mem.readWord s.fifo.ptr.toNat = BitVec.ofNat 64 (s.fifo.buf.toNat + x * 2 ^ s.fifo.nb.toNat) ∧
          ∀ a, a / 8 ≠ s.fifo.ptr.toNat → t.mem.readByte a = s.mem.readByte a) ∧
        (s.fifo.nb.toNat + k < 64 →
          t.fifo.ptr = s.fifo.ptr ∧
          t.fifo.buf = BitVec.ofNat 64 (s.fifo.buf.toNat + x * 2 ^ s.fifo.nb.toNat) ∧
          t.fifo.nb = BitVec.ofNat 7 (s.fifo.nb.toNat + k) ∧ t.mem = s.mem))

/-- 20_memory R42, R43 and 41_bitstream_fifo R81: a successful `WBITS k` or `WBIT` appends the low bits of `ARG` to
the stream, low bit first, and touches no other stream bit and no byte outside the words it completes. -/
def Obligations.WriteCommandsAppendTheField : Prop :=
  (∀ (s : State) (k : BitVec 7), k.toNat ≤ 64 → readyToWrite s k.toNat →
    ∃ t, exec (.wbits k) s = .next t ∧ t.bits = s.bits ∧ appended (fieldBits s.cfg.arg k.toNat) s t) ∧
  (∀ s : State, readyToWrite s 1 →
    ∃ t, exec .wbit s = .next t ∧ t.bits = s.bits ∧ appended [s.cfg.arg.getLsbD 0] s t)

/-- 41_bitstream_fifo R82, R89, R90: `RBITS k` and `RBIT`, check by check and register by register; no word of `MEM`
changes. -/
def Obligations.ReadCommandsFollowReadBits : Prop :=
  ∀ (s : State) (k : Nat) (i : Instr),
    ((∃ kk : BitVec 7, i = .rbits kk ∧ kk.toNat = k ∧ k ≤ 64) ∨ (i = .rbit ∧ k = 1)) →
    (s.fifo.dir ≠ .rd → exec i s = .next (s.raise .dirErr 0)) ∧
    (s.fifo.dir = .rd → s.capBits < s.pos + k → exec i s = .next (s.raise .capacity (BitVec.ofNat 64 s.pos))) ∧
    (s.fifo.dir = .rd → s.pos + k ≤ s.capBits →
      ∃ t, exec i s = .next t ∧ t = (s.setFifo t.fifo).setRes t.res ∧ t.fifo.dir = .rd ∧
        (k ≤ s.fifo.nb.toNat →
          t.res = BitVec.ofNat 64 (s.fifo.buf.toNat % 2 ^ k) ∧
          t.fifo.buf = BitVec.ofNat 64 (s.fifo.buf.toNat / 2 ^ k) ∧
          t.fifo.nb = BitVec.ofNat 7 (s.fifo.nb.toNat - k) ∧ t.fifo.ptr = s.fifo.ptr) ∧
        (∀ need w : Nat, s.fifo.nb.toNat < k → need = k - s.fifo.nb.toNat →
          w = (s.mem.readWord s.fifo.ptr.toNat).toNat →
          t.res = BitVec.ofNat 64 (s.fifo.buf.toNat + w % 2 ^ need * 2 ^ s.fifo.nb.toNat) ∧
          t.fifo.buf = BitVec.ofNat 64 (w / 2 ^ need) ∧
          t.fifo.nb = BitVec.ofNat 7 (64 - need) ∧ t.fifo.ptr = s.fifo.ptr + 1))

/-- 20_memory R43 and 41_bitstream_fifo R82: a successful `RBITS k` or `RBIT` leaves in `RES` the next bits of the
stream, least significant first, zero-extended, and moves the reader past them. -/
def Obligations.ReadCommandsDeliverTheNextBits : Prop :=
  (∀ (s : State) (k : BitVec 7), k.toNat ≤ 64 → readyToRead s k.toNat →
    ∃ t, exec (.rbits k) s = .next t ∧ t.bits = s.bits ∧ advanced k.toNat s (t.setRes s.res) ∧
      ∀ j < 64, t.res.getLsbD j = (decide (j < k.toNat) && s.nextBit j)) ∧
  (∀ s : State, readyToRead s 1 →
    ∃ t, exec .rbit s = .next t ∧ t.bits = s.bits ∧ advanced 1 s (t.setRes s.res) ∧
      t.res = BitVec.ofNat 64 (s.nextBit 0).toNat)

/-- 41_bitstream_fifo R91: fields written one after another, then `FLUSH`, `SEEKR` to the start and reads of the
same widths give back each field; reads of any other widths give back the same bits, regrouped. -/
def Obligations.ReadsGiveBackTheFieldsWritten : Prop :=
  ∀ (s : State) (l : List (Word × BitVec 7)), (∀ e ∈ l, e.2.toNat ≤ 64) →
    readyToWrite s (l.map fun e => e.2.toNat).sum →
    ∃ t u r, writeAll l s = some t ∧ exec .flush t = .next u ∧
      exec .seekr (withArg u (BitVec.ofNat 64 s.pos)) = .next r ∧
      readAll (l.map Prod.snd) r = some (l.map fun e => BitVec.ofNat 64 (e.1.toNat % 2 ^ e.2.toNat)) ∧
      ∀ ks : List (BitVec 7), (∀ k ∈ ks, k.toNat ≤ 64) →
        (ks.map BitVec.toNat).sum ≤ (l.map fun e => e.2.toNat).sum →
        readAll ks r = some (regrouped ks (l.flatMap fun e => fieldBits e.1 e.2.toNat))

/-- 41_bitstream_fifo R85: `FLUSH` in both directions: what is stored, what `RES` counts, that the position becomes
the next multiple of 64, and the one case that faults, which changes nothing but the fault record. -/
def Obligations.FlushAlignsToTheNextWord : Prop :=
  decodeWord 0x14000000 = .ok .flush ∧ ∀ s : State,
    (s.fifo.dir = .wr → s.fifo.nb = 0 → exec .flush s = .next (s.setRes 0)) ∧
    (s.fifo.dir = .wr → s.fifo.nb ≠ 0 → s.cfg.capw.toNat ≤ s.fifo.ptr.toNat →
      exec .flush s = .next (s.raise .capacity (BitVec.ofNat 64 s.pos))) ∧
    (s.fifo.dir = .wr → s.fifo.nb ≠ 0 → s.fifo.ptr.toNat < s.cfg.capw.toNat →
      ∃ t, exec .flush s = .next t ∧ t = ((s.setFifo t.fifo).setMem t.mem).setRes t.res ∧
        t.res = BitVec.ofNat 64 (64 - s.fifo.nb.toNat) ∧ t.fifo = ⟨.wr, s.fifo.ptr + 1, 0, 0⟩ ∧
        t.mem.readWord s.fifo.ptr.toNat = s.fifo.buf ∧
        ∀ a, a / 8 ≠ s.fifo.ptr.toNat → t.mem.readByte a = s.mem.readByte a) ∧
    (s.fifo.dir = .rd →
      exec .flush s = .next ((s.setRes (BitVec.ofNat 64 s.fifo.nb.toNat)).setFifo ⟨.rd, s.fifo.ptr, 0, 0⟩)) ∧
    (∀ t, s.fifo.bufferOk → s.fifo.readOk → exec .flush s = .next t →
      (s.fifo.dir = .rd ∨ s.fifo.nb = 0 ∨ s.fifo.ptr.toNat < s.cfg.capw.toNat) →
      t.pos % 64 = 0 ∧ s.pos ≤ t.pos ∧ t.pos < s.pos + 64)

/-- 41_bitstream_fifo R86: `TELL` writes the bit position to `RES` and nothing else, in both directions. -/
def Obligations.TellReportsThePosition : Prop :=
  decodeWord 0x15000000 = .ok .tell ∧ ∀ s : State, exec .tell s = .next (s.setRes (BitVec.ofNat 64 s.pos)) ∧
    (s.setRes (BitVec.ofNat 64 s.pos)).res.toNat = s.pos

/-- 41_bitstream_fifo R87: `SEEKR` to `p = ARG`: a fault beyond the capacity that changes nothing else; otherwise
direction RD, position `p`, and the stream of `MEM` from bit `p` on; nothing else changes. -/
def Obligations.SeekrPositionsTheReader : Prop :=
  decodeWord 0x16000000 = .ok .seekr ∧ ∀ (s : State) (p : Nat), p = s.cfg.arg.toNat →
    (s.capBits < p → exec .seekr s = .next (s.raise .capacity s.cfg.arg)) ∧
    (p ≤ s.capBits →
      ∃ t, exec .seekr s = .next t ∧ t = s.setFifo t.fifo ∧ t.fifo.dir = .rd ∧ t.pos = p ∧
        (p % 64 ≠ 0 → t.fifo.ptr.toNat = p / 64 + 1 ∧ t.fifo.nb.toNat = 64 - p % 64 ∧
          t.fifo.buf.toNat = (s.mem.readWord (p / 64)).toNat / 2 ^ (p % 64)) ∧
        (p % 64 = 0 → t.fifo.ptr.toNat = p / 64 ∧ t.fifo.nb = 0 ∧ t.fifo.buf = 0) ∧
        ∀ j, t.nextBit j = s.mem.streamBit (p + j))

/-- 41_bitstream_fifo R88: `SEEKW` to `p = ARG`: a fault beyond the capacity that changes nothing else; otherwise
direction WR and position `p`, by the roll-back inside `BUF` or by a reload from `MEM`; `MEM` is not written. -/
def Obligations.SeekwPositionsTheWriter : Prop :=
  decodeWord 0x17000000 = .ok .seekw ∧ ∀ (s : State) (p : Nat), p = s.cfg.arg.toNat →
    (s.capBits < p → exec .seekw s = .next (s.raise .capacity s.cfg.arg)) ∧
    (p ≤ s.capBits →
      ∃ t, exec .seekw s = .next t ∧ t = s.setFifo t.fifo ∧ t.fifo.dir = .wr ∧ t.pos = p ∧
        t.fifo.ptr.toNat = p / 64 ∧ t.fifo.nb.toNat = p % 64 ∧
        (s.fifo.dir = .wr → p / 64 = s.fifo.ptr.toNat → p % 64 ≤ s.fifo.nb.toNat →
          t.fifo.buf.toNat = s.fifo.buf.toNat % 2 ^ (p % 64)) ∧
        (¬ (s.fifo.dir = .wr ∧ p / 64 = s.fifo.ptr.toNat ∧ p % 64 ≤ s.fifo.nb.toNat) →
          t.fifo.buf.toNat = (s.mem.readWord (p / 64)).toNat % 2 ^ (p % 64)))

/-- 41_bitstream_fifo R88, 70_reset_and_hazards R205: a writer that saves its position, writes any number of fields
and seeks back has the bitstream unit it had when it saved, whether or not words were completed. -/
def Obligations.SeekwUndoesAProbe : Prop :=
  ∀ (s : State) (l : List (Word × BitVec 7)), (∀ e ∈ l, e.2.toNat ≤ 64) →
    readyToWrite s (l.map fun e => e.2.toNat).sum →
    ∃ t u, writeAll l s = some t ∧ exec .seekw (withArg t (BitVec.ofNat 64 s.pos)) = .next u ∧ u.fifo = s.fifo

/-- 41_bitstream_fifo R92: `DIR` is changed only by `SEEKW`, `SEEKR`, reset and `SRST`; a write command when reading,
or a read command when writing, faults `DIRERR` and changes nothing else. -/
def Obligations.DirectionLaw : Prop :=
  (∀ (i : Instr) (s t : State), exec i s = .next t → i ≠ .seekr → i ≠ .seekw → i ≠ .srst →
    t.fifo.dir = s.fifo.dir) ∧
  (∀ (i : Instr) (s : State), i.wellFormed = true →
    (isWriteSide i = true ∧ s.fifo.dir = .rd ∨ isReadSide i = true ∧ s.fifo.dir = .wr) →
    exec i s = .next (s.raise .dirErr 0)) ∧
  (∀ (a : HostAccess) (s t : State), performAccess a s = .next t →
    a ≠ .reset → (∀ v, a ≠ .regWrite 0x078 8 v) → t.fifo.dir = s.fifo.dir)

/-- 20_memory R48: no command reads or writes `MEM[w]` with `w >= CAPW`: from two states that differ only in such
words, every command does the same, and it leaves those words as they were. -/
def Obligations.NoCommandReachesBeyondTheCapacity : Prop :=
  ∀ (i : Instr) (s : State) (m : Mem), (∀ a, a < 8 * s.cfg.capw.toNat → m.readByte a = s.mem.readByte a) →
    ∃ t m', exec i s = .next t ∧ exec i (s.setMem m) = .next (t.setMem m') ∧
      (∀ a, a < 8 * s.cfg.capw.toNat → m'.readByte a = t.mem.readByte a) ∧
      (∀ a, 8 * s.cfg.capw.toNat ≤ a → t.mem.readByte a = s.mem.readByte a) ∧
      (∀ a, 8 * s.cfg.capw.toNat ≤ a → m'.readByte a = m.readByte a)

/-! ### lifting_transform_engine -/

/-- 42_lifting_transform R103: the two lifting functions undo each other on every four `N`-bit patterns, wrapped or
not. -/
def Obligations.LiftingIsExactlyInvertible : Prop :=
  ∀ (N : Nat) (a : Line N), invLift (fwdLift a) = a ∧ fwdLift (invLift a) = a

/-- 42_lifting_transform R101, R104, R110: `FWDXF` runs one pass of the eight lifting lines per axis, axis 0 first, on
the low `N` bits of `COEF`, and stores the result in sequency order, zero-extended; it writes `COEF[0..n-1]` only
and never faults. -/
def Obligations.FwdxfFollowsTheLiftingSteps : Prop :=
  decodeWord 0x20000000 = .ok .fwdxf ∧
  ∀ s : State, ∃ (t : State) (T : Nat → Nat → BitVec s.width), exec .fwdxf s = .next t ∧ t = s.setCoef t.coef ∧
    (∀ i < s.size, T 0 i = coefficient s i) ∧
    (∀ a < s.dim, ∀ b < s.size, coord b a = 0 →
      fwdLine (T a b) (T a (b + 4 ^ a)) (T a (b + 2 * 4 ^ a)) (T a (b + 3 * 4 ^ a))
        (T (a + 1) b) (T (a + 1) (b + 4 ^ a)) (T (a + 1) (b + 2 * 4 ^ a)) (T (a + 1) (b + 3 * 4 ^ a))) ∧
    (∀ j < s.size, t.coef.get j = (T s.dim ((perm s.dim).getD j 0)).setWidth 64) ∧
    (∀ j, s.size ≤ j → t.coef.get j = s.coef.get j)

/-- 42_lifting_transform R102, R104, R111: `INVXF` undoes the sequency order and runs one pass of the eight inverse
lines per axis, axis `d-1` first; it writes `COEF[0..n-1]` only and never faults. -/
def Obligations.InvxfFollowsTheLiftingSteps : Prop :=
  decodeWord 0x21000000 = .ok .invxf ∧
  ∀ s : State, ∃ (t : State) (T : Nat → Nat → BitVec s.width), exec .invxf s = .next t ∧ t = s.setCoef t.coef ∧
    (∀ j < s.size, T s.dim ((perm s.dim).getD j 0) = coefficient s j) ∧
    (∀ a < s.dim, ∀ b < s.size, coord b a = 0 →
      invLine (T (a + 1) b) (T (a + 1) (b + 4 ^ a)) (T (a + 1) (b + 2 * 4 ^ a)) (T (a + 1) (b + 3 * 4 ^ a))
        (T a b) (T a (b + 4 ^ a)) (T a (b + 2 * 4 ^ a)) (T a (b + 3 * 4 ^ a))) ∧
    (∀ i < s.size, t.coef.get i = (T 0 i).setWidth 64) ∧
    (∀ i, s.size ≤ i → t.coef.get i = s.coef.get i)

/-- 42_lifting_transform R103, R111: `INVXF` after `FWDXF`, and `FWDXF` after `INVXF`, restore `COEF[0..n-1]` exactly
for every input (the containers come back zero-extended) and change nothing else. -/
def Obligations.TransformRoundTrips : Prop :=
  ∀ s : State, ∃ t u t' u' : State,
    exec .fwdxf s = .next t ∧ exec .invxf t = .next u ∧ exec .invxf s = .next t' ∧ exec .fwdxf t' = .next u' ∧
    u = s.setCoef u.coef ∧ u' = u ∧
    (∀ j < s.size, u.coef.get j = (coefficient s j).setWidth 64) ∧
    (∀ j, s.size ≤ j → u.coef.get j = s.coef.get j)

/-- 42_lifting_transform R110, 45_block_codec R177(g): `FWDXF` of a constant block leaves the constant in `COEF[0]`
and zeros in every other coefficient of the block. -/
def Obligations.ConstantBlockBecomesItsMean : Prop :=
  ∀ (s : State) (c : BitVec s.width), (∀ i < s.size, coefficient s i = c) →
    ∃ t, exec .fwdxf s = .next t ∧ t.coef.get 0 = c.setWidth 64 ∧ ∀ j, 0 < j → j < s.size → t.coef.get j = 0

/-- 42_lifting_transform R112: with samples of magnitude at most `B` and `3B < 2^(N-1)` no output of `fwd_lift`
exceeds `3B`, and the four bounds are `B`, `2.5B + 0.5`, `2B`, `3B`. -/
def Obligations.ForwardLiftGrowsAtMostThreefold : Prop :=
  ∀ (N : Nat) (B : Nat) (a : Line N), 1 ≤ N → 1 ≤ B → 3 * B < 2 ^ (N - 1) →
    a.c0.toInt.natAbs ≤ B → a.c1.toInt.natAbs ≤ B → a.c2.toInt.natAbs ≤ B → a.c3.toInt.natAbs ≤ B →
    (fwdLift a).c0.toInt.natAbs ≤ B ∧ 2 * (fwdLift a).c1.toInt.natAbs ≤ 5 * B + 1 ∧
    (fwdLift a).c2.toInt.natAbs ≤ 2 * B ∧ (fwdLift a).c3.toInt.natAbs ≤ 3 * B

/-- 42_lifting_transform R109: each sequency table lists every natural index of the block once, in ascending order
of the key (total sequency, sum of squares, index). -/
def Obligations.SequencyTablesFollowTheKey : Prop :=
  ∀ d, 1 ≤ d → d ≤ 4 →
    (perm d).Perm (List.range (4 ^ d)) ∧ ((perm d).map sequencyKey).Pairwise fun x y => keyLt x y = true

/-! ### exponent_scaler -/

/-- 43_exponent_scaler R120, R122, R123, R130: `EXPB` faults `BADPARAM` 3 for an integer type and `NONFINITE` with the
lowest index of a non-finite sample; otherwise `EXPF` becomes the largest effective exponent of a non-zero sample,
0 when there is none, and nothing else changes. -/
def Obligations.ExpbStoresTheBlockExponent : Prop :=
  decodeWord 0x30000000 = .ok .expb ∧ ∀ s : State,
    (s.ty.isFloat = false → exec .expb s = .next (s.raise .badParam 3)) ∧
    (∀ i < s.size, s.ty.isFloat = true → nonfinite s.ty (sample s i) = true →
      (∀ j < i, nonfinite s.ty (sample s j) = false) →
      exec .expb s = .next (s.raise .nonfinite (BitVec.ofNat 64 i))) ∧
    (s.ty.isFloat = true → (∀ i < s.size, nonfinite s.ty (sample s i) = false) →
      ∃ E : Nat, exec .expb s = .next (s.setExpf (BitVec.ofNat 11 E)) ∧ E < s.ty.raw ∧
        (∀ i < s.size, isZero s.ty (sample s i) = false → effExp s.ty (sample s i) ≤ E) ∧
        (E = 0 ↔ ∀ i < s.size, isZero s.ty (sample s i) = true) ∧
        (E ≠ 0 → ∃ i < s.size, isZero s.ty (sample s i) = false ∧ effExp s.ty (sample s i) = E))

/-- 43_exponent_scaler R120, R124, R126, R131: `FSCALE` and its faults; each `COEF[i]` becomes 0, the sample's
pattern, or the scaled sample `wrap(±M * 2^k)`, `wrap(±floor(M / 2^-k))` with `k = HEAD - (E - ee)`. The non-finite
test for `E` = 0 is log 17. -/
def Obligations.FscaleScalesEachSample : Prop :=
  decodeWord 0x31000000 = .ok .fscale ∧ ∀ s : State,
    (s.ty.isFloat = false → exec .fscale s = .next (s.raise .badParam 3)) ∧
    (∀ i < s.size, s.ty.isFloat = true → s.expE ≠ s.ty.raw → nonfinite s.ty (sample s i) = true →
      (∀ j < i, nonfinite s.ty (sample s j) = false) →
      exec .fscale s = .next (s.raise .nonfinite (BitVec.ofNat 64 i))) ∧
    (s.ty.isFloat = true → (s.expE = s.ty.raw ∨ ∀ i < s.size, nonfinite s.ty (sample s i) = false) →
      ∃ t, exec .fscale s = .next t ∧ t = s.setCoef t.coef ∧
        (∀ j, s.size ≤ j → t.coef.get j = s.coef.get j) ∧
        ∀ i < s.size,
          (s.expE = 0 → t.coef.get i = 0) ∧
          (s.expE = s.ty.raw → t.coef.get i = (sample s i).setWidth 64) ∧
          (s.expE ≠ 0 → s.expE ≠ s.ty.raw → ∀ (k : Int) (mag : Nat),
            k = (s.ty.head s.dim : Int) - ((s.expE : Int) - effExp s.ty (sample s i)) →
            mag = (if 0 ≤ k then significand s.ty (sample s i) * 2 ^ k.toNat
              else significand s.ty (sample s i) / 2 ^ (-k).toNat) →
            t.coef.get i =
              (BitVec.ofInt s.width (if (sample s i).msb then -(mag : Int) else (mag : Int))).setWidth 64))

/-- 43_exponent_scaler R120, R125, R126, R132: `ISCALE` and its fault; each `BLK[i]` becomes `+0.0`, the pattern, or
the float of sign, exponent and fraction fields that R125 computes, truncated and saturated. -/
def Obligations.IscaleScalesBack : Prop :=
  decodeWord 0x32000000 = .ok .iscale ∧ ∀ s : State,
    (s.ty.isFloat = false → exec .iscale s = .next (s.raise .badParam 3)) ∧
    (s.ty.isFloat = true →
      ∃ t, exec .iscale s = .next t ∧ t = s.setBlk t.blk ∧ (∀ j, s.size ≤ j → t.blk.get j = s.blk.get j) ∧
        ∀ i < s.size,
          (s.expE = 0 → t.blk.get i = 0) ∧
          (s.expE = s.ty.raw → t.blk.get i = (coefficient s i).setWidth 64) ∧
          (s.expE ≠ 0 → s.expE ≠ s.ty.raw → ∀ (e : Int) (mag U p ef fr : Nat),
            mag = (coefficient s i).toInt.natAbs → e = (s.expE : Int) - s.ty.head s.dim - 1 →
            U = (if 0 ≤ e then mag * 2 ^ e.toNat else mag / 2 ^ (-e).toNat) → p = Nat.log2 U →
            ef = (if U < 2 ^ s.ty.fbits then 0 else min (p - s.ty.fbits + 1) (s.ty.raw - 1)) →
            fr = (if U < 2 ^ s.ty.fbits then U
              else if s.ty.raw ≤ p - s.ty.fbits + 1 then 2 ^ s.ty.fbits - 1
              else U / 2 ^ (p - s.ty.fbits) - 2 ^ s.ty.fbits) →
            (mag = 0 → t.blk.get i = 0) ∧
            (mag ≠ 0 →
              signBit (fromContainer s.width (t.blk.get i)) = decide ((coefficient s i).toInt < 0) ∧
              expField s.ty (fromContainer s.width (t.blk.get i)) = ef ∧
              fracField s.ty (fromContainer s.width (t.blk.get i)) = fr ∧
              (t.blk.get i).toNat < 2 ^ s.width)))

/-- 43_exponent_scaler R128, R133: `PREC` stores `precision(E)` and nothing else, for all types. -/
def Obligations.PrecStoresThePlaneCount : Prop :=
  decodeWord 0x33000000 = .ok .prec ∧
  ∀ s : State, ∃ p : Nat, exec .prec s = .next (s.setPreceff (BitVec.ofNat 7 p)) ∧ p ≤ s.width ∧
    (s.ty.isFloat = false → p = min s.cfg.maxprec.toNat s.width) ∧
    (s.ty.isFloat = true → s.expE = 0 → p = 0) ∧
    (s.ty.isFloat = true → s.expE = s.ty.raw → p = min s.cfg.maxprec.toNat s.width) ∧
    (s.ty.isFloat = true → s.expE ≠ 0 → s.expE ≠ s.ty.raw → ∀ lsbexp kmin : Int,
      lsbexp = (s.expE : Int) - s.ty.bias - s.ty.fbits - s.ty.head s.dim →
      kmin = min (max (s.cfg.minexp.toInt - lsbexp - (s.dim + 2)) 0) s.width →
      (p : Int) = min (s.cfg.maxprec.toNat : Int) (s.width - kmin))

/-- 43_exponent_scaler R128: with `MINEXP` = -32768 or -32767 the tolerance drops no plane, for every exponent. -/
def Obligations.NoToleranceDropsNoPlane : Prop :=
  ∀ (t : ScalarType) (d maxprec E : Nat) (m : Int), t.isFloat = true → 1 ≤ d → d ≤ 4 → 1 ≤ E → E < t.raw →
    (m = -32768 ∨ m = -32767) → precisionOf t d maxprec m E = min maxprec t.width

/-- 43_exponent_scaler R134: a finite sample scaled with an exponent not below its own stays below `2^MBITS` in
magnitude, and inverse scaling never gives a non-finite pattern. -/
def Obligations.ScalingStaysInRange : Prop :=
  ∀ (t : ScalarType) (d E : Nat) (b q : BitVec t.width), t.isFloat = true → 1 ≤ d → d ≤ 4 → 1 ≤ E → E < t.raw →
    (nonfinite t b = false → effExp t b ≤ E → (fscale1 t d b E).toInt.natAbs < 2 ^ t.mbits d) ∧
    nonfinite t (iscale1 t d q E) = false

/-- 43_exponent_scaler R127: a finite sample with effective exponent at most `E` survives scaling and inverse
scaling exactly when it is not `-0.0` and no non-zero bit of its significand is shifted out. -/
def Obligations.ExactSamplesAreThoseThatLoseNoBit : Prop :=
  ∀ (t : ScalarType) (d E : Nat) (b : BitVec t.width), t.isFloat = true → 1 ≤ d → d ≤ 4 → 1 ≤ E → E < t.raw →
    nonfinite t b = false → effExp t b ≤ E →
    (iscale1 t d (fscale1 t d b E) E = b ↔
      ¬ (isZero t b = true ∧ b.msb = true) ∧ significand t b % 2 ^ (E - effExp t b - t.head d) = 0)

/-! ### embedded_bitplane_coder -/

/-- 44_bitplane_coder R144, R146, R151: `ENCPL` in direction RD faults `DIRERR`; otherwise it appends the bits of R146's
traversal, cut by `MAXBITS`, counts them in `BITS` and changes nothing else; with no bit to write it completes wherever
the writer stands; when the capacity ends first, the bits that fit stay written and counted and the fault is recorded at
the bit that did not fit. -/
def Obligations.EncplWritesThePlanes : Prop :=
  ∀ s : State,
    (s.fifo.dir = .rd → exec .encpl s = .next (s.raise .dirErr 0)) ∧
    ∃ all, encodes s.dim (min s.preceff.toNat s.width) (coefficient s) all ∧
      ∀ bs, bs = all.take (s.cfg.maxbits.toNat - s.bits.toNat) →
        (s.fifo.dir = .wr → s.fifo.bufferOk → bs.length ≤ s.capBits - s.pos →
          ∃ t, exec .encpl s = .next t ∧ appended bs s t ∧ t.bits.toNat = s.bits.toNat + bs.length) ∧
        (s.fifo.dir = .wr → s.fifo.bufferOk → s.capBits - s.pos < bs.length →
          ∃ u, exec .encpl s = .next (u.raise .capacity (BitVec.ofNat 64 u.pos)) ∧
            appended (bs.take (s.capBits - s.pos)) s u ∧ u.bits.toNat = s.bits.toNat + (s.capBits - s.pos))

/-- 44_bitplane_coder R144, R147, R148, R152, R153: `DECPL` in direction WR faults `DIRERR`; otherwise it decodes R147's
traversal of the bits that follow, as far as `MAXBITS` lets it: it takes exactly the bits of that traversal, counts
them in `BITS`, and leaves in `COEF[0..n-1]` the coefficients of the bits received, zero-extended; nothing else
changes. When the capacity ends first, the bits taken stay counted, `COEF` keeps its contents, and the fault is
recorded at the bit that is not there. -/
def Obligations.DecplReadsThePlanes : Prop :=
  ∀ s : State,
    (s.fifo.dir = .wr → exec .decpl s = .next (s.raise .dirErr 0)) ∧
    (s.fifo.dir = .rd → s.fifo.bufferOk → s.fifo.readOk → ∀ budget, budget = s.cfg.maxbits.toNat - s.bits.toNat →
      ∃ mag sgn bs k, decodes s 0 (min s.preceff.toNat s.width) budget mag sgn bs ∧ k = min bs.length budget ∧
        k ≤ worst s.width s.dim ∧
        (s.pos + min budget (worst s.width s.dim) ≤ s.capBits → k ≤ s.capBits - s.pos) ∧
        (k ≤ s.capBits - s.pos →
          ∃ t, exec .decpl s = .next t ∧ advanced k s (t.setCoef s.coef) ∧ t.bits.toNat = s.bits.toNat + k ∧
            (∀ j < s.size, t.coef.get j = signed s.width (mag j) (sgn j)) ∧
            (∀ j, s.size ≤ j → t.coef.get j = s.coef.get j) ∧
            (s.preceff = 0 ∨ budget = 0 → k = 0 ∧ ∀ j < s.size, t.coef.get j = 0)) ∧
        (s.capBits - s.pos < k →
          ∃ u, exec .decpl s = .next (u.raise .capacity (BitVec.ofNat 64 u.pos)) ∧
            advanced (s.capBits - s.pos) s u ∧ u.bits.toNat = s.bits.toNat + (s.capBits - s.pos)))

/-- 44_bitplane_coder R149: `ENCPL`, `FLUSH`, `SEEKR` to the start and, with the same registers and the same starting
`BITS`, `DECPL`: the decoder reads exactly the bits written and ends with the same `BITS`; when all `N` planes were
coded and `MAXBITS` did not stop the coder, the coefficients come back bit for bit; and whatever was cut, each comes
back truncated toward zero to the planes received (R153: the planes above `K`, and plane `K` of the coefficients
before `m`), only the last of them possibly without its sign, which is then positive (R148). -/
def Obligations.DecplReadsWhatEncplWrote : Prop :=
  ∀ (s : State) (all bs : List Bool), all = planeBits s.dim (min s.preceff.toNat s.width) s.coeffs →
    bs = all.take (s.cfg.maxbits.toNat - s.bits.toNat) → readyToWrite s bs.length →
    ∃ t u r b, exec .encpl s = .next t ∧ exec .flush t = .next u ∧
      exec .seekr (withArg u (BitVec.ofNat 64 s.pos)) = .next r ∧ exec .decpl (r.setBits s.bits) = .next b ∧
      b.bits = t.bits ∧ b.pos = t.pos ∧ b.flt = s.flt ∧ b.mem = u.mem ∧
      (s.width ≤ s.preceff.toNat → all.length ≤ s.cfg.maxbits.toNat - s.bits.toNat →
        ∀ j < s.size, b.coef.get j = (coefficient s j).setWidth 64) ∧
      ∃ K m : Nat, (planeBits s.dim (s.width - 1 - K) s.coeffs).length ≤ bs.length ∧
        bs.length ≤ (planeBits s.dim (s.width - K) s.coeffs).length ∧
        ∀ j < s.size, ∀ q, q = truncated (if j < m then K else K + 1) (coefficient s j).toInt.natAbs →
          b.coef.get j = signed s.width q (decide ((coefficient s j).toInt < 0)) ∨
          (j + 1 = m ∧ q = 2 ^ K ∧ b.coef.get j = signed s.width q false)

/-- 44_bitplane_coder R153: from the same state but a smaller `MAXBITS` and a smaller `PRECEFF`, `ENCPL` writes a
prefix of the stream. -/
def Obligations.SmallerLimitsGiveAPrefix : Prop :=
  ∀ (s t t' : State) (mb : BitVec 16) (pe : BitVec 7),
    readyToWrite s (s.cfg.maxbits.toNat - s.bits.toNat) →
    mb.toNat ≤ s.cfg.maxbits.toNat → pe.toNat ≤ s.preceff.toNat →
    exec .encpl s = .next t →
    exec .encpl ((s.setCfg { s.cfg with maxbits := mb }).setPreceff pe) = .next t' →
    t'.pos ≤ t.pos ∧ t'.bits.toNat ≤ t.bits.toNat ∧ ∀ p < t'.pos, t'.writtenBit p = t.writtenBit p

/-- 44_bitplane_coder R146, R150: `planeBits`, in whose terms other statements speak of a block's bits, is the sequence
R146's traversal emits; no block costs more than `worst(N, d)` bits, a block of `-2^(N-1)` costs that much when every
plane is coded, and an all-zero block costs one 0 bit per plane. -/
def Obligations.PlaneCosts : Prop :=
  ∀ (N d prec : Nat) (C : List (BitVec N)), N ≠ 0 → prec ≤ N → C.length = 4 ^ d →
    encodes d prec (fun j => C.getD j 0) (planeBits d prec C) ∧
    (planeBits d prec C).length ≤ worst N d ∧
    ((∀ x ∈ C, x = BitVec.intMin N) → prec = N → (planeBits d prec C).length = worst N d) ∧
    ((∀ x ∈ C, x = 0) → planeBits d prec C = List.replicate prec false)

/-! ### block_codec -/

/-- 45_block_codec R161, R172: `PADBLK` faults `BADPARAM` 4 for a bad extent of an axis `a < d`; otherwise every
position of the block that is not valid takes the sample its coordinates, cut to the extents, name; valid
positions and everything else are unchanged. -/
def Obligations.PadblkReplicatesTheLastValidSample : Prop :=
  decodeWord 0x50000000 = .ok .padblk ∧ ∀ s : State,
    ((∃ a < s.dim, s.extent a = 0 ∨ 4 < s.extent a) → exec .padblk s = .next (s.raise .badParam 4)) ∧
    ((∀ a < s.dim, 1 ≤ s.extent a ∧ s.extent a ≤ 4) →
      ∃ t, exec .padblk s = .next t ∧ t = s.setBlk t.blk ∧
        (∀ i, s.size ≤ i → t.blk.get i = s.blk.get i) ∧
        (∀ i < s.size, (∀ a < s.dim, coord i a < s.extent a) → t.blk.get i = s.blk.get i) ∧
        (∀ i < s.size, ¬ (∀ a < s.dim, coord i a < s.extent a) →
          t.blk.get i = (sample s (padSource s i)).setWidth 64))

/-- 45_block_codec R173, R174: `B2C` and `C2B` copy the low `N` bits of the block's registers, zero-extended, for
every type; they fault never and write nothing else. -/
def Obligations.CopiesBetweenBlockAndCoefficients : Prop :=
  decodeWord 0x51000000 = .ok .b2c ∧ decodeWord 0x52000000 = .ok .c2b ∧ ∀ s : State,
    (∃ t, exec .b2c s = .next t ∧ t = s.setCoef t.coef ∧
      (∀ i < s.size, t.coef.get i = (sample s i).setWidth 64) ∧
      (∀ i, s.size ≤ i → t.coef.get i = s.coef.get i)) ∧
    (∃ t, exec .c2b s = .next t ∧ t = s.setBlk t.blk ∧
      (∀ i < s.size, t.blk.get i = (coefficient s i).setWidth 64) ∧
      (∀ i, s.size ≤ i → t.blk.get i = s.blk.get i))

/-- 45_block_codec R163: the parameter checks of the block commands, in their order, before any state is changed. -/
def Obligations.BlockCommandChecksInOrder : Prop :=
  ∀ s : State,
    (s.fifo.dir = .rd → exec .encblk s = .next (s.raise .dirErr 0)) ∧
    (s.fifo.dir = .wr → exec .decblk s = .next (s.raise .dirErr 0)) ∧
    (∀ i, (i = .encblk ∧ s.fifo.dir = .wr) ∨ (i = .decblk ∧ s.fifo.dir = .rd) →
      (s.cfg.maxbits.toNat < s.cfg.minbits.toNat → exec i s = .next (s.raise .badParam 1)) ∧
      (s.cfg.minbits.toNat ≤ s.cfg.maxbits.toNat → s.ty.isFloat = true → s.cfg.maxbits.toNat < s.ty.ebits →
        exec i s = .next (s.raise .badParam 2))) ∧
    (s.fifo.dir = .wr → decChecksPass s → (∃ a < s.dim, s.extent a = 0 ∨ 4 < s.extent a) →
      exec .encblk s = .next (s.raise .badParam 4))

/-- 45_block_codec R162: an `ENCBLK` of a finite block that passes its checks writes the block's stream layout (header,
planes cut by `MAXBITS`, zero bits up to `MINBITS`) when it has room for it; otherwise it writes the bits that fit, the
header whole or not at all, and records `CAPACITY` with `FINFO` the position of the bit or the header that does not
(R175, R178, 20_memory R57). Either way `BITS` counts the bits written, `BLK` holds the padded samples, `EXPF` (float
types) and `PRECEFF` are the block's, `COEF` holds the coded coefficients (or, when the header did not fit, the scaled
samples), and nothing else changes. -/
def Obligations.EncblkWritesTheStreamLayout : Prop :=
  ∀ (s p : State) (room n : Nat), encChecksPass s → p = s.pad → finiteBlock p → s.fifo.dir = .wr →
    s.fifo.bufferOk → room = s.capBits - s.pos →
    n = (if room < (headerBits p).length then 0 else min (blockBits p).length room) →
    ∃ t u : State,
      ((blockBits p).length ≤ room → exec .encblk s = .next t) ∧
      (room < (blockBits p).length → exec .encblk s = .next (t.raise .capacity (BitVec.ofNat 64 t.pos))) ∧
      appended ((blockBits p).take n) s u ∧ u.bits.toNat = n ∧
      t = (((u.setBlk p.blk).setCoef t.coef).setExpf t.expf).setPreceff t.preceff ∧
      t.expf = (if s.ty.isFloat then BitVec.ofNat 11 (headerOf p).1 else s.expf) ∧
      t.preceff.toNat = codedPlanes p ∧
      (∀ j < s.size, t.coef.get j =
        ((if room < (headerBits p).length then fixedSamples p else codedCoeffs p).getD j 0).setWidth 64) ∧
      (∀ j, s.size ≤ j → t.coef.get j = s.coef.get j)

/-- 45_block_codec R175, 60_exceptions R188: a float block with a non-finite sample is rejected in every mode, with
the lowest index, after padding and before any bit is written. -/
def Obligations.EncblkRejectsNonfiniteBlocks : Prop :=
  ∀ (s p : State) (i : Nat), encChecksPass s → s.fifo.dir = .wr → p = (s.setBits 0).pad → s.ty.isFloat = true →
    i < s.size → nonfinite s.ty (fromContainer s.width (p.blk.get i)) = true →
    (∀ j < i, nonfinite s.ty (fromContainer s.width (p.blk.get j)) = false) →
    exec .encblk s = .next (p.raise .nonfinite (BitVec.ofNat 64 i))

/-- 45_block_codec R166, R176, R178, 44_bitplane_coder R147, 60_exceptions R182, R189: a `DECBLK` that passes its checks
reads the header whole (`EXPF`, `PRECEFF`; `PRECEFF` only for integer types), then `k1 - h` bits of planes within
`MAXBITS` (none for header 0), then the `MINBITS` floor up to `k` bits, and counts them in `BITS`. It completes when the
`k` bits are there; otherwise it records `CAPACITY` with `FINFO` the position of the read that is not: in the header or
the planes with `COEF` and `BLK` unchanged, in the floor with the block decoded. The decoded block: `COEF` is `INVXF` of
the decoded coefficients, `BLK` is `COEF` copied (integer types, raw blocks) or scaled back (float types); both 0 for
header 0. Nothing else changes. -/
def Obligations.DecblkDecodesOneBlock : Prop :=
  ∀ (s : State) (h room budget : Nat), decChecksPass s → s.fifo.dir = .rd → s.fifo.bufferOk → s.fifo.readOk →
    h = (if s.ty.isFloat then s.ty.ebits else 0) → room = s.capBits - s.pos → budget = s.cfg.maxbits.toNat - h →
    (room < h → exec .decblk s = .next ((s.setBits 0).raise .capacity (BitVec.ofNat 64 s.pos))) ∧
    (h ≤ room → ∃ (e : BitVec 11) (prec : BitVec 7) (mag : Nat → Nat) (sgn : Nat → Bool) (bs : List Bool) (k1 k : Nat),
      (s.ty.isFloat = false → e = s.expf ∧ prec.toNat = min s.cfg.maxprec.toNat s.width) ∧
      (s.ty.isFloat = true → (∀ j < 11, e.getLsbD j = (decide (j < s.ty.ebits) && s.nextBit j)) ∧
        prec.toNat = precisionOf s.ty s.dim s.cfg.maxprec.toNat s.minExp e.toNat) ∧
      decodes s h prec.toNat budget mag sgn bs ∧ (s.ty.isFloat = true → e = 0 → bs = []) ∧
      k1 = h + min bs.length budget ∧ k = max s.cfg.minbits.toNat k1 ∧ k ≤ s.cfg.maxbits.toNat ∧
      k1 ≤ h + worst s.width s.dim ∧
      (room < k1 → ∃ u : State, exec .decblk s = .next (u.raise .capacity (BitVec.ofNat 64 u.pos)) ∧
        advanced room s ((u.setExpf s.expf).setPreceff s.preceff) ∧ u.bits.toNat = room ∧ u.expf = e ∧
        u.preceff = prec) ∧
      (k1 ≤ room → ∃ t : State,
        (k ≤ room → exec .decblk s = .next t) ∧
        (room < k → exec .decblk s = .next (t.raise .capacity (BitVec.ofNat 64 t.pos))) ∧
        advanced (min k room) s ((((t.setBlk s.blk).setCoef s.coef).setExpf s.expf).setPreceff s.preceff) ∧
        t.bits.toNat = min k room ∧ t.expf = e ∧ t.preceff = prec ∧
        (s.ty.isFloat = true → e = 0 → ∀ i < s.size, t.coef.get i = 0 ∧ t.blk.get i = 0) ∧
        (¬ (s.ty.isFloat = true ∧ e = 0) →
          (∃ c w, (∀ j < s.size, c.get j = signed s.width (mag j) (sgn j)) ∧
            exec .invxf (s.setCoef c) = .next w ∧ ∀ i < s.size, t.coef.get i = w.coef.get i) ∧
          ∀ i < s.size, t.blk.get i =
            (if s.ty.isFloat = false ∨ e.toNat = s.ty.raw then (coefficient t i).setWidth 64
              else (iscale1 s.ty s.dim (coefficient t i) e.toNat).setWidth 64)) ∧
        (∀ i, s.size ≤ i → t.blk.get i = s.blk.get i ∧ t.coef.get i = s.coef.get i)))

/-- 45_block_codec R168, R177(a): encode, `FLUSH`, `SEEKR` to the start, decode: `DECBLK` ends with the `BITS` and the
position of `ENCBLK`; under the reversible setting with nothing cut, the padded block comes back bit for bit. -/
def Obligations.DecblkReadsBackWhatEncblkWrote : Prop :=
  ∀ s p : State, encChecksPass s → p = s.pad → finiteBlock p → readyToWrite s (blockBits p).length →
    ∃ t u r b, exec .encblk s = .next t ∧ exec .flush t = .next u ∧
      exec .seekr (withArg u (BitVec.ofNat 64 s.pos)) = .next r ∧ exec .decblk r = .next b ∧
      b.bits = t.bits ∧ b.pos = t.pos ∧ b.flt = s.flt ∧
      (s.cfg.minexp = 0x8000 → s.width ≤ s.cfg.maxprec.toNat → s.cfg.maxbits = 65535 →
        ∀ i < s.size, b.blk.get i = (sample p i).setWidth 64)

/-- 45_block_codec R178, 20_memory R57: once its checks have passed, `ENCBLK` or `DECBLK`, whether it ends in a fault
or not, leaves in `BITS` the number of bits it has moved; what stood in the stream before them is unchanged. -/
def Obligations.BitsCountsWhatABlockCommandMoved : Prop :=
  (∀ s t : State, encChecksPass s → s.fifo.dir = .wr → s.fifo.bufferOk → exec .encblk s = .next t →
    t.pos = s.pos + t.bits.toNat ∧ ∀ p < s.pos, t.writtenBit p = s.writtenBit p) ∧
  (∀ s t : State, decChecksPass s → s.fifo.dir = .rd → s.fifo.bufferOk → s.fifo.readOk →
    exec .decblk s = .next t → t.pos = s.pos + t.bits.toNat ∧ ∀ j, t.nextBit j = s.nextBit (t.bits.toNat + j))

/-! ### Faults and frames -/

/-- 60_exceptions R183, with the numbers of R180 (`CAPACITY` 0, `NONFINITE` 1, `BADPARAM` 2, `ILLEGAL` 3, `DIRERR` 4):
recording a fault sets its flag, `CAUSE` to the flag's number plus one and `FINFO`, and changes nothing else. -/
def Obligations.RaiseRecordsTheFault : Prop :=
  ∀ (s : State) (f : HwFault) (info : Word),
    (∀ k < 5, (s.raise f info).flt.flags.getLsbD k = (decide (k = flagBit f) || s.flt.flags.getLsbD k)) ∧
    (s.raise f info).flt.cause.toNat = flagBit f + 1 ∧ (s.raise f info).flt.finfo = info ∧
    s.raise f info = s.setFlt (s.raise f info).flt

/-- 60_exceptions R185: a fault stops nothing, and what a command does does not depend on the flags, `CAUSE` or
`FINFO`: from `s` with any fault record, a command other than `SRST` answers the same next state but for that record,
and to the record it does the same, nothing or one and the same fault with the same information; a set flag stays set.
`SRST` leaves one next state whatever the record was. -/
def Obligations.FaultRecordChangesNoCommand : Prop :=
  (∀ (i : Instr) (s : State), i ≠ .srst →
    ∃ (t : State) (o : Option (HwFault × Word)), ∀ f : FaultRec,
      exec i (s.setFlt f) = .next (t.setFlt (recorded s o f)) ∧
      ∀ k < 5, f.flags.getLsbD k = true → (recorded s o f).flags.getLsbD k = true) ∧
  ∀ s : State, ∃ t, ∀ f : FaultRec, exec .srst (s.setFlt f) = .next t

/-- 60_exceptions R180, R181, R184: a command records at most one fault, of a kind it can raise, and one that records
a fault leaves `RES` unchanged (10_state R24). -/
def Obligations.AtMostOneFaultOfItsOwnKind : Prop :=
  ∀ (i : Instr) (s t : State), i ≠ .srst → exec i s = .next t →
    t.flt = s.flt ∨ ∃ f info, mayRaise i f ∧ t.flt = (s.raise f info).flt ∧ t.res = s.res

/-- 10_state R37: each command writes only the state its row lists; and what it stores to `MEM` lies in the words from
the old `PTR` up to the new one. -/
def Obligations.CommandsWriteOnlyTheirState : Prop :=
  ∀ (i : Instr) (s t : State), exec i s = .next t →
    (t.hostq = s.hostq ∧ t.rdata = s.rdata) ∧
    (i ≠ .srst → t.cfg = s.cfg) ∧
    (i ∉ writesBlk → t.blk = s.blk) ∧ (∀ k, s.size ≤ k → t.blk.get k = s.blk.get k) ∧
    (i ∉ writesCoef → t.coef = s.coef) ∧ (∀ k, s.size ≤ k → t.coef.get k = s.coef.get k) ∧
    (writesRes i = false → t.res = s.res) ∧
    (i ∉ [.encpl, .decpl, .encblk, .decblk, .srst] → t.bits = s.bits) ∧
    (i ∉ [.expb, .encblk, .decblk, .srst] → t.expf = s.expf) ∧
    (s.ty.isFloat = false → i ≠ .srst → t.expf = s.expf) ∧
    (i ∉ [.prec, .encblk, .decblk, .srst] → t.preceff = s.preceff) ∧
    (writesFifo i = false → t.fifo = s.fifo) ∧ (i ∉ [.seekr, .seekw, .srst] → t.fifo.dir = s.fifo.dir) ∧
    (i ≠ .srst → t.flt = s.flt ∨ ∃ f info, t.flt = (s.raise f info).flt) ∧
    (writesMem i = false → t.mem = s.mem) ∧
    (writesMem i = true → s.fifo.ptr.toNat ≤ t.fifo.ptr.toNat ∧
      ∀ a, a / 8 < s.fifo.ptr.toNat ∨ t.fifo.ptr.toNat ≤ a / 8 → t.mem.readByte a = s.mem.readByte a)

/-- 10_state R37, 45_block_codec R175, R176: no state is shared between calls: from two states with the same parameters,
bitstream unit, `MEM` and fault record (and, to encode, the same `BLK`), whatever `COEF`, `RES`, `BITS`, `EXPF` and
`PRECEFF` hold, a block command that passes its checks does the same to the stream, `BITS` and the fault record;
`ENCBLK` leaves the same `BLK` and, for a finite block, the same `PRECEFF`, `EXPF` and `COEF[0..n-1]`; `DECBLK`, with no
fault flag set at its end, the same block, coefficients, `PRECEFF` and `EXPF`. -/
def Obligations.BlockCommandsShareNoState : Prop :=
  ∀ s s' : State, s'.cfg = s.cfg → s'.fifo = s.fifo → s'.mem = s.mem → s'.flt = s.flt →
    (encChecksPass s → s.fifo.dir = .wr → s'.blk = s.blk →
      ∃ t t', exec .encblk s = .next t ∧ exec .encblk s' = .next t' ∧ t'.fifo = t.fifo ∧ t'.mem = t.mem ∧
        t'.bits = t.bits ∧ t'.flt = t.flt ∧ t'.blk = t.blk ∧
        (finiteBlock s.pad → t'.preceff = t.preceff ∧ (s.ty.isFloat = true → t'.expf = t.expf) ∧
          ∀ j < s.size, t'.coef.get j = t.coef.get j)) ∧
    (decChecksPass s → s.fifo.dir = .rd →
      ∃ t t', exec .decblk s = .next t ∧ exec .decblk s' = .next t' ∧ t'.fifo = t.fifo ∧ t'.mem = t.mem ∧
        t'.bits = t.bits ∧ t'.flt = t.flt ∧
        (t.flt.flags = 0 → t'.preceff = t.preceff ∧ (s.ty.isFloat = true → t'.expf = t.expf) ∧
          ∀ j < s.size, t'.blk.get j = t.blk.get j ∧ t'.coef.get j = t.coef.get j))

/-! ### Invariants -/

/-- 10_state R32, R38: the state after reset is sound. -/
def Obligations.ResetIsSound : Prop := State.reset.Inv

/-- 10_state R29, R32, 41_bitstream_fifo R81, R82, 20_memory R40: from every sound state a step that answers a next
state leaves a sound one: `0 <= NB <= 63`, `BUF[63:NB]` = 0, bits held while reading come from word `PTR - 1`, the
memory keeps its canonical form, `CAUSE` stays in range and is set when a flag is. -/
def Obligations.EveryStepKeepsTheInvariant : Prop :=
  ∀ s t : State, s.Inv → step s = .next t → t.Inv
end

