-- ==== Sys2Proof/Laws/Memory.lean ====
section
/-! SUPPORT. Laws of `MEM`: a read after a write, what a write leaves alone, byte order, and that every operation
keeps the canonical form. -/

namespace Sys2Proof.Machine

/-! ### One byte -/

theorem Mem.readByte_erase (m : Mem) (a b : Nat) :
    (m.erase a).readByte b = if b = a then Config.memFill else m.readByte b := by
  induction m with
  | nil => simp [Mem.erase, Mem.readByte]
  | cons e rest ih =>
    obtain ⟨c, v⟩ := e
    by_cases hc : c = a
    · subst hc
      simp only [Mem.erase, if_pos, ih, Mem.readByte]
      split <;> simp_all [eq_comm]
    · simp only [Mem.erase, if_neg hc, Mem.readByte, ih]
      split <;> simp_all

theorem Mem.readByte_insert (m : Mem) (a b : Nat) (v : Byte) :
    m.erase a = m → (m.insert a v).readByte b = if b = a then v else m.readByte b := by
  induction m with
  | nil => intro _; simp [Mem.insert, Mem.readByte, eq_comm]
  | cons e rest ih =>
    obtain ⟨c, w⟩ := e
    intro h
    have hca : c ≠ a := by
      rintro rfl
      simp only [Mem.erase, if_pos] at h
      have := congrArg List.length h
      have hle : ∀ (l : Mem), (Mem.erase l c).length ≤ l.length := by
        intro l
        induction l with
        | nil => simp [Mem.erase]
        | cons e r ihr =>
          obtain ⟨x, y⟩ := e
          simp only [Mem.erase]
          split <;> simp <;> omega
      have := hle rest
      simp at *
      omega
    simp only [Mem.erase, if_neg hca, List.cons.injEq, true_and] at h
    simp only [Mem.insert]
    split
    · simp [Mem.readByte, eq_comm]
    · simp only [Mem.readByte, ih h]
      by_cases hb : c = b
      · subst hb; simp [hca]
      · simp [hb]

theorem Mem.erase_erase (m : Mem) (a : Nat) : (m.erase a).erase a = m.erase a := by
  induction m with
  | nil => rfl
  | cons e rest ih =>
    obtain ⟨c, w⟩ := e
    by_cases hc : c = a
    · simp [Mem.erase, hc, ih]
    · simp [Mem.erase, hc, ih]

/-- A byte reads as what was last written there; every other byte reads as before. -/
theorem Mem.readByte_writeByte (m : Mem) (a b : Nat) (v : Byte) :
    (m.writeByte a v).readByte b = if b = a then v else m.readByte b := by
  unfold Mem.writeByte
  split
  · rename_i h; simp [Mem.readByte_erase, h]
  · rw [Mem.readByte_insert _ _ _ _ (Mem.erase_erase m a)]
    simp only [Mem.readByte_erase]
    split <;> rfl

/-! ### Several bytes -/

/-- What `k` bytes written leave at each address. -/
theorem Mem.readByte_writeBytes (m : Mem) (a k v b : Nat) :
    (m.writeBytes a k v).readByte b =
      if a ≤ b ∧ b < a + k then BitVec.ofNat 8 (v / 256 ^ (b - a)) else m.readByte b := by
  induction k generalizing m a v with
  | zero => simp [Mem.writeBytes]
  | succ k ih =>
    simp only [Mem.writeBytes, ih, Mem.readByte_writeByte]
    by_cases hb : b = a
    · subst hb; simp
    · by_cases h : a + 1 ≤ b ∧ b < a + 1 + k
      · rw [if_pos h, if_pos (by omega), Nat.div_div_eq_div_mul, ← Nat.pow_succ']
        rw [show (b - (a + 1)).succ = b - a by omega]
      · rw [if_neg h, if_neg hb, if_neg (by omega)]

/-- Bytes outside the range written read as before. -/
theorem Mem.readByte_writeBytes_out (m : Mem) (a k v b : Nat) (h : b < a ∨ a + k ≤ b) :
    (m.writeBytes a k v).readByte b = m.readByte b := by
  rw [Mem.readByte_writeBytes, if_neg (by omega)]

theorem Mem.readBytes_congr (m m' : Mem) (a k : Nat) (h : ∀ j < k, m.readByte (a + j) = m'.readByte (a + j)) :
    m.readBytes a k = m'.readBytes a k := by
  induction k generalizing a with
  | zero => rfl
  | succ k ih =>
    simp only [Mem.readBytes]
    have h0 := h 0 (by omega)
    rw [Nat.add_zero] at h0
    rw [h0, ih]
    intro j hj
    have := h (j + 1) (by omega)
    rwa [show a + (j + 1) = a + 1 + j by omega] at this

theorem Mem.readBytes_lt (m : Mem) (a k : Nat) : m.readBytes a k < 256 ^ k := by
  induction k generalizing a with
  | zero => simp [Mem.readBytes]
  | succ k ih =>
    have := ih (a + 1)
    have hb := (m.readByte a).isLt
    simp only [Mem.readBytes, Nat.pow_succ]
    omega

/-- What was written is read back, cut to the width written. -/
theorem Mem.readBytes_writeBytes (m : Mem) (a k v : Nat) :
    (m.writeBytes a k v).readBytes a k = v % 256 ^ k := by
  have key : ∀ (m' : Mem) (k a v : Nat), (∀ j < k, m'.readByte (a + j) = BitVec.ofNat 8 (v / 256 ^ j)) →
      m'.readBytes a k = v % 256 ^ k := by
    intro m' k
    induction k with
    | zero => intro a v _; simp [Mem.readBytes, Nat.mod_one]
    | succ k ih =>
      intro a v h
      have h0 := h 0 (by omega)
      simp only [Nat.add_zero, Nat.pow_zero, Nat.div_one] at h0
      simp only [Mem.readBytes, h0]
      rw [ih (a + 1) (v / 256)]
      · rw [Nat.pow_succ', Nat.mod_mul]
        simp
      · intro j hj
        have := h (j + 1) (by omega)
        rw [show a + 1 + j = a + (j + 1) by omega, this, Nat.div_div_eq_div_mul, ← Nat.pow_succ']
  apply key
  intro j hj
  rw [Mem.readByte_writeBytes, if_pos (by omega)]
  congr 3; omega

/-- Byte `j` of what is read. -/
theorem Mem.readBytes_div (m : Mem) (a k j : Nat) (hj : j < k) :
    m.readBytes a k / 256 ^ j % 256 = (m.readByte (a + j)).toNat := by
  induction k generalizing a j with
  | zero => omega
  | succ k ih =>
    have hb := (m.readByte a).isLt
    simp only [Mem.readBytes]
    cases j with
    | zero => simp; omega
    | succ j =>
      rw [Nat.pow_succ', ← Nat.div_div_eq_div_mul]
      rw [show ((m.readByte a).toNat + 256 * m.readBytes (a + 1) k) / 256 = m.readBytes (a + 1) k by omega]
      rw [ih (a + 1) j (by omega), show a + 1 + j = a + (j + 1) by omega]

/-! ### Words -/

/-- `MemRead` after `MemWrite` to the same word. -/
@[simp] theorem Mem.readWord_writeWord (m : Mem) (w : Nat) (v : Word) : (m.writeWord w v).readWord w = v := by
  simp only [Mem.readWord, Mem.writeWord, Mem.readBytes_writeBytes]
  apply BitVec.eq_of_toNat_eq
  have := v.isLt
  simp; omega

/-- `MemWrite` leaves every other word alone. -/
theorem Mem.readWord_writeWord_ne (m : Mem) (w x : Nat) (v : Word) (h : x ≠ w) :
    (m.writeWord w v).readWord x = m.readWord x := by
  simp only [Mem.readWord, Mem.writeWord]
  rw [Mem.readBytes_congr _ m]
  intro j hj
  exact Mem.readByte_writeBytes_out _ _ _ _ _ (by omega)

/-- Byte `b` of `MEM` is bits `8*(b mod 8)+7 : 8*(b mod 8)` of word `b div 8` (20_memory R44). -/
theorem Mem.readByte_eq_readWord (m : Mem) (b : Nat) :
    m.readByte b = (m.readWord (b / 8)).extractLsb' (8 * (b % 8)) 8 := by
  apply BitVec.eq_of_toNat_eq
  have h1 := Mem.readBytes_div m (8 * (b / 8)) 8 (b % 8) (Nat.mod_lt _ (by omega))
  rw [show 8 * (b / 8) + b % 8 = b by omega] at h1
  have h2 := Mem.readBytes_lt m (8 * (b / 8)) 8
  simp only [Mem.readWord, BitVec.extractLsb'_toNat, BitVec.toNat_ofNat, Nat.shiftRight_eq_div_pow, Nat.pow_mul]
  rw [← h1, Nat.mod_eq_of_lt (a := m.readBytes _ _) (by simpa using h2)]

/-- `MemWrite` leaves the bytes of every other word alone. -/
theorem Mem.readByte_writeWord_ne (m : Mem) (w b : Nat) (v : Word) (h : b / 8 ≠ w) :
    (m.writeWord w v).readByte b = m.readByte b :=
  Mem.readByte_writeBytes_out _ _ _ _ _ (by omega)

/-! ### The canonical form -/

theorem Mem.wf_tail (e : Host.Cell) (m : Mem) (h : Mem.wf (e :: m) = true) : m.wf = true := by
  cases m with
  | nil => rfl
  | cons e' r =>
    obtain ⟨a, v⟩ := e
    obtain ⟨b, w⟩ := e'
    simp only [Mem.wf, Bool.and_eq_true] at h
    exact h.2

/-- Every entry of a canonical memory lies above a bound its head lies above. -/
theorem Mem.wf_iff (m : Mem) : m.wf = true ↔
    m.Pairwise (fun x y => x.1 < y.1) ∧ ∀ e ∈ m, e.2 ≠ Config.memFill := by
  induction m with
  | nil => simp [Mem.wf]
  | cons e r ih =>
    cases r with
    | nil => obtain ⟨a, v⟩ := e; simp [Mem.wf]
    | cons e' r' =>
      obtain ⟨a, v⟩ := e
      obtain ⟨b, w⟩ := e'
      simp only [Mem.wf, Bool.and_eq_true, ih, bne_iff_ne, decide_eq_true_eq]
      constructor
      · rintro ⟨⟨hv, hab⟩, hp, hf⟩
        refine ⟨?_, ?_⟩
        · rw [List.pairwise_cons]
          refine ⟨?_, hp⟩
          intro x hx
          rcases List.mem_cons.1 hx with rfl | hx
          · exact hab
          · exact lt_trans hab ((List.pairwise_cons.1 hp).1 x hx)
        · intro x hx
          rcases List.mem_cons.1 hx with rfl | hx
          · exact hv
          · exact hf x hx
      · rintro ⟨hp, hf⟩
        obtain ⟨h1, h2⟩ := List.pairwise_cons.1 hp
        exact ⟨⟨hf (a, v) (by simp), h1 (b, w) (by simp)⟩, h2, fun x hx => hf x (List.mem_cons_of_mem _ hx)⟩

theorem Mem.mem_erase (m : Mem) (a : Nat) (x : Host.Cell) (hx : x ∈ m.erase a) : x ∈ m ∧ x.1 ≠ a := by
  induction m with
  | nil => simp [Mem.erase] at hx
  | cons e r ih =>
    obtain ⟨b, v⟩ := e
    simp only [Mem.erase] at hx
    split at hx
    · exact ⟨List.mem_cons_of_mem _ (ih hx).1, (ih hx).2⟩
    · rename_i hb
      rcases List.mem_cons.1 hx with rfl | hx
      · exact ⟨by simp, hb⟩
      · exact ⟨List.mem_cons_of_mem _ (ih hx).1, (ih hx).2⟩

theorem Mem.wf_erase (m : Mem) (a : Nat) (h : m.wf = true) : (m.erase a).wf = true := by
  rw [Mem.wf_iff] at *
  refine ⟨?_, fun x hx => h.2 x (Mem.mem_erase m a x hx).1⟩
  have hp := h.1
  clear h
  induction m with
  | nil => simp [Mem.erase]
  | cons e r ih =>
    obtain ⟨b, v⟩ := e
    obtain ⟨h1, h2⟩ := List.pairwise_cons.1 hp
    simp only [Mem.erase]
    split
    · exact ih h2
    · exact List.pairwise_cons.2 ⟨fun x hx => h1 x (Mem.mem_erase r a x hx).1, ih h2⟩

theorem Mem.mem_insert (m : Mem) (a : Nat) (v : Byte) (x : Host.Cell) (hx : x ∈ m.insert a v) :
    x = (a, v) ∨ x ∈ m := by
  induction m with
  | nil => simpa [Mem.insert] using hx
  | cons e r ih =>
    obtain ⟨b, w⟩ := e
    simp only [Mem.insert] at hx
    split at hx
    · simpa using hx
    · rcases List.mem_cons.1 hx with rfl | hx
      · right; simp
      · rcases ih hx with h | h
        · exact .inl h
        · right; simp [h]

theorem Mem.wf_insert (m : Mem) (a : Nat) (v : Byte) (h : m.wf = true) (hv : v ≠ Config.memFill)
    (ha : ∀ e ∈ m, e.1 ≠ a) : (m.insert a v).wf = true := by
  rw [Mem.wf_iff] at *
  refine ⟨?_, ?_⟩
  · have hp := h.1
    clear h
    induction m with
    | nil => simp [Mem.insert]
    | cons e r ih =>
      obtain ⟨b, w⟩ := e
      obtain ⟨h1, h2⟩ := List.pairwise_cons.1 hp
      have hba : b ≠ a := ha (b, w) (by simp)
      simp only [Mem.insert]
      split
      · rename_i hab
        refine List.pairwise_cons.2 ⟨?_, hp⟩
        intro x hx
        rcases List.mem_cons.1 hx with rfl | hx
        · exact hab
        · exact lt_trans hab (h1 x hx)
      · refine List.pairwise_cons.2 ⟨?_, ih (fun e he => ha e (by simp [he])) h2⟩
        intro x hx
        rcases Mem.mem_insert r a v x hx with rfl | hx
        · change b < a; omega
        · exact h1 x hx
  · intro x hx
    rcases Mem.mem_insert m a v x hx with rfl | hx
    · exact hv
    · exact h.2 x hx

/-- A byte written keeps the canonical form. -/
theorem Mem.wf_writeByte (m : Mem) (a : Nat) (v : Byte) (h : m.wf = true) : (m.writeByte a v).wf = true := by
  unfold Mem.writeByte
  split
  · exact Mem.wf_erase m a h
  · rename_i hv
    exact Mem.wf_insert _ a v (Mem.wf_erase m a h) hv fun e he => (Mem.mem_erase m a e he).2

/-- Bytes written keep the canonical form. -/
theorem Mem.wf_writeBytes (m : Mem) (a k v : Nat) (h : m.wf = true) : (m.writeBytes a k v).wf = true := by
  induction k generalizing m a v with
  | zero => exact h
  | succ k ih => exact ih _ _ _ (Mem.wf_writeByte m a _ h)

/-- A word written keeps the canonical form. -/
theorem Mem.wf_writeWord (m : Mem) (w : Nat) (v : Word) (h : m.wf = true) : (m.writeWord w v).wf = true :=
  Mem.wf_writeBytes m _ _ _ h

/-- The memory after reset is canonical. -/
theorem reset_mem_wf : State.reset.mem.wf = true := rfl

end Sys2Proof.Machine
end

