-- ==== Sys2Proof/Laws/State.lean ====
section
/-! SUPPORT. The small lemmas of the state's updates: one per field per update, true by rfl, so that no proof
unfolds a record update; and what each shared update leaves of the derived quantities. -/

namespace Sys2Proof.Machine

variable (s : State)

/-! ### setBlk -/

@[simp] theorem setBlk_blk (v : RegFile) : (s.setBlk v).blk = v := rfl
@[simp] theorem setBlk_coef (v : RegFile) : (s.setBlk v).coef = s.coef := rfl
@[simp] theorem setBlk_cfg (v : RegFile) : (s.setBlk v).cfg = s.cfg := rfl
@[simp] theorem setBlk_res (v : RegFile) : (s.setBlk v).res = s.res := rfl
@[simp] theorem setBlk_bits (v : RegFile) : (s.setBlk v).bits = s.bits := rfl
@[simp] theorem setBlk_expf (v : RegFile) : (s.setBlk v).expf = s.expf := rfl
@[simp] theorem setBlk_preceff (v : RegFile) : (s.setBlk v).preceff = s.preceff := rfl
@[simp] theorem setBlk_flt (v : RegFile) : (s.setBlk v).flt = s.flt := rfl
@[simp] theorem setBlk_fifo (v : RegFile) : (s.setBlk v).fifo = s.fifo := rfl
@[simp] theorem setBlk_mem (v : RegFile) : (s.setBlk v).mem = s.mem := rfl
@[simp] theorem setBlk_hostq (v : RegFile) : (s.setBlk v).hostq = s.hostq := rfl
@[simp] theorem setBlk_rdata (v : RegFile) : (s.setBlk v).rdata = s.rdata := rfl
@[simp] theorem setBlk_ty (v : RegFile) : (s.setBlk v).ty = s.ty := rfl
@[simp] theorem setBlk_dim (v : RegFile) : (s.setBlk v).dim = s.dim := rfl
@[simp] theorem setBlk_size (v : RegFile) : (s.setBlk v).size = s.size := rfl
@[simp] theorem setBlk_width (v : RegFile) : (s.setBlk v).width = s.width := rfl
@[simp] theorem setBlk_minExp (v : RegFile) : (s.setBlk v).minExp = s.minExp := rfl
@[simp] theorem setBlk_capBits (v : RegFile) : (s.setBlk v).capBits = s.capBits := rfl
@[simp] theorem setBlk_extent (v : RegFile) (a : Nat) : (s.setBlk v).extent a = s.extent a := rfl
@[simp] theorem setBlk_precision (v : RegFile) (E : Nat) : (s.setBlk v).precision E = s.precision E := rfl
@[simp] theorem setBlk_pos (v : RegFile) : (s.setBlk v).pos = s.pos := rfl
@[simp] theorem setBlk_planes (v : RegFile) : (s.setBlk v).planes = s.planes := rfl
@[simp] theorem setBlk_expE (v : RegFile) : (s.setBlk v).expE = s.expE := rfl
@[simp] theorem setBlk_coeffs (v : RegFile) : (s.setBlk v).coeffs = s.coeffs := rfl

/-! ### setCoef -/

@[simp] theorem setCoef_blk (v : RegFile) : (s.setCoef v).blk = s.blk := rfl
@[simp] theorem setCoef_coef (v : RegFile) : (s.setCoef v).coef = v := rfl
@[simp] theorem setCoef_cfg (v : RegFile) : (s.setCoef v).cfg = s.cfg := rfl
@[simp] theorem setCoef_res (v : RegFile) : (s.setCoef v).res = s.res := rfl
@[simp] theorem setCoef_bits (v : RegFile) : (s.setCoef v).bits = s.bits := rfl
@[simp] theorem setCoef_expf (v : RegFile) : (s.setCoef v).expf = s.expf := rfl
@[simp] theorem setCoef_preceff (v : RegFile) : (s.setCoef v).preceff = s.preceff := rfl
@[simp] theorem setCoef_flt (v : RegFile) : (s.setCoef v).flt = s.flt := rfl
@[simp] theorem setCoef_fifo (v : RegFile) : (s.setCoef v).fifo = s.fifo := rfl
@[simp] theorem setCoef_mem (v : RegFile) : (s.setCoef v).mem = s.mem := rfl
@[simp] theorem setCoef_hostq (v : RegFile) : (s.setCoef v).hostq = s.hostq := rfl
@[simp] theorem setCoef_rdata (v : RegFile) : (s.setCoef v).rdata = s.rdata := rfl
@[simp] theorem setCoef_ty (v : RegFile) : (s.setCoef v).ty = s.ty := rfl
@[simp] theorem setCoef_dim (v : RegFile) : (s.setCoef v).dim = s.dim := rfl
@[simp] theorem setCoef_size (v : RegFile) : (s.setCoef v).size = s.size := rfl
@[simp] theorem setCoef_width (v : RegFile) : (s.setCoef v).width = s.width := rfl
@[simp] theorem setCoef_minExp (v : RegFile) : (s.setCoef v).minExp = s.minExp := rfl
@[simp] theorem setCoef_capBits (v : RegFile) : (s.setCoef v).capBits = s.capBits := rfl
@[simp] theorem setCoef_extent (v : RegFile) (a : Nat) : (s.setCoef v).extent a = s.extent a := rfl
@[simp] theorem setCoef_precision (v : RegFile) (E : Nat) : (s.setCoef v).precision E = s.precision E := rfl
@[simp] theorem setCoef_pos (v : RegFile) : (s.setCoef v).pos = s.pos := rfl
@[simp] theorem setCoef_planes (v : RegFile) : (s.setCoef v).planes = s.planes := rfl
@[simp] theorem setCoef_expE (v : RegFile) : (s.setCoef v).expE = s.expE := rfl
@[simp] theorem setCoef_samples (v : RegFile) : (s.setCoef v).samples = s.samples := rfl

/-! ### setCfg -/

@[simp] theorem setCfg_blk (v : Cfg) : (s.setCfg v).blk = s.blk := rfl
@[simp] theorem setCfg_coef (v : Cfg) : (s.setCfg v).coef = s.coef := rfl
@[simp] theorem setCfg_cfg (v : Cfg) : (s.setCfg v).cfg = v := rfl
@[simp] theorem setCfg_res (v : Cfg) : (s.setCfg v).res = s.res := rfl
@[simp] theorem setCfg_bits (v : Cfg) : (s.setCfg v).bits = s.bits := rfl
@[simp] theorem setCfg_expf (v : Cfg) : (s.setCfg v).expf = s.expf := rfl
@[simp] theorem setCfg_preceff (v : Cfg) : (s.setCfg v).preceff = s.preceff := rfl
@[simp] theorem setCfg_flt (v : Cfg) : (s.setCfg v).flt = s.flt := rfl
@[simp] theorem setCfg_fifo (v : Cfg) : (s.setCfg v).fifo = s.fifo := rfl
@[simp] theorem setCfg_mem (v : Cfg) : (s.setCfg v).mem = s.mem := rfl
@[simp] theorem setCfg_hostq (v : Cfg) : (s.setCfg v).hostq = s.hostq := rfl
@[simp] theorem setCfg_rdata (v : Cfg) : (s.setCfg v).rdata = s.rdata := rfl

/-! ### setRes -/

@[simp] theorem setRes_blk (v : Word) : (s.setRes v).blk = s.blk := rfl
@[simp] theorem setRes_coef (v : Word) : (s.setRes v).coef = s.coef := rfl
@[simp] theorem setRes_cfg (v : Word) : (s.setRes v).cfg = s.cfg := rfl
@[simp] theorem setRes_res (v : Word) : (s.setRes v).res = v := rfl
@[simp] theorem setRes_bits (v : Word) : (s.setRes v).bits = s.bits := rfl
@[simp] theorem setRes_expf (v : Word) : (s.setRes v).expf = s.expf := rfl
@[simp] theorem setRes_preceff (v : Word) : (s.setRes v).preceff = s.preceff := rfl
@[simp] theorem setRes_flt (v : Word) : (s.setRes v).flt = s.flt := rfl
@[simp] theorem setRes_fifo (v : Word) : (s.setRes v).fifo = s.fifo := rfl
@[simp] theorem setRes_mem (v : Word) : (s.setRes v).mem = s.mem := rfl
@[simp] theorem setRes_hostq (v : Word) : (s.setRes v).hostq = s.hostq := rfl
@[simp] theorem setRes_rdata (v : Word) : (s.setRes v).rdata = s.rdata := rfl
@[simp] theorem setRes_ty (v : Word) : (s.setRes v).ty = s.ty := rfl
@[simp] theorem setRes_dim (v : Word) : (s.setRes v).dim = s.dim := rfl
@[simp] theorem setRes_size (v : Word) : (s.setRes v).size = s.size := rfl
@[simp] theorem setRes_width (v : Word) : (s.setRes v).width = s.width := rfl
@[simp] theorem setRes_minExp (v : Word) : (s.setRes v).minExp = s.minExp := rfl
@[simp] theorem setRes_capBits (v : Word) : (s.setRes v).capBits = s.capBits := rfl
@[simp] theorem setRes_extent (v : Word) (a : Nat) : (s.setRes v).extent a = s.extent a := rfl
@[simp] theorem setRes_precision (v : Word) (E : Nat) : (s.setRes v).precision E = s.precision E := rfl
@[simp] theorem setRes_pos (v : Word) : (s.setRes v).pos = s.pos := rfl
@[simp] theorem setRes_planes (v : Word) : (s.setRes v).planes = s.planes := rfl
@[simp] theorem setRes_expE (v : Word) : (s.setRes v).expE = s.expE := rfl
@[simp] theorem setRes_samples (v : Word) : (s.setRes v).samples = s.samples := rfl
@[simp] theorem setRes_coeffs (v : Word) : (s.setRes v).coeffs = s.coeffs := rfl

/-! ### setBits -/

@[simp] theorem setBits_blk (v : BitVec 32) : (s.setBits v).blk = s.blk := rfl
@[simp] theorem setBits_coef (v : BitVec 32) : (s.setBits v).coef = s.coef := rfl
@[simp] theorem setBits_cfg (v : BitVec 32) : (s.setBits v).cfg = s.cfg := rfl
@[simp] theorem setBits_res (v : BitVec 32) : (s.setBits v).res = s.res := rfl
@[simp] theorem setBits_bits (v : BitVec 32) : (s.setBits v).bits = v := rfl
@[simp] theorem setBits_expf (v : BitVec 32) : (s.setBits v).expf = s.expf := rfl
@[simp] theorem setBits_preceff (v : BitVec 32) : (s.setBits v).preceff = s.preceff := rfl
@[simp] theorem setBits_flt (v : BitVec 32) : (s.setBits v).flt = s.flt := rfl
@[simp] theorem setBits_fifo (v : BitVec 32) : (s.setBits v).fifo = s.fifo := rfl
@[simp] theorem setBits_mem (v : BitVec 32) : (s.setBits v).mem = s.mem := rfl
@[simp] theorem setBits_hostq (v : BitVec 32) : (s.setBits v).hostq = s.hostq := rfl
@[simp] theorem setBits_rdata (v : BitVec 32) : (s.setBits v).rdata = s.rdata := rfl
@[simp] theorem setBits_ty (v : BitVec 32) : (s.setBits v).ty = s.ty := rfl
@[simp] theorem setBits_dim (v : BitVec 32) : (s.setBits v).dim = s.dim := rfl
@[simp] theorem setBits_size (v : BitVec 32) : (s.setBits v).size = s.size := rfl
@[simp] theorem setBits_width (v : BitVec 32) : (s.setBits v).width = s.width := rfl
@[simp] theorem setBits_minExp (v : BitVec 32) : (s.setBits v).minExp = s.minExp := rfl
@[simp] theorem setBits_capBits (v : BitVec 32) : (s.setBits v).capBits = s.capBits := rfl
@[simp] theorem setBits_extent (v : BitVec 32) (a : Nat) : (s.setBits v).extent a = s.extent a := rfl
@[simp] theorem setBits_precision (v : BitVec 32) (E : Nat) : (s.setBits v).precision E = s.precision E := rfl
@[simp] theorem setBits_pos (v : BitVec 32) : (s.setBits v).pos = s.pos := rfl
@[simp] theorem setBits_planes (v : BitVec 32) : (s.setBits v).planes = s.planes := rfl
@[simp] theorem setBits_expE (v : BitVec 32) : (s.setBits v).expE = s.expE := rfl
@[simp] theorem setBits_samples (v : BitVec 32) : (s.setBits v).samples = s.samples := rfl
@[simp] theorem setBits_coeffs (v : BitVec 32) : (s.setBits v).coeffs = s.coeffs := rfl

/-! ### setExpf -/

@[simp] theorem setExpf_blk (v : BitVec 11) : (s.setExpf v).blk = s.blk := rfl
@[simp] theorem setExpf_coef (v : BitVec 11) : (s.setExpf v).coef = s.coef := rfl
@[simp] theorem setExpf_cfg (v : BitVec 11) : (s.setExpf v).cfg = s.cfg := rfl
@[simp] theorem setExpf_res (v : BitVec 11) : (s.setExpf v).res = s.res := rfl
@[simp] theorem setExpf_bits (v : BitVec 11) : (s.setExpf v).bits = s.bits := rfl
@[simp] theorem setExpf_expf (v : BitVec 11) : (s.setExpf v).expf = v := rfl
@[simp] theorem setExpf_preceff (v : BitVec 11) : (s.setExpf v).preceff = s.preceff := rfl
@[simp] theorem setExpf_flt (v : BitVec 11) : (s.setExpf v).flt = s.flt := rfl
@[simp] theorem setExpf_fifo (v : BitVec 11) : (s.setExpf v).fifo = s.fifo := rfl
@[simp] theorem setExpf_mem (v : BitVec 11) : (s.setExpf v).mem = s.mem := rfl
@[simp] theorem setExpf_hostq (v : BitVec 11) : (s.setExpf v).hostq = s.hostq := rfl
@[simp] theorem setExpf_rdata (v : BitVec 11) : (s.setExpf v).rdata = s.rdata := rfl
@[simp] theorem setExpf_ty (v : BitVec 11) : (s.setExpf v).ty = s.ty := rfl
@[simp] theorem setExpf_dim (v : BitVec 11) : (s.setExpf v).dim = s.dim := rfl
@[simp] theorem setExpf_size (v : BitVec 11) : (s.setExpf v).size = s.size := rfl
@[simp] theorem setExpf_width (v : BitVec 11) : (s.setExpf v).width = s.width := rfl
@[simp] theorem setExpf_minExp (v : BitVec 11) : (s.setExpf v).minExp = s.minExp := rfl
@[simp] theorem setExpf_capBits (v : BitVec 11) : (s.setExpf v).capBits = s.capBits := rfl
@[simp] theorem setExpf_extent (v : BitVec 11) (a : Nat) : (s.setExpf v).extent a = s.extent a := rfl
@[simp] theorem setExpf_precision (v : BitVec 11) (E : Nat) : (s.setExpf v).precision E = s.precision E := rfl
@[simp] theorem setExpf_pos (v : BitVec 11) : (s.setExpf v).pos = s.pos := rfl
@[simp] theorem setExpf_planes (v : BitVec 11) : (s.setExpf v).planes = s.planes := rfl
@[simp] theorem setExpf_samples (v : BitVec 11) : (s.setExpf v).samples = s.samples := rfl
@[simp] theorem setExpf_coeffs (v : BitVec 11) : (s.setExpf v).coeffs = s.coeffs := rfl

/-! ### setPreceff -/

@[simp] theorem setPreceff_blk (v : BitVec 7) : (s.setPreceff v).blk = s.blk := rfl
@[simp] theorem setPreceff_coef (v : BitVec 7) : (s.setPreceff v).coef = s.coef := rfl
@[simp] theorem setPreceff_cfg (v : BitVec 7) : (s.setPreceff v).cfg = s.cfg := rfl
@[simp] theorem setPreceff_res (v : BitVec 7) : (s.setPreceff v).res = s.res := rfl
@[simp] theorem setPreceff_bits (v : BitVec 7) : (s.setPreceff v).bits = s.bits := rfl
@[simp] theorem setPreceff_expf (v : BitVec 7) : (s.setPreceff v).expf = s.expf := rfl
@[simp] theorem setPreceff_preceff (v : BitVec 7) : (s.setPreceff v).preceff = v := rfl
@[simp] theorem setPreceff_flt (v : BitVec 7) : (s.setPreceff v).flt = s.flt := rfl
@[simp] theorem setPreceff_fifo (v : BitVec 7) : (s.setPreceff v).fifo = s.fifo := rfl
@[simp] theorem setPreceff_mem (v : BitVec 7) : (s.setPreceff v).mem = s.mem := rfl
@[simp] theorem setPreceff_hostq (v : BitVec 7) : (s.setPreceff v).hostq = s.hostq := rfl
@[simp] theorem setPreceff_rdata (v : BitVec 7) : (s.setPreceff v).rdata = s.rdata := rfl
@[simp] theorem setPreceff_ty (v : BitVec 7) : (s.setPreceff v).ty = s.ty := rfl
@[simp] theorem setPreceff_dim (v : BitVec 7) : (s.setPreceff v).dim = s.dim := rfl
@[simp] theorem setPreceff_size (v : BitVec 7) : (s.setPreceff v).size = s.size := rfl
@[simp] theorem setPreceff_width (v : BitVec 7) : (s.setPreceff v).width = s.width := rfl
@[simp] theorem setPreceff_minExp (v : BitVec 7) : (s.setPreceff v).minExp = s.minExp := rfl
@[simp] theorem setPreceff_capBits (v : BitVec 7) : (s.setPreceff v).capBits = s.capBits := rfl
@[simp] theorem setPreceff_extent (v : BitVec 7) (a : Nat) : (s.setPreceff v).extent a = s.extent a := rfl
@[simp] theorem setPreceff_precision (v : BitVec 7) (E : Nat) : (s.setPreceff v).precision E = s.precision E := rfl
@[simp] theorem setPreceff_pos (v : BitVec 7) : (s.setPreceff v).pos = s.pos := rfl
@[simp] theorem setPreceff_expE (v : BitVec 7) : (s.setPreceff v).expE = s.expE := rfl
@[simp] theorem setPreceff_samples (v : BitVec 7) : (s.setPreceff v).samples = s.samples := rfl
@[simp] theorem setPreceff_coeffs (v : BitVec 7) : (s.setPreceff v).coeffs = s.coeffs := rfl

/-! ### setFlt -/

@[simp] theorem setFlt_blk (v : FaultRec) : (s.setFlt v).blk = s.blk := rfl
@[simp] theorem setFlt_coef (v : FaultRec) : (s.setFlt v).coef = s.coef := rfl
@[simp] theorem setFlt_cfg (v : FaultRec) : (s.setFlt v).cfg = s.cfg := rfl
@[simp] theorem setFlt_res (v : FaultRec) : (s.setFlt v).res = s.res := rfl
@[simp] theorem setFlt_bits (v : FaultRec) : (s.setFlt v).bits = s.bits := rfl
@[simp] theorem setFlt_expf (v : FaultRec) : (s.setFlt v).expf = s.expf := rfl
@[simp] theorem setFlt_preceff (v : FaultRec) : (s.setFlt v).preceff = s.preceff := rfl
@[simp] theorem setFlt_flt (v : FaultRec) : (s.setFlt v).flt = v := rfl
@[simp] theorem setFlt_fifo (v : FaultRec) : (s.setFlt v).fifo = s.fifo := rfl
@[simp] theorem setFlt_mem (v : FaultRec) : (s.setFlt v).mem = s.mem := rfl
@[simp] theorem setFlt_hostq (v : FaultRec) : (s.setFlt v).hostq = s.hostq := rfl
@[simp] theorem setFlt_rdata (v : FaultRec) : (s.setFlt v).rdata = s.rdata := rfl
@[simp] theorem setFlt_ty (v : FaultRec) : (s.setFlt v).ty = s.ty := rfl
@[simp] theorem setFlt_dim (v : FaultRec) : (s.setFlt v).dim = s.dim := rfl
@[simp] theorem setFlt_size (v : FaultRec) : (s.setFlt v).size = s.size := rfl
@[simp] theorem setFlt_width (v : FaultRec) : (s.setFlt v).width = s.width := rfl
@[simp] theorem setFlt_minExp (v : FaultRec) : (s.setFlt v).minExp = s.minExp := rfl
@[simp] theorem setFlt_capBits (v : FaultRec) : (s.setFlt v).capBits = s.capBits := rfl
@[simp] theorem setFlt_extent (v : FaultRec) (a : Nat) : (s.setFlt v).extent a = s.extent a := rfl
@[simp] theorem setFlt_precision (v : FaultRec) (E : Nat) : (s.setFlt v).precision E = s.precision E := rfl
@[simp] theorem setFlt_pos (v : FaultRec) : (s.setFlt v).pos = s.pos := rfl
@[simp] theorem setFlt_planes (v : FaultRec) : (s.setFlt v).planes = s.planes := rfl
@[simp] theorem setFlt_expE (v : FaultRec) : (s.setFlt v).expE = s.expE := rfl
@[simp] theorem setFlt_samples (v : FaultRec) : (s.setFlt v).samples = s.samples := rfl
@[simp] theorem setFlt_coeffs (v : FaultRec) : (s.setFlt v).coeffs = s.coeffs := rfl

/-! ### setFifo -/

@[simp] theorem setFifo_blk (v : Fifo) : (s.setFifo v).blk = s.blk := rfl
@[simp] theorem setFifo_coef (v : Fifo) : (s.setFifo v).coef = s.coef := rfl
@[simp] theorem setFifo_cfg (v : Fifo) : (s.setFifo v).cfg = s.cfg := rfl
@[simp] theorem setFifo_res (v : Fifo) : (s.setFifo v).res = s.res := rfl
@[simp] theorem setFifo_bits (v : Fifo) : (s.setFifo v).bits = s.bits := rfl
@[simp] theorem setFifo_expf (v : Fifo) : (s.setFifo v).expf = s.expf := rfl
@[simp] theorem setFifo_preceff (v : Fifo) : (s.setFifo v).preceff = s.preceff := rfl
@[simp] theorem setFifo_flt (v : Fifo) : (s.setFifo v).flt = s.flt := rfl
@[simp] theorem setFifo_fifo (v : Fifo) : (s.setFifo v).fifo = v := rfl
@[simp] theorem setFifo_mem (v : Fifo) : (s.setFifo v).mem = s.mem := rfl
@[simp] theorem setFifo_hostq (v : Fifo) : (s.setFifo v).hostq = s.hostq := rfl
@[simp] theorem setFifo_rdata (v : Fifo) : (s.setFifo v).rdata = s.rdata := rfl
@[simp] theorem setFifo_ty (v : Fifo) : (s.setFifo v).ty = s.ty := rfl
@[simp] theorem setFifo_dim (v : Fifo) : (s.setFifo v).dim = s.dim := rfl
@[simp] theorem setFifo_size (v : Fifo) : (s.setFifo v).size = s.size := rfl
@[simp] theorem setFifo_width (v : Fifo) : (s.setFifo v).width = s.width := rfl
@[simp] theorem setFifo_minExp (v : Fifo) : (s.setFifo v).minExp = s.minExp := rfl
@[simp] theorem setFifo_capBits (v : Fifo) : (s.setFifo v).capBits = s.capBits := rfl
@[simp] theorem setFifo_extent (v : Fifo) (a : Nat) : (s.setFifo v).extent a = s.extent a := rfl
@[simp] theorem setFifo_precision (v : Fifo) (E : Nat) : (s.setFifo v).precision E = s.precision E := rfl
@[simp] theorem setFifo_planes (v : Fifo) : (s.setFifo v).planes = s.planes := rfl
@[simp] theorem setFifo_expE (v : Fifo) : (s.setFifo v).expE = s.expE := rfl
@[simp] theorem setFifo_samples (v : Fifo) : (s.setFifo v).samples = s.samples := rfl
@[simp] theorem setFifo_coeffs (v : Fifo) : (s.setFifo v).coeffs = s.coeffs := rfl

/-! ### setMem -/

@[simp] theorem setMem_blk (v : Mem) : (s.setMem v).blk = s.blk := rfl
@[simp] theorem setMem_coef (v : Mem) : (s.setMem v).coef = s.coef := rfl
@[simp] theorem setMem_cfg (v : Mem) : (s.setMem v).cfg = s.cfg := rfl
@[simp] theorem setMem_res (v : Mem) : (s.setMem v).res = s.res := rfl
@[simp] theorem setMem_bits (v : Mem) : (s.setMem v).bits = s.bits := rfl
@[simp] theorem setMem_expf (v : Mem) : (s.setMem v).expf = s.expf := rfl
@[simp] theorem setMem_preceff (v : Mem) : (s.setMem v).preceff = s.preceff := rfl
@[simp] theorem setMem_flt (v : Mem) : (s.setMem v).flt = s.flt := rfl
@[simp] theorem setMem_fifo (v : Mem) : (s.setMem v).fifo = s.fifo := rfl
@[simp] theorem setMem_mem (v : Mem) : (s.setMem v).mem = v := rfl
@[simp] theorem setMem_hostq (v : Mem) : (s.setMem v).hostq = s.hostq := rfl
@[simp] theorem setMem_rdata (v : Mem) : (s.setMem v).rdata = s.rdata := rfl
@[simp] theorem setMem_ty (v : Mem) : (s.setMem v).ty = s.ty := rfl
@[simp] theorem setMem_dim (v : Mem) : (s.setMem v).dim = s.dim := rfl
@[simp] theorem setMem_size (v : Mem) : (s.setMem v).size = s.size := rfl
@[simp] theorem setMem_width (v : Mem) : (s.setMem v).width = s.width := rfl
@[simp] theorem setMem_minExp (v : Mem) : (s.setMem v).minExp = s.minExp := rfl
@[simp] theorem setMem_capBits (v : Mem) : (s.setMem v).capBits = s.capBits := rfl
@[simp] theorem setMem_extent (v : Mem) (a : Nat) : (s.setMem v).extent a = s.extent a := rfl
@[simp] theorem setMem_precision (v : Mem) (E : Nat) : (s.setMem v).precision E = s.precision E := rfl
@[simp] theorem setMem_pos (v : Mem) : (s.setMem v).pos = s.pos := rfl
@[simp] theorem setMem_planes (v : Mem) : (s.setMem v).planes = s.planes := rfl
@[simp] theorem setMem_expE (v : Mem) : (s.setMem v).expE = s.expE := rfl
@[simp] theorem setMem_samples (v : Mem) : (s.setMem v).samples = s.samples := rfl
@[simp] theorem setMem_coeffs (v : Mem) : (s.setMem v).coeffs = s.coeffs := rfl

/-! ### setHostq -/

@[simp] theorem setHostq_blk (v : List HostAccess) : (s.setHostq v).blk = s.blk := rfl
@[simp] theorem setHostq_coef (v : List HostAccess) : (s.setHostq v).coef = s.coef := rfl
@[simp] theorem setHostq_cfg (v : List HostAccess) : (s.setHostq v).cfg = s.cfg := rfl
@[simp] theorem setHostq_res (v : List HostAccess) : (s.setHostq v).res = s.res := rfl
@[simp] theorem setHostq_bits (v : List HostAccess) : (s.setHostq v).bits = s.bits := rfl
@[simp] theorem setHostq_expf (v : List HostAccess) : (s.setHostq v).expf = s.expf := rfl
@[simp] theorem setHostq_preceff (v : List HostAccess) : (s.setHostq v).preceff = s.preceff := rfl
@[simp] theorem setHostq_flt (v : List HostAccess) : (s.setHostq v).flt = s.flt := rfl
@[simp] theorem setHostq_fifo (v : List HostAccess) : (s.setHostq v).fifo = s.fifo := rfl
@[simp] theorem setHostq_mem (v : List HostAccess) : (s.setHostq v).mem = s.mem := rfl
@[simp] theorem setHostq_hostq (v : List HostAccess) : (s.setHostq v).hostq = v := rfl
@[simp] theorem setHostq_rdata (v : List HostAccess) : (s.setHostq v).rdata = s.rdata := rfl
@[simp] theorem setHostq_ty (v : List HostAccess) : (s.setHostq v).ty = s.ty := rfl
@[simp] theorem setHostq_dim (v : List HostAccess) : (s.setHostq v).dim = s.dim := rfl
@[simp] theorem setHostq_size (v : List HostAccess) : (s.setHostq v).size = s.size := rfl
@[simp] theorem setHostq_width (v : List HostAccess) : (s.setHostq v).width = s.width := rfl
@[simp] theorem setHostq_minExp (v : List HostAccess) : (s.setHostq v).minExp = s.minExp := rfl
@[simp] theorem setHostq_capBits (v : List HostAccess) : (s.setHostq v).capBits = s.capBits := rfl
@[simp] theorem setHostq_extent (v : List HostAccess) (a : Nat) : (s.setHostq v).extent a = s.extent a := rfl
@[simp] theorem setHostq_precision (v : List HostAccess) (E : Nat) : (s.setHostq v).precision E = s.precision E := rfl
@[simp] theorem setHostq_pos (v : List HostAccess) : (s.setHostq v).pos = s.pos := rfl
@[simp] theorem setHostq_planes (v : List HostAccess) : (s.setHostq v).planes = s.planes := rfl
@[simp] theorem setHostq_expE (v : List HostAccess) : (s.setHostq v).expE = s.expE := rfl
@[simp] theorem setHostq_samples (v : List HostAccess) : (s.setHostq v).samples = s.samples := rfl
@[simp] theorem setHostq_coeffs (v : List HostAccess) : (s.setHostq v).coeffs = s.coeffs := rfl

/-! ### setRdata -/

@[simp] theorem setRdata_blk (v : Word) : (s.setRdata v).blk = s.blk := rfl
@[simp] theorem setRdata_coef (v : Word) : (s.setRdata v).coef = s.coef := rfl
@[simp] theorem setRdata_cfg (v : Word) : (s.setRdata v).cfg = s.cfg := rfl
@[simp] theorem setRdata_res (v : Word) : (s.setRdata v).res = s.res := rfl
@[simp] theorem setRdata_bits (v : Word) : (s.setRdata v).bits = s.bits := rfl
@[simp] theorem setRdata_expf (v : Word) : (s.setRdata v).expf = s.expf := rfl
@[simp] theorem setRdata_preceff (v : Word) : (s.setRdata v).preceff = s.preceff := rfl
@[simp] theorem setRdata_flt (v : Word) : (s.setRdata v).flt = s.flt := rfl
@[simp] theorem setRdata_fifo (v : Word) : (s.setRdata v).fifo = s.fifo := rfl
@[simp] theorem setRdata_mem (v : Word) : (s.setRdata v).mem = s.mem := rfl
@[simp] theorem setRdata_hostq (v : Word) : (s.setRdata v).hostq = s.hostq := rfl
@[simp] theorem setRdata_rdata (v : Word) : (s.setRdata v).rdata = v := rfl
@[simp] theorem setRdata_ty (v : Word) : (s.setRdata v).ty = s.ty := rfl
@[simp] theorem setRdata_dim (v : Word) : (s.setRdata v).dim = s.dim := rfl
@[simp] theorem setRdata_size (v : Word) : (s.setRdata v).size = s.size := rfl
@[simp] theorem setRdata_width (v : Word) : (s.setRdata v).width = s.width := rfl
@[simp] theorem setRdata_minExp (v : Word) : (s.setRdata v).minExp = s.minExp := rfl
@[simp] theorem setRdata_capBits (v : Word) : (s.setRdata v).capBits = s.capBits := rfl
@[simp] theorem setRdata_extent (v : Word) (a : Nat) : (s.setRdata v).extent a = s.extent a := rfl
@[simp] theorem setRdata_precision (v : Word) (E : Nat) : (s.setRdata v).precision E = s.precision E := rfl
@[simp] theorem setRdata_pos (v : Word) : (s.setRdata v).pos = s.pos := rfl
@[simp] theorem setRdata_planes (v : Word) : (s.setRdata v).planes = s.planes := rfl
@[simp] theorem setRdata_expE (v : Word) : (s.setRdata v).expE = s.expE := rfl
@[simp] theorem setRdata_samples (v : Word) : (s.setRdata v).samples = s.samples := rfl
@[simp] theorem setRdata_coeffs (v : Word) : (s.setRdata v).coeffs = s.coeffs := rfl

/-! ### raise -/

@[simp] theorem raise_blk (f : HwFault) (i : Word) : (s.raise f i).blk = s.blk := rfl
@[simp] theorem raise_coef (f : HwFault) (i : Word) : (s.raise f i).coef = s.coef := rfl
@[simp] theorem raise_cfg (f : HwFault) (i : Word) : (s.raise f i).cfg = s.cfg := rfl
@[simp] theorem raise_res (f : HwFault) (i : Word) : (s.raise f i).res = s.res := rfl
@[simp] theorem raise_bits (f : HwFault) (i : Word) : (s.raise f i).bits = s.bits := rfl
@[simp] theorem raise_expf (f : HwFault) (i : Word) : (s.raise f i).expf = s.expf := rfl
@[simp] theorem raise_preceff (f : HwFault) (i : Word) : (s.raise f i).preceff = s.preceff := rfl
@[simp] theorem raise_fifo (f : HwFault) (i : Word) : (s.raise f i).fifo = s.fifo := rfl
@[simp] theorem raise_mem (f : HwFault) (i : Word) : (s.raise f i).mem = s.mem := rfl
@[simp] theorem raise_hostq (f : HwFault) (i : Word) : (s.raise f i).hostq = s.hostq := rfl
@[simp] theorem raise_rdata (f : HwFault) (i : Word) : (s.raise f i).rdata = s.rdata := rfl
@[simp] theorem raise_ty (f : HwFault) (i : Word) : (s.raise f i).ty = s.ty := rfl
@[simp] theorem raise_dim (f : HwFault) (i : Word) : (s.raise f i).dim = s.dim := rfl
@[simp] theorem raise_size (f : HwFault) (i : Word) : (s.raise f i).size = s.size := rfl
@[simp] theorem raise_width (f : HwFault) (i : Word) : (s.raise f i).width = s.width := rfl
@[simp] theorem raise_minExp (f : HwFault) (i : Word) : (s.raise f i).minExp = s.minExp := rfl
@[simp] theorem raise_capBits (f : HwFault) (i : Word) : (s.raise f i).capBits = s.capBits := rfl
@[simp] theorem raise_pos (f : HwFault) (i : Word) : (s.raise f i).pos = s.pos := rfl
@[simp] theorem raise_planes (f : HwFault) (i : Word) : (s.raise f i).planes = s.planes := rfl
@[simp] theorem raise_expE (f : HwFault) (i : Word) : (s.raise f i).expE = s.expE := rfl
@[simp] theorem raise_extent (f : HwFault) (i : Word) (a : Nat) : (s.raise f i).extent a = s.extent a := rfl
@[simp] theorem raise_samples (f : HwFault) (i : Word) : (s.raise f i).samples = s.samples := rfl
@[simp] theorem raise_coeffs (f : HwFault) (i : Word) : (s.raise f i).coeffs = s.coeffs := rfl
theorem raise_flt (f : HwFault) (i : Word) :
    (s.raise f i).flt = ⟨s.flt.flags ||| (1#5 <<< f.bit), BitVec.ofNat 8 (f.bit + 1), i⟩ := rfl

/-! ### putCoeffs -/

@[simp] theorem putCoeffs_blk {N : Nat} (vs : List (BitVec N)) : (s.putCoeffs vs).blk = s.blk := rfl
@[simp] theorem putCoeffs_cfg {N : Nat} (vs : List (BitVec N)) : (s.putCoeffs vs).cfg = s.cfg := rfl
@[simp] theorem putCoeffs_res {N : Nat} (vs : List (BitVec N)) : (s.putCoeffs vs).res = s.res := rfl
@[simp] theorem putCoeffs_bits {N : Nat} (vs : List (BitVec N)) : (s.putCoeffs vs).bits = s.bits := rfl
@[simp] theorem putCoeffs_expf {N : Nat} (vs : List (BitVec N)) : (s.putCoeffs vs).expf = s.expf := rfl
@[simp] theorem putCoeffs_preceff {N : Nat} (vs : List (BitVec N)) : (s.putCoeffs vs).preceff = s.preceff := rfl
@[simp] theorem putCoeffs_flt {N : Nat} (vs : List (BitVec N)) : (s.putCoeffs vs).flt = s.flt := rfl
@[simp] theorem putCoeffs_fifo {N : Nat} (vs : List (BitVec N)) : (s.putCoeffs vs).fifo = s.fifo := rfl
@[simp] theorem putCoeffs_mem {N : Nat} (vs : List (BitVec N)) : (s.putCoeffs vs).mem = s.mem := rfl
@[simp] theorem putCoeffs_hostq {N : Nat} (vs : List (BitVec N)) : (s.putCoeffs vs).hostq = s.hostq := rfl
@[simp] theorem putCoeffs_rdata {N : Nat} (vs : List (BitVec N)) : (s.putCoeffs vs).rdata = s.rdata := rfl
@[simp] theorem putCoeffs_ty {N : Nat} (vs : List (BitVec N)) : (s.putCoeffs vs).ty = s.ty := rfl
@[simp] theorem putCoeffs_dim {N : Nat} (vs : List (BitVec N)) : (s.putCoeffs vs).dim = s.dim := rfl
@[simp] theorem putCoeffs_size {N : Nat} (vs : List (BitVec N)) : (s.putCoeffs vs).size = s.size := rfl
@[simp] theorem putCoeffs_width {N : Nat} (vs : List (BitVec N)) : (s.putCoeffs vs).width = s.width := rfl
@[simp] theorem putCoeffs_minExp {N : Nat} (vs : List (BitVec N)) : (s.putCoeffs vs).minExp = s.minExp := rfl
@[simp] theorem putCoeffs_capBits {N : Nat} (vs : List (BitVec N)) : (s.putCoeffs vs).capBits = s.capBits := rfl
@[simp] theorem putCoeffs_pos {N : Nat} (vs : List (BitVec N)) : (s.putCoeffs vs).pos = s.pos := rfl
@[simp] theorem putCoeffs_planes {N : Nat} (vs : List (BitVec N)) : (s.putCoeffs vs).planes = s.planes := rfl
@[simp] theorem putCoeffs_expE {N : Nat} (vs : List (BitVec N)) : (s.putCoeffs vs).expE = s.expE := rfl
@[simp] theorem putCoeffs_extent {N : Nat} (vs : List (BitVec N)) (a : Nat) : (s.putCoeffs vs).extent a = s.extent a := rfl
@[simp] theorem putCoeffs_samples {N : Nat} (vs : List (BitVec N)) : (s.putCoeffs vs).samples = s.samples := rfl
theorem putCoeffs_coef {N : Nat} (vs : List (BitVec N)) : (s.putCoeffs vs).coef = s.coef.putValues s.size vs := rfl

/-! ### putSamples -/

@[simp] theorem putSamples_coef {N : Nat} (vs : List (BitVec N)) : (s.putSamples vs).coef = s.coef := rfl
@[simp] theorem putSamples_cfg {N : Nat} (vs : List (BitVec N)) : (s.putSamples vs).cfg = s.cfg := rfl
@[simp] theorem putSamples_res {N : Nat} (vs : List (BitVec N)) : (s.putSamples vs).res = s.res := rfl
@[simp] theorem putSamples_bits {N : Nat} (vs : List (BitVec N)) : (s.putSamples vs).bits = s.bits := rfl
@[simp] theorem putSamples_expf {N : Nat} (vs : List (BitVec N)) : (s.putSamples vs).expf = s.expf := rfl
@[simp] theorem putSamples_preceff {N : Nat} (vs : List (BitVec N)) : (s.putSamples vs).preceff = s.preceff := rfl
@[simp] theorem putSamples_flt {N : Nat} (vs : List (BitVec N)) : (s.putSamples vs).flt = s.flt := rfl
@[simp] theorem putSamples_fifo {N : Nat} (vs : List (BitVec N)) : (s.putSamples vs).fifo = s.fifo := rfl
@[simp] theorem putSamples_mem {N : Nat} (vs : List (BitVec N)) : (s.putSamples vs).mem = s.mem := rfl
@[simp] theorem putSamples_hostq {N : Nat} (vs : List (BitVec N)) : (s.putSamples vs).hostq = s.hostq := rfl
@[simp] theorem putSamples_rdata {N : Nat} (vs : List (BitVec N)) : (s.putSamples vs).rdata = s.rdata := rfl
@[simp] theorem putSamples_ty {N : Nat} (vs : List (BitVec N)) : (s.putSamples vs).ty = s.ty := rfl
@[simp] theorem putSamples_dim {N : Nat} (vs : List (BitVec N)) : (s.putSamples vs).dim = s.dim := rfl
@[simp] theorem putSamples_size {N : Nat} (vs : List (BitVec N)) : (s.putSamples vs).size = s.size := rfl
@[simp] theorem putSamples_width {N : Nat} (vs : List (BitVec N)) : (s.putSamples vs).width = s.width := rfl
@[simp] theorem putSamples_minExp {N : Nat} (vs : List (BitVec N)) : (s.putSamples vs).minExp = s.minExp := rfl
@[simp] theorem putSamples_capBits {N : Nat} (vs : List (BitVec N)) : (s.putSamples vs).capBits = s.capBits := rfl
@[simp] theorem putSamples_pos {N : Nat} (vs : List (BitVec N)) : (s.putSamples vs).pos = s.pos := rfl
@[simp] theorem putSamples_planes {N : Nat} (vs : List (BitVec N)) : (s.putSamples vs).planes = s.planes := rfl
@[simp] theorem putSamples_expE {N : Nat} (vs : List (BitVec N)) : (s.putSamples vs).expE = s.expE := rfl
@[simp] theorem putSamples_extent {N : Nat} (vs : List (BitVec N)) (a : Nat) : (s.putSamples vs).extent a = s.extent a := rfl
@[simp] theorem putSamples_coeffs {N : Nat} (vs : List (BitVec N)) : (s.putSamples vs).coeffs = s.coeffs := rfl
theorem putSamples_blk {N : Nat} (vs : List (BitVec N)) : (s.putSamples vs).blk = s.blk.putValues s.size vs := rfl

/-! ### forward -/

@[simp] theorem forward_blk : (s.forward).blk = s.blk := rfl
@[simp] theorem forward_cfg : (s.forward).cfg = s.cfg := rfl
@[simp] theorem forward_res : (s.forward).res = s.res := rfl
@[simp] theorem forward_bits : (s.forward).bits = s.bits := rfl
@[simp] theorem forward_expf : (s.forward).expf = s.expf := rfl
@[simp] theorem forward_preceff : (s.forward).preceff = s.preceff := rfl
@[simp] theorem forward_flt : (s.forward).flt = s.flt := rfl
@[simp] theorem forward_fifo : (s.forward).fifo = s.fifo := rfl
@[simp] theorem forward_mem : (s.forward).mem = s.mem := rfl
@[simp] theorem forward_hostq : (s.forward).hostq = s.hostq := rfl
@[simp] theorem forward_rdata : (s.forward).rdata = s.rdata := rfl
@[simp] theorem forward_ty : (s.forward).ty = s.ty := rfl
@[simp] theorem forward_dim : (s.forward).dim = s.dim := rfl
@[simp] theorem forward_size : (s.forward).size = s.size := rfl
@[simp] theorem forward_width : (s.forward).width = s.width := rfl
@[simp] theorem forward_minExp : (s.forward).minExp = s.minExp := rfl
@[simp] theorem forward_capBits : (s.forward).capBits = s.capBits := rfl
@[simp] theorem forward_pos : (s.forward).pos = s.pos := rfl
@[simp] theorem forward_planes : (s.forward).planes = s.planes := rfl
@[simp] theorem forward_expE : (s.forward).expE = s.expE := rfl
@[simp] theorem forward_extent (a : Nat) : (s.forward).extent a = s.extent a := rfl
@[simp] theorem forward_samples : (s.forward).samples = s.samples := rfl

/-! ### inverse -/

@[simp] theorem inverse_blk : (s.inverse).blk = s.blk := rfl
@[simp] theorem inverse_cfg : (s.inverse).cfg = s.cfg := rfl
@[simp] theorem inverse_res : (s.inverse).res = s.res := rfl
@[simp] theorem inverse_bits : (s.inverse).bits = s.bits := rfl
@[simp] theorem inverse_expf : (s.inverse).expf = s.expf := rfl
@[simp] theorem inverse_preceff : (s.inverse).preceff = s.preceff := rfl
@[simp] theorem inverse_flt : (s.inverse).flt = s.flt := rfl
@[simp] theorem inverse_fifo : (s.inverse).fifo = s.fifo := rfl
@[simp] theorem inverse_mem : (s.inverse).mem = s.mem := rfl
@[simp] theorem inverse_hostq : (s.inverse).hostq = s.hostq := rfl
@[simp] theorem inverse_rdata : (s.inverse).rdata = s.rdata := rfl
@[simp] theorem inverse_ty : (s.inverse).ty = s.ty := rfl
@[simp] theorem inverse_dim : (s.inverse).dim = s.dim := rfl
@[simp] theorem inverse_size : (s.inverse).size = s.size := rfl
@[simp] theorem inverse_width : (s.inverse).width = s.width := rfl
@[simp] theorem inverse_minExp : (s.inverse).minExp = s.minExp := rfl
@[simp] theorem inverse_capBits : (s.inverse).capBits = s.capBits := rfl
@[simp] theorem inverse_pos : (s.inverse).pos = s.pos := rfl
@[simp] theorem inverse_planes : (s.inverse).planes = s.planes := rfl
@[simp] theorem inverse_expE : (s.inverse).expE = s.expE := rfl
@[simp] theorem inverse_extent (a : Nat) : (s.inverse).extent a = s.extent a := rfl
@[simp] theorem inverse_samples : (s.inverse).samples = s.samples := rfl

/-! ### pad -/

@[simp] theorem pad_coef : (s.pad).coef = s.coef := rfl
@[simp] theorem pad_cfg : (s.pad).cfg = s.cfg := rfl
@[simp] theorem pad_res : (s.pad).res = s.res := rfl
@[simp] theorem pad_bits : (s.pad).bits = s.bits := rfl
@[simp] theorem pad_expf : (s.pad).expf = s.expf := rfl
@[simp] theorem pad_preceff : (s.pad).preceff = s.preceff := rfl
@[simp] theorem pad_flt : (s.pad).flt = s.flt := rfl
@[simp] theorem pad_fifo : (s.pad).fifo = s.fifo := rfl
@[simp] theorem pad_mem : (s.pad).mem = s.mem := rfl
@[simp] theorem pad_hostq : (s.pad).hostq = s.hostq := rfl
@[simp] theorem pad_rdata : (s.pad).rdata = s.rdata := rfl
@[simp] theorem pad_ty : (s.pad).ty = s.ty := rfl
@[simp] theorem pad_dim : (s.pad).dim = s.dim := rfl
@[simp] theorem pad_size : (s.pad).size = s.size := rfl
@[simp] theorem pad_width : (s.pad).width = s.width := rfl
@[simp] theorem pad_minExp : (s.pad).minExp = s.minExp := rfl
@[simp] theorem pad_capBits : (s.pad).capBits = s.capBits := rfl
@[simp] theorem pad_pos : (s.pad).pos = s.pos := rfl
@[simp] theorem pad_planes : (s.pad).planes = s.planes := rfl
@[simp] theorem pad_expE : (s.pad).expE = s.expE := rfl
@[simp] theorem pad_extent (a : Nat) : (s.pad).extent a = s.extent a := rfl
@[simp] theorem pad_coeffs : (s.pad).coeffs = s.coeffs := rfl

end Sys2Proof.Machine
end

