-- ==== Sys2Proof/Laws/Registers.lean ====
section
/-! SUPPORT. Laws of the register files and of the operand forms (10_state R11, R13, R15). -/

namespace Sys2Proof.Machine

/-! ### Tables -/

@[simp] theorem length_tab {α : Type} (n : Nat) (f : Nat → α) : (tab n f).length = n := tab_length n f

theorem getD_tab {α : Type} (n : Nat) (f : Nat → α) (i : Nat) (x : α) :
    (tab n f).getD i x = if i < n then f i else x := by
  simp only [tab, List.getD_eq_getElem?_getD, List.getElem?_map]
  by_cases h : i < n
  · simp [h]
  · simp [h]

theorem getElem_tab {α : Type} (n : Nat) (f : Nat → α) (i : Nat) (h : i < (tab n f).length) :
    (tab n f)[i] = f i := by
  simp [tab]

theorem tab_congr {α : Type} (n : Nat) (f g : Nat → α) (h : ∀ i < n, f i = g i) : tab n f = tab n g := by
  simp only [tab]
  exact List.map_congr_left fun i hi => h i (List.mem_range.1 hi)

/-- A list of length `n` is the table of its own members. -/
theorem tab_getD {α : Type} (l : List α) (n : Nat) (x : α) (h : l.length = n) : (tab n fun i => l.getD i x) = l := by
  apply List.ext_getElem
  · simp [h]
  · intro i h1 h2
    simp [getElem_tab, List.getElem?_eq_getElem h2]

theorem mem_tab {α : Type} (n : Nat) (f : Nat → α) (x : α) : x ∈ tab n f ↔ ∃ i < n, f i = x := by
  simp [tab]

theorem map_tab {α β : Type} (n : Nat) (f : Nat → α) (g : α → β) : (tab n f).map g = tab n fun i => g (f i) := by
  simp [tab]

/-! ### Register files -/

@[simp] theorem RegFile.get_build (g : Nat → Word) (i : Nat) :
    (RegFile.build g).get i = if i < 256 then g i else 0 := by
  have : (RegFile.build g).toList = tab 256 g := by simp [RegFile.build]
  rw [RegFile.get, this, getD_tab]

theorem RegFile.get_of_le (f : RegFile) (i : Nat) (h : 256 ≤ i) : f.get i = 0 := by
  have : f.toList.length = 256 := by simp
  simp [RegFile.get, List.getD_eq_getElem?_getD, List.getElem?_eq_none (by omega : f.toList.length ≤ i)]

/-- Two files that agree on every register are equal. -/
theorem RegFile.ext_get (f g : RegFile) (h : ∀ i < 256, f.get i = g.get i) : f = g := by
  apply Vector.ext
  intro i hi
  have := h i hi
  simpa [RegFile.get, List.getD_eq_getElem?_getD, hi] using this

theorem RegFile.get_writeLow (f : RegFile) (n : Nat) (g : Nat → Word) (i : Nat) (hn : n ≤ 256) :
    (f.writeLow n g).get i = if i < n then g i else f.get i := by
  simp only [RegFile.writeLow, RegFile.get_build]
  by_cases h : i < 256
  · simp [h]
  · rw [if_neg h, if_neg (by omega), RegFile.get_of_le f i (by omega)]

theorem RegFile.get_set (f : RegFile) (i j : Nat) (v : Word) (hi : i < 256) :
    (f.set i v).get j = if j = i then v else f.get j := by
  simp only [RegFile.set, RegFile.get_build]
  by_cases h : j < 256
  · simp [h]
  · rw [if_neg h, if_neg (by omega), RegFile.get_of_le f j (by omega)]

theorem RegFile.get_putValues {N : Nat} (f : RegFile) (n : Nat) (vs : List (BitVec N)) (i : Nat) (hn : n ≤ 256) :
    (f.putValues n vs).get i = if i < n then toContainer (vs.getD i 0) else f.get i :=
  RegFile.get_writeLow f n _ i hn

/-! ### Containers -/

theorem fromContainer_toContainer {N : Nat} (v : BitVec N) (h : N ≤ 64) : fromContainer N (toContainer v) = v := by
  simp [fromContainer, toContainer, h]

/-! ### Sizes -/

theorem State.dim_pos (s : State) : 1 ≤ s.dim := by simp [State.dim]

theorem State.dim_le (s : State) : s.dim ≤ 4 := by
  have := (s.cfg.ctrl.extractLsb' 2 2).isLt
  simp only [State.dim]
  omega

theorem State.dim_cases (s : State) : s.dim = 1 ∨ s.dim = 2 ∨ s.dim = 3 ∨ s.dim = 4 := by
  have := s.dim_pos
  have := s.dim_le
  omega

theorem State.size_le (s : State) : s.size ≤ 256 := by
  rcases s.dim_cases with h | h | h | h <;> simp [State.size, h]

theorem State.size_pos (s : State) : 0 < s.size := by simp [State.size]

theorem State.width_cases (s : State) : s.width = 32 ∨ s.width = 64 := by
  unfold State.width
  cases s.ty <;> simp [ScalarType.width]

theorem State.width_le (s : State) : s.width ≤ 64 := by
  rcases s.width_cases with h | h <;> omega

theorem State.width_pos (s : State) : 0 < s.width := by
  rcases s.width_cases with h | h <;> omega

/-! ### The operand forms -/

@[simp] theorem State.length_samples (s : State) : s.samples.length = s.size := by simp [State.samples, RegFile.values]

@[simp] theorem State.length_coeffs (s : State) : s.coeffs.length = s.size := by simp [State.coeffs, RegFile.values]

theorem State.getD_samples (s : State) (i : Nat) (h : i < s.size) :
    s.samples.getD i 0 = fromContainer s.width (s.blk.get i) := by
  rw [State.samples, RegFile.values, getD_tab, if_pos h]

theorem State.getD_coeffs (s : State) (i : Nat) (h : i < s.size) :
    s.coeffs.getD i 0 = fromContainer s.width (s.coef.get i) := by
  rw [State.coeffs, RegFile.values, getD_tab, if_pos h]

/-- What `COEF[j]` holds after a command has stored a block of values. -/
theorem State.putCoeffs_get {N : Nat} (s : State) (vs : List (BitVec N)) (j : Nat) :
    (s.putCoeffs vs).coef.get j = if j < s.size then toContainer (vs.getD j 0) else s.coef.get j :=
  RegFile.get_putValues _ _ _ _ s.size_le

/-- What `BLK[i]` holds after a command has stored a block of values. -/
theorem State.putSamples_get {N : Nat} (s : State) (vs : List (BitVec N)) (i : Nat) :
    (s.putSamples vs).blk.get i = if i < s.size then toContainer (vs.getD i 0) else s.blk.get i :=
  RegFile.get_putValues _ _ _ _ s.size_le

/-- Coefficients stored are the coefficients read back. -/
theorem State.coeffs_putCoeffs (s : State) (vs : List (BitVec s.width)) (h : vs.length = s.size) :
    (s.putCoeffs vs).coeffs = vs := by
  rw [← tab_getD vs s.size 0 h]
  refine tab_congr _ _ _ fun i hi => ?_
  rw [State.putCoeffs_get]
  change fromContainer s.width (if i < s.size then _ else _) = _
  have : i < s.size := hi
  rw [if_pos this, fromContainer_toContainer _ s.width_le, tab_getD vs s.size 0 h]

/-- Samples stored are the samples read back. -/
theorem State.samples_putSamples (s : State) (vs : List (BitVec s.width)) (h : vs.length = s.size) :
    (s.putSamples vs).samples = vs := by
  rw [← tab_getD vs s.size 0 h]
  refine tab_congr _ _ _ fun i hi => ?_
  rw [State.putSamples_get]
  change fromContainer s.width (if i < s.size then _ else _) = _
  have : i < s.size := hi
  rw [if_pos this, fromContainer_toContainer _ s.width_le, tab_getD vs s.size 0 h]

end Sys2Proof.Machine
end

