-- ==== Sys2Proof/Laws/Fifo.lean ====
section
/-! SUPPORT. Laws of the bitstream unit: what `write_bits` and `read_bits` can do, said once (41_bitstream_fifo R80
to R82), in terms of the stream's bits. -/

namespace Sys2Proof.Machine

/-! ### Endings -/

@[simp] theorem Run.bind_ok {α β : Type} (a : α) (s : State) (f : α → State → Run β) :
    (Run.ok a s).bind f = f a s := rfl

@[simp] theorem Run.bind_raised {α β : Type} (s : State) (f : α → State → Run β) :
    (Run.raised s : Run α).bind f = .raised s := rfl

@[simp] theorem Run.state_ok {α : Type} (a : α) (s : State) : (Run.ok a s).state = s := rfl

@[simp] theorem Run.state_raised {α : Type} (s : State) : (Run.raised s : Run α).state = s := rfl

/-! ### Positions -/

theorem State.pos_wr (s : State) (h : s.fifo.dir = .wr) : s.pos = 64 * s.fifo.ptr.toNat + s.fifo.nb.toNat := by
  simp [State.pos, h]

theorem State.pos_rd (s : State) (h : s.fifo.dir = .rd) : s.pos = 64 * s.fifo.ptr.toNat - s.fifo.nb.toNat := by
  simp [State.pos, h]

/-- The difference in `POS` of a reader is never cut (10_state R32). -/
theorem State.nb_le_of_readOk (s : State) (hb : s.fifo.bufferOk) (hr : s.fifo.readOk) (h : s.fifo.dir = .rd) :
    s.fifo.nb.toNat ≤ 64 * s.fifo.ptr.toNat := by
  have h1 := hb.1
  by_cases hp : s.fifo.ptr = 0
  · simp [hr h hp]
  · have : s.fifo.ptr.toNat ≠ 0 := fun hz => hp (BitVec.eq_of_toNat_eq (by simpa using hz))
    omega

/-- The bits left below the capacity. -/
def State.room (s : State) : Nat := s.capBits - s.pos

/-! ### `write_bits` -/

/-- `write_bits` in the direction RD (41_bitstream_fifo R81). -/
theorem writeBits_dirErr (v : Word) (k : Nat) (s : State) (h : s.fifo.dir ≠ .wr) :
    writeBits v k s = .raised (s.raise .dirErr 0) := by simp [writeBits, h]

/-- `write_bits` beyond the capacity (41_bitstream_fifo R81). -/
theorem writeBits_capacity (v : Word) (k : Nat) (s : State) (hd : s.fifo.dir = .wr) (h : s.capBits < s.pos + k) :
    writeBits v k s = .raised (s.raise .capacity (BitVec.ofNat 64 s.pos)) := by simp [writeBits, hd, h]

/-- `write_bits` within the capacity (41_bitstream_fifo R81). -/
theorem writeBits_ok (v : Word) (k : Nat) (s : State) (hd : s.fifo.dir = .wr) (h : s.pos + k ≤ s.capBits) :
    writeBits v k s = .ok () (s.pushBits v k) := by
  simp [writeBits, hd, Nat.not_lt.2 h]

/-- What a write of bits may change: the unit's registers and `MEM` (10_state R37). -/
theorem State.pushBits_eq (s : State) (v : Word) (k : Nat) :
    s.pushBits v k = (s.setMem (s.pushBits v k).mem).setFifo (s.pushBits v k).fifo := by
  unfold State.pushBits
  simp only
  split <;> rfl

/-- A sequence of bits has been written: `t` is `s` after it. Only the bitstream unit, `MEM` and `BITS` differ;
the stream has grown by these bits and is otherwise as it was; only words from the old `PTR` up to the new one
have been stored. -/
structure Wrote (bs : List Bool) (s t : State) : Prop where
  same : t = ((s.setFifo t.fifo).setMem t.mem).setBits t.bits
  dir : t.fifo.dir = .wr
  buffer : t.fifo.bufferOk
  pos : t.pos = s.pos + bs.length
  below : ∀ p < s.pos, t.writtenBit p = s.writtenBit p
  wrote : ∀ j < bs.length, t.writtenBit (s.pos + j) = bs.getD j false
  ptr : s.fifo.ptr.toNat ≤ t.fifo.ptr.toNat
  stored : ∀ a, a / 8 < s.fifo.ptr.toNat ∨ t.fifo.ptr.toNat ≤ a / 8 → t.mem.readByte a = s.mem.readByte a
  inside : t.fifo.ptr.toNat ≤ s.fifo.ptr.toNat ∨ 64 * t.fifo.ptr.toNat ≤ s.capBits
  wf : s.mem.wf = true → t.mem.wf = true
  fits : bs ≠ [] → t.pos ≤ s.capBits

theorem Wrote.refl (s : State) (hd : s.fifo.dir = .wr) (hb : s.fifo.bufferOk) : Wrote [] s s where
  same := rfl
  dir := hd
  buffer := hb
  pos := rfl
  below _ _ := rfl
  wrote := by simp
  ptr := le_refl _
  stored _ _ := rfl
  inside := .inl (le_refl _)
  wf h := h
  fits h := absurd rfl h

theorem Wrote.trans {bs cs : List Bool} {s t u : State} (h : Wrote bs s t) (g : Wrote cs t u) :
    Wrote (bs ++ cs) s u where
  same := by
    have h1 := h.same
    have h2 := g.same
    rw [h2, h1]
    simp only [State.setFifo, State.setMem, State.setBits]
  dir := g.dir
  buffer := g.buffer
  pos := by rw [g.pos, h.pos, List.length_append, Nat.add_assoc]
  below p hp := by rw [g.below p (by rw [h.pos]; omega), h.below p hp]
  wrote j hj := by
    by_cases hjb : j < bs.length
    · rw [g.below _ (by rw [h.pos]; omega), h.wrote j hjb]
      simp [List.getD_eq_getElem?_getD, List.getElem?_append, hjb]
    · have := g.wrote (j - bs.length) (by simp at hj; omega)
      rw [h.pos, show s.pos + bs.length + (j - bs.length) = s.pos + j by omega] at this
      rw [this]
      simp [List.getD_eq_getElem?_getD, List.getElem?_append, hjb]
  ptr := le_trans h.ptr g.ptr
  stored a ha := by
    have := g.ptr
    have := h.ptr
    rw [g.stored a (by omega), h.stored a (by omega)]
  inside := by
    have h1 := h.inside
    have h2 := g.inside
    have h3 := g.ptr
    have h4 := h.ptr
    have : t.capBits = s.capBits := by rw [h.same]; rfl
    omega
  wf hw := g.wf (h.wf hw)
  fits hne := by
    have hcap : t.capBits = s.capBits := by rw [h.same]; rfl
    by_cases hc : cs = []
    · have hb : bs ≠ [] := fun e => hne (by rw [e, hc]; rfl)
      have := g.pos
      rw [hc] at this
      have := h.fits hb
      simp at *
      omega
    · exact hcap ▸ g.fits hc

/-- What was written was taken from the room below the capacity. -/
theorem Wrote.room {bs : List Bool} {s t : State} (h : Wrote bs s t) : s.room = bs.length + t.room := by
  have hcap : t.capBits = s.capBits := by rw [h.same]; rfl
  have hpos := h.pos
  rw [State.room, State.room, hcap]
  by_cases hb : bs = []
  · rw [hb, List.length_nil] at hpos ⊢
    omega
  · have := h.fits hb
    omega

/-- A counter added to a written sequence. -/
theorem Wrote.setBits {bs : List Bool} {s t : State} (h : Wrote bs s t) (b : BitVec 32) :
    Wrote bs s (t.setBits b) where
  same := by
    have h1 := h.same
    rw [h1]
    simp only [State.setFifo, State.setMem, State.setBits]
  dir := h.dir
  buffer := h.buffer
  pos := h.pos
  below := h.below
  wrote := h.wrote
  ptr := h.ptr
  stored := h.stored
  inside := h.inside
  wf := h.wf
  fits := h.fits

/-- The bits of the low `k` bits of a word, first bit first (20_memory R43). -/
def bitsOf (v : Word) (k : Nat) : List Bool := tab k fun j => v.getLsbD j

theorem State.testBit_comb (s : State) (v : Word) (k i : Nat) (hb : s.fifo.bufferOk) :
    (s.comb v k).testBit i =
      if i < s.fifo.nb.toNat then s.fifo.buf.getLsbD i
      else decide (i - s.fifo.nb.toNat < k) && v.getLsbD (i - s.fifo.nb.toNat) := by
  have h2 := hb.2
  unfold State.comb
  rw [Nat.mul_comm, Nat.add_comm, Nat.testBit_two_pow_mul_add _ h2, Nat.testBit_mod_two_pow]
  rfl

theorem State.comb_lt (s : State) (v : Word) (k : Nat) (hb : s.fifo.bufferOk) :
    s.comb v k < 2 ^ (s.fifo.nb.toNat + k) := by
  apply Nat.lt_pow_two_of_testBit
  intro i hi
  rw [State.testBit_comb s v k i hb, if_neg (by omega)]
  simp; omega

/-- What `write_bits` leaves once its checks have passed (41_bitstream_fifo R81, 20_memory R43, R46). -/
theorem pushBits_wrote (s : State) (v : Word) (k : Nat) (hk : k ≤ 64) (hd : s.fifo.dir = .wr)
    (hb : s.fifo.bufferOk) (hc : s.pos + k ≤ s.capBits) : Wrote (bitsOf v k) s (s.pushBits v k) := by
  have hnb := hb.1
  have hcl := State.comb_lt s v k hb
  have hpos := s.pos_wr hd
  have hcap : s.capBits = 64 * s.cfg.capw.toNat := rfl
  have hcw := s.cfg.capw.isLt
  by_cases hw : 64 ≤ s.fifo.nb.toNat + k
  · -- a word completes
    have e : s.pushBits v k = (s.setMem (s.mem.writeWord s.fifo.ptr.toNat (BitVec.ofNat 64 (s.comb v k)))).setFifo
      { s.fifo with
        ptr := s.fifo.ptr + 1
        buf := BitVec.ofNat 64 (s.comb v k / 2 ^ 64)
        nb := BitVec.ofNat 7 (s.fifo.nb.toNat + k - 64) } := by
      simp [State.pushBits, hw]
    have hptr : (s.fifo.ptr + 1).toNat = s.fifo.ptr.toNat + 1 := by
      rw [BitVec.toNat_add]
      simp
      omega
    have hnb' : (BitVec.ofNat 7 (s.fifo.nb.toNat + k - 64)).toNat = s.fifo.nb.toNat + k - 64 := by
      simp; omega
    have hbuf : s.comb v k / 2 ^ 64 < 2 ^ (s.fifo.nb.toNat + k - 64) := by
      rw [Nat.div_lt_iff_lt_mul (by positivity), ← Nat.pow_add]
      rwa [show s.fifo.nb.toNat + k - 64 + 64 = s.fifo.nb.toNat + k by omega]
    have hbuf' : (BitVec.ofNat 64 (s.comb v k / 2 ^ 64)).toNat = s.comb v k / 2 ^ 64 := by
      rw [BitVec.toNat_ofNat, Nat.mod_eq_of_lt]
      exact lt_of_lt_of_le hbuf (Nat.pow_le_pow_right (by omega) (by omega))
    have hwb : ∀ p, (s.pushBits v k).writtenBit p =
        if p < 64 * s.fifo.ptr.toNat then s.mem.streamBit p
        else (s.comb v k).testBit (p - 64 * s.fifo.ptr.toNat) := by
      intro p
      rw [e]
      simp only [State.writtenBit, setFifo_fifo, setFifo_mem, setMem_mem, hptr]
      by_cases h1 : p < 64 * s.fifo.ptr.toNat
      · rw [if_pos (by omega), if_pos h1, Mem.streamBit, Mem.streamBit,
          Mem.readWord_writeWord_ne _ _ _ _ (by omega)]
      · rw [if_neg h1]
        by_cases h2 : p < 64 * (s.fifo.ptr.toNat + 1)
        · rw [if_pos h2, Mem.streamBit, show p / 64 = s.fifo.ptr.toNat by omega, Mem.readWord_writeWord,
            BitVec.getLsbD_ofNat, show p % 64 = p - 64 * s.fifo.ptr.toNat by omega]
          simp; omega
        · rw [if_neg h2, BitVec.getLsbD, hbuf', Nat.testBit_div_two_pow]
          congr 1; omega
    refine ⟨?_, ?_, ?_, ?_, ?_, ?_, ?_, ?_, ?_, ?_, fun _ => ?_⟩
    · rw [e]; rfl
    · rw [e]; exact hd
    · rw [e]
      constructor
      · simp only [setFifo_fifo, hnb']; omega
      · simp only [setFifo_fifo, hnb', hbuf']; exact hbuf
    · rw [e]
      simp only [State.pos, setFifo_fifo, hd, hnb', hptr, bitsOf, length_tab]
      omega
    · intro p hp
      rw [hwb, State.writtenBit]
      split
      · rfl
      · rw [State.testBit_comb s v k _ hb, if_pos (by omega)]
    · intro j hj
      simp only [bitsOf, length_tab] at hj
      rw [hwb, if_neg (by omega), State.testBit_comb s v k _ hb, if_neg (by omega), bitsOf, getD_tab, if_pos hj,
        show s.pos + j - 64 * s.fifo.ptr.toNat - s.fifo.nb.toNat = j by omega]
      simp [hj]
    · rw [e]; simp only [setFifo_fifo, hptr]; omega
    · intro a ha
      rw [e] at ha ⊢
      simp only [setFifo_fifo, hptr] at ha
      simp only [setFifo_mem, setMem_mem]
      exact Mem.readByte_writeWord_ne _ _ _ _ (by omega)
    · rw [e]
      simp only [setFifo_fifo, hptr]
      right; omega
    · intro h
      rw [e]
      exact Mem.wf_writeWord _ _ _ h
    · rw [e]
      simp only [State.pos, setFifo_fifo, hd, hnb', hptr]
      omega
  · -- the bits stay pending
    have e : s.pushBits v k = s.setFifo
        { s.fifo with buf := BitVec.ofNat 64 (s.comb v k), nb := BitVec.ofNat 7 (s.fifo.nb.toNat + k) } := by
      simp [State.pushBits, hw]
    have hnb' : (BitVec.ofNat 7 (s.fifo.nb.toNat + k)).toNat = s.fifo.nb.toNat + k := by simp; omega
    have hbuf' : (BitVec.ofNat 64 (s.comb v k)).toNat = s.comb v k := by
      rw [BitVec.toNat_ofNat, Nat.mod_eq_of_lt]
      exact lt_of_lt_of_le hcl (Nat.pow_le_pow_right (by omega) (by omega))
    have hwb : ∀ p, (s.pushBits v k).writtenBit p =
        if p < 64 * s.fifo.ptr.toNat then s.mem.streamBit p
        else (s.comb v k).testBit (p - 64 * s.fifo.ptr.toNat) := by
      intro p
      rw [e]
      simp only [State.writtenBit, setFifo_fifo, setFifo_mem, BitVec.getLsbD, hbuf']
    refine ⟨?_, ?_, ?_, ?_, ?_, ?_, ?_, ?_, ?_, ?_, fun _ => ?_⟩
    · rw [e]; rfl
    · rw [e]; exact hd
    · rw [e]
      constructor
      · simp only [setFifo_fifo, hnb']; omega
      · simp only [setFifo_fifo, hnb', hbuf']; exact hcl
    · rw [e]
      simp only [State.pos, setFifo_fifo, hd, hnb', bitsOf, length_tab]
      omega
    · intro p hp
      rw [hwb, State.writtenBit]
      split
      · rfl
      · rw [State.testBit_comb s v k _ hb, if_pos (by omega)]
    · intro j hj
      simp only [bitsOf, length_tab] at hj
      rw [hwb, if_neg (by omega), State.testBit_comb s v k _ hb, if_neg (by omega), bitsOf, getD_tab, if_pos hj,
        show s.pos + j - 64 * s.fifo.ptr.toNat - s.fifo.nb.toNat = j by omega]
      simp [hj]
    · rw [e]; simp
    · intro a _; rw [e]; rfl
    · rw [e]; left; simp
    · intro h; rw [e]; exact h
    · rw [e]
      simp only [State.pos, setFifo_fifo, hd, hnb']
      omega

/-! ### `read_bits` -/

/-- `read_bits` in the direction WR (41_bitstream_fifo R82). -/
theorem readBits_dirErr (k : Nat) (s : State) (h : s.fifo.dir ≠ .rd) :
    readBits k s = .raised (s.raise .dirErr 0) := by simp [readBits, h]

/-- `read_bits` beyond the capacity (41_bitstream_fifo R82). -/
theorem readBits_capacity (k : Nat) (s : State) (hd : s.fifo.dir = .rd) (h : s.capBits < s.pos + k) :
    readBits k s = .raised (s.raise .capacity (BitVec.ofNat 64 s.pos)) := by simp [readBits, hd, h]

/-- `read_bits` within the capacity (41_bitstream_fifo R82). -/
theorem readBits_ok (k : Nat) (s : State) (hd : s.fifo.dir = .rd) (h : s.pos + k ≤ s.capBits) :
    readBits k s = .ok (s.pullValue k) (s.pullBits k) := by
  simp [readBits, hd, Nat.not_lt.2 h]

/-- A number of bits has been read: `t` is `s` after it. Only the bitstream unit and `BITS` differ; the reader
stands that many bits further in the same stream. -/
structure Consumed (k : Nat) (s t : State) : Prop where
  same : t = (s.setFifo t.fifo).setBits t.bits
  dir : t.fifo.dir = .rd
  buffer : t.fifo.bufferOk
  read : t.fifo.readOk
  pos : t.pos = s.pos + k
  next : ∀ j, t.nextBit j = s.nextBit (k + j)
  fits : k ≠ 0 → t.pos ≤ s.capBits

theorem Consumed.refl (s : State) (hd : s.fifo.dir = .rd) (hb : s.fifo.bufferOk) (hr : s.fifo.readOk) :
    Consumed 0 s s where
  same := rfl
  dir := hd
  buffer := hb
  read := hr
  pos := rfl
  next j := by rw [Nat.zero_add]
  fits h := absurd rfl h

theorem Consumed.trans {k l : Nat} {s t u : State} (h : Consumed k s t) (g : Consumed l t u) :
    Consumed (k + l) s u where
  same := by
    have h1 := h.same
    have h2 := g.same
    rw [h2, h1]
    simp only [State.setFifo, State.setBits]
  dir := g.dir
  buffer := g.buffer
  read := g.read
  pos := by rw [g.pos, h.pos, Nat.add_assoc]
  next j := by rw [g.next, h.next, Nat.add_assoc]
  fits hne := by
    have hcap : t.capBits = s.capBits := by rw [h.same]; rfl
    have hpos := g.pos
    by_cases hl : l = 0
    · have := h.fits (by omega)
      omega
    · exact hcap ▸ g.fits hl

theorem Consumed.setBits {k : Nat} {s t : State} (h : Consumed k s t) (b : BitVec 32) :
    Consumed k s (t.setBits b) where
  same := by
    have h1 := h.same
    rw [h1]
    simp only [State.setFifo, State.setBits]
  dir := h.dir
  buffer := h.buffer
  read := h.read
  pos := h.pos
  next := h.next
  fits := h.fits

/-- What was read was taken from the room below the capacity. -/
theorem Consumed.room {k : Nat} {s t : State} (h : Consumed k s t) : s.room = k + t.room := by
  have hcap : t.capBits = s.capBits := by rw [h.same]; rfl
  have hpos := h.pos
  rw [State.room, State.room, hcap]
  by_cases hk : k = 0
  · omega
  · have := h.fits hk
    omega

/-- What `read_bits` leaves once its checks have passed (41_bitstream_fifo R82). -/
theorem pullBits_consumed (s : State) (k : Nat) (hk : k ≤ 64) (hd : s.fifo.dir = .rd) (hb : s.fifo.bufferOk)
    (hr : s.fifo.readOk) (hc : s.pos + k ≤ s.capBits) : Consumed k s (s.pullBits k) := by
  have hnb := hb.1
  have hb2 := hb.2
  have hle := s.nb_le_of_readOk hb hr hd
  have hpos := s.pos_rd hd
  have hcap : s.capBits = 64 * s.cfg.capw.toNat := rfl
  have hcw := s.cfg.capw.isLt
  by_cases hw : k ≤ s.fifo.nb.toNat
  · have e : s.pullBits k = s.setFifo
        { s.fifo with
          buf := BitVec.ofNat 64 (s.fifo.buf.toNat / 2 ^ k)
          nb := BitVec.ofNat 7 (s.fifo.nb.toNat - k) } := by simp [State.pullBits, hw]
    have hnb' : (BitVec.ofNat 7 (s.fifo.nb.toNat - k)).toNat = s.fifo.nb.toNat - k := by simp; omega
    have hbuf' : (BitVec.ofNat 64 (s.fifo.buf.toNat / 2 ^ k)).toNat = s.fifo.buf.toNat / 2 ^ k := by
      rw [BitVec.toNat_ofNat, Nat.mod_eq_of_lt]
      exact lt_of_le_of_lt (Nat.div_le_self _ _) s.fifo.buf.isLt
    refine ⟨?_, ?_, ?_, ?_, ?_, ?_, fun _ => ?_⟩
    · rw [e]; rfl
    · rw [e]; exact hd
    · rw [e]
      constructor
      · simp only [setFifo_fifo, hnb']; omega
      · simp only [setFifo_fifo, hnb', hbuf']
        rw [Nat.div_lt_iff_lt_mul (by positivity), ← Nat.pow_add]
        rwa [Nat.sub_add_cancel hw]
    · rw [e]
      intro _ hp
      simp only [setFifo_fifo] at hp ⊢
      simp [hr hd hp]
    · rw [e]
      simp only [State.pos, setFifo_fifo, hd, hnb']
      omega
    · intro j
      rw [e]
      simp only [State.nextBit, setFifo_fifo, setFifo_mem, hnb']
      by_cases hj : j < s.fifo.nb.toNat - k
      · rw [if_pos hj, if_pos (by omega), BitVec.getLsbD, hbuf', Nat.testBit_div_two_pow, Nat.add_comm]
        rfl
      · rw [if_neg hj, if_neg (by omega)]
        congr 2; omega
    · rw [e]
      simp only [State.pos, setFifo_fifo, hd, hnb']
      omega
  · have e : s.pullBits k = s.setFifo
        { s.fifo with
          ptr := s.fifo.ptr + 1
          buf := BitVec.ofNat 64 ((s.mem.readWord s.fifo.ptr.toNat).toNat / 2 ^ (k - s.fifo.nb.toNat))
          nb := BitVec.ofNat 7 (64 - (k - s.fifo.nb.toNat)) } := by simp [State.pullBits, hw]
    have hptr : (s.fifo.ptr + 1).toNat = s.fifo.ptr.toNat + 1 := by
      rw [BitVec.toNat_add]
      simp
      omega
    have hnb' : (BitVec.ofNat 7 (64 - (k - s.fifo.nb.toNat))).toNat = 64 - (k - s.fifo.nb.toNat) := by
      simp; omega
    have hbuf' : (BitVec.ofNat 64 ((s.mem.readWord s.fifo.ptr.toNat).toNat / 2 ^ (k - s.fifo.nb.toNat))).toNat =
        (s.mem.readWord s.fifo.ptr.toNat).toNat / 2 ^ (k - s.fifo.nb.toNat) := by
      rw [BitVec.toNat_ofNat, Nat.mod_eq_of_lt]
      exact lt_of_le_of_lt (Nat.div_le_self _ _) (BitVec.isLt _)
    refine ⟨?_, ?_, ?_, ?_, ?_, ?_, fun _ => ?_⟩
    · rw [e]; rfl
    · rw [e]; exact hd
    · rw [e]
      constructor
      · simp only [setFifo_fifo, hnb']; omega
      · simp only [setFifo_fifo, hnb', hbuf']
        rw [Nat.div_lt_iff_lt_mul (by positivity), ← Nat.pow_add,
          show 64 - (k - s.fifo.nb.toNat) + (k - s.fifo.nb.toNat) = 64 by omega]
        exact BitVec.isLt _
    · rw [e]
      intro _ hp
      simp only [setFifo_fifo] at hp
      have := congrArg BitVec.toNat hp
      rw [hptr] at this
      simp at this
    · rw [e]
      simp only [State.pos, setFifo_fifo, hd, hnb', hptr]
      omega
    · intro j
      rw [e]
      simp only [State.nextBit, setFifo_fifo, setFifo_mem, hnb', hptr]
      rw [if_neg (by omega : ¬ k + j < s.fifo.nb.toNat)]
      by_cases hj : j < 64 - (k - s.fifo.nb.toNat)
      · rw [if_pos hj, BitVec.getLsbD, hbuf', Nat.testBit_div_two_pow, Mem.streamBit,
          show (64 * s.fifo.ptr.toNat + (k + j - s.fifo.nb.toNat)) / 64 = s.fifo.ptr.toNat by omega,
          show (64 * s.fifo.ptr.toNat + (k + j - s.fifo.nb.toNat)) % 64 = j + (k - s.fifo.nb.toNat) by omega]
        rfl
      · rw [if_neg hj]
        congr 1; omega
    · rw [e]
      simp only [State.pos, setFifo_fifo, hd, hnb', hptr]
      omega

/-- Bit `j` of what `read_bits` returns is the `j`-th bit of the stream from `POS` (20_memory R43). -/
theorem pullValue_getLsbD (s : State) (k j : Nat) (hk : k ≤ 64) (hb : s.fifo.bufferOk) :
    (s.pullValue k).getLsbD j = (decide (j < k) && s.nextBit j) := by
  have hnb := hb.1
  have hb2 := hb.2
  unfold State.pullValue
  by_cases hw : k ≤ s.fifo.nb.toNat
  · rw [if_pos hw, BitVec.getLsbD_ofNat, Nat.testBit_mod_two_pow]
    by_cases hj : j < k
    · simp only [hj, decide_true, Bool.true_and, State.nextBit, if_pos (lt_of_lt_of_le hj hw), BitVec.getLsbD]
      simp; omega
    · simp [hj]
  · rw [if_neg hw, BitVec.getLsbD_ofNat, Nat.mul_comm, Nat.add_comm, Nat.testBit_two_pow_mul_add _ hb2,
      Nat.testBit_mod_two_pow]
    simp only [State.nextBit]
    by_cases hj : j < k
    · by_cases h2 : j < s.fifo.nb.toNat
      · rw [if_pos h2, if_pos h2]
        simp [hj, BitVec.getLsbD]; omega
      · rw [if_neg h2, if_neg h2, Mem.streamBit,
          show (64 * s.fifo.ptr.toNat + (j - s.fifo.nb.toNat)) / 64 = s.fifo.ptr.toNat by omega,
          show (64 * s.fifo.ptr.toNat + (j - s.fifo.nb.toNat)) % 64 = j - s.fifo.nb.toNat by omega]
        simp [hj, show j - s.fifo.nb.toNat < k - s.fifo.nb.toNat by omega, show j < 64 by omega]
        rfl
    · rw [if_neg (by omega)]
      simp [hj, show ¬ j - s.fifo.nb.toNat < k - s.fifo.nb.toNat by omega]

end Sys2Proof.Machine
end

