-- ==== Sys2Proof/Laws/Coder.lean ====
section
/-! SUPPORT. Laws of the counted bits of a block and of the coder's traversals: what `emitAll`, `padStream`,
`takeBit`, `decGroup`, `decPlanes` and `skipStream` can do, said once (44_bitplane_coder R144 to R147,
45_block_codec R166). -/

namespace Sys2Proof.Machine

/-! ### Written and counted -/

/-- Bits written and counted in `BITS`. -/
structure WroteN (bs : List Bool) (s t : State) : Prop extends Wrote bs s t where
  count : t.bits.toNat = s.bits.toNat + bs.length

theorem WroteN.refl (s : State) (hd : s.fifo.dir = .wr) (hb : s.fifo.bufferOk) : WroteN [] s s :=
  ⟨Wrote.refl s hd hb, rfl⟩

theorem WroteN.trans {bs cs : List Bool} {s t u : State} (h : WroteN bs s t) (g : WroteN cs t u) :
    WroteN (bs ++ cs) s u :=
  ⟨h.toWrote.trans g.toWrote, by rw [g.count, h.count, List.length_append, Nat.add_assoc]⟩

theorem Wrote.cfg {bs : List Bool} {s t : State} (h : Wrote bs s t) : t.cfg = s.cfg := by rw [h.same]; rfl

theorem Wrote.capBits {bs : List Bool} {s t : State} (h : Wrote bs s t) : t.capBits = s.capBits := by
  rw [h.same]; rfl

theorem bitsOf_bool (b : Bool) : bitsOf (BitVec.ofNat 64 b.toNat) 1 = [b] := by
  cases b <;> rfl

/-- A counted bit with room for it. -/
theorem writeCounted_ok (b : Bool) (s : State) (hd : s.fifo.dir = .wr) (hb : s.fifo.bufferOk)
    (hc : s.pos + 1 ≤ s.capBits) (hn : s.bits.toNat < 65535) :
    ∃ t, writeCounted b s = .ok () t ∧ WroteN [b] s t := by
  have h := pushBits_wrote s (BitVec.ofNat 64 b.toNat) 1 (by omega) hd hb hc
  rw [bitsOf_bool] at h
  have hbits : (s.pushBits (BitVec.ofNat 64 b.toNat) 1).bits = s.bits := by rw [State.pushBits_eq]; rfl
  refine ⟨(s.pushBits (BitVec.ofNat 64 b.toNat) 1).setBits (s.bits + 1), ?_, h.setBits _, ?_⟩
  · simp [writeCounted, writeBits_ok _ _ _ hd hc, hbits]
  · simp only [setBits_bits, BitVec.toNat_add]
    simp
    omega

/-- A counted bit without room. -/
theorem writeCounted_full (b : Bool) (s : State) (hd : s.fifo.dir = .wr) (hc : s.capBits < s.pos + 1) :
    writeCounted b s = .raised (s.raise .capacity (BitVec.ofNat 64 s.pos)) := by
  simp [writeCounted, writeBits_capacity _ _ _ hd hc]

/-- How a run of counted bits that were meant to be `bs` can end: all were written; or the capacity ran out after
the bits there was room for, with the fault recorded in the state they left (45_block_codec R178). -/
def EmitEnd (bs : List Bool) (s : State) : Run Unit → Prop
  | .ok _ t => WroteN bs s t
  | .raised t => ∃ u, s.room < bs.length ∧ WroteN (bs.take s.room) s u ∧
      t = u.raise .capacity (BitVec.ofNat 64 u.pos)

/-- With room for all of them the bits are all written. -/
theorem EmitEnd.of_room {bs : List Bool} {s : State} {r : Run Unit} (h : EmitEnd bs s r)
    (hc : bs.length ≤ s.room) : ∃ t, r = .ok () t ∧ WroteN bs s t := by
  cases r with
  | ok a t => exact ⟨t, rfl, h⟩
  | raised t =>
    obtain ⟨u, hn, -⟩ := h
    omega

/-- Without, exactly those with room are, and the fault is recorded at the next. -/
theorem EmitEnd.of_full {bs : List Bool} {s : State} {r : Run Unit} (h : EmitEnd bs s r)
    (hc : s.room < bs.length) :
    ∃ u, r = .raised (u.raise .capacity (BitVec.ofNat 64 u.pos)) ∧ WroteN (bs.take s.room) s u := by
  cases r with
  | ok a t =>
    have := h.toWrote.room
    omega
  | raised t =>
    obtain ⟨u, -, hw, rfl⟩ := h
    exact ⟨u, rfl, hw⟩

/-- A run of counted bits followed by another. -/
theorem EmitEnd.bind {bs cs : List Bool} {s : State} {r : Run Unit} {f : Unit → State → Run Unit}
    (h : EmitEnd bs s r) (g : ∀ t, r = .ok () t → WroteN bs s t → EmitEnd cs t (f () t)) : EmitEnd (bs ++ cs) s (r.bind f) := by
  cases r with
  | ok a t =>
    have hg := g t rfl h
    simp only [Run.bind_ok]
    revert hg
    generalize f () t = r'
    intro hg
    cases r' with
    | ok a' u => exact WroteN.trans h hg
    | raised u =>
      obtain ⟨v, hn, hw, ht⟩ := hg
      have hroom := (show WroteN bs s t from h).toWrote.room
      refine ⟨v, by rw [List.length_append]; omega, ?_, ht⟩
      rw [hroom, List.take_length_add_append]
      exact WroteN.trans h hw
  | raised t =>
    obtain ⟨v, hn, hw, ht⟩ := h
    refine ⟨v, by rw [List.length_append]; omega, ?_, ht⟩
    rw [List.take_append_of_le_length (by omega)]
    exact hw

/-- What `emit` of a list of bits can do (44_bitplane_coder R144): `MAXBITS` cuts the list, the capacity may end
it earlier. -/
theorem emitAll_end (bs : List Bool) (s : State) (hd : s.fifo.dir = .wr) (hb : s.fifo.bufferOk) :
    EmitEnd (bs.take (s.cfg.maxbits.toNat - s.bits.toNat)) s (emitAll bs s).toRun := by
  induction bs generalizing s with
  | nil => exact (by simpa [emitAll, Flow.toRun, EmitEnd] using WroteN.refl s hd hb)
  | cons b bs ih =>
    have hmax := s.cfg.maxbits.isLt
    by_cases hm : s.cfg.maxbits.toNat ≤ s.bits.toNat
    · rw [Nat.sub_eq_zero_of_le hm]
      simpa [emitAll, hm, Flow.toRun, EmitEnd] using WroteN.refl s hd hb
    · obtain ⟨m, hm'⟩ : ∃ m, s.cfg.maxbits.toNat - s.bits.toNat = m + 1 := ⟨s.cfg.maxbits.toNat - s.bits.toNat - 1, by omega⟩
      rw [hm', List.take_succ_cons]
      by_cases hc : s.pos + 1 ≤ s.capBits
      · obtain ⟨t, ht, hw⟩ := writeCounted_ok b s hd hb hc (by omega)
        have := ih t hw.dir hw.buffer
        rw [hw.toWrote.cfg, hw.count] at this
        rw [show s.cfg.maxbits.toNat - (s.bits.toNat + [b].length) = m by simp; omega] at this
        have e : (emitAll (b :: bs) s).toRun = (Run.ok () t).bind fun _ u => (emitAll bs u).toRun := by
          simp [emitAll, hm, ht]
        rw [e]
        refine EmitEnd.bind (bs := [b]) (r := .ok () t) hw fun u hu _ => ?_
        cases hu
        exact this
      · have hc' : s.capBits < s.pos + 1 := by omega
        simp only [emitAll, if_neg hm, writeCounted_full b s hd hc', Flow.toRun, EmitEnd]
        have hz : s.room = 0 := by rw [State.room]; omega
        exact ⟨s, by simp [hz], by simpa [hz] using WroteN.refl s hd hb, rfl⟩

/-- What the `MINBITS` floor of an encoder can do (45_block_codec R166). -/
theorem padStream_end (fuel : Nat) (s : State) (hd : s.fifo.dir = .wr) (hb : s.fifo.bufferOk)
    (hf : s.cfg.minbits.toNat - s.bits.toNat ≤ fuel) :
    EmitEnd (List.replicate (s.cfg.minbits.toNat - s.bits.toNat) false) s (padStream fuel s) := by
  induction fuel generalizing s with
  | zero =>
    rw [Nat.le_zero.1 hf]
    exact WroteN.refl s hd hb
  | succ fuel ih =>
    have hmax := s.cfg.minbits.isLt
    by_cases hm : s.bits.toNat < s.cfg.minbits.toNat
    · obtain ⟨m, hm'⟩ : ∃ m, s.cfg.minbits.toNat - s.bits.toNat = m + 1 :=
        ⟨s.cfg.minbits.toNat - s.bits.toNat - 1, by omega⟩
      rw [hm', List.replicate_succ]
      simp only [padStream, if_pos hm]
      refine EmitEnd.bind (bs := [false]) (cs := List.replicate m false) ?_ fun t ht hw => ?_
      · by_cases hc : s.pos + 1 ≤ s.capBits
        · obtain ⟨t, ht, hw⟩ := writeCounted_ok false s hd hb hc (by omega)
          rw [ht]
          exact hw
        · have hc' : s.capBits < s.pos + 1 := by omega
          rw [writeCounted_full false s hd hc']
          have hz : s.room = 0 := by rw [State.room]; omega
          exact ⟨s, by simp [hz], by simpa [hz] using WroteN.refl s hd hb, rfl⟩
      · have h := ih t hw.dir hw.buffer (by rw [hw.toWrote.cfg, hw.count]; simp; omega)
        rw [hw.toWrote.cfg, hw.count, show s.cfg.minbits.toNat - (s.bits.toNat + [false].length) = m by
          simp; omega] at h
        exact h
    · rw [Nat.sub_eq_zero_of_le (by omega)]
      simp only [padStream, if_neg hm]
      exact WroteN.refl s hd hb

/-! ### Read and counted -/

/-- Bits read and counted in `BITS`. -/
structure ConsumedN (k : Nat) (s t : State) : Prop extends Consumed k s t where
  count : t.bits.toNat = s.bits.toNat + k

theorem ConsumedN.refl (s : State) (hd : s.fifo.dir = .rd) (hb : s.fifo.bufferOk) (hr : s.fifo.readOk) :
    ConsumedN 0 s s := ⟨Consumed.refl s hd hb hr, rfl⟩

theorem ConsumedN.trans {k l : Nat} {s t u : State} (h : ConsumedN k s t) (g : ConsumedN l t u) :
    ConsumedN (k + l) s u :=
  ⟨h.toConsumed.trans g.toConsumed, by rw [g.count, h.count, Nat.add_assoc]⟩

theorem Consumed.cfg {k : Nat} {s t : State} (h : Consumed k s t) : t.cfg = s.cfg := by rw [h.same]; rfl

theorem Consumed.capBits {k : Nat} {s t : State} (h : Consumed k s t) : t.capBits = s.capBits := by
  rw [h.same]; rfl

/-- The bits `MAXBITS` still allows the current block (44_bitplane_coder R145). -/
def State.budget (s : State) : Nat := s.cfg.maxbits.toNat - s.bits.toNat

theorem State.budget_eq (s : State) : s.budget = s.cfg.maxbits.toNat - s.bits.toNat := rfl

theorem ConsumedN.budget {k : Nat} {s t : State} (h : ConsumedN k s t) : t.budget = s.budget - k := by
  rw [State.budget, State.budget, h.toConsumed.cfg, h.count]
  omega

/-- A counted bit with room for it. -/
theorem readCounted_ok (s : State) (hd : s.fifo.dir = .rd) (hb : s.fifo.bufferOk) (hr : s.fifo.readOk)
    (hc : s.pos + 1 ≤ s.capBits) (hn : s.bits.toNat < 65535) :
    ∃ t, readCounted s = .ok (s.nextBit 0) t ∧ ConsumedN 1 s t := by
  have h := pullBits_consumed s 1 (by omega) hd hb hr hc
  have hv := pullValue_getLsbD s 1 0 (by omega) hb
  have hbits : (s.pullBits 1).bits = s.bits := by unfold State.pullBits; split <;> rfl
  refine ⟨(s.pullBits 1).setBits (s.bits + 1), ?_, h.setBits _, ?_⟩
  · have hv' : (s.pullValue 1).getLsbD 0 = s.nextBit 0 := by simpa using hv
    simp only [readCounted, readBits_ok _ _ hd hc, Run.bind_ok, hbits, hv']
  · simp only [setBits_bits, BitVec.toNat_add]
    simp
    omega

/-- A counted bit without room. -/
theorem readCounted_full (s : State) (hd : s.fifo.dir = .rd) (hc : s.capBits < s.pos + 1) :
    readCounted s = .raised (s.raise .capacity (BitVec.ofNat 64 s.pos)) := by
  simp [readCounted, readBits_capacity _ _ hd hc]

/-- `take()` beyond `MAXBITS` (44_bitplane_coder R144). -/
theorem takeBit_stop (s : State) (h : s.budget = 0) : takeBit s = .stop false s := by
  rw [State.budget] at h
  simp only [takeBit, if_pos (show s.cfg.maxbits.toNat ≤ s.bits.toNat by omega)]

/-- `take()` within `MAXBITS` and the capacity (44_bitplane_coder R144). -/
theorem takeBit_go (s : State) (hd : s.fifo.dir = .rd) (hb : s.fifo.bufferOk) (hr : s.fifo.readOk)
    (h : 0 < s.budget) (hc : s.pos + 1 ≤ s.capBits) :
    ∃ t, takeBit s = .go (s.nextBit 0) t ∧ ConsumedN 1 s t := by
  rw [State.budget] at h
  have hmax := s.cfg.maxbits.isLt
  obtain ⟨t, ht, hw⟩ := readCounted_ok s hd hb hr hc (by omega)
  exact ⟨t, by simp only [takeBit, if_neg (show ¬ s.cfg.maxbits.toNat ≤ s.bits.toNat by omega), ht], hw⟩

/-- `take()` within `MAXBITS` beyond the capacity (44_bitplane_coder R144). -/
theorem takeBit_full (s : State) (hd : s.fifo.dir = .rd) (h : 0 < s.budget) (hc : s.capBits < s.pos + 1) :
    takeBit s = .raised (s.raise .capacity (BitVec.ofNat 64 s.pos)) := by
  rw [State.budget] at h
  simp only [takeBit, if_neg (show ¬ s.cfg.maxbits.toNat ≤ s.bits.toNat by omega), readCounted_full s hd hc]

/-- A reader in a sound state. -/
def State.reading (s : State) : Prop := s.fifo.dir = .rd ∧ s.fifo.bufferOk ∧ s.fifo.readOk

theorem Consumed.reading {k : Nat} {s t : State} (h : Consumed k s t) : t.reading := ⟨h.dir, h.buffer, h.read⟩

/-! ### The decoder on any stream -/

/-- The bits a group of `4^depth` coefficients costs besides its sign bits: its tests and its leaves. -/
def groupCost : Nat → Nat
  | 0 => 1
  | depth + 1 => 1 + 4 * groupCost depth

theorem groupCost_eq (d : Nat) : groupCost d = (4 ^ d - 1) / 3 + 4 ^ d := by
  have h : ∀ d, 3 * groupCost d + 1 = 4 * 4 ^ d := by
    intro d
    induction d with
    | zero => rfl
    | succ d ih => rw [groupCost, Nat.pow_succ]; omega
  have := h d
  have : 0 < 4 ^ d := by positivity
  omega

/-- The coefficients not yet marked `SIGF`: each can cost one sign bit more. -/
def Work.unmarked (w : Work) : Nat := w.sig.count false

/-- How a piece of the decoder's traversal can end, from a sound reader `s`, when it costs at most `cost` bits
besides sign bits: it goes on with `n` bits read and no more marks lost than paid for; `MAXBITS` stops it, all of
the budget read; or the capacity ends it. -/
def DecEnd (cost : Nat) (w : Work) (s : State) : Flow Work → Prop
  | .go w' t => ∃ n, ConsumedN n s t ∧ n ≤ s.budget ∧ n + w'.unmarked ≤ cost + w.unmarked ∧
      w'.sig.length = w.sig.length
  | .stop _ t => ConsumedN s.budget s t ∧ s.budget < cost + w.unmarked
  | .raised t => ∃ n u, ConsumedN n s u ∧ n < s.budget ∧ n < cost + w.unmarked ∧ u.capBits ≤ u.pos ∧
      t = u.raise .capacity (BitVec.ofNat 64 u.pos)

theorem DecEnd.bind {c1 c2 : Nat} {w : Work} {s : State} {r : Flow Work} {f : Work → State → Flow Work}
    (h : DecEnd c1 w s r)
    (g : ∀ w' t, t.reading → w'.sig.length = w.sig.length → DecEnd c2 w' t (f w' t)) :
    DecEnd (c1 + c2) w s (r.andThen f) := by
  cases r with
  | go w' t =>
    obtain ⟨n, hc, hn, hu, hl⟩ := h
    have hg := g w' t hc.toConsumed.reading hl
    simp only [Flow.andThen]
    revert hg
    generalize f w' t = r'
    intro hg
    have hbud := hc.budget
    cases r' with
    | go w'' u =>
      obtain ⟨m, hc', hm, hu', hl'⟩ := hg
      exact ⟨n + m, hc.trans hc', by omega, by omega, hl'.trans hl⟩
    | stop w'' u =>
      obtain ⟨hc', hu'⟩ := hg
      refine ⟨?_, by omega⟩
      have := hc.trans hc'
      rwa [show n + t.budget = s.budget by omega] at this
    | raised u =>
      obtain ⟨m, v, hc', hm, hu', hp, ht⟩ := hg
      exact ⟨n + m, v, hc.trans hc', by omega, by omega, hp, ht⟩
  | stop w' t =>
    obtain ⟨hc', hu'⟩ := h
    exact ⟨hc', by omega⟩
  | raised t =>
    obtain ⟨n, u, hc, hn, hn', hp, ht⟩ := h
    exact ⟨n, u, hc, hn, by omega, hp, ht⟩

theorem Work.unmarked_mark (w : Work) (lo : Nat) (h : lo < w.sig.length) (hs : w.sig.getD lo false = false) :
    (w.mark lo).unmarked + 1 = w.unmarked := by
  simp only [Work.unmarked, Work.mark]
  rw [List.getD_eq_getElem?_getD, List.getElem?_eq_getElem h] at hs
  simp only [Option.getD_some] at hs
  have h1 := List.count_set (a := true) (b := false) (l := w.sig) (i := lo) h
  have h2 : 0 < w.sig.count false := List.count_pos_iff.2 (hs ▸ List.getElem_mem h)
  rw [h1]
  simp [hs]
  omega

/-- What a leaf of the decoder can do (44_bitplane_coder R147). -/
theorem decLeaf_end (k lo : Nat) (w : Work) (s : State) (h : s.reading) (hl : lo < w.sig.length) :
    DecEnd 1 w s (decLeaf k lo w s) := by
  obtain ⟨hd, hb, hr⟩ := h
  unfold decLeaf
  by_cases h0 : s.budget = 0
  · rw [takeBit_stop s h0]
    refine ⟨?_, by omega⟩
    rw [h0]
    exact ConsumedN.refl s hd hb hr
  by_cases hc : s.pos + 1 ≤ s.capBits
  · obtain ⟨t, ht, hw⟩ := takeBit_go s hd hb hr (by omega) hc
    rw [ht]
    have hbud := hw.budget
    simp only
    split
    · rename_i hcond
      simp only [Bool.and_eq_true, Bool.not_eq_true'] at hcond
      have hum : ((w.addBit lo k (s.nextBit 0)).mark lo).unmarked + 1 = w.unmarked :=
        Work.unmarked_mark (w.addBit lo k (s.nextBit 0)) lo hl hcond.2
      by_cases h1 : t.budget = 0
      · rw [takeBit_stop t h1]
        refine ⟨?_, by omega⟩
        rw [show s.budget = 1 by omega]
        exact hw
      by_cases hc1 : t.pos + 1 ≤ t.capBits
      · obtain ⟨u, hu, hw'⟩ := takeBit_go t hw.dir hw.buffer hw.read (by omega) hc1
        rw [hu]
        refine ⟨1 + 1, hw.trans hw', by omega, ?_, ?_⟩
        · change 1 + 1 + ((w.addBit lo k (s.nextBit 0)).mark lo).unmarked ≤ _
          omega
        · simp [Work.setSign, Work.mark, Work.addBit]
      · rw [takeBit_full t hw.dir (by omega) (by omega)]
        exact ⟨1, t, hw, by omega, by omega, by omega, rfl⟩
    · refine ⟨1, hw, by omega, ?_, rfl⟩
      change 1 + w.unmarked ≤ _
      omega
  · rw [takeBit_full s hd (by omega) (by omega)]
    exact ⟨0, s, ConsumedN.refl s hd hb hr, by omega, by omega, by omega, rfl⟩

/-- What `dec_group` can do (44_bitplane_coder R147, R150). -/
theorem decGroup_end (k depth lo : Nat) (w : Work) (s : State) (h : s.reading)
    (hl : lo + 4 ^ depth ≤ w.sig.length) : DecEnd (groupCost depth) w s (decGroup k depth lo w s) := by
  induction depth generalizing lo w s with
  | zero => exact decLeaf_end k lo w s h (by simpa using hl)
  | succ depth ih =>
    rw [Nat.pow_succ] at hl
    obtain ⟨hd, hb, hr⟩ := h
    have hcost : 0 < groupCost (depth + 1) := by rw [groupCost]; omega
    unfold decGroup
    by_cases h0 : s.budget = 0
    · rw [takeBit_stop s h0]
      refine ⟨?_, by omega⟩
      rw [h0]
      exact ConsumedN.refl s hd hb hr
    by_cases hc : s.pos + 1 ≤ s.capBits
    · obtain ⟨t, ht, hw⟩ := takeBit_go s hd hb hr (by omega) hc
      rw [ht]
      have hbud := hw.budget
      have hone : DecEnd 1 w s (.go w t) := ⟨1, hw, by omega, by omega, rfl⟩
      simp only
      split
      · have e : groupCost (depth + 1) =
            1 + (groupCost depth + groupCost depth + groupCost depth + groupCost depth) := by
          rw [groupCost]; omega
        rw [e]
        refine DecEnd.bind (r := .go w t) (f := fun w t =>
          (((decGroup k depth lo w t).andThen (decGroup k depth (lo + 4 ^ depth))).andThen
            (decGroup k depth (lo + 2 * 4 ^ depth))).andThen (decGroup k depth (lo + 3 * 4 ^ depth)))
          hone fun w1 t1 h1 l1 => ?_
        refine DecEnd.bind (DecEnd.bind (DecEnd.bind (ih lo w1 t1 h1 (by omega)) ?_) ?_) ?_
        · exact fun w2 t2 h2 l2 => ih _ w2 t2 h2 (by omega)
        · exact fun w2 t2 h2 l2 => ih _ w2 t2 h2 (by omega)
        · exact fun w2 t2 h2 l2 => ih _ w2 t2 h2 (by omega)
      · exact ⟨1, hw, by omega, by omega, rfl⟩
    · rw [takeBit_full s hd (by omega) (by omega)]
      exact ⟨0, s, ConsumedN.refl s hd hb hr, by omega, by omega, by omega, rfl⟩

/-- What the planes of a block can do when decoded (44_bitplane_coder R147, R150). -/
theorem decPlanes_end (d : Nat) (ks : List Nat) (w : Work) (s : State) (h : s.reading)
    (hl : 4 ^ d ≤ w.sig.length) : DecEnd (ks.length * groupCost d) w s (decPlanes d ks w s) := by
  induction ks generalizing w s with
  | nil =>
    obtain ⟨hd, hb, hr⟩ := h
    exact ⟨0, ConsumedN.refl s hd hb hr, by omega, by simp, rfl⟩
  | cons k ks ih =>
    rw [List.length_cons, Nat.succ_mul, Nat.add_comm]
    exact DecEnd.bind (decGroup_end k d 0 w s h (by omega)) fun w' t h' l' => ih w' t h' (by omega)

/-! ### The decoder on the encoder's bits (44_bitplane_coder R149) -/

/-- The decoder's work values hold coefficient `j` of the encoder's `mag` and `sgn` down to plane `K`. -/
def Work.knows (mag : List Nat) (sgn : List Bool) (K : Nat) (w : Work) (j : Nat) : Prop :=
  w.mag.getD j 0 = mag.getD j 0 / 2 ^ K * 2 ^ K ∧
  w.sig.getD j false = decide (mag.getD j 0 / 2 ^ K ≠ 0) ∧
  (mag.getD j 0 / 2 ^ K ≠ 0 → w.sgn.getD j false = sgn.getD j false)

/-- Plane `k` is known below `lo` and plane `k + 1` from `lo` up; the lists have length `n`. -/
structure Work.Upto (mag : List Nat) (sgn : List Bool) (n k lo : Nat) (w : Work) : Prop where
  mags : w.mag.length = n
  sgns : w.sgn.length = n
  sigs : w.sig.length = n
  low : ∀ j < lo, j < n → Work.knows mag sgn k w j
  high : ∀ j, lo ≤ j → j < n → Work.knows mag sgn (k + 1) w j

/-- A piece of the decoder's traversal that meets the bits `bs`: with the budget and the capacity for them it reads
them all and goes on with work values `P` holds of; with a smaller budget it stops when the budget is read. -/
def Follows (bs : List Bool) (s : State) (r : Flow Work) (P : Work → Prop) : Prop :=
  (∀ j < bs.length, j < s.budget → s.nextBit j = bs.getD j false) →
  s.pos + min bs.length s.budget ≤ s.capBits →
  (bs.length ≤ s.budget → ∃ w t, r = .go w t ∧ ConsumedN bs.length s t ∧ P w) ∧
  (s.budget < bs.length → ∃ w t, r = .stop w t ∧ ConsumedN s.budget s t)

theorem Follows.bind {bs cs : List Bool} {s : State} {r : Flow Work} {P Q : Work → Prop}
    {f : Work → State → Flow Work} (h : Follows bs s r P)
    (g : ∀ w t, P w → t.reading → Follows cs t (f w t) Q) : Follows (bs ++ cs) s (r.andThen f) Q := by
  intro hs hc
  rw [List.length_append] at hs hc ⊢
  have hL : ∀ j < bs.length, (bs ++ cs).getD j false = bs.getD j false := by
    intro j hj
    simp [List.getD_eq_getElem?_getD, List.getElem?_append, hj]
  have hR : ∀ j, (bs ++ cs).getD (bs.length + j) false = cs.getD j false := by
    intro j
    simp [List.getD_eq_getElem?_getD, List.getElem?_append]
  obtain ⟨h1, h2⟩ := h (fun j hj hb => by rw [hs j (by omega) hb, hL j hj]) (by omega)
  by_cases hb : bs.length ≤ s.budget
  · obtain ⟨w, t, rfl, hw, hp⟩ := h1 hb
    have hbud := hw.budget
    obtain ⟨g1, g2⟩ := g w t hp hw.toConsumed.reading
      (fun j hj hjb => by rw [hw.next, hs _ (by omega) (by omega), hR])
      (by rw [hw.pos, hw.toConsumed.capBits]; omega)
    refine ⟨fun hle => ?_, fun hlt => ?_⟩
    · obtain ⟨w', t', e, hw', hp'⟩ := g1 (by omega)
      exact ⟨w', t', e, hw.trans hw', hp'⟩
    · obtain ⟨w', t', e, hw'⟩ := g2 (by omega)
      refine ⟨w', t', e, ?_⟩
      have := hw.trans hw'
      rwa [show bs.length + t.budget = s.budget by omega] at this
  · obtain ⟨w, t, rfl, hw⟩ := h2 (by omega)
    exact ⟨fun hle => absurd hle (by omega), fun _ => ⟨w, t, rfl, hw⟩⟩

theorem Follows.mono {bs : List Bool} {s : State} {r : Flow Work} {P Q : Work → Prop} (h : Follows bs s r P)
    (g : ∀ w, P w → Q w) : Follows bs s r Q := by
  intro hs hc
  obtain ⟨h1, h2⟩ := h hs hc
  exact ⟨fun hb => (h1 hb).imp fun w ⟨t, e, hw, hp⟩ => ⟨t, e, hw, g w hp⟩, h2⟩

/-- One bit met by `take()`, and what follows it. -/
theorem takeBit_follows (b : Bool) (bs : List Bool) (s : State) (h : s.reading) (w0 : Work)
    (f : Bool → State → Flow Work) (P : Work → Prop) (g : ∀ t, t.reading → Follows bs t (f b t) P) :
    Follows (b :: bs) s
      (match takeBit s with
        | .raised s1 => .raised s1
        | .stop _ s1 => .stop w0 s1
        | .go b s1 => f b s1) P := by
  obtain ⟨hd, hb, hr⟩ := h
  intro hs hc
  rw [List.length_cons] at hs hc ⊢
  by_cases h0 : s.budget = 0
  · rw [takeBit_stop s h0]
    refine ⟨fun hle => by omega, fun _ => ⟨w0, s, rfl, ?_⟩⟩
    rw [h0]
    exact ConsumedN.refl s hd hb hr
  · obtain ⟨t, ht, hw⟩ := takeBit_go s hd hb hr (by omega) (by omega)
    rw [ht, hs 0 (by omega) (by omega)]
    have hbud := hw.budget
    simp only [List.getD_cons_zero]
    obtain ⟨g1, g2⟩ := g t hw.toConsumed.reading
      (fun j hj hjb => by
        rw [hw.next, hs _ (by omega) (by omega), Nat.add_comm, List.getD_cons_succ])
      (by rw [hw.pos, hw.toConsumed.capBits]; omega)
    refine ⟨fun hle => ?_, fun hlt => ?_⟩
    · obtain ⟨w', t', e, hw', hp'⟩ := g1 (by omega)
      refine ⟨w', t', e, ?_, hp'⟩
      have := hw.trans hw'
      rwa [Nat.add_comm] at this
    · obtain ⟨w', t', e, hw'⟩ := g2 (by omega)
      refine ⟨w', t', e, ?_⟩
      have := hw.trans hw'
      rwa [show 1 + t.budget = s.budget by omega] at this

theorem Follows.here (s : State) (w : Work) (P : Work → Prop) (h : s.reading) (hp : P w) :
    Follows [] s (.go w s) P :=
  fun _ _ => ⟨fun _ => ⟨w, s, rfl, ConsumedN.refl s h.1 h.2.1 h.2.2, hp⟩,
    fun hlt => absurd hlt (by simp)⟩

theorem getD_set {α : Type} (l : List α) (i j : Nat) (v x : α) (h : i < l.length) :
    (l.set i v).getD j x = if j = i then v else l.getD j x := by
  simp only [List.getD_eq_getElem?_getD, List.getElem?_set]
  by_cases hij : i = j
  · subst hij; simp [h]
  · rw [if_neg hij, if_neg (Ne.symm hij)]

/-- One plane of one coefficient more. -/
theorem plane_step (m k : Nat) : m / 2 ^ k * 2 ^ k = m / 2 ^ (k + 1) * 2 ^ (k + 1) + (m.testBit k).toNat * 2 ^ k := by
  have h1 : m / 2 ^ (k + 1) = m / 2 ^ k / 2 := by rw [Nat.pow_succ, Nat.div_div_eq_div_mul]
  have h2 : (m.testBit k).toNat = m / 2 ^ k % 2 := by
    rw [Nat.testBit_eq_decide_div_mod_eq]
    rcases Nat.mod_two_eq_zero_or_one (m / 2 ^ k) with h | h <;> simp [h]
  rw [h1, h2, Nat.pow_succ]
  have h3 : m / 2 ^ k = m / 2 ^ k / 2 * 2 + m / 2 ^ k % 2 := by omega
  calc m / 2 ^ k * 2 ^ k = (m / 2 ^ k / 2 * 2 + m / 2 ^ k % 2) * 2 ^ k := by rw [← h3]
    _ = _ := by ring

theorem div_succ_eq_zero (m k : Nat) : m / 2 ^ k = 0 ↔ m / 2 ^ (k + 1) = 0 ∧ m.testBit k = false := by
  have h1 : m / 2 ^ (k + 1) = m / 2 ^ k / 2 := by rw [Nat.pow_succ, Nat.div_div_eq_div_mul]
  rw [Nat.testBit_eq_decide_div_mod_eq, h1]
  generalize m / 2 ^ k = x
  rw [decide_eq_false_iff_not]
  omega

/-- The leaf of the decoder on the leaf of the encoder. -/
theorem decLeaf_follows (mag : List Nat) (sgn : List Bool) (n k lo : Nat) (w : Work) (s : State) (h : s.reading)
    (hw : w.Upto mag sgn n k lo) (hl : lo < n) :
    Follows (encGroup mag sgn k 0 lo w.sig).1 s (decLeaf k lo w s) fun w' =>
      w'.Upto mag sgn n k (lo + 1) ∧ w'.sig = (encGroup mag sgn k 0 lo w.sig).2 := by
  obtain ⟨k1, k2, k3⟩ := hw.high lo (le_refl _) hl
  have hstep := plane_step (mag.getD lo 0) k
  have hzero := div_succ_eq_zero (mag.getD lo 0) k
  have hother : ∀ (w' : Work), w'.mag = w.mag.set lo (mag.getD lo 0 / 2 ^ k * 2 ^ k) →
      (∀ j, j ≠ lo → w'.sgn.getD j false = w.sgn.getD j false ∧ w'.sig.getD j false = w.sig.getD j false) →
      w'.sgn.length = n → w'.sig.length = n → Work.knows mag sgn k w' lo → w'.Upto mag sgn n k (lo + 1) := by
    intro w' hm ho h1 h2 hk
    refine ⟨by rw [hm, List.length_set, hw.mags], h1, h2, ?_, ?_⟩
    · intro j hj hjn
      by_cases hjl : j = lo
      · rw [hjl]; exact hk
      · obtain ⟨a1, a2, a3⟩ := hw.low j (by omega) hjn
        refine ⟨?_, ?_, ?_⟩
        · rw [hm, getD_set _ _ _ _ _ (by rw [hw.mags]; exact hl), if_neg hjl, a1]
        · rw [(ho j hjl).2, a2]
        · rw [(ho j hjl).1]; exact a3
    · intro j hj hjn
      have hjl : j ≠ lo := by omega
      obtain ⟨a1, a2, a3⟩ := hw.high j (by omega) hjn
      refine ⟨?_, ?_, ?_⟩
      · rw [hm, getD_set _ _ _ _ _ (by rw [hw.mags]; exact hl), if_neg hjl, a1]
      · rw [(ho j hjl).2, a2]
      · rw [(ho j hjl).1]; exact a3
  have hmag : ∀ b, b = (mag.getD lo 0).testBit k →
      (w.addBit lo k b).mag = w.mag.set lo (mag.getD lo 0 / 2 ^ k * 2 ^ k) := by
    intro b hb
    simp only [Work.addBit, k1, hb, hstep]
  have hnew : (w.mag.set lo (mag.getD lo 0 / 2 ^ k * 2 ^ k)).getD lo 0 = mag.getD lo 0 / 2 ^ k * 2 ^ k := by
    rw [getD_set _ _ _ _ _ (by rw [hw.mags]; exact hl), if_pos rfl]
  unfold decLeaf
  by_cases hcond : ((mag.getD lo 0).testBit k && !w.sig.getD lo false) = true
  · have e : encGroup mag sgn k 0 lo w.sig = ([true, sgn.getD lo false], w.sig.set lo true) := by
      simp only [encGroup, hcond, if_true]
    rw [e]
    simp only [Bool.and_eq_true, Bool.not_eq_true'] at hcond
    refine takeBit_follows true [sgn.getD lo false] s h w
      (fun b s1 => if b && !w.sig.getD lo false then
        match takeBit s1 with
        | .raised s2 => .raised s2
        | .stop _ s2 => .stop ((w.addBit lo k b).mark lo) s2
        | .go sg s2 => .go (((w.addBit lo k b).mark lo).setSign lo sg) s2
        else .go (w.addBit lo k b) s1) _ fun t ht => ?_
    simp only [hcond.2, Bool.not_false, Bool.and_self, if_true]
    refine takeBit_follows (sgn.getD lo false) [] t ht ((w.addBit lo k true).mark lo)
      (fun sg s2 => .go (((w.addBit lo k true).mark lo).setSign lo sg) s2) _ fun u hu => ?_
    refine Follows.here u _ _ hu ⟨?_, rfl⟩
    have hne : mag.getD lo 0 / 2 ^ k ≠ 0 := fun hz => by
      have := (hzero.1 hz).2
      rw [hcond.1] at this
      exact Bool.noConfusion this
    refine hother _ ?_ ?_ ?_ ?_ ?_
    · rw [← hmag true hcond.1.symm]; rfl
    · intro j hj
      refine ⟨?_, ?_⟩
      · change (w.sgn.set lo _).getD j false = _
        rw [getD_set _ _ _ _ _ (by rw [hw.sgns]; exact hl), if_neg hj]
      · change (w.sig.set lo _).getD j false = _
        rw [getD_set _ _ _ _ _ (by rw [hw.sigs]; exact hl), if_neg hj]
    · change (w.sgn.set lo _).length = n
      rw [List.length_set, hw.sgns]
    · change (w.sig.set lo _).length = n
      rw [List.length_set, hw.sigs]
    · refine ⟨?_, ?_, fun _ => ?_⟩
      · change (w.addBit lo k true).mag.getD lo 0 = _
        rw [hmag true hcond.1.symm, hnew]
      · change (w.sig.set lo true).getD lo false = _
        rw [getD_set _ _ _ _ _ (by rw [hw.sigs]; exact hl), if_pos rfl]
        simpa using hne
      · change (w.sgn.set lo _).getD lo false = _
        rw [getD_set _ _ _ _ _ (by rw [hw.sgns]; exact hl), if_pos rfl]
  · have e : encGroup mag sgn k 0 lo w.sig = ([(mag.getD lo 0).testBit k], w.sig) := by
      simp only [encGroup, if_neg hcond]
    rw [e]
    have hbit : mag.getD lo 0 / 2 ^ (k + 1) = 0 → (mag.getD lo 0).testBit k = false := by
      intro hz
      rw [k2, decide_eq_false (fun h => h hz)] at hcond
      simpa using hcond
    refine takeBit_follows ((mag.getD lo 0).testBit k) [] s h w
      (fun b s1 => if b && !w.sig.getD lo false then
        match takeBit s1 with
        | .raised s2 => .raised s2
        | .stop _ s2 => .stop ((w.addBit lo k b).mark lo) s2
        | .go sg s2 => .go (((w.addBit lo k b).mark lo).setSign lo sg) s2
        else .go (w.addBit lo k b) s1) _ fun t ht => ?_
    simp only [if_neg hcond]
    refine Follows.here t _ _ ht ⟨?_, rfl⟩
    refine hother _ (hmag _ rfl) (fun _ _ => ⟨rfl, rfl⟩) hw.sgns hw.sigs ⟨?_, ?_, ?_⟩
    · rw [hmag _ rfl, hnew]
    · change w.sig.getD lo false = _
      rw [k2, decide_eq_decide, not_iff_not, hzero]
      exact ⟨fun hz => ⟨hz, hbit hz⟩, And.left⟩
    · intro hne
      change w.sgn.getD lo false = _
      exact k3 fun hz => hne (hzero.2 ⟨hz, hbit hz⟩)

/-- A group of the decoder on the same group of the encoder (44_bitplane_coder R149). -/
theorem decGroup_follows (mag : List Nat) (sgn : List Bool) (n k depth lo : Nat) (w : Work) (s : State)
    (h : s.reading) (hw : w.Upto mag sgn n k lo) (hl : lo + 4 ^ depth ≤ n) :
    Follows (encGroup mag sgn k depth lo w.sig).1 s (decGroup k depth lo w s) fun w' =>
      w'.Upto mag sgn n k (lo + 4 ^ depth) ∧ w'.sig = (encGroup mag sgn k depth lo w.sig).2 := by
  induction depth generalizing lo w s with
  | zero => exact decLeaf_follows mag sgn n k lo w s h hw (by simpa using hl)
  | succ depth ih =>
    unfold decGroup
    have hp : 4 ^ (depth + 1) = 4 ^ depth * 4 := Nat.pow_succ _ _
    by_cases ht : groupTest mag lo (4 ^ (depth + 1)) k = true
    · simp only [encGroup, ht, if_true]
      refine takeBit_follows true _ s h w (fun t s1 => if t then
        (((decGroup k depth lo w s1).andThen (decGroup k depth (lo + 4 ^ depth))).andThen
          (decGroup k depth (lo + 2 * 4 ^ depth))).andThen (decGroup k depth (lo + 3 * 4 ^ depth))
        else .go w s1) _ fun t1 h1 => ?_
      simp only [if_true]
      let r0 := encGroup mag sgn k depth lo w.sig
      let r1 := encGroup mag sgn k depth (lo + 4 ^ depth) r0.2
      let r2 := encGroup mag sgn k depth (lo + 2 * 4 ^ depth) r1.2
      refine Follows.bind (P := fun w' => w'.Upto mag sgn n k (lo + 3 * 4 ^ depth) ∧ w'.sig = r2.2)
        (Follows.bind (P := fun w' => w'.Upto mag sgn n k (lo + 2 * 4 ^ depth) ∧ w'.sig = r1.2)
          (Follows.bind (ih lo w t1 h1 hw (by omega)) ?_) ?_) ?_
      · intro w' t' ⟨h1', h2'⟩ h3'
        rw [← h2']
        refine (ih (lo + 4 ^ depth) w' t' h3' h1' (by omega)).mono fun w'' ⟨a, b⟩ => ⟨?_, ?_⟩
        · rwa [show lo + 4 ^ depth + 4 ^ depth = lo + 2 * 4 ^ depth by omega] at a
        · rw [b, h2']
      · intro w' t' ⟨h1', h2'⟩ h3'
        rw [← h2']
        refine (ih (lo + 2 * 4 ^ depth) w' t' h3' h1' (by omega)).mono fun w'' ⟨a, b⟩ => ⟨?_, ?_⟩
        · rwa [show lo + 2 * 4 ^ depth + 4 ^ depth = lo + 3 * 4 ^ depth by omega] at a
        · rw [b, h2']
      · intro w' t' ⟨h1', h2'⟩ h3'
        rw [← h2']
        refine (ih (lo + 3 * 4 ^ depth) w' t' h3' h1' (by omega)).mono fun w'' ⟨a, b⟩ => ⟨?_, b⟩
        rwa [show lo + 3 * 4 ^ depth + 4 ^ depth = lo + 4 ^ (depth + 1) by omega] at a
    · simp only [encGroup, if_neg ht]
      refine takeBit_follows false [] s h w (fun t s1 => if t then
        (((decGroup k depth lo w s1).andThen (decGroup k depth (lo + 4 ^ depth))).andThen
          (decGroup k depth (lo + 2 * 4 ^ depth))).andThen (decGroup k depth (lo + 3 * 4 ^ depth))
        else .go w s1) _ fun t1 h1 => ?_
      simp only [Bool.false_eq_true, if_false]
      refine Follows.here t1 _ _ h1 ⟨?_, rfl⟩
      refine ⟨hw.mags, hw.sgns, hw.sigs, ?_, fun j hj hjn => hw.high j (by omega) hjn⟩
      intro j hj hjn
      by_cases hjl : j < lo
      · exact hw.low j hjl hjn
      · have hz : mag.getD j 0 / 2 ^ k = 0 := by
          by_contra hne
          apply ht
          simp only [groupTest, List.any_eq_true, List.mem_range, decide_eq_true_eq]
          exact ⟨j - lo, by omega, by rwa [show lo + (j - lo) = j by omega]⟩
        obtain ⟨a1, a2, a3⟩ := hw.high j (by omega) hjn
        have hz' := ((div_succ_eq_zero _ _).1 hz).1
        refine ⟨?_, ?_, fun hne => absurd hz hne⟩
        · rw [a1, hz, hz']; simp
        · rw [a2, hz, hz']

theorem tab_succ {α : Type} (n : Nat) (f : Nat → α) : tab (n + 1) f = f 0 :: tab n fun i => f (i + 1) := by
  simp only [tab, List.range_succ_eq_map, List.map_cons, List.map_map]
  rfl

/-- Everything known down to plane `K`: where a plane ends and the next begins. -/
theorem Work.Upto.next {mag : List Nat} {sgn : List Bool} {n K : Nat} {w : Work}
    (h : w.Upto mag sgn n (K + 1) n) : w.Upto mag sgn n K 0 :=
  ⟨h.mags, h.sgns, h.sigs, fun j hj => absurd hj (by omega), fun j _ hj => h.low j hj hj⟩

/-- The planes `K - 1` down to `K - prec` of the decoder on those of the encoder (44_bitplane_coder R149). -/
theorem decPlanes_follows (mag : List Nat) (sgn : List Bool) (d K prec : Nat) (w : Work) (s : State) (h : s.reading)
    (hw : w.Upto mag sgn (4 ^ d) K (4 ^ d)) (hp : prec ≤ K) :
    Follows (encPlanes mag sgn d (planeList K prec) w.sig) s (decPlanes d (planeList K prec) w s) fun w' =>
      w'.Upto mag sgn (4 ^ d) (K - prec) (4 ^ d) := by
  induction prec generalizing K w s with
  | zero => exact Follows.here s w _ h hw
  | succ prec ih =>
    obtain ⟨L, rfl⟩ : ∃ L, K = L + 1 := ⟨K - 1, by omega⟩
    have e : planeList (L + 1) (prec + 1) = L :: planeList L prec := by
      rw [planeList, tab_succ]
      congr 1
      exact tab_congr _ _ _ fun i _ => by omega
    rw [e]
    simp only [encPlanes, decPlanes]
    refine Follows.bind (decGroup_follows mag sgn (4 ^ d) L d 0 w s h hw.next (by omega)) ?_
    rintro w' t ⟨h1, h2⟩ h3
    rw [← h2, show L + 1 - (prec + 1) = L - prec by omega]
    rw [Nat.zero_add] at h1
    exact ih L w' t h3 h1 (by omega)

/-- The work values a decode starts with know every coefficient down to plane `N`: nothing. -/
theorem Work.zero_upto {N : Nat} (C : List (BitVec N)) (n : Nat) (hC : C.length = n) :
    (Work.zero n).Upto (C.map coefMag) (C.map coefSign) n N n := by
  refine ⟨by simp [Work.zero], by simp [Work.zero], by simp [Work.zero], fun j hj _ => ?_, fun j hj hjn => ?_⟩
  · have hz : (C.map coefMag).getD j 0 / 2 ^ N = 0 := by
      have hlt : (C.map coefMag).getD j 0 < 2 ^ N := by
        have hj' : j < C.length := by omega
        simp only [List.getD_eq_getElem?_getD, List.getElem?_map, List.getElem?_eq_getElem hj', Option.map_some,
          Option.getD_some, coefMag]
        generalize C[j] = x
        have := x.isLt
        rw [BitVec.toInt_eq_toNat_cond]
        split <;> omega
      exact Nat.div_eq_of_lt hlt
    refine ⟨?_, ?_, fun hne => absurd hz hne⟩
    · rw [hz]; simp [Work.zero, List.getD_eq_getElem?_getD, hj]
    · rw [hz]; simp [Work.zero, List.getD_eq_getElem?_getD, hj]
  · omega

/-- A coefficient from its magnitude and its sign; the sign of 0 does not matter (44_bitplane_coder R141). -/
theorem coefOf_mag_sign {N : Nat} (x : BitVec N) (sg : Bool) (h : coefMag x ≠ 0 → sg = coefSign x) :
    coefOf N (coefMag x) sg = x := by
  by_cases h0 : coefMag x = 0
  · have hx : x = 0#N := by
      apply BitVec.eq_of_toInt_eq
      simpa [coefMag] using h0
    subst hx
    cases sg <;> simp [coefOf, coefMag]
  · rw [h h0]
    by_cases hn : x.toInt < 0
    · have e : x = BitVec.ofInt N (-(x.toInt.natAbs : Int)) := by
        rw [show -(x.toInt.natAbs : Int) = x.toInt by omega, BitVec.ofInt_toInt]
      simp only [coefOf, coefSign, coefMag, hn, decide_true, if_true]
      conv_rhs => rw [e, BitVec.ofInt_neg, BitVec.ofInt_natCast]
    · have e : x = BitVec.ofInt N (x.toInt.natAbs : Int) := by
        rw [show (x.toInt.natAbs : Int) = x.toInt by omega, BitVec.ofInt_toInt]
      simp only [coefOf, coefSign, coefMag, hn, decide_false, Bool.false_eq_true, if_false]
      conv_rhs => rw [e, BitVec.ofInt_natCast]

/-- Work values that know every plane are the coefficients (44_bitplane_coder R152). -/
theorem Work.coeffs_of_upto {N : Nat} (C : List (BitVec N)) (n : Nat) (hC : C.length = n) (w : Work)
    (h : w.Upto (C.map coefMag) (C.map coefSign) n 0 n) : w.coeffs N n = C := by
  rw [← tab_getD C n 0 hC]
  refine tab_congr _ _ _ fun j hj => ?_
  obtain ⟨h1, -, h3⟩ := h.low j hj hj
  have hj' : j < C.length := by omega
  have e1 : (C.map coefMag).getD j 0 = coefMag (C.getD j 0) := by
    simp [List.getD_eq_getElem?_getD, List.getElem?_eq_getElem hj']
  have e2 : (C.map coefSign).getD j false = coefSign (C.getD j 0) := by
    simp [List.getD_eq_getElem?_getD, List.getElem?_eq_getElem hj']
  rw [Nat.pow_zero, Nat.div_one, Nat.mul_one, e1] at h1
  rw [Nat.pow_zero, Nat.div_one, e1, e2] at h3
  rw [h1]
  exact coefOf_mag_sign _ _ h3

/-! ### The cost of a block (44_bitplane_coder R150) -/

/-- A group costs its tests, its leaves and a sign bit per mark set. -/
theorem encGroup_cost (mag : List Nat) (sgn : List Bool) (k depth lo : Nat) (sig : List Bool)
    (hl : lo + 4 ^ depth ≤ sig.length) :
    (encGroup mag sgn k depth lo sig).1.length + (encGroup mag sgn k depth lo sig).2.count false ≤
      groupCost depth + sig.count false ∧ (encGroup mag sgn k depth lo sig).2.length = sig.length := by
  induction depth generalizing lo sig with
  | zero =>
    simp only [encGroup]
    split
    · rename_i hc
      simp only [Bool.and_eq_true, Bool.not_eq_true'] at hc
      have := Work.unmarked_mark ⟨[], [], sig⟩ lo (by simpa using hl) hc.2
      simp only [Work.unmarked, Work.mark] at this
      simp [groupCost]
      omega
    · simp [groupCost]
  | succ depth ih =>
    have hp : 4 ^ (depth + 1) = 4 ^ depth * 4 := Nat.pow_succ _ _
    simp only [encGroup]
    split
    · obtain ⟨a0, b0⟩ := ih lo sig (by omega)
      obtain ⟨a1, b1⟩ := ih (lo + 4 ^ depth) (encGroup mag sgn k depth lo sig).2 (by omega)
      obtain ⟨a2, b2⟩ := ih (lo + 2 * 4 ^ depth)
        (encGroup mag sgn k depth (lo + 4 ^ depth) (encGroup mag sgn k depth lo sig).2).2 (by omega)
      obtain ⟨a3, b3⟩ := ih (lo + 3 * 4 ^ depth) (encGroup mag sgn k depth (lo + 2 * 4 ^ depth)
        (encGroup mag sgn k depth (lo + 4 ^ depth) (encGroup mag sgn k depth lo sig).2).2).2 (by omega)
      refine ⟨?_, by simp only []; omega⟩
      simp only [List.length_cons, List.length_append, groupCost]
      omega
    · refine ⟨?_, rfl⟩
      simp only [List.length_cons, List.length_nil, groupCost]
      omega

theorem encPlanes_cost (mag : List Nat) (sgn : List Bool) (d : Nat) (ks : List Nat) (sig : List Bool)
    (hl : 4 ^ d ≤ sig.length) :
    (encPlanes mag sgn d ks sig).length ≤ ks.length * groupCost d + sig.count false := by
  induction ks generalizing sig with
  | nil => simp [encPlanes]
  | cons k ks ih =>
    obtain ⟨a, b⟩ := encGroup_cost mag sgn k d 0 sig (by omega)
    have := ih (encGroup mag sgn k d 0 sig).2 (by omega)
    simp only [encPlanes, List.length_append, List.length_cons, Nat.succ_mul]
    omega

/-- The most bits `prec` planes of a block cost (44_bitplane_coder R150). -/
theorem planeBits_length {N : Nat} (d prec : Nat) (C : List (BitVec N)) (hC : C.length = 4 ^ d) :
    (planeBits d prec C).length ≤ prec * groupCost d + 4 ^ d := by
  have := encPlanes_cost (C.map coefMag) (C.map coefSign) d (planeList N prec) (C.map fun _ => false) (by simp [hC])
  simpa [planeBits, planeList, hC] using this

/-! ### The skipped bits of a block -/

/-- What the `MINBITS` floor of a decoder can do (45_block_codec R166). -/
theorem skipStream_end (fuel : Nat) (s : State) (h : s.reading)
    (hf : s.cfg.minbits.toNat - s.bits.toNat ≤ fuel) :
    match skipStream fuel s with
    | .ok _ t => ConsumedN (s.cfg.minbits.toNat - s.bits.toNat) s t
    | .raised t => ∃ u, s.room < s.cfg.minbits.toNat - s.bits.toNat ∧ ConsumedN s.room s u ∧
        t = u.raise .capacity (BitVec.ofNat 64 u.pos) := by
  induction fuel generalizing s with
  | zero =>
    rw [Nat.le_zero.1 hf]
    exact ConsumedN.refl s h.1 h.2.1 h.2.2
  | succ fuel ih =>
    have hmax := s.cfg.minbits.isLt
    by_cases hm : s.bits.toNat < s.cfg.minbits.toNat
    · simp only [skipStream, if_pos hm]
      by_cases hc : s.pos + 1 ≤ s.capBits
      · obtain ⟨t, ht, hw⟩ := readCounted_ok s h.1 h.2.1 h.2.2 hc (by omega)
        have hi := ih t hw.toConsumed.reading (by rw [hw.toConsumed.cfg, hw.count]; omega)
        rw [ht, Run.bind_ok]
        rw [hw.toConsumed.cfg, hw.count] at hi
        revert hi
        cases skipStream fuel t with
        | ok a u =>
          intro hi
          have := hw.trans hi
          rwa [show 1 + (s.cfg.minbits.toNat - (s.bits.toNat + 1)) = s.cfg.minbits.toNat - s.bits.toNat by
            omega] at this
        | raised u =>
          rintro ⟨v, hn, hv, he⟩
          have hroom := hw.toConsumed.room
          exact ⟨v, by omega, hroom ▸ hw.trans hv, he⟩
      · rw [readCounted_full s h.1 (by omega), Run.bind_raised]
        have hz : s.room = 0 := by rw [State.room]; omega
        exact ⟨s, by omega, hz ▸ ConsumedN.refl s h.1 h.2.1 h.2.2, rfl⟩
    · rw [Nat.sub_eq_zero_of_le (by omega)]
      simp only [skipStream, if_neg hm]
      exact ConsumedN.refl s h.1 h.2.1 h.2.2

end Sys2Proof.Machine
end

