-- ==== Sys2Proof/Laws/Transform.lean ====
section
/-! SUPPORT. Laws of the transform: a line lifted and lifted back, what a pass does to each line, the passes and the
sequency order undone (42_lifting_transform R103, R104, R110, R111). -/

namespace Sys2Proof.Machine

/-! ### Lines -/

theorem invLift_fwdLift {N : Nat} (a : Line N) : invLift (fwdLift a) = a := by
  obtain ⟨a0, a1, a2, a3⟩ := a
  have h1 : ∀ x y : BitVec N, x + y - y = x := fun x y => by ring
  have h2 : ∀ x y : BitVec N, x - y + y = x := fun x y => by ring
  simp only [fwdLift, invLift, h1, h2]

theorem fwdLift_invLift {N : Nat} (c : Line N) : fwdLift (invLift c) = c := by
  obtain ⟨l, u, h, v⟩ := c
  have h1 : ∀ x y : BitVec N, x + y - y = x := fun x y => by ring
  have h2 : ∀ x y : BitVec N, x - y + y = x := fun x y => by ring
  simp only [fwdLift, invLift, h1, h2]

/-! ### Coordinates -/

theorem coord_lt (i a : Nat) : coord i a < 4 := Nat.mod_lt _ (by omega)

/-- The member of coordinate `c` on the line through `b`, `b` the member of coordinate 0. -/
theorem coord_add (b a c : Nat) (hb : coord b a = 0) (hc : c < 4) : coord (b + c * 4 ^ a) a = c := by
  have hp : 0 < 4 ^ a := by positivity
  unfold coord at *
  rw [Nat.add_mul_div_right _ _ hp]
  omega

/-- Other coordinates do not change along a line. -/
theorem coord_add_ne (b a c a' : Nat) (hb : coord b a = 0) (hc : c < 4) (ha : a' ≠ a) :
    coord (b + c * 4 ^ a) a' = coord b a' := by
  unfold coord at *
  rcases Nat.lt_or_gt_of_ne ha with h | h
  · obtain ⟨e, rfl⟩ : ∃ e, a = a' + 1 + e := ⟨a - a' - 1, by omega⟩
    have hp : 0 < 4 ^ a' := by positivity
    rw [show c * 4 ^ (a' + 1 + e) = (c * 4 ^ e * 4) * 4 ^ a' by rw [Nat.pow_add, Nat.pow_succ]; ring,
      Nat.add_mul_div_right _ _ hp]
    omega
  · obtain ⟨e, rfl⟩ : ∃ e, a' = a + 1 + e := ⟨a' - a - 1, by omega⟩
    have hp : 0 < 4 ^ a := by positivity
    rw [Nat.pow_add, Nat.pow_succ, ← Nat.div_div_eq_div_mul, ← Nat.div_div_eq_div_mul,
      ← Nat.div_div_eq_div_mul b, ← Nat.div_div_eq_div_mul b, Nat.add_mul_div_right _ _ hp]
    rw [show (b / 4 ^ a + c) / 4 = b / 4 ^ a / 4 by omega]

/-- The member of coordinate 0 on the line through `i`. -/
def lineBase (i a : Nat) : Nat := i - coord i a * 4 ^ a

theorem lineBase_add (i a : Nat) : lineBase i a + coord i a * 4 ^ a = i := by
  unfold lineBase coord
  have : i / 4 ^ a % 4 * 4 ^ a ≤ i :=
    le_trans (Nat.mul_le_mul_right _ (Nat.mod_le _ _)) (Nat.div_mul_le_self _ _)
  omega

theorem coord_lineBase (i a : Nat) : coord (lineBase i a) a = 0 := by
  have hp : 0 < 4 ^ a := by positivity
  have h := lineBase_add i a
  have h2 : i / 4 ^ a = lineBase i a / 4 ^ a + coord i a := by
    conv_lhs => rw [← h]
    exact Nat.add_mul_div_right _ _ hp
  have h3 : coord i a = i / 4 ^ a % 4 := rfl
  unfold coord at *
  omega

theorem lineBase_of_add (b a c : Nat) (hb : coord b a = 0) (hc : c < 4) : lineBase (b + c * 4 ^ a) a = b := by
  rw [lineBase, coord_add b a c hb hc]
  omega

theorem lineBase_le (i a : Nat) : lineBase i a ≤ i := Nat.sub_le _ _

/-- The members of a line lie in the block. -/
theorem member_lt (b a c d : Nat) (hb : coord b a = 0) (hc : c < 4) (ha : a < d) (h : b < 4 ^ d) :
    b + c * 4 ^ a < 4 ^ d := by
  obtain ⟨e, rfl⟩ : ∃ e, d = a + 1 + e := ⟨d - a - 1, by omega⟩
  have hp : 0 < 4 ^ a := by positivity
  rw [Nat.pow_add, Nat.pow_succ, Nat.mul_assoc] at *
  have h1 : b / 4 ^ a < 4 * 4 ^ e := Nat.div_lt_of_lt_mul h
  unfold coord at hb
  have h2 : b / 4 ^ a + c < 4 * 4 ^ e := by omega
  have h3 : (b + c * 4 ^ a) / 4 ^ a < 4 * 4 ^ e := by rwa [Nat.add_mul_div_right _ _ hp]
  have h4 := (Nat.div_lt_iff_lt_mul hp).1 h3
  rwa [Nat.mul_comm (4 * 4 ^ e)] at h4

/-! ### Passes -/

@[simp] theorem length_linePass {N : Nat} (lift : Line N → Line N) (n a : Nat) (T : List (BitVec N)) :
    (linePass lift n a T).length = n := length_tab _ _

theorem lineAt_get {N : Nat} (T : List (BitVec N)) (a b c : Nat) (hc : c < 4) :
    (lineAt T a b).get c = T.getD (b + c * 4 ^ a) 0 := by
  interval_cases c <;> simp [lineAt, Line.get]

theorem Line.ext_get {N : Nat} (x y : Line N) (h : ∀ c < 4, x.get c = y.get c) : x = y := by
  obtain ⟨x0, x1, x2, x3⟩ := x
  obtain ⟨y0, y1, y2, y3⟩ := y
  have h0 := h 0 (by omega)
  have h1 := h 1 (by omega)
  have h2 := h 2 (by omega)
  have h3 := h 3 (by omega)
  simp [Line.get] at h0 h1 h2 h3
  simp [h0, h1, h2, h3]

/-- A pass replaces every line along its axis by its image (42_lifting_transform R104). -/
theorem lineAt_linePass {N : Nat} (lift : Line N → Line N) (d a b : Nat) (T : List (BitVec N)) (ha : a < d)
    (hb : coord b a = 0) (h : b < 4 ^ d) : lineAt (linePass lift (4 ^ d) a T) a b = lift (lineAt T a b) := by
  apply Line.ext_get
  intro c hc
  rw [lineAt_get _ _ _ _ hc, linePass, getD_tab, if_pos (member_lt b a c d hb hc ha h), coord_add b a c hb hc]
  rw [Nat.add_sub_cancel]

/-- Two blocks whose lines along an axis agree are equal. -/
theorem eq_of_lines {N : Nat} (d a : Nat) (S T : List (BitVec N)) (hS : S.length = 4 ^ d) (hT : T.length = 4 ^ d)
    (h : ∀ b < 4 ^ d, coord b a = 0 → lineAt S a b = lineAt T a b) : S = T := by
  rw [← tab_getD S _ 0 hS, ← tab_getD T _ 0 hT]
  refine tab_congr _ _ _ fun i hi => ?_
  have hl := h (lineBase i a) (lt_of_le_of_lt (lineBase_le i a) hi) (coord_lineBase i a)
  have := congrArg (fun l => l.get (coord i a)) hl
  simp only [lineAt_get _ _ _ _ (coord_lt i a), lineBase_add] at this
  exact this

/-- A pass undone by the pass of the inverse function. -/
theorem linePass_linePass {N : Nat} (f g : Line N → Line N) (hfg : ∀ l, f (g l) = l) (d a : Nat)
    (T : List (BitVec N)) (ha : a < d) (hT : T.length = 4 ^ d) :
    linePass f (4 ^ d) a (linePass g (4 ^ d) a T) = T := by
  refine eq_of_lines d a _ _ (by simp) hT fun b hb h0 => ?_
  rw [lineAt_linePass _ _ _ _ _ ha h0 hb, lineAt_linePass _ _ _ _ _ ha h0 hb, hfg]

theorem length_fwdPasses {N : Nat} (n e : Nat) (T : List (BitVec N)) (hT : T.length = n) :
    (fwdPasses n e T).length = n := by
  cases e with
  | zero => exact hT
  | succ e => simp [fwdPasses]

theorem length_invPasses {N : Nat} (n e : Nat) (T : List (BitVec N)) (hT : T.length = n) :
    (invPasses n e T).length = n := by
  induction e generalizing T with
  | zero => exact hT
  | succ e ih => exact ih _ (by simp)

/-- The passes undone (42_lifting_transform R103, R104). -/
theorem invPasses_fwdPasses {N : Nat} (d e : Nat) (T : List (BitVec N)) (he : e ≤ d) (hT : T.length = 4 ^ d) :
    invPasses (4 ^ d) e (fwdPasses (4 ^ d) e T) = T := by
  induction e with
  | zero => rfl
  | succ e ih =>
    rw [fwdPasses, invPasses, linePass_linePass _ _ invLift_fwdLift d e _ (by omega) (length_fwdPasses _ _ _ hT)]
    exact ih (by omega)

theorem fwdPasses_invPasses {N : Nat} (d e : Nat) (T : List (BitVec N)) (he : e ≤ d) (hT : T.length = 4 ^ d) :
    fwdPasses (4 ^ d) e (invPasses (4 ^ d) e T) = T := by
  induction e generalizing T with
  | zero => rfl
  | succ e ih =>
    rw [fwdPasses, invPasses, ih _ (by omega) (by simp)]
    exact linePass_linePass _ _ fwdLift_invLift d e _ (by omega) hT

/-! ### The sequency order -/

theorem permIndex_perm (d j : Nat) (hd : 1 ≤ d) (hd' : d ≤ 4) (hj : j < 4 ^ d) :
    permIndex d ((perm d).getD j 0) = j ∧ (perm d).getD j 0 < 4 ^ d := by
  revert j
  interval_cases d <;> decide +kernel

theorem perm_permIndex (d i : Nat) (hd : 1 ≤ d) (hd' : d ≤ 4) (hi : i < 4 ^ d) :
    (perm d).getD (permIndex d i) 0 = i ∧ permIndex d i < 4 ^ d := by
  revert i
  interval_cases d <;> decide +kernel

/-! ### The transform -/

@[simp] theorem length_fwdTransform {N : Nat} (d : Nat) (T : List (BitVec N)) : (fwdTransform d T).length = 4 ^ d :=
  length_tab _ _

theorem length_invTransform {N : Nat} (d : Nat) (C : List (BitVec N)) : (invTransform d C).length = 4 ^ d :=
  length_invPasses _ _ _ (length_tab _ _)

/-- The inverse transform undoes the forward one (42_lifting_transform R111). -/
theorem invTransform_fwdTransform {N : Nat} (d : Nat) (T : List (BitVec N)) (hd : 1 ≤ d) (hd' : d ≤ 4)
    (hT : T.length = 4 ^ d) : invTransform d (fwdTransform d T) = T := by
  have h : (tab (4 ^ d) fun i => (fwdTransform d T).getD (permIndex d i) 0) = fwdPasses (4 ^ d) d T := by
    rw [← tab_getD (fwdPasses (4 ^ d) d T) _ 0 (length_fwdPasses _ _ _ hT)]
    refine tab_congr _ _ _ fun i hi => ?_
    obtain ⟨h1, h2⟩ := perm_permIndex d i hd hd' hi
    rw [fwdTransform, getD_tab, if_pos h2, h1]
  rw [invTransform, h]
  exact invPasses_fwdPasses d d T (le_refl _) hT

/-- The forward transform undoes the inverse one. -/
theorem fwdTransform_invTransform {N : Nat} (d : Nat) (C : List (BitVec N)) (hd : 1 ≤ d) (hd' : d ≤ 4)
    (hC : C.length = 4 ^ d) : fwdTransform d (invTransform d C) = C := by
  rw [fwdTransform, invTransform, fwdPasses_invPasses d d _ (le_refl _) (length_tab _ _), ← tab_getD C _ 0 hC]
  refine tab_congr _ _ _ fun j hj => ?_
  obtain ⟨h1, h2⟩ := permIndex_perm d j hd hd' hj
  rw [getD_tab, if_pos h2, h1, tab_getD C _ 0 hC]

end Sys2Proof.Machine
end

