-- ==== Sys2Proof/Laws/Padding.lean ====
section
/-! SUPPORT. Laws of padding: which sample each position of a padded block holds (45_block_codec R161). -/

namespace Sys2Proof.Machine

/-- `i` with coordinate `a` cut to `na - 1`. -/
def cutAxis (na a i : Nat) : Nat := if na ≤ coord i a then i - (coord i a - (na - 1)) * 4 ^ a else i

/-- `i` with its coordinates on the axes below `e` cut to the extents. -/
def cutAxes (ext : Nat → Nat) : Nat → Nat → Nat
  | 0, i => i
  | e + 1, i => cutAxes ext e (cutAxis (ext e) e i)

theorem cutAxis_eq (na a i : Nat) (h : 1 ≤ na) :
    cutAxis na a i = lineBase i a + min (coord i a) (na - 1) * 4 ^ a := by
  have h0 := lineBase_add i a
  unfold cutAxis
  split
  · rename_i hc
    rw [Nat.min_eq_right (by omega)]
    have : coord i a * 4 ^ a = (coord i a - (na - 1)) * 4 ^ a + (na - 1) * 4 ^ a := by
      rw [← Nat.add_mul, Nat.sub_add_cancel (by omega)]
    omega
  · rw [Nat.min_eq_left (by omega), h0]

theorem coord_cutAxis (na a i : Nat) (h : 1 ≤ na) : coord (cutAxis na a i) a = min (coord i a) (na - 1) := by
  rw [cutAxis_eq na a i h]
  exact coord_add _ _ _ (coord_lineBase i a) (lt_of_le_of_lt (Nat.min_le_left _ _) (coord_lt i a))

theorem coord_cutAxis_ne (na a i a' : Nat) (h : 1 ≤ na) (ha : a' ≠ a) : coord (cutAxis na a i) a' = coord i a' := by
  rw [cutAxis_eq na a i h, coord_add_ne _ _ _ _ (coord_lineBase i a)
    (lt_of_le_of_lt (Nat.min_le_left _ _) (coord_lt i a)) ha]
  conv_rhs => rw [← lineBase_add i a]
  rw [coord_add_ne _ _ _ _ (coord_lineBase i a) (coord_lt i a) ha]

theorem cutAxis_le (na a i : Nat) : cutAxis na a i ≤ i := by
  unfold cutAxis
  split
  · exact Nat.sub_le _ _
  · exact le_refl _

theorem cutAxes_le (ext : Nat → Nat) (e i : Nat) : cutAxes ext e i ≤ i := by
  induction e generalizing i with
  | zero => exact le_refl _
  | succ e ih => exact le_trans (ih _) (cutAxis_le _ _ _)

/-- What `pad` leaves in each register: valid positions keep theirs, the others take the sample at the cut
coordinates, zero-extended; registers beyond the block keep theirs (45_block_codec R161). -/
theorem padAxes_get (N n : Nat) (ext : Nat → Nat) (e : Nat) (f : RegFile) (i : Nat) (hN : N ≤ 64) (hn : n ≤ 256)
    (hext : ∀ a < e, 1 ≤ ext a) :
    (padAxes N n ext e f).get i =
      if i < n ∧ ¬ (∀ a < e, coord i a < ext a) then toContainer (fromContainer N (f.get (cutAxes ext e i)))
      else f.get i := by
  induction e generalizing i with
  | zero => simp [padAxes]
  | succ e ih =>
    have ih' := fun j => ih j fun a ha => hext a (by omega)
    rw [padAxes, padAxis, RegFile.get_writeLow _ _ _ _ hn]
    by_cases hi : i < n
    · rw [if_pos hi]
      by_cases hc : ext e ≤ coord i e
      · have hcut : i - (coord i e - (ext e - 1)) * 4 ^ e = cutAxis (ext e) e i := by rw [cutAxis, if_pos hc]
        have hlt : cutAxis (ext e) e i < n := lt_of_le_of_lt (cutAxis_le _ _ _) hi
        have hnot : i < n ∧ ¬ (∀ a < e + 1, coord i a < ext a) :=
          ⟨hi, fun h => absurd (h e (by omega)) (by omega)⟩
        rw [if_pos hc, hcut, if_pos hnot, ih', cutAxes]
        split
        · rw [fromContainer_toContainer _ hN]
        · rename_i hv
          have hv' : ∀ a < e, coord (cutAxis (ext e) e i) a < ext a := by
            by_contra hne
            exact hv ⟨hlt, hne⟩
          have : ∀ e' ≤ e, cutAxes ext e' (cutAxis (ext e) e i) = cutAxis (ext e) e i := by
            intro e' he'
            induction e' with
            | zero => rfl
            | succ e' ihe =>
              rw [cutAxes]
              have h := hv' e' (by omega)
              rw [show cutAxis (ext e') e' (cutAxis (ext e) e i) = cutAxis (ext e) e i by
                conv_lhs => rw [cutAxis, if_neg (by omega)]]
              exact ihe (by omega)
          rw [this e (le_refl _)]
      · rw [if_neg hc, ih']
        have hcut : cutAxis (ext e) e i = i := by rw [cutAxis, if_neg hc]
        have hiff : (∀ a < e + 1, coord i a < ext a) ↔ ∀ a < e, coord i a < ext a := by
          refine ⟨fun h a ha => h a (by omega), fun h a ha => ?_⟩
          rcases Nat.lt_succ_iff_lt_or_eq.1 ha with h1 | rfl
          · exact h a h1
          · omega
        simp only [hiff, cutAxes, hcut]
    · rw [if_neg hi, ih', if_neg (fun h => hi h.1), if_neg (fun h => hi h.1)]

/-- The digits of an index below `4^e`. -/
theorem sum_digits (g : Nat → Nat) (e : Nat) :
    ((List.range (e + 1)).map fun a => g a * 4 ^ a).sum = ((List.range e).map fun a => g a * 4 ^ a).sum + g e * 4 ^ e := by
  rw [List.range_succ, List.map_append, List.sum_append]
  simp

theorem sum_coords (e i : Nat) (h : i < 4 ^ e) : ((List.range e).map fun a => coord i a * 4 ^ a).sum = i := by
  have key : ∀ e, ((List.range e).map fun a => coord i a * 4 ^ a).sum = i % 4 ^ e := by
    intro e
    induction e with
    | zero => simp [Nat.mod_one]
    | succ e ih =>
      rw [sum_digits, ih, Nat.pow_succ, Nat.mod_mul, coord]
      ring
  rw [key, Nat.mod_eq_of_lt h]

/-- The cut coordinates written out (45_block_codec R161). -/
theorem cutAxes_eq (ext : Nat → Nat) (d e i : Nat) (he : e ≤ d) (hi : i < 4 ^ d) (hext : ∀ a < d, 1 ≤ ext a) :
    cutAxes ext e i =
      ((List.range d).map fun a => (if a < e then min (coord i a) (ext a - 1) else coord i a) * 4 ^ a).sum := by
  induction e generalizing i with
  | zero => simp only [cutAxes, Nat.not_lt_zero, if_false]; exact (sum_coords d i hi).symm
  | succ e ih =>
    rw [cutAxes, ih _ (by omega) (lt_of_le_of_lt (cutAxis_le _ _ _) hi)]
    congr 1
    apply List.map_congr_left
    intro a _
    have h1 := hext e (by omega)
    by_cases ha : a = e
    · subst ha
      rw [if_neg (by omega), if_pos (by omega), coord_cutAxis _ _ _ h1]
    · rw [coord_cutAxis_ne _ _ _ _ h1 ha]
      by_cases hlt : a < e
      · rw [if_pos hlt, if_pos (by omega)]
      · rw [if_neg hlt, if_neg (by omega)]

/-- What `PADBLK` and the first step of `ENCBLK` leave in `BLK` (45_block_codec R161). -/
theorem State.pad_get (s : State) (i : Nat) (hext : ∀ a < s.dim, 1 ≤ s.extent a) :
    s.pad.blk.get i =
      if i < s.size ∧ ¬ (∀ a < s.dim, coord i a < s.extent a) then
        toContainer (fromContainer s.width (s.blk.get (cutAxes s.extent s.dim i)))
      else s.blk.get i :=
  padAxes_get _ _ _ _ _ _ s.width_le s.size_le hext

end Sys2Proof.Machine
end

