-- ==== Sys2Proof/Laws/Block.lean ====
section
/-! SUPPORT. Laws of the pieces of the block commands: their checks, the header, the planes with the `MINBITS` floor,
the transform of what `COEF` holds, and the tests of the exponent scaler (43_exponent_scaler R120, R122, R123,
45_block_codec R163, R175, R176). -/

namespace Sys2Proof.Machine

variable {N : Nat}

/-! ### Frames of the shared updates -/

/-- Padding writes `BLK` only (45_block_codec R161). -/
theorem State.pad_eq (s : State) : s.pad = s.setBlk s.pad.blk := rfl

/-- The transform writes `COEF` only (42_lifting_transform R110). -/
theorem State.forward_eq (s : State) : s.forward = s.setCoef s.forward.coef := rfl

/-- The inverse transform writes `COEF` only (42_lifting_transform R111). -/
theorem State.inverse_eq (s : State) : s.inverse = s.setCoef s.inverse.coef := rfl

/-! ### The transform of a block -/

/-- What `COEF` holds after the forward transform (42_lifting_transform R110). -/
theorem State.coeffs_forward (s : State) : s.forward.coeffs = fwdTransform s.dim s.coeffs :=
  State.coeffs_putCoeffs s _ (length_fwdTransform _ _)

/-- What `COEF` holds after the inverse transform (42_lifting_transform R111). -/
theorem State.coeffs_inverse (s : State) : s.inverse.coeffs = invTransform s.dim s.coeffs :=
  State.coeffs_putCoeffs s _ (length_invTransform _ _)

/-- The samples copied are the coefficients (45_block_codec R173). -/
theorem State.coeffs_blkToCoef (s : State) : s.blkToCoef.coeffs = s.samples :=
  State.coeffs_putCoeffs s _ s.length_samples

/-- The coefficients copied are the samples (45_block_codec R174). -/
theorem State.samples_coefToBlk (s : State) : s.coefToBlk.samples = s.coeffs :=
  State.samples_putSamples s _ s.length_coeffs

/-- The forward transform undone, up to what the containers hold above `N` bits (42_lifting_transform R111). -/
theorem State.coeffs_inverse_forward (s : State) : s.forward.inverse.coeffs = s.coeffs :=
  ((State.coeffs_inverse s.forward).trans (congrArg (invTransform s.dim) s.coeffs_forward)).trans
    (invTransform_fwdTransform s.dim s.coeffs s.dim_pos s.dim_le s.length_coeffs)

/-- The inverse transform undone. -/
theorem State.coeffs_forward_inverse (s : State) : s.inverse.forward.coeffs = s.coeffs :=
  ((State.coeffs_forward s.inverse).trans (congrArg (fwdTransform s.dim) s.coeffs_inverse)).trans
    (fwdTransform_invTransform s.dim s.coeffs s.dim_pos s.dim_le s.length_coeffs)

/-! ### Checks -/

theorem State.extentsOk_iff (s : State) : s.extentsOk = true ↔ ∀ a < s.dim, 1 ≤ s.extent a ∧ s.extent a ≤ 4 := by
  simp [State.extentsOk, List.all_eq_true, Nat.one_le_iff_ne_zero]

theorem State.paramFault_none_iff (s : State) : s.paramFault = none ↔
    s.cfg.minbits.toNat ≤ s.cfg.maxbits.toNat ∧ (s.ty.isFloat = true → s.ty.ebits ≤ s.cfg.maxbits.toNat) := by
  unfold State.paramFault
  by_cases h1 : s.cfg.maxbits.toNat < s.cfg.minbits.toNat
  · simp [h1]
  · by_cases h2 : (s.ty.isFloat && decide (s.cfg.maxbits.toNat < s.ty.ebits)) = true
    · simp only [if_neg h1, if_pos h2, reduceCtorEq, false_iff]
      simp only [Bool.and_eq_true, decide_eq_true_eq] at h2
      intro h
      have := h.2 h2.1
      omega
    · simp only [if_neg h1, if_neg h2, true_iff]
      refine ⟨by omega, fun hf => ?_⟩
      simp only [Bool.and_eq_true, decide_eq_true_eq, not_and] at h2
      have := h2 hf
      omega

/-- The float test of the exponent scaler (43_exponent_scaler R120). -/
theorem needFloat_cases (s : State) (f : State → Run Unit) :
    (s.ty.isFloat = true ∧ needFloat s f = f s) ∨
      (s.ty.isFloat = false ∧ needFloat s f = .raised (s.raise .badParam 3)) := by
  unfold needFloat
  cases h : s.ty.isFloat <;> simp

/-- The non-finite test (43_exponent_scaler R122): all finite, or a lowest index that is not. -/
theorem needFinite_cases (s : State) (f : State → Run Unit) :
    ((∀ i < s.size, nonfinite s.ty (fromContainer s.width (s.blk.get i)) = false) ∧ needFinite s f = f s) ∨
      ∃ i < s.size, nonfinite s.ty (fromContainer s.width (s.blk.get i)) = true ∧
        (∀ j < i, nonfinite s.ty (fromContainer s.width (s.blk.get j)) = false) ∧
        needFinite s f = .raised (s.raise .nonfinite (BitVec.ofNat 64 i)) := by
  unfold needFinite firstNonfinite
  rcases h : s.samples.findIdx? (nonfinite s.ty) with _ | i
  · left
    refine ⟨fun i hi => ?_, rfl⟩
    rw [List.findIdx?_eq_none_iff] at h
    exact h _ ((mem_tab _ _ _).2 ⟨i, hi, rfl⟩)
  · right
    obtain ⟨hi, h1, h2⟩ := List.findIdx?_eq_some_iff_getElem.1 h
    have hlen : s.samples.length = s.size := s.length_samples
    refine ⟨i, by omega, ?_, fun j hj => ?_, rfl⟩
    · rw [← s.getD_samples i (by omega)]
      rw [List.getD_eq_getElem?_getD, List.getElem?_eq_getElem hi]
      exact h1
    · rw [← s.getD_samples j (by omega)]
      have := h2 j hj
      rw [List.getD_eq_getElem?_getD, List.getElem?_eq_getElem (by omega)]
      simpa using this

theorem ebits_le (t : ScalarType) : t.ebits ≤ 11 := by cases t <;> decide

/-! ### The block exponent -/

/-- The block exponent bounds the effective exponent of every non-zero sample and is that of one of them
(43_exponent_scaler R123). -/
theorem blockExponent_spec (t : ScalarType) (B : List (BitVec N)) :
    (∀ b ∈ B, isZero t b = false → effExp t b ≤ blockExponent t B) ∧
      (blockExponent t B = 0 ∧ (∀ b ∈ B, isZero t b = true) ∨
        ∃ b ∈ B, isZero t b = false ∧ effExp t b = blockExponent t B) := by
  induction B with
  | nil => exact ⟨by simp, .inl ⟨rfl, by simp⟩⟩
  | cons b r ih =>
    obtain ⟨h1, h2⟩ := ih
    have hpos : 1 ≤ effExp t b := Nat.le_max_right _ _
    cases hz : isZero t b
    · have e : blockExponent t (b :: r) = max (effExp t b) (blockExponent t r) := by
        rw [blockExponent, hz]
        rfl
      rw [e]
      refine ⟨fun x hx hxz => ?_, .inr ?_⟩
      · rcases List.mem_cons.1 hx with rfl | hx
        · exact Nat.le_max_left _ _
        · exact le_trans (h1 x hx hxz) (Nat.le_max_right _ _)
      · rcases Nat.le_total (blockExponent t r) (effExp t b) with hle | hle
        · exact ⟨b, by simp, hz, (Nat.max_eq_left hle).symm⟩
        · rcases h2 with ⟨h0, -⟩ | ⟨x, hx, hxz, hxe⟩
          · omega
          · exact ⟨x, by simp [hx], hxz, by rw [Nat.max_eq_right hle, hxe]⟩
    · have e : blockExponent t (b :: r) = blockExponent t r := by rw [blockExponent, if_pos hz]
      rw [e]
      refine ⟨fun x hx hxz => ?_, ?_⟩
      · rcases List.mem_cons.1 hx with rfl | hx
        · rw [hz] at hxz; exact Bool.noConfusion hxz
        · exact h1 x hx hxz
      · rcases h2 with ⟨h0, hall⟩ | ⟨x, hx, hxz, hxe⟩
        · exact .inl ⟨h0, fun x hx => (List.mem_cons.1 hx).elim (fun h => h ▸ hz) (hall x)⟩
        · exact .inr ⟨x, by simp [hx], hxz, hxe⟩

/-! ### The header -/

/-- What writing a header can do (45_block_codec R175): all of it counted, or none of it. -/
theorem writeHeader_end (E : Nat) (s : State) (hd : s.fifo.dir = .wr) (hb : s.fifo.bufferOk) (h0 : s.bits = 0) :
    (s.pos + s.ty.ebits ≤ s.capBits ∧
      ∃ t, writeHeader E s = .ok () t ∧ WroteN (bitsOf (BitVec.ofNat 64 E) s.ty.ebits) s t) ∨
    (s.capBits < s.pos + s.ty.ebits ∧
      writeHeader E s = .raised (s.raise .capacity (BitVec.ofNat 64 s.pos))) := by
  have he := ebits_le s.ty
  by_cases hc : s.pos + s.ty.ebits ≤ s.capBits
  · refine .inl ⟨hc, ?_⟩
    have h := pushBits_wrote s (BitVec.ofNat 64 E) s.ty.ebits (by omega) hd hb hc
    have hbits : (s.pushBits (BitVec.ofNat 64 E) s.ty.ebits).bits = 0 := by rw [State.pushBits_eq]; exact h0
    refine ⟨_, ?_, h.setBits (0 + BitVec.ofNat 32 s.ty.ebits), ?_⟩
    · simp only [writeHeader, writeBits_ok _ _ _ hd hc, Run.bind_ok, hbits]
    · simp [bitsOf, h0]
      omega
  · refine .inr ⟨by omega, ?_⟩
    simp only [writeHeader, writeBits_capacity _ _ _ hd (by omega : s.capBits < s.pos + s.ty.ebits), Run.bind_raised]

/-- What reading a header can do (45_block_codec R176). -/
theorem readHeader_end (s : State) (h : s.reading) (h0 : s.bits = 0) :
    (s.pos + s.ty.ebits ≤ s.capBits ∧
      ∃ v t, readHeader s = .ok v t ∧ ConsumedN s.ty.ebits s t ∧
        ∀ j, v.getLsbD j = (decide (j < s.ty.ebits) && s.nextBit j)) ∨
    (s.capBits < s.pos + s.ty.ebits ∧
      readHeader s = .raised (s.raise .capacity (BitVec.ofNat 64 s.pos))) := by
  have he := ebits_le s.ty
  obtain ⟨hd, hb, hr⟩ := h
  by_cases hc : s.pos + s.ty.ebits ≤ s.capBits
  · refine .inl ⟨hc, ?_⟩
    have h := pullBits_consumed s s.ty.ebits (by omega) hd hb hr hc
    have hbits : (s.pullBits s.ty.ebits).bits = 0 := by
      rw [← h0]
      unfold State.pullBits
      split <;> rfl
    refine ⟨s.pullValue s.ty.ebits, _, ?_, ⟨h.setBits (0 + BitVec.ofNat 32 s.ty.ebits), ?_⟩,
      fun j => pullValue_getLsbD s _ j (by omega) hb⟩
    · simp only [readHeader, readBits_ok _ _ hd hc, Run.bind_ok, hbits]
    · simp [h0]
      omega
  · refine .inr ⟨by omega, ?_⟩
    simp only [readHeader, readBits_capacity _ _ hd (by omega : s.capBits < s.pos + s.ty.ebits), Run.bind_raised]

/-! ### The planes and the floor -/

/-- What the coder and the `MINBITS` floor of an encoder can do together (45_block_codec R162, R166). -/
theorem encodeTail_end (s : State) (hd : s.fifo.dir = .wr) (hb : s.fifo.bufferOk) (body : List Bool)
    (hbody : body = (planeBits s.dim s.planes s.coeffs).take (s.cfg.maxbits.toNat - s.bits.toNat)) :
    EmitEnd (body ++ List.replicate (s.cfg.minbits.toNat - (s.bits.toNat + body.length)) false) s
      ((encodePlanes s).bind fun _ t => padStream t.cfg.minbits.toNat t) := by
  have h1 := emitAll_end (planeBits s.dim s.planes s.coeffs) s hd hb
  rw [← hbody] at h1
  refine EmitEnd.bind h1 fun t _ hw => ?_
  have := padStream_end t.cfg.minbits.toNat t hw.dir hw.buffer (by omega)
  rw [hw.count, hw.toWrote.cfg] at this
  rw [hw.toWrote.cfg]
  exact this

/-- What `decode_planes` and the store of `COEF` can do (44_bitplane_coder R147, R150, R152). -/
theorem decodePlanes_end (s : State) (h : s.reading) :
    match decodePlanes s with
    | .ok _ t => ∃ (w : Work) (n : Nat) (u : State), ConsumedN n s u ∧ n ≤ s.budget ∧
        n ≤ s.planes * groupCost s.dim + s.size ∧ t = u.putCoeffs (w.coeffs s.width s.size)
    | .raised t => ∃ (n : Nat) (u : State), ConsumedN n s u ∧ n < s.budget ∧
        n < s.planes * groupCost s.dim + s.size ∧ u.capBits ≤ u.pos ∧
        t = u.raise .capacity (BitVec.ofNat 64 u.pos) := by
  have hz : (Work.zero s.size).sig.length = 4 ^ s.dim := by simp [Work.zero, State.size]
  have hu : (Work.zero s.size).unmarked = s.size := by simp [Work.zero, Work.unmarked]
  have hend := decPlanes_end s.dim (planeList s.width s.planes) (Work.zero s.size) s h (by omega)
  rw [show (planeList s.width s.planes).length = s.planes from length_tab _ _] at hend
  unfold decodePlanes
  revert hend
  cases decPlanes s.dim (planeList s.width s.planes) (Work.zero s.size) s with
  | go w t =>
    rintro ⟨n, hc, hn, hcost, -⟩
    exact ⟨w, n, t, hc, hn, by omega, rfl⟩
  | stop w t =>
    rintro ⟨hc, hcost⟩
    exact ⟨w, s.budget, t, hc, le_refl _, by omega, rfl⟩
  | raised t =>
    rintro ⟨n, u, hc, hn, hcost, hp, e⟩
    exact ⟨n, u, hc, hn, by omega, hp, e⟩

end Sys2Proof.Machine
end

