-- ==== Sys2Proof/Laws/Decoder.lean ====
section
/-! SUPPORT. What the decoder's traversal does on any stream, said once (44_bitplane_coder R144, R147, R148): a
traversal of a bit sequence without limits, and that `DECPL`'s traversal is it on the bits received followed by
zeros. -/

namespace Sys2Proof.Machine

/-! ### The traversal of a bit sequence -/

/-- The leaf of `dec_group` on the bits `β`: the work values after it and how many bits it takes. -/
def readLeaf (k lo : Nat) (w : Work) (β : Nat → Bool) : Work × Nat :=
  if β 0 && !w.sig.getD lo false then (((w.addBit lo k (β 0)).mark lo).setSign lo (β 1), 2)
  else (w.addBit lo k (β 0), 1)

/-- One traversal after another. -/
def readThen (p : Work × Nat) (q : Work → (Nat → Bool) → Work × Nat) (β : Nat → Bool) : Work × Nat :=
  let r := q p.1 fun j => β (p.2 + j)
  (r.1, p.2 + r.2)

/-- `dec_group(lo, 4^depth, k)` on the bits `β`. -/
def readGroup (k : Nat) : Nat → Nat → Work → (Nat → Bool) → Work × Nat
  | 0, lo, w, β => readLeaf k lo w β
  | depth + 1, lo, w, β =>
    if β 0 then
      readThen (readThen (readThen (readThen (w, 1) (readGroup k depth lo) β) (readGroup k depth (lo + 4 ^ depth)) β)
        (readGroup k depth (lo + 2 * 4 ^ depth)) β) (readGroup k depth (lo + 3 * 4 ^ depth)) β
    else (w, 1)

/-- The planes of a list on the bits `β`. -/
def readPlanes (d : Nat) : List Nat → Work → (Nat → Bool) → Work × Nat
  | [], w, _ => (w, 0)
  | k :: ks, w, β => readThen (readGroup k d 0 w β) (readPlanes d ks) β

/-- A traversal that leaves magnitudes and signs alone where all bits are 0. -/
def Inert (q : Work → (Nat → Bool) → Work × Nat) : Prop :=
  ∀ w, (q w fun _ => false).1.mag = w.mag ∧ (q w fun _ => false).1.sgn = w.sgn

theorem readLeaf_inert (k lo : Nat) : Inert (readLeaf k lo) := by
  intro w
  refine ⟨?_, rfl⟩
  simp only [readLeaf, Bool.false_and, Bool.false_eq_true, if_false, Work.addBit, Bool.toNat_false, Nat.zero_mul,
    Nat.add_zero, List.getD_eq_getElem?_getD]
  by_cases h : lo < w.mag.length
  · simp [h]
  · exact List.set_eq_of_length_le (by omega)

theorem readGroup_inert (k depth lo : Nat) : Inert (readGroup k depth lo) := by
  cases depth with
  | zero => exact readLeaf_inert k lo
  | succ depth => exact fun w => ⟨rfl, rfl⟩

theorem readPlanes_inert (d : Nat) (ks : List Nat) : Inert (readPlanes d ks) := by
  induction ks with
  | nil => exact fun w => ⟨rfl, rfl⟩
  | cons k ks ih =>
    intro w
    obtain ⟨a, b⟩ := readGroup_inert k d 0 w
    obtain ⟨c, e⟩ := ih (readGroup k d 0 w fun _ => false).1
    exact ⟨c.trans a, e.trans b⟩

/-- No coefficient without its mark has a sign: so at the start of a decode and after every piece of it. -/
structure Work.Clean (w : Work) : Prop where
  length : w.sgn.length = w.sig.length
  unsigned : ∀ j, w.sig.getD j false = false → w.sgn.getD j false = false

theorem Work.zero_clean (n : Nat) : (Work.zero n).Clean := ⟨by simp [Work.zero], fun _ h => h⟩

theorem set_getD_self {α : Type} (l : List α) (i : Nat) (d : α) : l.set i (l.getD i d) = l := by
  by_cases h : i < l.length
  · simp [List.getD_eq_getElem?_getD, h]
  · exact List.set_eq_of_length_le (by omega)

theorem readLeaf_clean (k lo : Nat) (w : Work) (β : Nat → Bool) (h : w.Clean) : (readLeaf k lo w β).1.Clean := by
  unfold readLeaf
  split
  · refine ⟨by simpa [Work.setSign, Work.mark, Work.addBit] using h.length, fun j hj => ?_⟩
    simp only [Work.setSign, Work.mark, Work.addBit] at hj ⊢
    by_cases hl : lo < w.sig.length
    · rw [getD_set _ _ _ _ _ hl] at hj
      rw [getD_set _ _ _ _ _ (by rw [h.length]; exact hl)]
      split at hj
      · exact absurd hj (by decide)
      · rename_i hne
        rw [if_neg hne]
        exact h.unsigned j hj
    · rw [List.set_eq_of_length_le (by omega)] at hj
      rw [List.set_eq_of_length_le (by rw [h.length]; omega)]
      exact h.unsigned j hj
  · exact ⟨h.length, h.unsigned⟩

theorem readGroup_clean (k depth lo : Nat) (w : Work) (β : Nat → Bool) (h : w.Clean) :
    (readGroup k depth lo w β).1.Clean := by
  induction depth generalizing lo w β with
  | zero => exact readLeaf_clean k lo w β h
  | succ depth ih =>
    unfold readGroup
    split
    · exact ih _ _ _ (ih _ _ _ (ih _ _ _ (ih _ _ _ h)))
    · exact h

/-! ### The decoder -/

/-- The bits a block's decoder goes by: those of the stream that `MAXBITS` lets it take, then zeros
(44_bitplane_coder R147). -/
def State.received (s : State) (j : Nat) : Bool := decide (j < s.budget) && s.nextBit j

theorem ConsumedN.received {k : Nat} {s t : State} (h : ConsumedN k s t) (j : Nat) :
    t.received j = s.received (k + j) := by
  rw [State.received, State.received, h.budget, h.next,
    decide_eq_decide.2 (show j < s.budget - k ↔ k + j < s.budget by omega)]

theorem State.received_beyond (s : State) (j : Nat) (h : s.budget ≤ j) : s.received j = false := by
  rw [State.received, decide_eq_false (by omega), Bool.false_and]

/-- How a piece of the decoder's traversal ends, when on the bits received it is the traversal `p`: it goes on with
`p`'s work values, `p`'s bits taken; `MAXBITS` stops it, and then its magnitudes and signs are `p`'s, all bits
beyond being 0; or the capacity ends it at the first bit that is not there. -/
def ReadEnd (p : Work × Nat) (s : State) : Flow Work → Prop
  | .go w t => w = p.1 ∧ ConsumedN p.2 s t ∧ p.2 ≤ s.budget ∧ p.2 ≤ s.room
  | .stop w t => (w.mag = p.1.mag ∧ w.sgn = p.1.sgn) ∧ ConsumedN s.budget s t ∧ s.budget < p.2 ∧ s.budget ≤ s.room
  | .raised t => ∃ u, ConsumedN s.room s u ∧ s.room < s.budget ∧ s.room < p.2 ∧
      t = u.raise .capacity (BitVec.ofNat 64 u.pos)

theorem ReadEnd.bind {p : Work × Nat} {s : State} {r : Flow Work} {f : Work → State → Flow Work}
    {q : Work → (Nat → Bool) → Work × Nat} (hq : Inert q) (h : ReadEnd p s r)
    (g : ∀ t, t.reading → ReadEnd (q p.1 t.received) t (f p.1 t)) :
    ReadEnd (readThen p q s.received) s (r.andThen f) := by
  cases r with
  | go w t =>
    obtain ⟨rfl, hc, hb, hr⟩ := h
    have hg := g t hc.toConsumed.reading
    rw [show t.received = fun j => s.received (p.2 + j) from funext hc.received] at hg
    have hbud := hc.budget
    have hroom := hc.toConsumed.room
    simp only [Flow.andThen, readThen]
    revert hg
    generalize f p.1 t = r'
    intro hg
    cases r' with
    | go w' u =>
      obtain ⟨h1, h2, h3, h4⟩ := hg
      exact ⟨h1, hc.trans h2, by simp only []; omega, by simp only []; omega⟩
    | stop w' u =>
      obtain ⟨h1, h2, h3, h4⟩ := hg
      refine ⟨h1, ?_, by simp only []; omega, by omega⟩
      have := hc.trans h2
      rwa [show p.2 + t.budget = s.budget by omega] at this
    | raised u =>
      obtain ⟨v, h2, h3, h4, h5⟩ := hg
      refine ⟨v, ?_, by omega, by simp only []; omega, h5⟩
      have := hc.trans h2
      rwa [show p.2 + t.room = s.room by omega] at this
  | stop w t =>
    obtain ⟨⟨h1, h1'⟩, h2, h3, h4⟩ := h
    have e : (fun j => s.received (p.2 + j)) = fun _ => false :=
      funext fun j => s.received_beyond _ (by omega)
    obtain ⟨a, b⟩ := hq p.1
    simp only [Flow.andThen, readThen, e]
    exact ⟨⟨h1.trans a.symm, h1'.trans b.symm⟩, h2, by simp only []; omega, h4⟩
  | raised t =>
    obtain ⟨u, h2, h3, h4, h5⟩ := h
    exact ⟨u, h2, h3, by simp only [readThen]; omega, h5⟩

/-- `take()` and what follows it, with the work values `w0` where it stops. -/
theorem takeBit_reads (p : Work × Nat) (w0 : Work) (s : State) (h : s.reading) (f : Bool → State → Flow Work)
    (hn : 0 < p.2) (h0 : s.received = (fun _ => false) → w0.mag = p.1.mag ∧ w0.sgn = p.1.sgn)
    (g : ∀ t, ConsumedN 1 s t → ReadEnd (p.1, p.2 - 1) t (f (s.received 0) t)) :
    ReadEnd p s
      (match takeBit s with
        | .raised s1 => .raised s1
        | .stop _ s1 => .stop w0 s1
        | .go b s1 => f b s1) := by
  obtain ⟨hd, hb, hr⟩ := h
  by_cases hbud : s.budget = 0
  · rw [takeBit_stop s hbud]
    refine ⟨h0 (funext fun j => s.received_beyond j (by omega)), ?_, by omega, by omega⟩
    rw [hbud]
    exact ConsumedN.refl s hd hb hr
  by_cases hc : s.pos + 1 ≤ s.capBits
  · obtain ⟨t, ht, hw⟩ := takeBit_go s hd hb hr (by omega) hc
    have hr0 : s.received 0 = s.nextBit 0 := by
      rw [State.received, decide_eq_true (by omega), Bool.true_and]
    have hg := g t hw
    rw [ht, ← hr0]
    simp only
    have hbu := hw.budget
    have hro := hw.toConsumed.room
    have hrs : 1 ≤ s.room := by rw [State.room]; omega
    revert hg
    generalize f (s.received 0) t = r'
    intro hg
    cases r' with
    | go w' u =>
      obtain ⟨h1, h2, h3, h4⟩ := hg
      refine ⟨h1, ?_, by simp only [] at h3; omega, by simp only [] at h4; omega⟩
      have := hw.trans h2
      rwa [show 1 + (p.2 - 1) = p.2 by omega] at this
    | stop w' u =>
      obtain ⟨h1, h2, h3, h4⟩ := hg
      refine ⟨h1, ?_, by simp only [] at h3; omega, by omega⟩
      have := hw.trans h2
      rwa [show 1 + t.budget = s.budget by omega] at this
    | raised u =>
      obtain ⟨v, h2, h3, h4, h5⟩ := hg
      refine ⟨v, ?_, by omega, by simp only [] at h4; omega, h5⟩
      have := hw.trans h2
      rwa [show 1 + t.room = s.room by omega] at this
  · have hz : s.room = 0 := by rw [State.room]; omega
    rw [takeBit_full s hd (by omega) (by omega)]
    refine ⟨s, ?_, by omega, by omega, rfl⟩
    rw [hz]
    exact ConsumedN.refl s hd hb hr

/-- A piece that takes nothing. -/
theorem ReadEnd.here (w : Work) (s : State) (h : s.reading) : ReadEnd (w, 0) s (.go w s) :=
  ⟨rfl, ConsumedN.refl s h.1 h.2.1 h.2.2, Nat.zero_le _, Nat.zero_le _⟩

/-- The leaf of the decoder (44_bitplane_coder R147, R148). -/
theorem decLeaf_reads (k lo : Nat) (w : Work) (s : State) (h : s.reading) (hw : w.Clean) :
    ReadEnd (readLeaf k lo w s.received) s (decLeaf k lo w s) := by
  unfold decLeaf
  refine takeBit_reads _ w s h
    (fun b s1 => if b && !w.sig.getD lo false then
      match takeBit s1 with
      | .raised s2 => .raised s2
      | .stop _ s2 => .stop ((w.addBit lo k b).mark lo) s2
      | .go sg s2 => .go (((w.addBit lo k b).mark lo).setSign lo sg) s2
      else .go (w.addBit lo k b) s1) (by unfold readLeaf; split <;> exact Nat.succ_pos _) ?_ fun t ht => ?_
  · intro e
    obtain ⟨a, b⟩ := readLeaf_inert k lo w
    rw [e]
    exact ⟨a.symm, b.symm⟩
  · unfold readLeaf
    by_cases hc : (s.received 0 && !w.sig.getD lo false) = true
    · simp only [hc, if_true]
      refine takeBit_reads _ _ t ht.toConsumed.reading
        (fun sg s2 => .go (((w.addBit lo k (s.received 0)).mark lo).setSign lo sg) s2) (Nat.succ_pos _) ?_ fun u hu => ?_
      · intro e
        refine ⟨rfl, ?_⟩
        have hs1 : s.received 1 = false := by rw [← ht.received 0, e]
        simp only [Bool.and_eq_true, Bool.not_eq_true'] at hc
        rw [hs1]
        have := set_getD_self w.sgn lo false
        rw [hw.unsigned lo hc.2] at this
        exact this.symm
      · rw [← ht.received 0]
        exact ReadEnd.here _ u hu.toConsumed.reading
    · simp only [if_neg hc]
      exact ReadEnd.here _ t ht.toConsumed.reading

/-- A group of the decoder (44_bitplane_coder R147). -/
theorem decGroup_reads (k depth lo : Nat) (w : Work) (s : State) (h : s.reading) (hw : w.Clean) :
    ReadEnd (readGroup k depth lo w s.received) s (decGroup k depth lo w s) := by
  induction depth generalizing lo w s with
  | zero => exact decLeaf_reads k lo w s h hw
  | succ depth ih =>
    have hi := readGroup_inert k (depth + 1) lo w
    unfold decGroup
    refine takeBit_reads _ w s h (fun t s1 => if t then
        (((decGroup k depth lo w s1).andThen (decGroup k depth (lo + 4 ^ depth))).andThen
          (decGroup k depth (lo + 2 * 4 ^ depth))).andThen (decGroup k depth (lo + 3 * 4 ^ depth))
        else .go w s1) ?_ (fun e => by rw [e]; exact ⟨hi.1.symm, hi.2.symm⟩) fun t ht => ?_
    · unfold readGroup
      split
      · simp only [readThen]; omega
      · exact Nat.succ_pos _
    · unfold readGroup
      by_cases hb : s.received 0 = true
      · simp only [hb, if_true]
        have h0 := ih lo w t ht.toConsumed.reading hw
        have h1 := h0.bind (readGroup_inert k depth (lo + 4 ^ depth))
          fun u hu => ih (lo + 4 ^ depth) _ u hu (readGroup_clean _ _ _ _ _ hw)
        have h2 := h1.bind (readGroup_inert k depth (lo + 2 * 4 ^ depth))
          fun u hu => ih (lo + 2 * 4 ^ depth) _ u hu (readGroup_clean _ _ _ _ _ (readGroup_clean _ _ _ _ _ hw))
        have h3 := h2.bind (readGroup_inert k depth (lo + 3 * 4 ^ depth))
          fun u hu => ih (lo + 3 * 4 ^ depth) _ u hu
            (readGroup_clean _ _ _ _ _ (readGroup_clean _ _ _ _ _ (readGroup_clean _ _ _ _ _ hw)))
        rw [show t.received = fun j => s.received (1 + j) from funext ht.received] at h3
        simpa only [readThen, Nat.add_assoc, Nat.add_sub_cancel_left] using h3
      · simp only [if_neg hb]
        exact ReadEnd.here w t ht.toConsumed.reading

/-- The planes of the decoder (44_bitplane_coder R147): on every stream, whatever `MAXBITS` and the capacity are. -/
theorem decPlanes_reads (d : Nat) (ks : List Nat) (w : Work) (s : State) (h : s.reading) (hw : w.Clean) :
    ReadEnd (readPlanes d ks w s.received) s (decPlanes d ks w s) := by
  induction ks generalizing w s with
  | nil => exact ReadEnd.here w s h
  | cons k ks ih =>
    exact (decGroup_reads k d 0 w s h hw).bind (readPlanes_inert d ks)
      fun t ht => ih _ t ht (readGroup_clean _ _ _ _ _ hw)

/-- `decode_planes` and the store of `COEF` on every stream (44_bitplane_coder R147, R152): `MAXBITS` and the planes say
how many bits it takes; with room for them the coefficients of the bits received are stored, otherwise it ends at the
first bit that is not there. -/
theorem decodePlanes_reads (s : State) (h : s.reading) (p : Work × Nat)
    (hp : p = readPlanes s.dim (planeList s.width s.planes) (.zero s.size) s.received) :
    (min p.2 s.budget ≤ s.room ∧ ∃ u, ConsumedN (min p.2 s.budget) s u ∧ decodePlanes s = .ok () (u.putCoeffs
      (tab s.size fun j => coefOf s.width (p.1.mag.getD j 0) (p.1.sgn.getD j false)))) ∨
    (s.room < min p.2 s.budget ∧ ∃ u, ConsumedN s.room s u ∧
      decodePlanes s = .raised (u.raise .capacity (BitVec.ofNat 64 u.pos))) := by
  have hr := decPlanes_reads s.dim (planeList s.width s.planes) (.zero s.size) s h (Work.zero_clean _)
  rw [← hp] at hr
  unfold decodePlanes
  revert hr
  cases decPlanes s.dim (planeList s.width s.planes) (.zero s.size) s with
  | go w t =>
    rintro ⟨rfl, hc, hb, hl⟩
    rw [Nat.min_eq_left hb]
    exact .inl ⟨hl, t, hc, rfl⟩
  | stop w t =>
    rintro ⟨⟨h1, h2⟩, hc, hb, hl⟩
    rw [Nat.min_eq_right (by omega), ← h1, ← h2]
    exact .inl ⟨hl, t, hc, rfl⟩
  | raised t =>
    rintro ⟨u, hc, hb, hl, rfl⟩
    exact .inr ⟨by omega, u, hc, rfl⟩

end Sys2Proof.Machine
end

