-- ==== Sys2Proof/Laws/Frame.lean ====
section
/-! SUPPORT. What the pieces of the stream commands leave alone, in every state, sound or not: the frames of
`write_bits`, `read_bits` and of all that is built from them (10_state R37, 20_memory R47, 60_exceptions R183). -/

namespace Sys2Proof.Machine

/-! ### Writing -/

/-- `t` is `s` after some writing: the bitstream unit, `MEM` and `BITS` may differ; `DIR` does not, `PTR` has not gone
back, bytes outside the words from the old `PTR` up to the new one are as they were, words the capacity does not
cover are as they were, and a canonical memory is still one. -/
structure Stored (s t : State) : Prop where
  same : t = ((s.setFifo t.fifo).setMem t.mem).setBits t.bits
  dir : t.fifo.dir = s.fifo.dir
  ptr : s.fifo.ptr.toNat ≤ t.fifo.ptr.toNat
  bytes : ∀ a, a / 8 < s.fifo.ptr.toNat ∨ t.fifo.ptr.toNat ≤ a / 8 → t.mem.readByte a = s.mem.readByte a
  inside : ∀ a, 8 * s.cfg.capw.toNat ≤ a → t.mem.readByte a = s.mem.readByte a
  wf : s.mem.wf = true → t.mem.wf = true

theorem Stored.refl (s : State) : Stored s s where
  same := rfl
  dir := rfl
  ptr := le_refl _
  bytes _ _ := rfl
  inside _ _ := rfl
  wf h := h

theorem Stored.trans {s t u : State} (h : Stored s t) (g : Stored t u) : Stored s u where
  same := by
    have h1 := h.same
    have h2 := g.same
    rw [h2, h1]
    simp only [State.setFifo, State.setMem, State.setBits]
  dir := g.dir.trans h.dir
  ptr := le_trans h.ptr g.ptr
  bytes a ha := by
    have := g.ptr
    have := h.ptr
    rw [g.bytes a (by omega), h.bytes a (by omega)]
  inside a ha := by
    have hc : t.cfg = s.cfg := by rw [h.same]; rfl
    rw [g.inside a (by rw [hc]; exact ha), h.inside a ha]
  wf hw := g.wf (h.wf hw)

theorem Stored.setBits {s t : State} (h : Stored s t) (b : BitVec 32) : Stored s (t.setBits b) where
  same := by
    have h1 := h.same
    rw [h1]
    simp only [State.setFifo, State.setMem, State.setBits]
  dir := h.dir
  ptr := h.ptr
  bytes := h.bytes
  inside := h.inside
  wf := h.wf

/-- How a piece of a write-side command can end: after some writing, or with a `CAPACITY` fault recorded after some
writing. -/
def StoreEnd {α : Type} (s : State) : Run α → Prop
  | .ok _ t => Stored s t
  | .raised t => ∃ u, Stored s u ∧ t = u.raise .capacity (BitVec.ofNat 64 u.pos)

theorem StoreEnd.bind {α β : Type} {s : State} {r : Run α} {f : α → State → Run β} (h : StoreEnd s r)
    (g : ∀ a t, Stored s t → StoreEnd t (f a t)) : StoreEnd s (r.bind f) := by
  cases r with
  | ok a t =>
    have hg := g a t h
    simp only [Run.bind_ok]
    revert hg
    cases f a t with
    | ok b u => exact fun hg => Stored.trans h hg
    | raised u => exact fun ⟨v, hv, e⟩ => ⟨v, Stored.trans h hv, e⟩
  | raised t => exact h

/-- `write_bits` within the capacity stores only words the capacity covers
(20_memory R48). -/
theorem pushBits_stored (s : State) (v : Word) (k : Nat) (hd : s.fifo.dir = .wr) (hc : s.pos + k ≤ s.capBits) :
    Stored s (s.pushBits v k) := by
  have hpos := s.pos_wr hd
  have hcap : s.capBits = 64 * s.cfg.capw.toNat := rfl
  have hcw := s.cfg.capw.isLt
  unfold State.pushBits
  simp only
  split
  · have hptr : (s.fifo.ptr + 1).toNat = s.fifo.ptr.toNat + 1 := by
      rw [BitVec.toNat_add]
      simp
      omega
    refine ⟨rfl, rfl, ?_, fun a ha => ?_, fun a ha => ?_, fun h => Mem.wf_writeWord _ _ _ h⟩
    · simp only [setFifo_fifo, hptr]
      omega
    · simp only [setFifo_fifo, hptr] at ha
      exact Mem.readByte_writeWord_ne _ _ _ _ (by omega)
    · exact Mem.readByte_writeWord_ne _ _ _ _ (by omega)
  · exact ⟨rfl, rfl, le_refl _, fun _ _ => rfl, fun _ _ => rfl, fun h => h⟩

theorem writeBits_stored (v : Word) (k : Nat) (s : State) (hd : s.fifo.dir = .wr) :
    StoreEnd s (writeBits v k s) := by
  by_cases hc : s.pos + k ≤ s.capBits
  · rw [writeBits_ok v k s hd hc]
    exact pushBits_stored s v k hd hc
  · rw [writeBits_capacity v k s hd (by omega)]
    exact ⟨s, Stored.refl s, rfl⟩

theorem writeCounted_stored (b : Bool) (s : State) (hd : s.fifo.dir = .wr) : StoreEnd s (writeCounted b s) :=
  (writeBits_stored _ 1 s hd).bind fun _ t _ => (Stored.refl t).setBits _

theorem writeHeader_stored (E : Nat) (s : State) (hd : s.fifo.dir = .wr) : StoreEnd s (writeHeader E s) :=
  (writeBits_stored _ _ s hd).bind fun _ t _ => (Stored.refl t).setBits _

theorem emitAll_stored (bs : List Bool) (s : State) (hd : s.fifo.dir = .wr) :
    StoreEnd s (emitAll bs s).toRun := by
  induction bs generalizing s with
  | nil => exact Stored.refl s
  | cons b bs ih =>
    unfold emitAll
    split
    · exact Stored.refl s
    · have h := writeCounted_stored b s hd
      revert h
      cases writeCounted b s with
      | ok a t =>
        exact fun h => StoreEnd.bind (r := .ok a t) (f := fun _ u => (emitAll bs u).toRun) h
          fun _ u hu => ih u (hu.dir.trans hd)
      | raised t => exact fun h => h

theorem encodePlanes_stored (s : State) (hd : s.fifo.dir = .wr) : StoreEnd s (encodePlanes s) :=
  emitAll_stored _ s hd

theorem padStream_stored (fuel : Nat) (s : State) (hd : s.fifo.dir = .wr) : StoreEnd s (padStream fuel s) := by
  induction fuel generalizing s with
  | zero => exact Stored.refl s
  | succ fuel ih =>
    unfold padStream
    split
    · exact (writeCounted_stored false s hd).bind fun _ t h => ih t (h.dir.trans hd)
    · exact Stored.refl s

/-! ### Reading -/

/-- `t` is `s` after some reading: the bitstream unit and `BITS` may differ; `DIR` does not. -/
structure Loaded (s t : State) : Prop where
  same : t = (s.setFifo t.fifo).setBits t.bits
  dir : t.fifo.dir = s.fifo.dir

theorem Loaded.refl (s : State) : Loaded s s := ⟨rfl, rfl⟩

theorem Loaded.trans {s t u : State} (h : Loaded s t) (g : Loaded t u) : Loaded s u where
  same := by
    have h1 := h.same
    have h2 := g.same
    rw [h2, h1]
    simp only [State.setFifo, State.setBits]
  dir := g.dir.trans h.dir

theorem Loaded.setBits {s t : State} (h : Loaded s t) (b : BitVec 32) : Loaded s (t.setBits b) where
  same := by
    have h1 := h.same
    rw [h1]
    simp only [State.setFifo, State.setBits]
  dir := h.dir

/-- How a piece of a read-side command can end: after some reading, or with a `CAPACITY` fault recorded after some
reading. -/
def LoadEnd {α : Type} (s : State) : Run α → Prop
  | .ok _ t => Loaded s t
  | .raised t => ∃ u, Loaded s u ∧ t = u.raise .capacity (BitVec.ofNat 64 u.pos)

theorem LoadEnd.bind {α β : Type} {s : State} {r : Run α} {f : α → State → Run β} (h : LoadEnd s r)
    (g : ∀ a t, Loaded s t → LoadEnd t (f a t)) : LoadEnd s (r.bind f) := by
  cases r with
  | ok a t =>
    have hg := g a t h
    simp only [Run.bind_ok]
    revert hg
    cases f a t with
    | ok b u => exact fun hg => Loaded.trans h hg
    | raised u => exact fun ⟨v, hv, e⟩ => ⟨v, Loaded.trans h hv, e⟩
  | raised t => exact h

theorem readBits_loaded (k : Nat) (s : State) (hd : s.fifo.dir = .rd) : LoadEnd s (readBits k s) := by
  by_cases hc : s.pos + k ≤ s.capBits
  · rw [readBits_ok k s hd hc]
    unfold State.pullBits
    split <;> exact ⟨rfl, rfl⟩
  · rw [readBits_capacity k s hd (by omega)]
    exact ⟨s, Loaded.refl s, rfl⟩

theorem readCounted_loaded (s : State) (hd : s.fifo.dir = .rd) : LoadEnd s (readCounted s) :=
  (readBits_loaded 1 s hd).bind fun _ t _ => (Loaded.refl t).setBits _

theorem readHeader_loaded (s : State) (hd : s.fifo.dir = .rd) : LoadEnd s (readHeader s) :=
  (readBits_loaded _ s hd).bind fun _ t _ => (Loaded.refl t).setBits _

theorem skipStream_loaded (fuel : Nat) (s : State) (hd : s.fifo.dir = .rd) : LoadEnd s (skipStream fuel s) := by
  induction fuel generalizing s with
  | zero => exact Loaded.refl s
  | succ fuel ih =>
    unfold skipStream
    split
    · exact (readCounted_loaded s hd).bind fun _ t h => ih t (h.dir.trans hd)
    · exact Loaded.refl s

/-- How a piece of the decoder's traversal can end. -/
def FlowLoads {α : Type} (s : State) : Flow α → Prop
  | .go _ t => Loaded s t
  | .stop _ t => Loaded s t
  | .raised t => ∃ u, Loaded s u ∧ t = u.raise .capacity (BitVec.ofNat 64 u.pos)

theorem FlowLoads.bind {α : Type} {s : State} {r : Flow α} {f : α → State → Flow α} (h : FlowLoads s r)
    (g : ∀ a t, Loaded s t → FlowLoads t (f a t)) : FlowLoads s (r.andThen f) := by
  cases r with
  | go a t =>
    have hg := g a t h
    simp only [Flow.andThen]
    revert hg
    cases f a t with
    | go b u => exact fun hg => Loaded.trans h hg
    | stop b u => exact fun hg => Loaded.trans h hg
    | raised u => exact fun ⟨v, hv, e⟩ => ⟨v, Loaded.trans h hv, e⟩
  | stop a t => exact h
  | raised t => exact h

theorem takeBit_loads (s : State) (hd : s.fifo.dir = .rd) : FlowLoads s (takeBit s) := by
  unfold takeBit
  split
  · exact Loaded.refl s
  · have h := readCounted_loaded s hd
    revert h
    cases readCounted s with
    | ok b t => exact fun h => h
    | raised t => exact fun h => h

theorem decLeaf_loads (k lo : Nat) (w : Work) (s : State) (hd : s.fifo.dir = .rd) :
    FlowLoads s (decLeaf k lo w s) := by
  unfold decLeaf
  have h := takeBit_loads s hd
  revert h
  cases takeBit s with
  | go b t =>
    intro h
    simp only
    split
    · have h' := takeBit_loads t (Loaded.dir h |>.trans hd)
      revert h'
      cases takeBit t with
      | go c u => exact fun h' => Loaded.trans h h'
      | stop c u => exact fun h' => Loaded.trans h h'
      | raised u => exact fun ⟨v, hv, e⟩ => ⟨v, Loaded.trans h hv, e⟩
    · exact h
  | stop b t => exact fun h => h
  | raised t => exact fun h => h

theorem decGroup_loads (k depth lo : Nat) (w : Work) (s : State) (hd : s.fifo.dir = .rd) :
    FlowLoads s (decGroup k depth lo w s) := by
  induction depth generalizing lo w s with
  | zero => exact decLeaf_loads k lo w s hd
  | succ depth ih =>
    unfold decGroup
    have h := takeBit_loads s hd
    revert h
    cases takeBit s with
    | go b t =>
      intro h
      simp only
      split
      · refine FlowLoads.bind (r := .go w t) (f := fun w t =>
          (((decGroup k depth lo w t).andThen (decGroup k depth (lo + 4 ^ depth))).andThen
            (decGroup k depth (lo + 2 * 4 ^ depth))).andThen (decGroup k depth (lo + 3 * 4 ^ depth))) h ?_
        intro w1 t1 h1
        have hd1 := h1.dir.trans hd
        refine FlowLoads.bind (FlowLoads.bind (FlowLoads.bind (ih lo w1 t1 hd1) ?_) ?_) ?_
        · exact fun w2 t2 h2 => ih _ w2 t2 (h2.dir.trans hd1)
        · exact fun w2 t2 h2 => ih _ w2 t2 (h2.dir.trans hd1)
        · exact fun w2 t2 h2 => ih _ w2 t2 (h2.dir.trans hd1)
      · exact h
    | stop b t => exact fun h => h
    | raised t => exact fun h => h

theorem decPlanes_loads (d : Nat) (ks : List Nat) (w : Work) (s : State) (hd : s.fifo.dir = .rd) :
    FlowLoads s (decPlanes d ks w s) := by
  induction ks generalizing w s with
  | nil => exact Loaded.refl s
  | cons k ks ih => exact (decGroup_loads k d 0 w s hd).bind fun w' t h => ih w' t (h.dir.trans hd)

/-- `decode_planes` and the store of `COEF` (44_bitplane_coder R152): after some reading, with `COEF` written, or with a
`CAPACITY` fault recorded after some reading. -/
theorem decodePlanes_loads (s : State) (hd : s.fifo.dir = .rd) :
    match decodePlanes s with
    | .ok _ t => ∃ w u, Loaded s u ∧ t = u.putCoeffs (Work.coeffs w s.width s.size)
    | .raised t => ∃ u, Loaded s u ∧ t = u.raise .capacity (BitVec.ofNat 64 u.pos) := by
  have h := decPlanes_loads s.dim (planeList s.width s.planes) (Work.zero s.size) s hd
  unfold decodePlanes
  revert h
  cases decPlanes s.dim (planeList s.width s.planes) (Work.zero s.size) s with
  | go w t => exact fun h => ⟨w, t, h, rfl⟩
  | stop w t => exact fun h => ⟨w, t, h, rfl⟩
  | raised t => exact fun h => h

end Sys2Proof.Machine
end

