-- ==== Sys2Proof/Laws/PerInstr.lean ====
section
/-! SUPPORT. Statements about every command as syntax, one lemma per constructor. Family ReservedZero: the word of
a command carries its opcode, zeros in the reserved bits and its bit count (30_encoding R60, R63). -/

namespace Sys2Proof.Laws.ReservedZero

/-- The fields of the word of `i` are its opcode, 0 and its `IMM7`; a command without a count has `IMM7` = 0. -/
def Statement (i : Instr) : Prop :=
  cmdOp (encode i) = opcodeOf i ∧ cmdRsv (encode i) = 0 ∧ cmdImm (encode i) = immOf i ∧
  ((opcodeOf i ≠ 0x10 ∧ opcodeOf i ≠ 0x12) → cmdImm (encode i) = 0)

theorem nop : Statement .nop := by refine ⟨?_, ?_, ?_, fun _ => ?_⟩ <;> decide
theorem srst : Statement .srst := by refine ⟨?_, ?_, ?_, fun _ => ?_⟩ <;> decide
theorem wbit : Statement .wbit := by refine ⟨?_, ?_, ?_, fun _ => ?_⟩ <;> decide
theorem rbit : Statement .rbit := by refine ⟨?_, ?_, ?_, fun _ => ?_⟩ <;> decide
theorem flush : Statement .flush := by refine ⟨?_, ?_, ?_, fun _ => ?_⟩ <;> decide
theorem tell : Statement .tell := by refine ⟨?_, ?_, ?_, fun _ => ?_⟩ <;> decide
theorem seekr : Statement .seekr := by refine ⟨?_, ?_, ?_, fun _ => ?_⟩ <;> decide
theorem seekw : Statement .seekw := by refine ⟨?_, ?_, ?_, fun _ => ?_⟩ <;> decide
theorem fwdxf : Statement .fwdxf := by refine ⟨?_, ?_, ?_, fun _ => ?_⟩ <;> decide
theorem invxf : Statement .invxf := by refine ⟨?_, ?_, ?_, fun _ => ?_⟩ <;> decide
theorem expb : Statement .expb := by refine ⟨?_, ?_, ?_, fun _ => ?_⟩ <;> decide
theorem fscale : Statement .fscale := by refine ⟨?_, ?_, ?_, fun _ => ?_⟩ <;> decide
theorem iscale : Statement .iscale := by refine ⟨?_, ?_, ?_, fun _ => ?_⟩ <;> decide
theorem prec : Statement .prec := by refine ⟨?_, ?_, ?_, fun _ => ?_⟩ <;> decide
theorem encpl : Statement .encpl := by refine ⟨?_, ?_, ?_, fun _ => ?_⟩ <;> decide
theorem decpl : Statement .decpl := by refine ⟨?_, ?_, ?_, fun _ => ?_⟩ <;> decide
theorem padblk : Statement .padblk := by refine ⟨?_, ?_, ?_, fun _ => ?_⟩ <;> decide
theorem b2c : Statement .b2c := by refine ⟨?_, ?_, ?_, fun _ => ?_⟩ <;> decide
theorem c2b : Statement .c2b := by refine ⟨?_, ?_, ?_, fun _ => ?_⟩ <;> decide
theorem encblk : Statement .encblk := by refine ⟨?_, ?_, ?_, fun _ => ?_⟩ <;> decide
theorem decblk : Statement .decblk := by refine ⟨?_, ?_, ?_, fun _ => ?_⟩ <;> decide

theorem wbits (k : BitVec 7) : Statement (.wbits k) := by
  revert k
  unfold Statement
  decide

theorem rbits (k : BitVec 7) : Statement (.rbits k) := by
  revert k
  unfold Statement
  decide

end Sys2Proof.Laws.ReservedZero
end

