-- ==== Sys2Proof/Tests/Slice0.lean ====
section
/-! SUPPORT. Tests of the model against the spec's own numbers, one step each, and a witness for the hypotheses of
every obligation that has some. Expected values are the spec's examples; each test names its rule. -/

namespace Sys2Proof.Tests

open Sys2Proof Sys2Proof.Machine Sys2Proof.Claims

-- One theorem at a time: pending kernel evaluations side by side each hold a thread and its stack.
set_option Elab.async false

/-! ### Helpers -/

/-- A file whose first registers hold the words of a list. -/
def fileOf (l : List Word) : RegFile := .build fun i => l.getD i 0

/-- The state after reset with a buffer of `n` words. -/
def withCap (n : BitVec 32) : State := State.reset.setCfg { State.reset.cfg with capw := n }

/-- `s` with `CTRL` and `MINEXP`. -/
def withType (s : State) (ctrl : BitVec 4) (minexp : BitVec 16) : State :=
  s.setCfg { s.cfg with ctrl := ctrl, minexp := minexp }

/-- `s` as a reader at position 0. -/
def reader (s : State) : State := s.setFifo ⟨.rd, 0, 0, 0⟩

/-- A test of the next state of a command. -/
def after (i : Instr) (s : State) (p : State → Bool) : Bool :=
  match exec i s with
  | .next t => p t
  | _ => false

/-- The first four registers of a file. -/
def first4 (f : RegFile) : List Word := [f.get 0, f.get 1, f.get 2, f.get 3]

/-- F32, d = 1, no tolerance, eight words. -/
def floatState : State := withType (withCap 8) 2 0x8001

/-! ### Well-formedness -/

theorem test_wbits_65_ill_formed : (Instr.wbits 65).wellFormed = false := by decide
theorem test_rbits_65_ill_formed : (Instr.rbits 65).wellFormed = false := by decide
theorem test_wbits_64_well_formed : (Instr.wbits 64).wellFormed = true := by decide
theorem test_rbits_64_well_formed : (Instr.rbits 64).wellFormed = true := by decide

/-! ### Decoding (30_encoding section 2; R61) -/

theorem test_decode_system : decodeWord 0x00000000 = .ok .nop ∧ decodeWord 0x01000000 = .ok .srst := by
  exact ⟨rfl, rfl⟩

/-- OP = 0001 0000, RSV = 0, IMM7 = 100 0000. -/
theorem test_decode_wbits : decodeWord 0b00010000000000000000000001000000 = .ok (.wbits 64) := rfl

/-- OP = 0001 0010, RSV = 0, IMM7 = 000 1100. -/
theorem test_decode_rbits : decodeWord 0b00010010000000000000000000001100 = .ok (.rbits 12) := rfl

theorem test_decode_fifo : decodeWord 0x11000000 = .ok .wbit ∧ decodeWord 0x13000000 = .ok .rbit ∧
    decodeWord 0x14000000 = .ok .flush ∧ decodeWord 0x15000000 = .ok .tell ∧
    decodeWord 0x16000000 = .ok .seekr ∧ decodeWord 0x17000000 = .ok .seekw := by
  exact ⟨rfl, rfl, rfl, rfl, rfl, rfl⟩

theorem test_decode_transform : decodeWord 0x20000000 = .ok .fwdxf ∧ decodeWord 0x21000000 = .ok .invxf := by
  exact ⟨rfl, rfl⟩

theorem test_decode_scaler : decodeWord 0x30000000 = .ok .expb ∧ decodeWord 0x31000000 = .ok .fscale ∧
    decodeWord 0x32000000 = .ok .iscale ∧ decodeWord 0x33000000 = .ok .prec := by
  exact ⟨rfl, rfl, rfl, rfl⟩

theorem test_decode_coder : decodeWord 0x40000000 = .ok .encpl ∧ decodeWord 0x41000000 = .ok .decpl := by
  exact ⟨rfl, rfl⟩

theorem test_decode_block : decodeWord 0x50000000 = .ok .padblk ∧ decodeWord 0x51000000 = .ok .b2c ∧
    decodeWord 0x52000000 = .ok .c2b ∧ decodeWord 0x53000000 = .ok .encblk ∧
    decodeWord 0x54000000 = .ok .decblk := by
  exact ⟨rfl, rfl, rfl, rfl, rfl⟩

/-- One word for each test of R61 that it fails. -/
theorem test_decode_illegal : decodeWord 0x53000080 = .error .reservedBits ∧
    decodeWord 0x02000000 = .error .unknownOpcode ∧ decodeWord 0xFF000000 = .error .unknownOpcode ∧
    decodeWord 0x00000001 = .error .strayImmediate ∧ decodeWord 0x11000001 = .error .strayImmediate ∧
    decodeWord 0x10000041 = .error .countTooLarge ∧ decodeWord 0x12000041 = .error .countTooLarge := by
  exact ⟨rfl, rfl, rfl, rfl, rfl, rfl, rfl⟩

theorem test_decodeTableWord : decodeTableWord 32 0x10000005 = some (.wbits 5) ∧ decodeTableWord 32 0x02000000 = none := by
  exact ⟨rfl, rfl⟩

theorem test_withFetchWord : step (State.reset.withFetchWord 32 0x15000000) = exec .tell State.reset := rfl

/-! ### System -/

theorem test_nop : exec .nop floatState = .next floatState := rfl

/-- 45_block_codec R171: after `SRST` the status reads 0x300. -/
theorem test_srst : after .srst floatState (fun t => t.status == 0x300 && t.cfg.capw == 0) = true := by decide +kernel

/-! ### bitstream_fifo (41_bitstream_fifo) -/

/-- R83: `ARG` = 0x15, `WBITS 5` at position 0. -/
theorem test_wbits : after (.wbits 5) (withArg (withCap 2) 0x15)
    (fun t => t.fifo == ⟨.wr, 0, 0x15, 5⟩ && t.pos == 5 && t.mem == []) = true := by decide +kernel

/-- 95_test_vectors V-B1 step 6: a field across a word boundary. -/
theorem test_wbits_split : after (.wbits 64) (withArg ((withCap 2).setFifo ⟨.wr, 0, 0x35795, 18⟩) 0x1122334455667788)
    (fun t => t.fifo == ⟨.wr, 1, 0x4488, 18⟩ && t.mem.readWord 0 == 0xCD115599DE235795) = true := by decide +kernel

/-- R84. -/
theorem test_wbit : after .wbit (withArg ((withCap 2).setFifo ⟨.wr, 0, 0x15795, 17⟩) 1)
    (fun t => t.fifo == ⟨.wr, 0, 0x35795, 18⟩) = true := by decide +kernel

/-- The state of R87's example: `MEM[0]` and `ARG` = 5. -/
def seekState : State := withArg ((withCap 2).setMem (Mem.writeWord [] 0 0x159E26AF37BF5795)) 5

/-- R87. -/
theorem test_seekr : after .seekr seekState (fun t => t.fifo == ⟨.rd, 1, 0x0ACF13579BDFABC, 59⟩ && t.pos == 5) = true := by
  decide +kernel

/-- R89, after R87's example. -/
theorem test_rbits : after (.rbits 12) (seekState.setFifo ⟨.rd, 1, 0x0ACF13579BDFABC, 59⟩)
    (fun t => t.res == 0xABC && t.fifo.nb == 47) = true := by decide +kernel

/-- R90. -/
theorem test_rbit : after .rbit (seekState.setFifo ⟨.rd, 1, 1, 47⟩)
    (fun t => t.res == 1 && t.fifo.nb == 46) = true := by decide +kernel

/-- R88, second branch. -/
theorem test_seekw_reload : after .seekw (withArg (reader seekState) 18)
    (fun t => t.fifo == ⟨.wr, 0, 0x35795, 18⟩) = true := by decide +kernel

/-- R88, first branch. -/
theorem test_seekw_rolls_back : after .seekw (withArg ((withCap 2).setFifo ⟨.wr, 0, 0x7FFFFFFF5795, 47⟩) 17)
    (fun t => t.fifo == ⟨.wr, 0, 0x15795, 17⟩) = true := by decide +kernel

/-- R85. -/
theorem test_flush : after .flush ((withCap 2).setFifo ⟨.wr, 1, 0x48D, 18⟩)
    (fun t => t.mem.readWord 1 == 0x48D && t.res == 46 && t.pos == 128) = true := by decide +kernel

/-- R86. -/
theorem test_tell : after .tell ((withCap 2).setFifo ⟨.wr, 0, 0x35795, 18⟩) (fun t => t.res == 18) = true := by
  decide +kernel

/-! ### lifting_transform_engine (42_lifting_transform) -/

/-- R110. -/
theorem test_fwdxf : after .fwdxf ((withCap 2).setCoef (fileOf [10, 20, 30, 40]))
    (fun t => first4 t.coef == [25, 0xFFFFFFE4, 0, 5]) = true := by decide +kernel

/-- R111. -/
theorem test_invxf : after .invxf ((withCap 2).setCoef (fileOf [25, 0xFFFFFFE4, 0, 5]))
    (fun t => first4 t.coef == [10, 20, 30, 40]) = true := by decide +kernel

/-! ### exponent_scaler (43_exponent_scaler) -/

/-- R130. -/
theorem test_expb : after .expb (floatState.setBlk (fileOf [0x3F800000, 0xC0600000, 0x3DCCCCCD, 0]))
    (fun t => t.expf == 128) = true := by decide +kernel

/-- R131. -/
theorem test_fscale : after .fscale ((floatState.setExpf 127).setBlk (fileOf [0x3F800000, 0x3F000000, 0x3E800000, 0xBF400000]))
    (fun t => first4 t.coef == [0x10000000, 0x08000000, 0x04000000, 0xF4000000]) = true := by decide +kernel

/-- R132. -/
theorem test_iscale : after .iscale ((floatState.setExpf 127).setCoef (fileOf [0x10000001, 0x10000020]))
    (fun t => first4 t.blk == [0x3F800000, 0x3F800001, 0, 0]) = true := by decide +kernel

/-- R133, `MINEXP` = -10. -/
theorem test_prec : after .prec ((withType floatState 2 0xFFF6).setExpf 127) (fun t => t.preceff == 17) = true := by
  decide +kernel

/-- R133, `MINEXP` = 7. -/
theorem test_prec_zero : after .prec ((withType floatState 2 7).setExpf 127) (fun t => t.preceff == 0) = true := by
  decide +kernel

/-! ### embedded_bitplane_coder (44_bitplane_coder) -/

/-- The state of R151's example. -/
def planeState : State := ((withCap 2).setPreceff 32).setCoef (fileOf [5, 0xFFFFFFFD, 0, 1])

/-- `planeState` with 20 bits of room below the capacity. -/
def smallState : State := (planeState.setCfg (withCap 1).cfg).setFifo ⟨.wr, 0, 0, 44⟩

/-- R151: 47 bits, in `BUF` what `FLUSH` then stores. -/
theorem test_encpl : after .encpl planeState
    (fun t => t.bits == 47 && t.fifo == ⟨.wr, 0, 0x00002E6860000000, 47⟩) = true := by decide +kernel

/-- The state in which R151's stream is read back. -/
def planeReader : State := reader ((withCap 2).setPreceff 32 |>.setMem (Mem.writeWord [] 0 0x00002E6860000000))

/-- R152. -/
theorem test_decpl : after .decpl planeReader
    (fun t => t.bits == 47 && first4 t.coef == [5, 0xFFFFFFFD, 0, 1]) = true := by decide +kernel

/-- R152 with `MAXBITS` = 40. -/
theorem test_decpl_cut : after .decpl (planeReader.setCfg { planeReader.cfg with maxbits := 40 })
    (fun t => t.bits == 40 && first4 t.coef == [4, 0xFFFFFFFE, 0, 0]) = true := by decide +kernel

/-! ### block_codec (45_block_codec) -/

/-- I32, d = 2, extents 2 and 3. -/
def padState : State :=
  ((withCap 2).setCfg { (withCap 2).cfg with ctrl := 4, n0 := 2, n1 := 3 }).setBlk
    (fileOf [0, 1, 2, 3, 4, 5, 6, 7, 8, 9, 10, 11, 12, 13, 14, 15])

/-- R172. -/
theorem test_padblk : after .padblk padState
    (fun t => (t.blk.toList.take 16) == [0, 1, 1, 1, 4, 5, 5, 5, 8, 9, 9, 9, 8, 9, 9, 9]) = true := by decide +kernel

/-- R173. -/
theorem test_b2c : after .b2c ((withCap 2).setBlk (fileOf [0xFFFFFFFFFFFFFFFF]))
    (fun t => t.coef.get 0 == 0x00000000FFFFFFFF) = true := by decide +kernel

/-- R174. -/
theorem test_c2b : after .c2b ((withCap 2).setCoef (fileOf [0, 0, 30])) (fun t => t.blk.get 2 == 30) = true := by
  decide +kernel

/-- R175: the integer block of the example, reversible setting. -/
def intBlock : State := (withCap 2).setBlk (fileOf [10, 20, 30, 40])

theorem test_encblk : after .encblk intBlock
    (fun t => t.bits == 55 && first4 t.coef == [25, 0xFFFFFFE4, 0, 5] && t.fifo == ⟨.wr, 0, 0x004C2A9CD8000000, 55⟩) =
      true := by decide +kernel

/-- 95_test_vectors V-F11: I64, d = 1, reversible, one word. -/
def fullBlock : State := (withType (withCap 1) 1 0x8000).setBlk
  (fileOf [0x4000000000000000, 0xC000000000000000, 5, 0xFFFFFFFFFFFFFFFB])

theorem test_encblk_capacity : after .encblk fullBlock
    (fun t => t.bits == 64 && t.pos == 64 && t.preceff == 64 && t.flt.cause == 1 && t.flt.finfo == 0x40) = true := by
  decide +kernel

/-- R176: the example's stream. -/
def intReader : State := reader ((withCap 2).setMem (Mem.writeWord [] 0 0x004C2A9CD8000000))

theorem test_decblk : after .decblk intReader
    (fun t => t.bits == 55 && t.pos == 55 && first4 t.blk == [10, 20, 30, 40]) = true := by decide +kernel

/-- 95_test_vectors V-F16a: F32, d = 1, reversible, one word of ones; `BLK` and `COEF` hold something. -/
def rawReader : State := ((reader ((withType (withCap 1) 2 0x8000).setMem
  (Mem.writeWord [] 0 0xFFFFFFFFFFFFFFFF))).setBlk (fileOf [1, 2, 3, 4])).setCoef (fileOf [5, 6, 7, 8])

theorem test_decblk_capacity : after .decblk rawReader
    (fun t => t.expf == 255 && t.preceff == 32 && t.flt.cause == 1 && t.flt.finfo == 0x40 && t.bits == 64 &&
      first4 t.blk == [1, 2, 3, 4] && first4 t.coef == [5, 6, 7, 8]) = true := by decide +kernel

/-! ### Faults and host accesses -/

/-- 60_exceptions R183: the illegal word is recorded. -/
theorem test_illegal_word : runCommand 0x02000000 State.reset = .next (State.reset.raise .illegal 0x02000000) ∧
    (State.reset.raise .illegal 0x02000000).status = 0x308 := by
  exact ⟨rfl, by decide +kernel⟩

/-- 10_state R34, R38: `MAXBITS` reads 0xFFFF after reset. -/
theorem test_host_read : step (State.reset.setHostq [.regRead 0x010 8]) = .next (State.reset.setRdata 0xFFFF) := rfl

/-- 20_memory R44: the bytes of a word, low byte first. -/
theorem test_little_endian : (Mem.writeWord [] 1 0x1122334455667788).readByte 8 = 0x88 ∧
    (Mem.writeWord [] 1 0x1122334455667788).readByte 15 = 0x11 := by
  decide +kernel

/-! ### Witnesses: the hypotheses of the obligations can be met -/

theorem witness_CommandWordsOfTheTable : 0 ≤ 64 ∧ 64 ≤ 64 := by decide

theorem witness_DecodeOfEncodeIsTheCommand : (Instr.wbits 64).wellFormed = true ∧ Instr.decblk.wellFormed = true := by
  decide

theorem witness_EncodeOfDecodeIsTheWord : decodeWord 0x12000040 = .ok (.rbits 64) := rfl

theorem witness_IllegalWordsAreThoseOfTheFourTests : failsATest 0x00000080 ∧ failsATest 0x55000000 ∧
    failsATest 0x14000001 ∧ failsATest 0x10000041 ∧ failsATest 0x12000041 ∧ ¬ failsATest 0x10000040 ∧
    ¬ failsATest 0x54000000 := by
  unfold failsATest
  exact ⟨by decide, by decide, by decide, by decide, by decide, by decide, by decide⟩

theorem witness_StepRunsTheDecodedCommand :
    (State.reset.setHostq [.regWrite 0x078 8 0xFFFFFFFF15000000]).hostq = .regWrite 0x078 8 0xFFFFFFFF15000000 :: [] ∧
    decodeWord ((0xFFFFFFFF15000000 : Word).setWidth 32) = .ok .tell ∧
    decodeWord ((0xFFFFFFFF02000000 : Word).setWidth 32) = .error .unknownOpcode ∧
    (State.reset.setHostq [.regRead 0x078 8]).hostq = .regRead 0x078 8 :: [] := by
  exact ⟨rfl, rfl, rfl, rfl⟩

theorem witness_IdleKeepsAllState : State.reset.hostq = [] := rfl

theorem witness_HostReadsFollowTheRegisterMap : ¬ (8 = 8 ∧ inSpace 0x1800) ∧ ¬ (8 = 8 ∧ inSpace 0x0004) ∧
    ¬ (4 = 8 ∧ inSpace 0x0000) ∧ inSpace 0x0000 ∧ inSpace 0x17F8 ∧ (0x098 ≤ 8 * 0x13 ∧ 8 * 0x13 < 0x800) ∧
    (0x098 ≤ 8 * 0xFF ∧ 8 * 0xFF < 0x800) ∧ 255 < 256 := by
  unfold inSpace
  decide

theorem witness_HostWritesStoreExactlyTheWritableBits : (inSpace 0x028 ∧ 0x028 ≠ 0x060 ∧ 0x028 ≠ 0x078) ∧
    (inSpace 0x17F8 ∧ 0x17F8 ≠ 0x060 ∧ 0x17F8 ≠ 0x078) ∧ (inSpace 0x030 ∧ 0x030 ≠ 0x028 ∧ 0x030 ≠ 0x060) := by
  unfold inSpace
  decide

theorem witness_StatusReadsAndClears : 4 < 5 ∧ (5 ≤ 63 ∧ 63 ≠ 8 ∧ 63 ≠ 9 ∧ 63 ≠ 16) := by decide

theorem witness_HostLoadsSeeLittleEndianWords :
    ((8 = 1 ∨ 8 = 2 ∨ 8 = 4 ∨ 8 = 8) ∧ 8 * Config.memWords - 8 + 8 ≤ 8 * Config.memWords) ∧
    ((1 = 1 ∨ 1 = 2 ∨ 1 = 4 ∨ 1 = 8) ∧ 0 + 1 ≤ 8 * Config.memWords) := by
  decide

theorem witness_HostStoresChangeExactlyTheirBytes :
    (2 = 1 ∨ 2 = 2 ∨ 2 = 4 ∨ 2 = 8) ∧ 8 * Config.memWords - 2 + 2 ≤ 8 * Config.memWords ∧ (6 < 7 ∨ 7 + 2 ≤ 9) := by
  decide

theorem witness_NopWritesNothing : (0x00000001 : CmdWord).extractLsb' 24 8 = 0 ∧ (0x00000001 : CmdWord) ≠ 0 := by
  decide

/-- Both commands, and each of the three outcomes with each of the two cases of the last. -/
theorem witness_WriteCommandsFollowWriteBits :
    (∃ kk : BitVec 7, Instr.wbits 64 = .wbits kk ∧ kk.toNat = 64 ∧ 64 ≤ 64 ∧
      (withCap 2).cfg.arg.toNat = (withCap 2).cfg.arg.toNat % 2 ^ 64) ∧
    (reader (withCap 2)).fifo.dir ≠ .wr ∧
    ((withCap 0).fifo.dir = .wr ∧ (withCap 0).capBits < (withCap 0).pos + 1) ∧
    ((withCap 1).fifo.dir = .wr ∧ (withCap 1).pos + 64 ≤ (withCap 1).capBits ∧
      64 ≤ (withCap 1).fifo.nb.toNat + 64) ∧
    (withCap 1).fifo.nb.toNat + 63 < 64 := by
  exact ⟨⟨64, rfl, rfl, by decide, rfl⟩, by decide, by decide, by decide, by decide⟩

theorem witness_WriteCommandsAppendTheField : (64#7).toNat ≤ 64 ∧ readyToWrite (withCap 1) (64#7).toNat ∧
    readyToWrite (withCap 1) 1 := by
  unfold readyToWrite Fifo.bufferOk
  decide

theorem witness_ReadCommandsFollowReadBits :
    (∃ kk : BitVec 7, Instr.rbits 64 = .rbits kk ∧ kk.toNat = 64 ∧ 64 ≤ 64) ∧
    (withCap 2).fifo.dir ≠ .rd ∧
    ((reader (withCap 0)).fifo.dir = .rd ∧ (reader (withCap 0)).capBits < (reader (withCap 0)).pos + 1) ∧
    ((reader (withCap 1)).fifo.dir = .rd ∧ (reader (withCap 1)).pos + 64 ≤ (reader (withCap 1)).capBits ∧
      (reader (withCap 1)).fifo.nb.toNat < 64) ∧
    12 ≤ (seekState.setFifo ⟨.rd, 1, 0x0ACF13579BDFABC, 59⟩).fifo.nb.toNat := by
  exact ⟨⟨64, rfl, rfl, by decide⟩, by decide, by decide, by decide, by decide⟩

theorem witness_ReadCommandsDeliverTheNextBits : (64#7).toNat ≤ 64 ∧
    readyToRead (reader (withCap 1)) (64#7).toNat ∧ readyToRead (reader (withCap 1)) 1 := by
  unfold readyToRead Fifo.bufferOk Fifo.readOk
  decide

/-- Three fields, the second across the word boundary, that fill the buffer of two words. -/
def someFields : List (Word × BitVec 7) := [(5, 3), (0xABC, 64), (1, 61)]

theorem witness_ReadsGiveBackTheFieldsWritten : (∀ e ∈ someFields, e.2.toNat ≤ 64) ∧
    readyToWrite (withCap 2) (someFields.map fun e => e.2.toNat).sum ∧
    (∀ k ∈ [(64#7), (64#7)], k.toNat ≤ 64) ∧
    ([(64#7), (64#7)].map BitVec.toNat).sum ≤ (someFields.map fun e => e.2.toNat).sum := by
  unfold readyToWrite Fifo.bufferOk
  exact ⟨by simp [someFields], ⟨by decide, by decide, by decide +kernel⟩, by simp, by decide +kernel⟩

/-- A writer with 18 bits pending in word 1. -/
def pending : State := (withCap 2).setFifo ⟨.wr, 1, 0x48D, 18⟩

theorem witness_FlushAlignsToTheNextWord : ((withCap 0).fifo.dir = .wr ∧ (withCap 0).fifo.nb = 0) ∧
    (pending.fifo.dir = .wr ∧ pending.fifo.nb ≠ 0 ∧ pending.fifo.ptr.toNat < pending.cfg.capw.toNat) ∧
    ((pending.setCfg (withCap 1).cfg).fifo.nb ≠ 0 ∧
      (pending.setCfg (withCap 1).cfg).cfg.capw.toNat ≤ (pending.setCfg (withCap 1).cfg).fifo.ptr.toNat) ∧
    (reader pending).fifo.dir = .rd ∧ (pending.fifo.bufferOk ∧ pending.fifo.readOk) ∧
    ∃ t, exec .flush pending = .next t := by
  unfold Fifo.bufferOk Fifo.readOk
  exact ⟨by decide, by decide, by decide, by decide, by decide, _, rfl⟩

theorem witness_SeekrPositionsTheReader : (withArg (withCap 1) 65).capBits < 65 ∧
    (64 ≤ (withArg (withCap 1) 64).capBits ∧ 64 % 64 = 0) ∧ (63 ≤ (withArg (withCap 1) 63).capBits ∧ 63 % 64 ≠ 0) := by
  decide

theorem witness_SeekwPositionsTheWriter : (withArg (withCap 1) 65).capBits < 65 ∧ 82 ≤ pending.capBits ∧
    (pending.fifo.dir = .wr ∧ 82 / 64 = pending.fifo.ptr.toNat ∧ 82 % 64 ≤ pending.fifo.nb.toNat) ∧
    ¬ (pending.fifo.dir = .wr ∧ 83 / 64 = pending.fifo.ptr.toNat ∧ 83 % 64 ≤ pending.fifo.nb.toNat) ∧
    83 ≤ pending.capBits := by
  decide

theorem witness_SeekwUndoesAProbe : (∀ e ∈ [((7 : Word), (46#7))], e.2.toNat ≤ 64) ∧
    readyToWrite pending ([((7 : Word), (46#7))].map fun e => e.2.toNat).sum := by
  unfold readyToWrite Fifo.bufferOk
  exact ⟨by simp, by decide, by decide, by decide +kernel⟩

theorem witness_DirectionLaw :
    ((∃ t, exec .flush pending = .next t) ∧ Instr.flush ≠ .seekr ∧ Instr.flush ≠ .seekw ∧ Instr.flush ≠ .srst) ∧
    ((Instr.wbits 64).wellFormed = true ∧ isWriteSide (.wbits 64) = true ∧ (reader pending).fifo.dir = .rd) ∧
    (Instr.decblk.wellFormed = true ∧ isReadSide .decblk = true ∧ pending.fifo.dir = .wr) ∧
    ((∃ t, performAccess (.regWrite 0x038 8 5) pending = .next t) ∧ HostAccess.regWrite 0x038 8 5 ≠ .reset ∧
      ∀ v, HostAccess.regWrite 0x038 8 5 ≠ .regWrite 0x078 8 v) := by
  exact ⟨⟨⟨_, rfl⟩, by decide, by decide, by decide⟩, by decide, by decide, ⟨_, rfl⟩, by decide, by simp⟩

/-- A memory that differs from the empty one in word 1 only. -/
theorem witness_NoCommandReachesBeyondTheCapacity :
    (∀ a, a < 8 * (withCap 1).cfg.capw.toNat → Mem.readByte [(8, 1)] a = (withCap 1).mem.readByte a) ∧
    Mem.readByte [(8, 1)] 8 ≠ (withCap 1).mem.readByte 8 := by
  decide

theorem witness_FwdxfFollowsTheLiftingSteps : 0 < (withCap 2).size ∧ 0 < (withCap 2).dim ∧ coord 0 0 = 0 ∧
    (withCap 2).size ≤ 4 := by
  decide

theorem witness_ConstantBlockBecomesItsMean :
    (∀ i < ((withCap 2).setCoef (fileOf [7, 7, 7, 7])).size,
      coefficient ((withCap 2).setCoef (fileOf [7, 7, 7, 7])) i = BitVec.ofNat _ 7) ∧ 0 < 3 ∧ 3 < (withCap 2).size := by
  exact ⟨by decide +kernel, by decide, by decide⟩

theorem witness_ForwardLiftGrowsAtMostThreefold :
    1 ≤ 8 ∧ 1 ≤ 42 ∧ 3 * 42 < 2 ^ (8 - 1) ∧ (42#8).toInt.natAbs ≤ 42 ∧ (-42#8).toInt.natAbs ≤ 42 := by
  decide

theorem witness_SequencyTablesFollowTheKey : (1 ≤ 1 ∧ 1 ≤ 4) ∧ (1 ≤ 4 ∧ 4 ≤ 4) := by decide

/-- A float block with an infinity at index 2. -/
def infBlock : State := floatState.setBlk (fileOf [0x3F800000, 0, 0x7F800000, 0])

/-- A finite float block: 1.0, -3.5, 0.1, 0.0. -/
def finBlock : State := floatState.setBlk (fileOf [0x3F800000, 0xC0600000, 0x3DCCCCCD, 0])

theorem infBlock_first : infBlock.ty.isFloat = true ∧ 2 < infBlock.size ∧
    nonfinite infBlock.ty (sample infBlock 2) = true ∧ ∀ j < 2, nonfinite infBlock.ty (sample infBlock j) = false := by
  exact ⟨by decide, by decide, by decide +kernel, by decide +kernel⟩

theorem finBlock_finite : finBlock.ty.isFloat = true ∧
    ∀ i < finBlock.size, nonfinite finBlock.ty (sample finBlock i) = false := by
  exact ⟨by decide, by decide +kernel⟩

theorem witness_ExpbStoresTheBlockExponent : (withCap 2).ty.isFloat = false ∧
    (2 < infBlock.size ∧ infBlock.ty.isFloat = true ∧ nonfinite infBlock.ty (sample infBlock 2) = true ∧
      ∀ j < 2, nonfinite infBlock.ty (sample infBlock j) = false) ∧
    (finBlock.ty.isFloat = true ∧ ∀ i < finBlock.size, nonfinite finBlock.ty (sample finBlock i) = false) :=
  ⟨by decide, ⟨infBlock_first.2.1, infBlock_first.1, infBlock_first.2.2⟩, finBlock_finite⟩

/-- `E` = 0, `E` = `RAW` (with an infinity in the block) and an `E` between. -/
theorem witness_FscaleScalesEachSample : (withCap 2).ty.isFloat = false ∧
    ((infBlock.setExpf 127).expE ≠ infBlock.ty.raw ∧
      nonfinite infBlock.ty (sample (infBlock.setExpf 127) 2) = true ∧
      ∀ j < 2, nonfinite infBlock.ty (sample (infBlock.setExpf 127) j) = false) ∧
    (infBlock.setExpf 255).expE = infBlock.ty.raw ∧ (finBlock.setExpf 0x700).expE = 0 ∧
    ((finBlock.setExpf 128).expE ≠ 0 ∧ (finBlock.setExpf 128).expE ≠ finBlock.ty.raw ∧
      ∀ i < finBlock.size, nonfinite finBlock.ty (sample (finBlock.setExpf 128) i) = false) := by
  exact ⟨by decide, ⟨by decide, infBlock_first.2.2⟩, by decide, by decide, by decide, by decide, finBlock_finite.2⟩

theorem witness_IscaleScalesBack : (withCap 2).ty.isFloat = false ∧ floatState.ty.isFloat = true ∧
    (floatState.setExpf 0).expE = 0 ∧ (floatState.setExpf 255).expE = floatState.ty.raw ∧
    ((floatState.setExpf 254).expE ≠ 0 ∧ (floatState.setExpf 254).expE ≠ floatState.ty.raw) ∧
    (coefficient (floatState.setCoef (fileOf [0x80000000])) 0).toInt.natAbs ≠ 0 ∧
    (coefficient floatState 0).toInt.natAbs = 0 := by
  exact ⟨by decide, by decide, by decide, by decide, by decide, by decide +kernel, by decide +kernel⟩

theorem witness_PrecStoresThePlaneCount : (withCap 2).ty.isFloat = false ∧ floatState.ty.isFloat = true ∧
    (floatState.setExpf 0).expE = 0 ∧ (floatState.setExpf 255).expE = floatState.ty.raw ∧
    ((floatState.setExpf 1).expE ≠ 0 ∧ (floatState.setExpf 1).expE ≠ floatState.ty.raw) := by
  decide

theorem witness_NoToleranceDropsNoPlane : ScalarType.isFloat .f64 = true ∧ (1 ≤ 4 ∧ 4 ≤ 4) ∧
    (1 ≤ 1 ∧ 1 < ScalarType.raw .f64) ∧ (1 ≤ 2046 ∧ 2046 < ScalarType.raw .f64) := by
  decide

/-- 1.0 with the exponent of the largest finite value, and with its own. -/
theorem witness_ScalingStaysInRange : ScalarType.isFloat .f32 = true ∧ (1 ≤ 1 ∧ 1 ≤ 4) ∧
    (1 ≤ 254 ∧ 254 < ScalarType.raw .f32) ∧ nonfinite .f32 0x3F800000#32 = false ∧
    effExp .f32 0x3F800000#32 ≤ 254 ∧ effExp .f32 0x3F800000#32 ≤ 127 := by
  decide

theorem witness_ExactSamplesAreThoseThatLoseNoBit : ScalarType.isFloat .f64 = true ∧ (1 ≤ 4 ∧ 4 ≤ 4) ∧
    (1 ≤ 1 ∧ 1 < ScalarType.raw .f64) ∧ nonfinite .f64 0x8000000000000000#64 = false ∧
    effExp .f64 0x8000000000000000#64 ≤ 1 := by
  decide

/-- The 47 bits of R151's example. -/
def exampleBits : List Bool := planeBits planeState.dim (min planeState.preceff.toNat planeState.width) planeState.coeffs

/-- A writer beyond the capacity with no plane to write. -/
def beyondState : State := (planeState.setPreceff 0).setFifo ⟨.wr, 3, 0, 0⟩

theorem witness_EncplWritesThePlanes : (reader planeState).fifo.dir = .rd ∧
    ((planeState.fifo.dir = .wr ∧ planeState.fifo.bufferOk) ∧
      (exampleBits.take (planeState.cfg.maxbits.toNat - planeState.bits.toNat)).length ≤
        planeState.capBits - planeState.pos) ∧
    ((beyondState.fifo.dir = .wr ∧ beyondState.fifo.bufferOk) ∧ beyondState.capBits < beyondState.pos ∧
      after .encpl beyondState (fun t => t.pos == 192 && t.bits == 0 && t.flt.cause == 0) = true) ∧
    ((smallState.fifo.dir = .wr ∧ smallState.fifo.bufferOk) ∧ smallState.capBits - smallState.pos <
      (exampleBits.take (smallState.cfg.maxbits.toNat - smallState.bits.toNat)).length) := by
  unfold Fifo.bufferOk
  exact ⟨by decide, ⟨by decide, by decide +kernel⟩, ⟨by decide, by decide, by decide +kernel⟩, by decide,
    by decide +kernel⟩

/-- The example's coefficients [5, -3, 0, 1] as magnitudes and signs. -/
def exampleMag (j : Nat) : Nat := [5, 3, 0, 1].getD j 0
def exampleSgn (j : Nat) : Bool := [false, true, false, false].getD j false

/-- R151: plane 2 of the example is `110000`, plane 1 is `101100`. -/
theorem test_groupEmits :
    groupEmits exampleMag exampleSgn 2 1 0 [true, true, false, false, false, false] ∧
    groupEmits exampleMag exampleSgn 1 1 0 [true, false, true, true, false, false] :=
  ⟨.inr ⟨⟨0, by decide⟩, fun q => leafBits (exampleMag q) (exampleSgn q) 2, by
      unfold groupEmits; intro q _; rw [show 0 + q * 4 ^ (0 + 1) / 4 = q by omega], by decide⟩,
    .inr ⟨⟨0, by decide⟩, fun q => leafBits (exampleMag q) (exampleSgn q) 1, by
      unfold groupEmits; intro q _; rw [show 0 + q * 4 ^ (0 + 1) / 4 = q by omega], by decide⟩⟩

/-- `planeReader` with `MAXBITS` = 40. -/
def cutReader : State := planeReader.setCfg { planeReader.cfg with maxbits := 40 }

theorem witness_DecplReadsThePlanes : planeState.fifo.dir = .wr ∧
    (cutReader.fifo.dir = .rd ∧ cutReader.fifo.bufferOk ∧ cutReader.fifo.readOk) ∧
    cutReader.pos + min (cutReader.cfg.maxbits.toNat - cutReader.bits.toNat) (worst cutReader.width cutReader.dim) ≤
      cutReader.capBits ∧
    0 < cutReader.size ∧ (planeReader.setPreceff 0).preceff = 0 ∧
    after .decpl (planeReader.setCfg (withCap 0).cfg) (fun t => t.flt.cause == 1) = true := by
  unfold Fifo.bufferOk Fifo.readOk
  exact ⟨by decide, ⟨by decide, by decide, by decide +kernel⟩, by decide, by decide, by decide, by decide +kernel⟩

theorem witness_DecplReadsWhatEncplWrote :
    exampleBits.take (planeState.cfg.maxbits.toNat - planeState.bits.toNat) = exampleBits ∧
    readyToWrite planeState exampleBits.length ∧ planeState.width ≤ planeState.preceff.toNat ∧
    exampleBits.length ≤ planeState.cfg.maxbits.toNat - planeState.bits.toNat := by
  unfold readyToWrite Fifo.bufferOk
  exact ⟨by decide +kernel, ⟨by decide, by decide, by decide +kernel⟩, by decide, by decide +kernel⟩

/-- `planeState` with `MAXBITS` = 60. -/
def planeState60 : State := planeState.setCfg { planeState.cfg with maxbits := 60 }

theorem witness_SmallerLimitsGiveAPrefix :
    readyToWrite planeState60 (planeState60.cfg.maxbits.toNat - planeState60.bits.toNat) ∧
    (40#16).toNat ≤ planeState60.cfg.maxbits.toNat ∧ (31#7).toNat ≤ planeState60.preceff.toNat ∧
    (∃ t, exec .encpl planeState60 = .next t) ∧
    ∃ t, exec .encpl ((planeState60.setCfg { planeState60.cfg with maxbits := 40 }).setPreceff 31) = .next t := by
  unfold readyToWrite Fifo.bufferOk
  exact ⟨by decide, by decide, by decide, ⟨_, rfl⟩, _, rfl⟩

theorem witness_PlaneCosts : 8 ≠ 0 ∧ 8 ≤ 8 ∧ (List.replicate 4 (BitVec.intMin 8)).length = 4 ^ 1 ∧
    (∀ x ∈ List.replicate 4 (BitVec.intMin 8), x = BitVec.intMin 8) ∧
    ∀ x ∈ List.replicate 4 (0#8), x = 0 := by
  decide

theorem witness_PadblkReplicatesTheLastValidSample :
    (∃ a < padState.dim, (padState.setCfg { padState.cfg with n1 := 5 }).extent a = 0 ∨
      4 < (padState.setCfg { padState.cfg with n1 := 5 }).extent a) ∧
    (∃ a < padState.dim, (padState.setCfg { padState.cfg with n0 := 0 }).extent a = 0) ∧
    (∀ a < padState.dim, 1 ≤ padState.extent a ∧ padState.extent a ≤ 4) ∧
    (∀ a < padState.dim, coord 0 a < padState.extent a) ∧ ¬ (∀ a < padState.dim, coord 15 a < padState.extent a) := by
  decide

theorem witness_BlockCommandChecksInOrder : (reader intBlock).fifo.dir = .rd ∧ intBlock.fifo.dir = .wr ∧
    (∃ c, (intBlock.setCfg c).cfg.maxbits.toNat < (intBlock.setCfg c).cfg.minbits.toNat) ∧
    (∃ c, (floatState.setCfg c).ty.isFloat = true ∧
      (floatState.setCfg c).cfg.minbits.toNat ≤ (floatState.setCfg c).cfg.maxbits.toNat ∧
      (floatState.setCfg c).cfg.maxbits.toNat < (floatState.setCfg c).ty.ebits) ∧
    (∃ c, (intBlock.setCfg c).fifo.dir = .wr ∧ decChecksPass (intBlock.setCfg c) ∧
      ∃ a < (intBlock.setCfg c).dim, (intBlock.setCfg c).extent a = 0 ∨ 4 < (intBlock.setCfg c).extent a) := by
  unfold decChecksPass
  exact ⟨by decide, by decide, ⟨{ Cfg.reset with minbits := 1, maxbits := 0 }, by decide⟩,
    ⟨{ floatState.cfg with maxbits := 7 }, by decide⟩, ⟨{ Cfg.reset with n0 := 5 }, by decide⟩⟩

/-- `finBlock` with 4 bits of room: fewer than its header has. -/
def tightBlock : State := finBlock.setFifo ⟨.wr, 7, 0, 60⟩

/-- `finBlock` with 20 bits of room: its header fits, its planes do not. -/
def shortBlock : State := finBlock.setFifo ⟨.wr, 7, 0, 44⟩

theorem witness_EncblkWritesTheStreamLayout :
    ((encChecksPass intBlock ∧ finiteBlock intBlock.pad ∧ intBlock.fifo.dir = .wr ∧ intBlock.fifo.bufferOk) ∧
      (blockBits intBlock.pad).length ≤ intBlock.capBits - intBlock.pos) ∧
    ((encChecksPass finBlock ∧ finiteBlock finBlock.pad ∧ finBlock.fifo.dir = .wr ∧ finBlock.fifo.bufferOk) ∧
      (blockBits finBlock.pad).length ≤ finBlock.capBits - finBlock.pos) ∧
    ((encChecksPass fullBlock ∧ finiteBlock fullBlock.pad ∧ fullBlock.fifo.dir = .wr ∧ fullBlock.fifo.bufferOk) ∧
      fullBlock.capBits - fullBlock.pos < (blockBits fullBlock.pad).length) ∧
    ((encChecksPass tightBlock ∧ finiteBlock tightBlock.pad ∧ tightBlock.fifo.dir = .wr ∧ tightBlock.fifo.bufferOk) ∧
      tightBlock.capBits - tightBlock.pos < (headerBits tightBlock.pad).length ∧
      after .encblk tightBlock (fun t => t.bits == 0 && t.flt.finfo == 508) = true) ∧
    ((encChecksPass shortBlock ∧ finiteBlock shortBlock.pad ∧ shortBlock.fifo.dir = .wr ∧ shortBlock.fifo.bufferOk) ∧
      (headerBits shortBlock.pad).length ≤ shortBlock.capBits - shortBlock.pos ∧
      shortBlock.capBits - shortBlock.pos < (blockBits shortBlock.pad).length ∧
      after .encblk shortBlock (fun t => t.bits == 20 && t.flt.finfo == 512) = true) := by
  unfold encChecksPass finiteBlock Fifo.bufferOk
  exact ⟨⟨⟨by decide, by decide +kernel, by decide, by decide⟩, by decide +kernel⟩,
    ⟨⟨by decide, by decide +kernel, by decide, by decide⟩, by decide +kernel⟩,
    ⟨⟨by decide, by decide +kernel, by decide, by decide⟩, by decide +kernel⟩,
    ⟨⟨by decide, by decide +kernel, by decide, by decide⟩, by decide +kernel, by decide +kernel⟩,
    ⟨by decide, by decide +kernel, by decide, by decide⟩, by decide +kernel, by decide +kernel, by decide +kernel⟩

theorem witness_EncblkRejectsNonfiniteBlocks : encChecksPass infBlock ∧ infBlock.fifo.dir = .wr ∧
    infBlock.ty.isFloat = true ∧ 2 < infBlock.size ∧
    nonfinite infBlock.ty (fromContainer infBlock.width ((infBlock.setBits 0).pad.blk.get 2)) = true ∧
    ∀ j < 2, nonfinite infBlock.ty (fromContainer infBlock.width ((infBlock.setBits 0).pad.blk.get j)) = false := by
  unfold encChecksPass
  exact ⟨by decide, by decide, by decide, by decide, by decide +kernel, by decide +kernel⟩

/-- A sound reader whose parameters `DECBLK` accepts. -/
def decReady (s : State) : Prop := decChecksPass s ∧ s.fifo.dir = .rd ∧ s.fifo.bufferOk ∧ s.fifo.readOk

/-- `intReader` with a floor of 200 bits, 128 bits being there. -/
def floorReader : State := intReader.setCfg { intReader.cfg with minbits := 200 }

/-- `rawReader` with no word, and with header 0. -/
def emptyReader : State := rawReader.setCfg { rawReader.cfg with capw := 0 }
def zeroReader : State := rawReader.setMem []

/-- `rawReader` with header 127 and zeros behind it. -/
def scaledReader : State := rawReader.setMem (Mem.writeWord [] 0 127)

/-- Readers where nothing ends early, where the capacity ends the header, the planes, the floor, of header 0 and of a
scaled block. -/
theorem witness_DecblkDecodesOneBlock :
    (decReady intReader ∧ after .decblk intReader (fun t => t.flt.cause == 0 && t.bits == 55) = true) ∧
    (decReady emptyReader ∧ emptyReader.capBits - emptyReader.pos < emptyReader.ty.ebits) ∧
    (decReady rawReader ∧ rawReader.ty.ebits ≤ rawReader.capBits - rawReader.pos ∧
      after .decblk rawReader (fun t => t.flt.cause == 1 && t.bits == 64) = true) ∧
    (decReady floorReader ∧ after .decblk floorReader
      (fun t => t.flt.cause == 1 && t.flt.finfo == 128 && t.bits == 128 && first4 t.blk == [10, 20, 30, 40]) = true) ∧
    (decReady zeroReader ∧ after .decblk zeroReader (fun t => t.flt.cause == 0 && t.expf == 0 && t.bits == 8) = true) ∧
    (decReady scaledReader ∧
      after .decblk scaledReader (fun t => t.flt.cause == 0 && t.expf == 127 && t.bits == 40) = true) := by
  unfold decReady decChecksPass Fifo.bufferOk Fifo.readOk
  exact ⟨⟨by decide, by decide +kernel⟩, ⟨by decide, by decide⟩, ⟨by decide, by decide, by decide +kernel⟩,
    ⟨by decide, by decide +kernel⟩, ⟨by decide, by decide +kernel⟩, by decide, by decide +kernel⟩

theorem witness_DecblkReadsBackWhatEncblkWrote : encChecksPass intBlock ∧ finiteBlock intBlock.pad ∧
    readyToWrite intBlock (blockBits intBlock.pad).length ∧ intBlock.cfg.minexp = 0x8000 ∧
    intBlock.width ≤ intBlock.cfg.maxprec.toNat ∧ intBlock.cfg.maxbits = 65535 := by
  refine ⟨witness_EncblkWritesTheStreamLayout.1.1.1, witness_EncblkWritesTheStreamLayout.1.1.2.1, ?_, by decide,
    by decide, by decide⟩
  unfold readyToWrite Fifo.bufferOk
  exact ⟨by decide, by decide, by decide +kernel⟩

theorem witness_BitsCountsWhatABlockCommandMoved :
    (encChecksPass intBlock ∧ intBlock.fifo.dir = .wr ∧ intBlock.fifo.bufferOk ∧
      ∃ t, exec .encblk intBlock = .next t) ∧
    (decChecksPass intReader ∧ intReader.fifo.dir = .rd ∧ intReader.fifo.bufferOk ∧ intReader.fifo.readOk ∧
      ∃ t, exec .decblk intReader = .next t) := by
  unfold encChecksPass decChecksPass Fifo.bufferOk Fifo.readOk
  exact ⟨⟨by decide, by decide, by decide, _, rfl⟩, by decide, by decide, by decide, by decide, _, rfl⟩

theorem witness_RaiseRecordsTheFault : 0 < 5 ∧ 4 < 5 := by decide

theorem witness_FaultRecordChangesNoCommand : Instr.decpl ≠ .srst ∧
    (planeState.raise .capacity 0).flt.flags.getLsbD 0 = true ∧
    (planeState.raise .dirErr 0).flt.flags.getLsbD 4 = true := by
  decide

theorem witness_AtMostOneFaultOfItsOwnKind : Instr.decpl ≠ .srst ∧ ∃ t, exec .decpl planeState = .next t := by
  exact ⟨by decide, _, rfl⟩

/-- Two states that differ in what no call may share. -/
def messy (s : State) : State :=
  ((((s.setCoef (fileOf [9, 9])).setRes 5).setBits 77).setExpf 3).setPreceff 11

theorem witness_BlockCommandsShareNoState :
    ((messy intBlock).cfg = intBlock.cfg ∧ (messy intBlock).fifo = intBlock.fifo ∧
      (messy intBlock).mem = intBlock.mem ∧ (messy intBlock).flt = intBlock.flt ∧
      (messy intBlock).blk = intBlock.blk ∧ encChecksPass intBlock ∧ intBlock.fifo.dir = .wr ∧
      finiteBlock intBlock.pad) ∧
    ((messy intReader).cfg = intReader.cfg ∧ (messy intReader).fifo = intReader.fifo ∧
      (messy intReader).mem = intReader.mem ∧ (messy intReader).flt = intReader.flt ∧ decChecksPass intReader ∧
      intReader.fifo.dir = .rd ∧ after .decblk intReader (fun t => t.flt.flags == 0) = true) := by
  refine ⟨⟨rfl, rfl, rfl, rfl, rfl, witness_EncblkWritesTheStreamLayout.1.1.1, by decide,
    witness_EncblkWritesTheStreamLayout.1.1.2.1⟩, rfl, rfl, rfl, rfl, ?_, by decide, by decide +kernel⟩
  unfold decChecksPass
  decide

theorem witness_CommandsWriteOnlyTheirState : (∃ t, exec .srst intBlock = .next t) ∧
    (∃ t, exec .encblk intBlock = .next t) ∧ (∃ t, exec .decblk intReader = .next t) :=
  ⟨⟨_, rfl⟩, ⟨_, rfl⟩, ⟨_, rfl⟩⟩

theorem witness_EveryStepKeepsTheInvariant :
    (State.reset.withFetchWord 32 0x53000000).Inv ∧ ∃ t, step (State.reset.withFetchWord 32 0x53000000) = .next t := by
  unfold State.Inv Fifo.bufferOk Fifo.readOk FaultRec.causeOk
  exact ⟨by decide, _, rfl⟩

end Sys2Proof.Tests
end

section
/-! PROOFS, family 10_state: the frame of every command (10_state R37, 20_memory R47). A command's pseudocode writes
within its row of the table and then may record one fault. -/

namespace Sys2Proof.Machine

open Sys2Proof Sys2Proof.Claims

/-! ### What a command may write -/

/-- The commands that count the bits of a block in `BITS` (10_state R25, R37). -/
def countsBits : List Instr := [.encpl, .decpl, .encblk, .decblk]

/-- `t` is `s` after a command other than `SRST`, or a part of it, has written within its row of the table of
10_state R37 and recorded no fault. For a fixed command this is a preorder. -/
structure WritesOnly (i : Instr) (s t : State) : Prop where
  hostq : t.hostq = s.hostq
  rdata : t.rdata = s.rdata
  cfg : t.cfg = s.cfg
  flt : t.flt = s.flt
  blk : i ∉ writesBlk → t.blk = s.blk
  blkBeyond : ∀ k, s.size ≤ k → t.blk.get k = s.blk.get k
  coef : i ∉ writesCoef → t.coef = s.coef
  coefBeyond : ∀ k, s.size ≤ k → t.coef.get k = s.coef.get k
  res : writesRes i = false → t.res = s.res
  bits : i ∉ countsBits → t.bits = s.bits
  expf : i ∉ [.expb, .encblk, .decblk] → t.expf = s.expf
  expfInt : s.ty.isFloat = false → t.expf = s.expf
  preceff : i ∉ [.prec, .encblk, .decblk] → t.preceff = s.preceff
  fifo : writesFifo i = false → t.fifo = s.fifo
  dir : i ∉ [.seekr, .seekw] → t.fifo.dir = s.fifo.dir
  mem : writesMem i = false → t.mem = s.mem
  ptr : writesMem i = true → s.fifo.ptr.toNat ≤ t.fifo.ptr.toNat
  bytes : writesMem i = true → ∀ a, a / 8 < s.fifo.ptr.toNat ∨ t.fifo.ptr.toNat ≤ a / 8 →
    t.mem.readByte a = s.mem.readByte a
  wf : s.mem.wf = true → t.mem.wf = true

namespace WritesOnly

variable {i : Instr} {s t u : State}

theorem refl (i : Instr) (s : State) : WritesOnly i s s where
  hostq := rfl
  rdata := rfl
  cfg := rfl
  flt := rfl
  blk _ := rfl
  blkBeyond _ _ := rfl
  coef _ := rfl
  coefBeyond _ _ := rfl
  res _ := rfl
  bits _ := rfl
  expf _ := rfl
  expfInt _ := rfl
  preceff _ := rfl
  fifo _ := rfl
  dir _ := rfl
  mem _ := rfl
  ptr _ := le_refl _
  bytes _ _ _ := rfl
  wf h := h

theorem ty (h : WritesOnly i s t) : t.ty = s.ty := by rw [State.ty, h.cfg, State.ty]

theorem dim (h : WritesOnly i s t) : t.dim = s.dim := by rw [State.dim, h.cfg, State.dim]

theorem size (h : WritesOnly i s t) : t.size = s.size := by rw [State.size, h.dim, State.size]

theorem trans (h : WritesOnly i s t) (g : WritesOnly i t u) : WritesOnly i s u where
  hostq := g.hostq.trans h.hostq
  rdata := g.rdata.trans h.rdata
  cfg := g.cfg.trans h.cfg
  flt := g.flt.trans h.flt
  blk hi := (g.blk hi).trans (h.blk hi)
  blkBeyond k hk := (g.blkBeyond k (h.size ▸ hk)).trans (h.blkBeyond k hk)
  coef hi := (g.coef hi).trans (h.coef hi)
  coefBeyond k hk := (g.coefBeyond k (h.size ▸ hk)).trans (h.coefBeyond k hk)
  res hi := (g.res hi).trans (h.res hi)
  bits hi := (g.bits hi).trans (h.bits hi)
  expf hi := (g.expf hi).trans (h.expf hi)
  expfInt ht := (g.expfInt (h.ty ▸ ht)).trans (h.expfInt ht)
  preceff hi := (g.preceff hi).trans (h.preceff hi)
  fifo hi := (g.fifo hi).trans (h.fifo hi)
  dir hi := (g.dir hi).trans (h.dir hi)
  mem hi := (g.mem hi).trans (h.mem hi)
  ptr hi := le_trans (h.ptr hi) (g.ptr hi)
  bytes hi a ha := by
    have := g.ptr hi
    have := h.ptr hi
    rw [g.bytes hi a (by omega), h.bytes hi a (by omega)]
  wf hw := g.wf (h.wf hw)

/-! One rule per state operation a command uses. -/

variable (s)

theorem setRes (hi : writesRes i = true) (v : Word) : WritesOnly i s (s.setRes v) :=
  { refl i s with res := fun hn => absurd hn (by simp [hi]) }

theorem setBits (hi : i ∈ countsBits) (v : BitVec 32) : WritesOnly i s (s.setBits v) :=
  { refl i s with bits := fun hn => absurd hi hn }

theorem setPreceff (hi : i ∈ [.prec, .encblk, .decblk]) (v : BitVec 7) : WritesOnly i s (s.setPreceff v) :=
  { refl i s with preceff := fun hn => absurd hi hn }

theorem setExpf (hi : i ∈ [.expb, .encblk, .decblk]) (ht : s.ty.isFloat = true) (v : BitVec 11) :
    WritesOnly i s (s.setExpf v) :=
  { refl i s with
    expf := fun hn => absurd hi hn
    expfInt := fun hn => absurd hn (by simp [ht]) }

theorem putCoeffs (hi : i ∈ writesCoef) {N : Nat} (vs : List (BitVec N)) : WritesOnly i s (s.putCoeffs vs) :=
  { refl i s with
    coef := fun hn => absurd hi hn
    coefBeyond := fun k hk => by rw [State.putCoeffs_get, if_neg (by omega)] }

theorem putSamples (hi : i ∈ writesBlk) {N : Nat} (vs : List (BitVec N)) : WritesOnly i s (s.putSamples vs) :=
  { refl i s with
    blk := fun hn => absurd hi hn
    blkBeyond := fun k hk => by rw [State.putSamples_get, if_neg (by omega)] }

end WritesOnly

/-- Padding reaches no register beyond the block, whatever the extents are (45_block_codec R161). -/
theorem padAxes_get_beyond (N n : Nat) (ext : Nat → Nat) (e : Nat) (f : RegFile) (k : Nat) (hn : n ≤ 256)
    (hk : n ≤ k) : (padAxes N n ext e f).get k = f.get k := by
  induction e with
  | zero => rfl
  | succ e ih => rw [padAxes, padAxis, RegFile.get_writeLow _ _ _ _ hn, if_neg (by omega), ih]

namespace WritesOnly

variable {i : Instr} {s t : State}

theorem pad (hi : i ∈ writesBlk) (s : State) : WritesOnly i s s.pad :=
  { refl i s with
    blk := fun hn => absurd hi hn
    blkBeyond := fun _ hk => padAxes_get_beyond _ _ _ _ _ _ s.size_le hk }

/-- A change of the bitstream unit alone. -/
theorem setFifo (hi : writesFifo i = true) (hm : writesMem i = false) (v : Fifo)
    (hd : i ∉ [.seekr, .seekw] → v.dir = s.fifo.dir) : WritesOnly i s (s.setFifo v) :=
  { refl i s with
    fifo := fun hn => absurd hn (by simp [hi])
    dir := hd
    ptr := fun hn => absurd hn (by simp [hm])
    bytes := fun hn => absurd hn (by simp [hm]) }

/-- Some writing to the stream (Laws/Frame.lean). -/
theorem of_stored (hf : writesFifo i = true) (hm : writesMem i = true) (h : Stored s t)
    (hb : i ∉ countsBits → t.bits = s.bits) : WritesOnly i s t := by
  obtain ⟨same, dir, ptr, bytes, -, wf⟩ := h
  rw [same]
  exact { refl i s with
    bits := hb
    fifo := fun hn => absurd hn (by simp [hf])
    dir := fun _ => dir
    mem := fun hn => absurd hn (by simp [hm])
    ptr := fun _ => ptr
    bytes := fun _ => bytes
    wf := wf }

/-- Some reading of the stream (Laws/Frame.lean). -/
theorem of_loaded (hf : writesFifo i = true) (hm : writesMem i = false) (h : Loaded s t)
    (hb : i ∉ countsBits → t.bits = s.bits) : WritesOnly i s t := by
  obtain ⟨same, dir⟩ := h
  rw [same]
  exact { refl i s with
    bits := hb
    fifo := fun hn => absurd hn (by simp [hf])
    dir := fun _ => dir
    ptr := fun hn => absurd hn (by simp [hm])
    bytes := fun hn => absurd hn (by simp [hm]) }

end WritesOnly

/-! ### How a command may end -/

/-- A piece of a command's pseudocode has written within the command's row, and may then have recorded one fault. -/
def EndsWithin {α : Type} (i : Instr) (s : State) : Run α → Prop
  | .ok _ t => WritesOnly i s t
  | .raised t => ∃ u f info, WritesOnly i s u ∧ t = u.raise f info

namespace EndsWithin

variable {α β : Type} {i : Instr} {s : State}

/-- A piece that goes on. -/
theorem ok {t : State} (a : α) (h : WritesOnly i s t) : EndsWithin i s (.ok a t) := h

/-- A check that fails records its fault in the state it found. -/
theorem raise (i : Instr) (s : State) (f : HwFault) (info : Word) :
    EndsWithin (α := α) i s (.raised (s.raise f info)) :=
  ⟨s, f, info, .refl i s, rfl⟩

/-- What follows some writing of the same command. -/
theorem after {t : State} {r : Run α} (h : WritesOnly i s t) (g : EndsWithin i t r) : EndsWithin i s r := by
  cases r with
  | ok a u => exact WritesOnly.trans h g
  | raised u =>
    obtain ⟨v, f, info, hv, rfl⟩ := g
    exact ⟨v, f, info, h.trans hv, rfl⟩

theorem bind {r : Run α} {f : α → State → Run β} (h : EndsWithin i s r)
    (g : ∀ a t, WritesOnly i s t → EndsWithin i t (f a t)) : EndsWithin i s (r.bind f) := by
  cases r with
  | ok a t => exact after h (g a t h)
  | raised t => exact h

/-- A piece that writes to the stream and counts its bits. -/
theorem of_stores {r : Run α} (hc : i ∈ countsBits) (hf : writesFifo i = true) (hm : writesMem i = true)
    (h : StoreEnd s r) : EndsWithin i s r := by
  cases r with
  | ok a t => exact .of_stored hf hm h fun hn => absurd hc hn
  | raised t =>
    obtain ⟨u, hu, rfl⟩ := h
    exact ⟨u, _, _, .of_stored hf hm hu fun hn => absurd hc hn, rfl⟩

/-- A piece that reads the stream and counts its bits. -/
theorem of_loads {r : Run α} (hc : i ∈ countsBits) (hf : writesFifo i = true) (hm : writesMem i = false)
    (h : LoadEnd s r) : EndsWithin i s r := by
  cases r with
  | ok a t => exact .of_loaded hf hm h fun hn => absurd hc hn
  | raised t =>
    obtain ⟨u, hu, rfl⟩ := h
    exact ⟨u, _, _, .of_loaded hf hm hu fun hn => absurd hc hn, rfl⟩

/-- `write_bits` in a command that does not count its bits (41_bitstream_fifo R81). -/
theorem writeBits (hf : writesFifo i = true) (hm : writesMem i = true) (v : Word) (k : Nat) (s : State) :
    EndsWithin i s (writeBits v k s) := by
  by_cases hd : s.fifo.dir = .wr
  · by_cases hc : s.pos + k ≤ s.capBits
    · rw [writeBits_ok v k s hd hc]
      exact .of_stored hf hm (pushBits_stored s v k hd hc) fun _ => by rw [State.pushBits_eq]; rfl
    · rw [writeBits_capacity v k s hd (by omega)]
      exact raise ..
  · rw [writeBits_dirErr v k s hd]
    exact raise ..

/-- `read_bits` in a command that does not count its bits (41_bitstream_fifo R82). -/
theorem readBits (hf : writesFifo i = true) (hm : writesMem i = false) (k : Nat) (s : State) :
    EndsWithin i s (readBits k s) := by
  by_cases hd : s.fifo.dir = .rd
  · have hl := readBits_loaded k s hd
    by_cases hc : s.pos + k ≤ s.capBits
    · rw [readBits_ok k s hd hc] at hl ⊢
      exact .of_loaded hf hm hl fun _ => by unfold State.pullBits; split <;> rfl
    · rw [readBits_capacity k s hd (by omega)]
      exact raise ..
  · rw [readBits_dirErr k s hd]
    exact raise ..

/-- `decode_planes` and the store of `COEF` (44_bitplane_coder R152). -/
theorem decodePlanes (hc : i ∈ countsBits) (hf : writesFifo i = true) (hm : writesMem i = false)
    (hw : i ∈ writesCoef) (s : State) (hd : s.fifo.dir = .rd) : EndsWithin i s (decodePlanes s) := by
  have h := decodePlanes_loads s hd
  revert h
  cases Machine.decodePlanes s with
  | ok a t =>
    rintro ⟨w, u, hu, rfl⟩
    exact WritesOnly.trans (.of_loaded hf hm hu fun hn => absurd hc hn) (.putCoeffs u hw _)
  | raised t =>
    rintro ⟨u, hu, rfl⟩
    exact ⟨u, _, _, .of_loaded hf hm hu fun hn => absurd hc hn, rfl⟩

/-- The float test (43_exponent_scaler R120). -/
theorem needFloat {f : State → Run Unit} (h : s.ty.isFloat = true → EndsWithin i s (f s)) :
    EndsWithin i s (needFloat s f) := by
  obtain ⟨ht, e⟩ | ⟨-, e⟩ := needFloat_cases s f
  · rw [e]
    exact h ht
  · rw [e]
    exact raise ..

/-- The non-finite test (43_exponent_scaler R122). -/
theorem needFinite {f : State → Run Unit} (h : EndsWithin i s (f s)) : EndsWithin i s (needFinite s f) := by
  obtain ⟨-, e⟩ | ⟨j, -, -, -, e⟩ := needFinite_cases s f
  · rw [e]
    exact h
  · rw [e]
    exact raise ..

end EndsWithin

/-! ### The block commands -/

theorem encodePlanes_within {i : Instr} (hc : i ∈ countsBits) (hf : writesFifo i = true) (hm : writesMem i = true)
    (s : State) (hd : s.fifo.dir = .wr) : EndsWithin i s (encodePlanes s) :=
  .of_stores hc hf hm (encodePlanes_stored s hd)

theorem prepareFloat_within (s : State) (ht : s.ty.isFloat = true) : WritesOnly .encblk s s.prepareFloat :=
  ((WritesOnly.setExpf s (by decide) ht _).trans (.setPreceff _ (by decide) _)).trans (.putCoeffs _ (by decide) _)

theorem encodeFloat_within (s : State) (ht : s.ty.isFloat = true) (hd : s.fifo.dir = .wr) :
    EndsWithin .encblk s (encodeFloat s) := by
  refine .needFinite (.after (prepareFloat_within s ht) ?_)
  have hhead : EndsWithin .encblk s.prepareFloat (writeHeader s.headerExponent s.prepareFloat) :=
    .of_stores (by decide) rfl rfl (writeHeader_stored _ _ hd)
  refine hhead.bind fun _ t h => ?_
  have hdt : t.fifo.dir = .wr := (h.dir (by decide)).trans hd
  split
  · exact WritesOnly.putCoeffs t (by decide) _
  · exact .after (.putCoeffs t (by decide) _) (encodePlanes_within (by decide) rfl rfl _ hdt)

theorem encodeInt_within (s : State) (hd : s.fifo.dir = .wr) : EndsWithin .encblk s (encodeInt s) :=
  .after (((WritesOnly.putCoeffs s (by decide) _).trans (.setPreceff _ (by decide) _)).trans
    (.putCoeffs _ (by decide) _)) (encodePlanes_within (by decide) rfl rfl _ hd)

theorem encodeBlock_within (s : State) (hd : s.fifo.dir = .wr) : EndsWithin .encblk s (encodeBlock s) := by
  refine .after ((WritesOnly.setBits s (by decide) 0).trans (.pad (by decide) _)) (EndsWithin.bind ?_ ?_)
  · split
    · rename_i ht
      exact encodeFloat_within _ ht hd
    · exact encodeInt_within _ hd
  · intro _ t h
    exact .of_stores (by decide) rfl rfl (padStream_stored _ t ((h.dir (by decide)).trans hd))

theorem decodeCoeffs_within (s : State) (hd : s.fifo.dir = .rd) : EndsWithin .decblk s (decodeCoeffs s) :=
  (EndsWithin.decodePlanes (by decide) rfl rfl (by decide) s hd).bind fun _ t _ => .putCoeffs t (by decide) _

theorem zeroBlock_within (s : State) : WritesOnly .decblk s s.zeroBlock :=
  (WritesOnly.putCoeffs s (by decide) _).trans (.putSamples _ (by decide) _)

theorem decodeFloat_within (s : State) (ht : s.ty.isFloat = true) (hd : s.fifo.dir = .rd) :
    EndsWithin .decblk s (decodeFloat s) := by
  have hhead : EndsWithin .decblk s (readHeader s) := .of_loads (by decide) rfl rfl (readHeader_loaded s hd)
  refine hhead.bind fun v t h => ?_
  have hset : WritesOnly .decblk t
      ((t.setExpf (BitVec.ofNat 11 v.toNat)).setPreceff (BitVec.ofNat 7 (t.precision v.toNat))) :=
    (WritesOnly.setExpf t (by decide) (by rw [h.ty, ht]) _).trans (.setPreceff _ (by decide) _)
  refine .after hset ?_
  dsimp only
  split
  · exact zeroBlock_within _
  · exact EndsWithin.bind (decodeCoeffs_within _ (by exact (h.dir (by decide)).trans hd)) fun _ u _ =>
      .ok _ (.putSamples u (by decide) _)

theorem decodeInt_within (s : State) (hd : s.fifo.dir = .rd) : EndsWithin .decblk s (decodeInt s) :=
  .after (.setPreceff s (by decide) _) (.bind (decodeCoeffs_within _ (by exact hd)) fun _ t _ =>
    .ok _ (.putSamples t (by decide) _))

theorem decodeBlock_within (s : State) (hd : s.fifo.dir = .rd) : EndsWithin .decblk s (decodeBlock s) := by
  refine .after (.setBits s (by decide) 0) (EndsWithin.bind ?_ ?_)
  · split
    · rename_i ht
      exact decodeFloat_within _ ht hd
    · exact decodeInt_within _ hd
  · intro _ t h
    exact .of_loads (by decide) rfl rfl (skipStream_loaded _ t ((h.dir (by decide)).trans hd))

/-! ### Every command -/

theorem flushWr_within (s : State) : EndsWithin .flush s (flushWr s) := by
  unfold flushWr
  split
  · exact WritesOnly.setRes s rfl 0
  · split
    · exact .raise ..
    · rename_i hlt
      have hp : (s.fifo.ptr + 1).toNat = s.fifo.ptr.toNat + 1 := by
        have := s.cfg.capw.isLt
        rw [BitVec.toNat_add]
        simp
        omega
      exact { WritesOnly.refl .flush s with
        res := fun hn => absurd hn (by decide)
        fifo := fun hn => absurd hn (by decide)
        mem := fun hn => absurd hn (by decide)
        ptr := fun _ => by simp only [setFifo_fifo, hp]; omega
        bytes := fun _ a ha => by
          simp only [setFifo_fifo, hp] at ha
          exact Mem.readByte_writeWord_ne _ _ _ _ (by omega)
        wf := Mem.wf_writeWord _ _ _ }

/-- `FLUSH` of a reader drops the rest of the word held and stores nothing (41_bitstream_fifo R85). -/
theorem flushRd_within (s : State) : WritesOnly .flush s (flushRd s) :=
  { WritesOnly.refl .flush s with
    res := fun hn => absurd hn (by decide)
    fifo := fun hn => absurd hn (by decide) }

/-- Every command but `SRST` ends within its row of the table (10_state R37), with at most one fault recorded. -/
theorem exec_within (i : Instr) (hi : i ≠ .srst) (s : State) :
    ∃ r : Run Unit, exec i s = r.toOutcome ∧ EndsWithin i s r := by
  have done (u : State) (h : WritesOnly i s u) : ∃ r : Run Unit, .next u = r.toOutcome ∧ EndsWithin i s r :=
    ⟨.ok () u, rfl, h⟩
  have faulted (f : HwFault) (info : Word) :
      ∃ r : Run Unit, .next (s.raise f info) = r.toOutcome ∧ EndsWithin i s r :=
    ⟨_, rfl, .raise i s f info⟩
  cases i with
  | srst => exact absurd rfl hi
  | nop => exact done s (.refl _ s)
  | wbits k =>
    simp only [exec, execWbits]
    split
    · exact faulted ..
    · exact ⟨_, rfl, .writeBits rfl rfl _ _ s⟩
  | wbit => exact ⟨_, rfl, .writeBits rfl rfl _ _ s⟩
  | rbits k =>
    simp only [exec, execRbits]
    split
    · exact faulted ..
    · exact ⟨_, rfl, (EndsWithin.readBits rfl rfl _ s).bind fun v t _ => .setRes t rfl v⟩
  | rbit => exact ⟨_, rfl, (EndsWithin.readBits rfl rfl _ s).bind fun v t _ => .setRes t rfl v⟩
  | flush =>
    simp only [exec, execFlush]
    split
    · exact ⟨_, rfl, flushWr_within s⟩
    · exact done _ (flushRd_within s)
  | tell => exact done _ (.setRes s rfl _)
  | seekr =>
    simp only [exec, execSeekr]
    split
    · exact faulted ..
    · exact done _ (.setFifo rfl rfl _ fun hn => absurd hn (by decide))
  | seekw =>
    simp only [exec, execSeekw]
    split
    · exact faulted ..
    · split <;> exact done _ (.setFifo rfl rfl _ fun hn => absurd hn (by decide))
  | fwdxf => exact done _ (.putCoeffs s (by decide) _)
  | invxf => exact done _ (.putCoeffs s (by decide) _)
  | expb => exact ⟨_, rfl, .needFloat fun ht => .needFinite (.setExpf s (by decide) ht _)⟩
  | fscale =>
    refine ⟨_, rfl, .needFloat fun _ => ?_⟩
    split
    · exact .needFinite (.putCoeffs s (by decide) _)
    · exact WritesOnly.putCoeffs s (by decide) _
  | iscale => exact ⟨_, rfl, .needFloat fun _ => .putSamples s (by decide) _⟩
  | prec => exact done _ (.setPreceff s (by decide) _)
  | encpl =>
    refine ⟨_, rfl, ?_⟩
    split
    · exact .raise ..
    · rename_i hd
      exact encodePlanes_within (by decide) rfl rfl s (not_not.1 hd)
  | decpl =>
    refine ⟨_, rfl, ?_⟩
    split
    · exact .raise ..
    · rename_i hd
      exact .decodePlanes (by decide) rfl rfl (by decide) s (not_not.1 hd)
  | padblk =>
    simp only [exec, execPadblk]
    split
    · exact done _ (.pad (by decide) s)
    · exact faulted ..
  | b2c => exact done _ (.putCoeffs s (by decide) _)
  | c2b => exact done _ (.putSamples s (by decide) _)
  | encblk =>
    simp only [exec, execEncblk]
    split
    · exact faulted ..
    · rename_i hd
      split
      · exact faulted ..
      · split
        · exact ⟨_, rfl, encodeBlock_within s (not_not.1 hd)⟩
        · exact faulted ..
  | decblk =>
    simp only [exec, execDecblk]
    split
    · exact faulted ..
    · rename_i hd
      split
      · exact faulted ..
      · exact ⟨_, rfl, decodeBlock_within s (not_not.1 hd)⟩

/-- The next state of a command other than `SRST`: within its row, and perhaps one fault recorded on top. -/
theorem exec_next_within {i : Instr} {s t : State} (hi : i ≠ .srst) (h : exec i s = .next t) :
    ∃ u, WritesOnly i s u ∧ (t = u ∨ ∃ f info, t = u.raise f info) := by
  obtain ⟨r, e, hr⟩ := exec_within i hi s
  rw [e, Run.toOutcome] at h
  cases r with
  | ok a u =>
    cases h
    exact ⟨u, hr, .inl rfl⟩
  | raised u =>
    cases h
    obtain ⟨v, f, info, hv, rfl⟩ := hr
    exact ⟨v, hv, .inr ⟨f, info, rfl⟩⟩

end Sys2Proof.Machine

namespace Sys2Proof.Proofs

open Sys2Proof Sys2Proof.Machine Sys2Proof.Claims

/-- Settles O57: every command but `SRST` writes within its row and then records at most one fault; `SRST` keeps what
10_state R39 names. -/
theorem commandsWriteOnlyTheirState : Obligations.CommandsWriteOnlyTheirState := by
  intro i s t h
  by_cases hi : i = .srst
  · subst hi
    cases h
    have other {p : Prop} (hn : Instr.srst ≠ .srst) : p := absurd rfl hn
    have listed {l : List Instr} {p : Prop} (hl : .srst ∈ l) (hn : .srst ∉ l) : p := absurd hl hn
    exact ⟨⟨rfl, rfl⟩, other, fun _ => rfl, fun _ _ => rfl, fun _ => rfl, fun _ _ => rfl,
      fun hn => absurd hn (by decide), listed (by decide), listed (by decide), fun _ => other, listed (by decide),
      fun hn => absurd hn (by decide), listed (by decide), other, fun _ => rfl, fun hn => absurd hn (by decide)⟩
  · obtain ⟨u, hu, ht⟩ := exec_next_within hi h
    have hflt : t.flt = s.flt ∨ ∃ f info, t.flt = (s.raise f info).flt := by
      obtain rfl | ⟨f, info, rfl⟩ := ht
      · exact .inl hu.flt
      · exact .inr ⟨f, info, by rw [raise_flt, raise_flt, hu.flt]⟩
    have hrest : ∃ f, t = u.setFlt f := by
      obtain rfl | ⟨f, info, rfl⟩ := ht
      · exact ⟨t.flt, rfl⟩
      · exact ⟨_, rfl⟩
    obtain ⟨f, rfl⟩ := hrest
    have keep (l : List Instr) (hn : i ∉ l ++ [.srst]) : i ∉ l := fun hm => hn (List.mem_append_left _ hm)
    exact ⟨⟨hu.hostq, hu.rdata⟩, fun _ => hu.cfg, hu.blk, hu.blkBeyond, hu.coef, hu.coefBeyond, hu.res,
      fun hn => hu.bits (keep countsBits hn), fun hn => hu.expf (keep [.expb, .encblk, .decblk] hn),
      fun hn _ => hu.expfInt hn, fun hn => hu.preceff (keep [.prec, .encblk, .decblk] hn), hu.fifo,
      fun hn => hu.dir (keep [.seekr, .seekw] hn), fun _ => hflt, hu.mem, fun hm => ⟨hu.ptr hm, hu.bytes hm⟩⟩

end Sys2Proof.Proofs
end

section
/-! PROOFS, family 10_state: the invariant of the machine between host accesses (10_state R29, R32). The fault record
and the canonical form of `MEM` follow from the frame of every command; what is left is the bitstream unit. -/

namespace Sys2Proof.Machine

open Sys2Proof Sys2Proof.Claims

/-! ### Pieces of a command -/

/-- A property that every piece keeps holds where the pieces end, faulted or not. -/
theorem Run.state_bind {α β : Type} (P : State → Prop) {r : Run α} {f : α → State → Run β} (h : P r.state)
    (g : ∀ a t, P t → P (f a t).state) : P (r.bind f).state := by
  cases r with
  | ok a t => exact g a t h
  | raised t => exact h

/-! ### A writer stays sound -/

/-- A writer in a sound state. -/
def State.writing (s : State) : Prop := s.fifo.dir = .wr ∧ s.fifo.bufferOk

theorem EmitEnd.writing {bs : List Bool} {s : State} {r : Run Unit} (h : EmitEnd bs s r) : r.state.writing := by
  cases r with
  | ok a t => exact ⟨Wrote.dir h.toWrote, Wrote.buffer h.toWrote⟩
  | raised t =>
    obtain ⟨u, -, hw, rfl⟩ := h
    exact ⟨hw.dir, hw.buffer⟩

theorem writeBits_writing (v : Word) (k : Nat) (hk : k ≤ 64) (s : State) (h : s.writing) :
    (writeBits v k s).state.writing := by
  obtain ⟨hd, hb⟩ := h
  by_cases hc : s.pos + k ≤ s.capBits
  · rw [writeBits_ok v k s hd hc]
    have hw := pushBits_wrote s v k hk hd hb hc
    exact ⟨hw.dir, hw.buffer⟩
  · rw [writeBits_capacity v k s hd (by omega)]
    exact ⟨hd, hb⟩

theorem writeHeader_writing (E : Nat) (s : State) (h : s.writing) : (writeHeader E s).state.writing :=
  Run.state_bind State.writing (writeBits_writing _ _ (by have := ebits_le s.ty; omega) s h) fun _ _ ht => ht

theorem encodePlanes_writing (s : State) (h : s.writing) : (encodePlanes s).state.writing :=
  (emitAll_end _ s h.1 h.2).writing

theorem padStream_writing (s : State) (h : s.writing) : (padStream s.cfg.minbits.toNat s).state.writing :=
  (padStream_end _ s h.1 h.2 (by omega)).writing

theorem encodeFloat_writing (s : State) (h : s.writing) : (encodeFloat s).state.writing := by
  obtain ⟨-, e⟩ | ⟨i, -, -, -, e⟩ := needFinite_cases s fun s =>
    (writeHeader s.headerExponent s.prepareFloat).bind fun _ s' =>
      if s.headerExponent = 0 then .ok () s'.zeroCoeffs else encodePlanes s'.forward
  · rw [encodeFloat, e]
    refine Run.state_bind State.writing (writeHeader_writing _ s.prepareFloat h) fun _ t ht => ?_
    split
    · exact ht
    · exact encodePlanes_writing t.forward ht
  · rw [encodeFloat, e]
    exact h

theorem encodeBlock_writing (s : State) (h : s.writing) : (encodeBlock s).state.writing := by
  refine Run.state_bind State.writing ?_ fun _ t => padStream_writing t
  split
  · exact encodeFloat_writing (s.setBits 0).pad h
  · exact encodePlanes_writing _ h

/-! ### A reader stays sound -/

theorem readBits_reading (k : Nat) (hk : k ≤ 64) (s : State) (h : s.reading) : (readBits k s).state.reading := by
  obtain ⟨hd, hb, hr⟩ := h
  by_cases hc : s.pos + k ≤ s.capBits
  · rw [readBits_ok k s hd hc]
    exact (pullBits_consumed s k hk hd hb hr hc).reading
  · rw [readBits_capacity k s hd (by omega)]
    exact ⟨hd, hb, hr⟩

theorem readHeader_reading (s : State) (h : s.reading) : (readHeader s).state.reading :=
  Run.state_bind State.reading (readBits_reading _ (by have := ebits_le s.ty; omega) s h) fun _ _ ht => ht

theorem decodePlanes_reading (s : State) (h : s.reading) : (decodePlanes s).state.reading := by
  have hend := decodePlanes_end s h
  revert hend
  cases decodePlanes s with
  | ok a t =>
    rintro ⟨w, n, u, hu, -, -, rfl⟩
    exact hu.toConsumed.reading
  | raised t =>
    rintro ⟨n, u, hu, -, -, -, rfl⟩
    exact hu.toConsumed.reading

theorem skipStream_reading (s : State) (h : s.reading) : (skipStream s.cfg.minbits.toNat s).state.reading := by
  have hend := skipStream_end s.cfg.minbits.toNat s h (by omega)
  revert hend
  cases skipStream s.cfg.minbits.toNat s with
  | ok a t => exact fun ht => ht.toConsumed.reading
  | raised t =>
    rintro ⟨u, -, hu, rfl⟩
    exact hu.toConsumed.reading

theorem decodeCoeffs_reading (s : State) (h : s.reading) : (decodeCoeffs s).state.reading :=
  Run.state_bind State.reading (decodePlanes_reading s h) fun _ _ ht => ht

theorem decodeFloat_reading (s : State) (h : s.reading) : (decodeFloat s).state.reading := by
  refine Run.state_bind State.reading (readHeader_reading s h) fun v t ht => ?_
  dsimp only
  split
  · exact ht
  · exact Run.state_bind State.reading (decodeCoeffs_reading _ ht) fun _ _ hu => hu

theorem decodeInt_reading (s : State) (h : s.reading) : (decodeInt s).state.reading :=
  Run.state_bind State.reading (decodeCoeffs_reading (s.setPreceff _) h) fun _ _ ht => ht

theorem decodeBlock_reading (s : State) (h : s.reading) : (decodeBlock s).state.reading := by
  refine Run.state_bind State.reading ?_ fun _ t => skipStream_reading t
  split
  · exact decodeFloat_reading (s.setBits 0) h
  · exact decodeInt_reading (s.setBits 0) h

/-! ### The bitstream unit stays sound -/

/-- The invariants of 10_state R32 for the bitstream unit. -/
def Fifo.sound (f : Fifo) : Prop := f.bufferOk ∧ f.readOk

theorem State.writing.sound {s : State} (h : s.writing) : s.fifo.sound :=
  ⟨h.2, fun hd => by rw [h.1] at hd; cases hd⟩

theorem State.reading.sound {s : State} (h : s.reading) : s.fifo.sound := h.2

/-- A unit that holds no bits is sound. -/
theorem Fifo.sound_of_empty (d : Dir) (p : BitVec 32) : (⟨d, p, 0, 0⟩ : Fifo).sound :=
  ⟨⟨(by decide : (0#7).toNat < 64), (by decide : (0#64).toNat < 2 ^ (0#7).toNat)⟩, fun _ _ => rfl⟩

theorem seekReadFifo_sound (m : Mem) (p : Nat) (hp : p ≤ 64 * (2 ^ 32 - 1)) : (seekReadFifo m p).sound := by
  unfold seekReadFifo
  split
  · rename_i h
    have hw := (m.readWord (p / 64)).isLt
    have hnb : (BitVec.ofNat 7 (64 - p % 64)).toNat = 64 - p % 64 := by simp; omega
    refine ⟨⟨?_, ?_⟩, fun _ h0 => ?_⟩
    · simp only [hnb]
      omega
    · simp only [hnb]
      rw [BitVec.toNat_ofNat, Nat.mod_eq_of_lt (lt_of_le_of_lt (Nat.div_le_self _ _) hw),
        Nat.div_lt_iff_lt_mul (by positivity), ← Nat.pow_add, show 64 - p % 64 + p % 64 = 64 by omega]
      exact hw
    · have := congrArg BitVec.toNat h0
      simp at this
      omega
  · exact Fifo.sound_of_empty ..

/-- A writer that holds the bits of `v` below `k`. -/
theorem writer_sound (p : BitVec 32) (v k : Nat) (hk : k < 64) :
    (⟨.wr, p, BitVec.ofNat 64 (v % 2 ^ k), BitVec.ofNat 7 k⟩ : Fifo).sound := by
  have hnb : (BitVec.ofNat 7 k).toNat = k := by simp; omega
  refine ⟨⟨by simp only [hnb]; exact hk, ?_⟩, fun hd => by cases hd⟩
  simp only [hnb, BitVec.toNat_ofNat]
  exact lt_of_le_of_lt (Nat.mod_le _ _) (Nat.mod_lt _ (by positivity))

theorem seekWriteFifo_sound (m : Mem) (p : Nat) : (seekWriteFifo m p).sound := by
  unfold seekWriteFifo
  split
  · exact writer_sound _ _ _ (Nat.mod_lt _ (by omega))
  · exact Fifo.sound_of_empty ..

/-- Every command keeps the bitstream unit sound (10_state R32). -/
theorem exec_sound {i : Instr} {s t : State} (h : s.fifo.sound) (he : exec i s = .next t) : t.fifo.sound := by
  have writes (hd : s.fifo.dir = .wr) : s.writing := ⟨hd, h.1⟩
  have reads (hd : s.fifo.dir = .rd) : s.reading := ⟨hd, h⟩
  have bits (v : Word) (k : Nat) (hk : k ≤ 64) : (writeBits v k s).state.fifo.sound := by
    by_cases hd : s.fifo.dir = .wr
    · exact (writeBits_writing v k hk s (writes hd)).sound
    · rw [writeBits_dirErr v k s hd]
      exact h
  have fetches (k : Nat) (hk : k ≤ 64) : (storeRes (readBits k s)).state.fifo.sound := by
    by_cases hd : s.fifo.dir = .rd
    · exact State.reading.sound
        (Run.state_bind State.reading (readBits_reading k hk s (reads hd)) fun _ _ ht => by exact ht)
    · rw [readBits_dirErr k s hd]
      exact h
  have still (hi : i ≠ .srst) (hf : writesFifo i = false) : t.fifo.sound := by
    obtain ⟨u, hu, ht⟩ := exec_next_within hi he
    have : t.fifo = s.fifo := by
      obtain rfl | ⟨f, info, rfl⟩ := ht <;> exact hu.fifo hf
    rw [this]
    exact h
  cases i with
  | srst =>
    cases he
    exact Fifo.sound_of_empty ..
  | wbits k =>
    simp only [exec, execWbits] at he
    split at he
    · cases he
      exact h
    · cases he
      exact bits _ _ (by omega)
  | wbit =>
    cases he
    exact bits _ 1 (by omega)
  | rbits k =>
    simp only [exec, execRbits] at he
    split at he
    · cases he
      exact h
    · cases he
      exact fetches _ (by omega)
  | rbit =>
    cases he
    exact fetches 1 (by omega)
  | flush =>
    simp only [exec, execFlush] at he
    split at he
    · cases he
      unfold flushWr
      split
      · exact h
      · split
        · exact h
        · exact Fifo.sound_of_empty ..
    · cases he
      exact Fifo.sound_of_empty ..
  | seekr =>
    simp only [exec, execSeekr] at he
    split at he
    · cases he
      exact h
    · cases he
      have hcap : s.capBits = 64 * s.cfg.capw.toNat := rfl
      have := s.cfg.capw.isLt
      exact seekReadFifo_sound _ _ (by omega)
  | seekw =>
    simp only [exec, execSeekw] at he
    split at he
    · cases he
      exact h
    · split at he
      · rename_i hroll
        cases he
        have hd : s.fifo.dir = .wr := by
          simp only [State.rollsBack, Bool.and_eq_true, decide_eq_true_eq] at hroll
          exact hroll.1.1
        have := writer_sound s.fifo.ptr s.fifo.buf.toNat (s.cfg.arg.toNat % 64) (Nat.mod_lt _ (by omega))
        rwa [← hd] at this
      · cases he
        exact seekWriteFifo_sound ..
  | encpl =>
    cases he
    split
    · exact h
    · rename_i hd
      exact (encodePlanes_writing s (writes (not_not.1 hd))).sound
  | decpl =>
    cases he
    split
    · exact h
    · rename_i hd
      exact (decodePlanes_reading s (reads (not_not.1 hd))).sound
  | encblk =>
    simp only [exec, execEncblk] at he
    split at he
    · cases he
      exact h
    · rename_i hd
      split at he
      · cases he
        exact h
      · split at he
        · cases he
          exact (encodeBlock_writing s (writes (not_not.1 hd))).sound
        · cases he
          exact h
  | decblk =>
    simp only [exec, execDecblk] at he
    split at he
    · cases he
      exact h
    · rename_i hd
      split at he
      · cases he
        exact h
      · cases he
        exact (decodeBlock_reading s (reads (not_not.1 hd))).sound
  | nop | tell | fwdxf | invxf | expb | fscale | iscale | prec | padblk | b2c | c2b =>
    exact still (by decide) rfl

/-! ### The invariant -/

theorem State.inv_iff (s : State) : s.Inv ↔ s.fifo.sound ∧ s.mem.wf = true ∧ s.flt.causeOk := by
  simp only [State.Inv, Fifo.sound, and_assoc]

/-- A fault recorded leaves a `CAUSE` in range that is set (60_exceptions R180, R183). -/
theorem raise_causeOk (s : State) (f : HwFault) (info : Word) : (s.raise f info).flt.causeOk := by
  have hcode : (BitVec.ofNat 8 (f.bit + 1)).toNat ≤ 5 ∧ BitVec.ofNat 8 (f.bit + 1) ≠ 0 := by cases f <;> decide
  exact ⟨hcode.1, fun _ => hcode.2⟩

theorem reset_causeOk : FaultRec.reset.causeOk := ⟨by decide, fun hn => absurd rfl hn⟩

theorem State.Inv.raise {s : State} (h : s.Inv) (f : HwFault) (info : Word) : (s.raise f info).Inv := by
  obtain ⟨hb, hr, hm, -⟩ := h
  exact ⟨hb, hr, hm, raise_causeOk s f info⟩

/-- Every command keeps the invariant. -/
theorem exec_inv {i : Instr} {s t : State} (h : s.Inv) (he : exec i s = .next t) : t.Inv := by
  obtain ⟨hs, hm, hf⟩ := s.inv_iff.1 h
  by_cases hi : i = .srst
  · subst hi
    cases he
    exact (State.inv_iff _).2 ⟨Fifo.sound_of_empty .., hm, reset_causeOk⟩
  · refine t.inv_iff.2 ⟨exec_sound hs he, ?_⟩
    obtain ⟨u, hu, rfl | ⟨f, info, rfl⟩⟩ := exec_next_within hi he
    · exact ⟨hu.wf hm, hu.flt ▸ hf⟩
    · exact ⟨hu.wf hm, raise_causeOk u f info⟩

theorem runCommand_inv {c : CmdWord} {s t : State} (h : s.Inv) (he : runCommand c s = .next t) : t.Inv := by
  unfold runCommand at he
  split at he
  · exact exec_inv h he
  · cases he
    exact h.raise ..

/-- Flags cleared by the host leave `CAUSE` as it was (10_state R28). -/
theorem State.Inv.clearFlags {s : State} (h : s.Inv) (v : Word) : (s.clearFlags v).Inv := by
  obtain ⟨hb, hr, hm, hc, hf⟩ := h
  refine ⟨hb, hr, hm, hc, fun hn => hf fun h0 => hn ?_⟩
  simp [State.clearFlags, h0]

/-- A host write to a register keeps the invariant: only `STATUS` and `CMD` reach what it speaks of. -/
theorem writeReg_inv {r : RegName} {v : Word} {s t : State} (h : s.Inv) (he : writeReg r v s = .next t) : t.Inv := by
  cases r with
  | status =>
    cases he
    exact h.clearFlags v
  | cmd => exact runCommand_inv h he
  | _ =>
    cases he
    exact h

theorem performAccess_inv {a : HostAccess} {s t : State} (h : s.Inv) (he : performAccess a s = .next t) : t.Inv := by
  cases a with
  | regRead off bytes =>
    simp only [performAccess] at he
    split at he
    · cases he
      exact h
    · cases he
  | regWrite off bytes v =>
    simp only [performAccess] at he
    split at he
    · exact writeReg_inv h he
    · cases he
  | memRead addr bytes =>
    simp only [performAccess] at he
    split at he
    · cases he
    · split at he
      · cases he
        exact h
      · cases he
  | memWrite addr bytes v =>
    simp only [performAccess] at he
    obtain ⟨hb, hr, hm, hf⟩ := h
    split at he
    · cases he
    · split at he
      · cases he
        exact ⟨hb, hr, Mem.wf_writeBytes _ _ _ _ hm, hf⟩
      · cases he
  | reset =>
    cases he
    obtain ⟨-, -, hm, -⟩ := h
    exact (State.inv_iff _).2 ⟨Fifo.sound_of_empty .., hm, reset_causeOk⟩

end Sys2Proof.Machine

namespace Sys2Proof.Proofs

open Sys2Proof Sys2Proof.Machine Sys2Proof.Claims

/-- Settles O59: the unit holds no bits, `MEM` lists none, and no fault is recorded. -/
theorem resetIsSound : Obligations.ResetIsSound :=
  (State.inv_iff _).2 ⟨Fifo.sound_of_empty .., reset_mem_wf, reset_causeOk⟩

/-- Settles O60: an idle step changes nothing, and every host access, among them those that execute a command, keeps
the invariant. -/
theorem everyStepKeepsTheInvariant : Obligations.EveryStepKeepsTheInvariant := by
  intro s t h hstep
  unfold step nextAccess at hstep
  split at hstep
  · cases hstep
    exact h
  · rename_i a rest _
    exact performAccess_inv (s := s.setHostq rest) h hstep

end Sys2Proof.Proofs
end

section
/-! PROOFS, family 10_state: the register space (10_state R28, R31, R34 to R36) and the values reset leaves (R38,
R39). -/

namespace Sys2Proof.Machine

open Sys2Proof Sys2Proof.Claims

/-! ### The register map -/

theorem regAt_unmapped (off : Nat) (h : 0x098 ≤ off) (h' : off < 0x800) : regAt off = .unmapped := by
  unfold regAt
  repeat rw [if_neg (by omega)]
  rw [if_pos h']

theorem regAt_blk (i : Nat) (h : i < 256) : regAt (0x800 + 8 * i) = .blk i := by
  unfold regAt
  repeat rw [if_neg (by omega)]
  rw [if_pos (by omega), show (0x800 + 8 * i - 0x800) / 8 = i by omega]

theorem regAt_coef (j : Nat) : regAt (0x1000 + 8 * j) = .coef j := by
  unfold regAt
  repeat rw [if_neg (by omega)]
  rw [show (0x1000 + 8 * j - 0x1000) / 8 = j by omega]

/-- The offset of each register; for what is unmapped, the first of its offsets. -/
def RegName.offset : RegName → Nat
  | .ctrl => 0x000
  | .minbits => 0x008
  | .maxbits => 0x010
  | .maxprec => 0x018
  | .minexp => 0x020
  | .extent => 0x028
  | .capw => 0x030
  | .arg => 0x038
  | .res => 0x040
  | .bits => 0x048
  | .expf => 0x050
  | .preceff => 0x058
  | .status => 0x060
  | .cause => 0x068
  | .finfo => 0x070
  | .cmd => 0x078
  | .bsptr => 0x080
  | .bsbuf => 0x088
  | .bsnb => 0x090
  | .blk i => 0x800 + 8 * i
  | .coef j => 0x1000 + 8 * j
  | .unmapped => 0x098

/-- A register of a file is one of the 256 (10_state R11, R15). -/
def RegName.indexOk : RegName → Bool
  | .blk i => i < 256
  | .coef j => j < 256
  | _ => true

/-- What stands at an offset of the space: nothing, or a register whose place this is. -/
theorem regAt_cases (off : Nat) (h : inSpace off) :
    regAt off = .unmapped ∧ 0x098 ≤ off ∧ off < 0x800 ∨ off = (regAt off).offset ∧ (regAt off).indexOk = true := by
  obtain ⟨h8, hlt⟩ := h
  by_cases hlow : off < 0x098
  · have low : ∀ k < 19, 8 * k = (regAt (8 * k)).offset ∧ (regAt (8 * k)).indexOk = true := by decide
    have := low (off / 8) (by omega)
    rw [show 8 * (off / 8) = off by omega] at this
    exact .inr this
  · by_cases h1 : off < 0x800
    · exact .inl ⟨regAt_unmapped off (by omega) h1, by omega, h1⟩
    · right
      by_cases h2 : off < 0x1000
      · obtain ⟨i, rfl⟩ : ∃ i, off = 0x800 + 8 * i := ⟨(off - 0x800) / 8, by omega⟩
        rw [regAt_blk i (by omega)]
        exact ⟨rfl, decide_eq_true (by omega)⟩
      · obtain ⟨j, rfl⟩ : ∃ j, off = 0x1000 + 8 * j := ⟨(off - 0x1000) / 8, by omega⟩
        rw [regAt_coef j]
        exact ⟨rfl, decide_eq_true (by omega)⟩

/-- No two offsets of the space name one register. -/
theorem regAt_inj {off off' : Nat} (h : inSpace off) (h' : inSpace off') (e : regAt off = regAt off')
    (hu : regAt off ≠ .unmapped) : off = off' := by
  obtain ⟨hn, -⟩ | ⟨ho, -⟩ := regAt_cases off h
  · exact absurd hn hu
  · obtain ⟨hn, -⟩ | ⟨ho', -⟩ := regAt_cases off' h'
    · exact absurd (e.trans hn) hu
    · rw [ho, ho', e]

theorem regAccessOk_iff (off bytes : Nat) : regAccessOk off bytes = true ↔ bytes = 8 ∧ inSpace off := by
  simp only [regAccessOk, inSpace, Bool.and_eq_true, decide_eq_true_eq, and_assoc]

/-! ### Bits of registers -/

/-- Two fields side by side, read bit by bit. -/
theorem testBit_add_mul (a n k b : Nat) (h : a < 2 ^ n) :
    (a + 2 ^ n * b).testBit k = if k < n then a.testBit k else b.testBit (k - n) := by
  rw [Nat.add_comm, Nat.testBit_two_pow_mul_add _ h]

theorem testBit_beyond {a n k : Nat} (h : a < 2 ^ n) (hk : n ≤ k) : a.testBit k = false :=
  Nat.testBit_lt_two_pow (lt_of_lt_of_le h (Nat.pow_le_pow_right (by omega) hk))

/-- The fields of `EXTENT` (10_state R21). -/
theorem Cfg.extentWord_getLsbD (c : Cfg) (k : Nat) :
    c.extentWord.getLsbD k = if k < 4 then c.n0.getLsbD k else if k < 8 then c.n1.getLsbD (k - 4)
      else if k < 12 then c.n2.getLsbD (k - 8) else c.n3.getLsbD (k - 12) := by
  have h0 := c.n0.isLt
  have h1 := c.n1.isLt
  have h2 := c.n2.isLt
  have h3 := c.n3.isLt
  have e : c.n0.toNat + 2 ^ 4 * c.n1.toNat + 2 ^ 8 * c.n2.toNat + 2 ^ 12 * c.n3.toNat =
      c.n0.toNat + 2 ^ 4 * (c.n1.toNat + 2 ^ 4 * (c.n2.toNat + 2 ^ 4 * c.n3.toNat)) := by omega
  rw [Cfg.extentWord, BitVec.getLsbD_ofNat, e, testBit_add_mul _ _ _ _ (by omega), testBit_add_mul _ _ _ _ (by omega),
    testBit_add_mul _ _ _ _ (by omega), Nat.sub_sub, Nat.sub_sub]
  simp only [BitVec.getLsbD, show (k - 4 < 4) = (k < 8) by simp; omega,
    show (k - (4 + 4) < 4) = (k < 12) by simp; omega]
  by_cases hk : k < 64
  · simp [hk]
  · have : c.n3.toNat.testBit (k - 12) = false := testBit_beyond h3 (by omega)
    rw [if_neg (by omega), if_neg (by omega), if_neg (by omega), this, Bool.and_false]

/-- Field `b` of `EXTENT`, read back. -/
theorem Cfg.extentWord_field (c : Cfg) (b : Nat) (x : BitVec 3)
    (h : ∀ i < 3, c.extentWord.getLsbD (b + i) = x.getLsbD i) : c.extentWord.extractLsb' b 3 = x := by
  apply BitVec.eq_of_getLsbD_eq
  intro i hi
  rw [BitVec.getLsbD_extractLsb', h i hi]
  simp [hi]

/-- The bits of `EXTENT` outside its fields read as zero (10_state R21). -/
theorem Cfg.extentWord_unused (c : Cfg) (k : Nat) (h : ¬ (k < 16 ∧ k % 4 < 3)) : c.extentWord.getLsbD k = false := by
  rw [Cfg.extentWord_getLsbD]
  split
  · exact BitVec.getLsbD_of_ge _ _ (by omega)
  · split
    · exact BitVec.getLsbD_of_ge _ _ (by omega)
    · split <;> exact BitVec.getLsbD_of_ge _ _ (by omega)

/-! ### Host writes -/

/-- The bits of each register that a host write stores (10_state R34). -/
def RegName.stored : RegName → Word
  | .ctrl => 0xF
  | .minbits | .maxbits | .minexp => 0xFFFF
  | .maxprec | .preceff => 0x7F
  | .extent => 0x7777
  | .capw | .bits => 0xFFFFFFFF
  | .expf => 0x7FF
  | .arg | .blk _ | .coef _ => 0xFFFFFFFFFFFFFFFF
  | .res | .status | .cause | .finfo | .cmd | .bsptr | .bsbuf | .bsnb | .unmapped => 0

theorem storedBits_eq (off : Nat) (h : inSpace off) : storedBits off = (regAt off).stored := by
  have high (hx : 0x098 ≤ off) : storedBits off = if off < 0x800 then 0 else 0xFFFFFFFFFFFFFFFF := by
    unfold storedBits
    repeat rw [if_neg (by omega)]
  obtain ⟨hr, hlo, hhi⟩ | ⟨ho, -⟩ := regAt_cases off h
  · rw [hr, high hlo, if_pos hhi]
    rfl
  · generalize regAt off = r at ho
    subst ho
    cases r with
    | blk i =>
      rw [RegName.offset] at high ⊢
      rw [high (by omega), if_neg (by omega), RegName.stored]
    | coef j =>
      rw [RegName.offset] at high ⊢
      rw [high (by omega), if_neg (by omega), RegName.stored]
    | _ => rfl

/-- The used bits of a register of `w` bits are stored, the others read as zero. -/
theorem setWidth_stored {w : Nat} (v : Word) (x : BitVec w) (m : Word) (hm : m = (BitVec.allOnes w).setWidth 64) :
    (v.setWidth w).setWidth 64 = v &&& m ||| x.setWidth 64 &&& ~~~m := by
  subst hm
  apply BitVec.eq_of_getLsbD_eq
  intro k hk
  by_cases hkw : k < w
  · simp [hkw, hk]
  · simp [hkw, hk, BitVec.getLsbD_of_ge x k (by omega)]

/-- A register of 64 used bits takes the value. -/
theorem full_stored (v x : Word) : v = v &&& 0xFFFFFFFFFFFFFFFF ||| x &&& ~~~0xFFFFFFFFFFFFFFFF := by
  simpa using setWidth_stored v x 0xFFFFFFFFFFFFFFFF (by decide)

/-- A register without writable bits keeps its value. -/
theorem none_stored (v x : Word) : x = v &&& 0 ||| x &&& ~~~0 := by
  change x = v &&& 0#64 ||| x &&& ~~~0#64
  rw [BitVec.and_zero, BitVec.zero_or, show ~~~0#64 = BitVec.allOnes 64 by decide, BitVec.and_allOnes]

theorem extentMask_getLsbD (k : Nat) : (0x7777 : Word).getLsbD k = (decide (k < 16) && decide (k % 4 < 3)) := by
  by_cases hk : k < 16
  · have low : ∀ k < 16, (0x7777 : Word).getLsbD k = (decide (k < 16) && decide (k % 4 < 3)) := by decide
    exact low k hk
  · rw [decide_eq_false hk, Bool.false_and]
    exact testBit_beyond (by decide : 0x7777 < 2 ^ 16) (by omega)

/-- Bit `k` of a field of three bits at bit `b`, stored where the mask `m` is set. -/
theorem field_stored (v : Word) (x : BitVec 3) (k b : Nat) (m : Bool) (hb : b ≤ k) (hm : m = decide (k - b < 3)) :
    (decide (k - b < 3) && v.getLsbD (b + (k - b))) = (v.getLsbD k && m || x.getLsbD (k - b) && !m) := by
  rw [show b + (k - b) = k by omega, hm]
  by_cases h : k - b < 3
  · simp [h]
  · simp [h, BitVec.getLsbD_of_ge x (k - b) (by omega)]

/-- The fields of `EXTENT` take their bits of the value written (10_state R21, R35). -/
theorem extent_stored (c : Cfg) (v : Word) :
    Cfg.extentWord { c with
      n0 := v.extractLsb' 0 3, n1 := v.extractLsb' 4 3, n2 := v.extractLsb' 8 3, n3 := v.extractLsb' 12 3 } =
      v &&& 0x7777 ||| c.extentWord &&& ~~~0x7777 := by
  apply BitVec.eq_of_getLsbD_eq
  intro k hk
  simp only [BitVec.getLsbD_or, BitVec.getLsbD_and, BitVec.getLsbD_not, extentMask_getLsbD, Cfg.extentWord_getLsbD,
    BitVec.getLsbD_extractLsb', hk, decide_true, Bool.true_and]
  have used (b : Nat) (hm : k < 16 ∧ k % 4 < 3 ↔ k - b < 3) :
      (decide (k < 16) && decide (k % 4 < 3)) = decide (k - b < 3) := by
    rw [← Bool.decide_and]
    exact decide_eq_decide.2 hm
  split
  · exact field_stored v c.n0 k 0 _ (by omega) (used 0 (by omega))
  · split
    · exact field_stored v c.n1 k 4 _ (by omega) (used 4 (by omega))
    · split
      · exact field_stored v c.n2 k 8 _ (by omega) (used 8 (by omega))
      · exact field_stored v c.n3 k 12 _ (by omega) (used 12 (by omega))

/-- A host write to a register that is neither `STATUS` nor `CMD` stores the used bits there (10_state R35). -/
theorem writeReg_same (r : RegName) (v : Word) (s : State) (hs : r ≠ .status) (hc : r ≠ .cmd)
    (hi : r.indexOk = true) :
    ∃ t, writeReg r v s = .next t ∧ t.readReg r = v &&& r.stored ||| s.readReg r &&& ~~~r.stored := by
  cases r with
  | status => exact absurd rfl hs
  | cmd => exact absurd rfl hc
  | ctrl => exact ⟨_, rfl, setWidth_stored v s.cfg.ctrl _ (by decide)⟩
  | minbits => exact ⟨_, rfl, setWidth_stored v s.cfg.minbits _ (by decide)⟩
  | maxbits => exact ⟨_, rfl, setWidth_stored v s.cfg.maxbits _ (by decide)⟩
  | maxprec => exact ⟨_, rfl, setWidth_stored v s.cfg.maxprec _ (by decide)⟩
  | minexp => exact ⟨_, rfl, setWidth_stored v s.cfg.minexp _ (by decide)⟩
  | capw => exact ⟨_, rfl, setWidth_stored v s.cfg.capw _ (by decide)⟩
  | bits => exact ⟨_, rfl, setWidth_stored v s.bits _ (by decide)⟩
  | expf => exact ⟨_, rfl, setWidth_stored v s.expf _ (by decide)⟩
  | preceff => exact ⟨_, rfl, setWidth_stored v s.preceff _ (by decide)⟩
  | extent => exact ⟨_, rfl, extent_stored s.cfg v⟩
  | arg => exact ⟨_, rfl, full_stored v s.cfg.arg⟩
  | blk i =>
    have hset : (s.blk.set i v).get i = v := (RegFile.get_set _ i i v (of_decide_eq_true hi)).trans (if_pos rfl)
    exact ⟨_, rfl, hset.trans (full_stored v _)⟩
  | coef j =>
    have hset : (s.coef.set j v).get j = v := (RegFile.get_set _ j j v (of_decide_eq_true hi)).trans (if_pos rfl)
    exact ⟨_, rfl, hset.trans (full_stored v _)⟩
  | res | cause | finfo | bsptr | bsbuf | bsnb | unmapped => exact ⟨_, rfl, none_stored v _⟩

/-- Every other register reads as before, but `STATUS`, whose field `POLICY` is derived (10_state R35, R36). -/
theorem writeReg_ne {r r' : RegName} {v : Word} {s t : State} (h : writeReg r v s = .next t) (hs : r ≠ .status)
    (hc : r ≠ .cmd) (hi : r.indexOk = true) (hne : r' ≠ r) (hs' : r' ≠ .status) : t.readReg r' = s.readReg r' := by
  cases r with
  | status => exact absurd rfl hs
  | cmd => exact absurd rfl hc
  | blk i =>
    cases h
    cases r' with
    | blk k => exact (RegFile.get_set _ _ _ _ (of_decide_eq_true hi)).trans (if_neg fun e => hne (congrArg _ e))
    | status => exact absurd rfl hs'
    | _ => rfl
  | coef i =>
    cases h
    cases r' with
    | coef k => exact (RegFile.get_set _ _ _ _ (of_decide_eq_true hi)).trans (if_neg fun e => hne (congrArg _ e))
    | status => exact absurd rfl hs'
    | _ => rfl
  | res | cause | finfo | bsptr | bsbuf | bsnb | unmapped =>
    cases h
    rfl
  | _ =>
    cases h
    cases r' <;> simp_all [State.readReg, Cfg.extentWord]

/-- A host write to a register that is neither `STATUS` nor `CMD` reaches nothing outside its registers. -/
theorem writeReg_frame {r : RegName} {v : Word} {s t : State} (h : writeReg r v s = .next t) (hs : r ≠ .status)
    (hc : r ≠ .cmd) : t.flt = s.flt ∧ t.fifo = s.fifo ∧ t.mem = s.mem ∧ t.hostq = s.hostq ∧ t.rdata = s.rdata := by
  cases r with
  | status => exact absurd rfl hs
  | cmd => exact absurd rfl hc
  | _ =>
    cases h
    exact ⟨rfl, rfl, rfl, rfl, rfl⟩

/-! ### `STATUS` -/

theorem State.policy_lt (s : State) : s.policy < 4 := by
  unfold State.policy
  split
  · omega
  · split
    · omega
    · split <;> omega

/-- `POLICY` as a field of two bits (10_state R36). -/
theorem State.policy_eq (s : State) : BitVec.ofNat 2 s.policy =
    if s.cfg.minexp.toInt = -32768 then 3 else if s.cfg.minexp.toInt > -32767 then 2
      else if s.cfg.maxprec.toNat < s.width then 1 else 0 := by
  rw [State.policy, apply_ite (BitVec.ofNat 2), apply_ite (BitVec.ofNat 2), apply_ite (BitVec.ofNat 2)]
  rfl

/-- `STATUS` bit by bit (10_state R28). -/
theorem State.status_getLsbD (s : State) (k : Nat) :
    s.status.getLsbD k = if k < 8 then s.flt.flags.getLsbD k else if k < 16 then s.policy.testBit (k - 8)
      else decide (k = 16 ∧ s.fifo.dir = .rd) := by
  have hf := s.flt.flags.isLt
  have hp := s.policy_lt
  have e : s.flt.flags.toNat + 2 ^ 8 * s.policy + 2 ^ 16 * s.fifo.dir.bit =
      s.flt.flags.toNat + 2 ^ 8 * (s.policy + 2 ^ 8 * s.fifo.dir.bit) := by omega
  have hd : s.fifo.dir.bit.testBit (k - 16) = decide (k - 16 = 0 ∧ s.fifo.dir = .rd) := by
    cases s.fifo.dir
    · simp [Dir.bit]
    · cases k - 16 <;> simp [Dir.bit, Nat.testBit_succ]
      
  rw [State.status, BitVec.getLsbD_ofNat, e, testBit_add_mul _ _ _ _ (by omega), testBit_add_mul _ _ _ _ (by omega),
    Nat.sub_sub, hd, BitVec.getLsbD]
  simp only [show (k - 8 < 8) = (k < 16) by simp; omega]
  by_cases hk : k < 64
  · by_cases h1 : k < 8
    · simp [hk, h1]
    · by_cases h2 : k < 16
      · simp [hk, h1, h2]
      · simp [hk, h1, h2, show k - 16 = 0 ↔ k = 16 by omega]
  · rw [decide_eq_false hk, Bool.false_and, if_neg (by omega), if_neg (by omega)]
    exact (decide_eq_false (by omega)).symm

end Sys2Proof.Machine

namespace Sys2Proof.Proofs

open Sys2Proof Sys2Proof.Machine Sys2Proof.Claims

/-- Settles O5: the oldest access is a register access at the offset of `CMD`, so it runs the low half of `v`. -/
theorem stepRunsTheDecodedCommand : Obligations.StepRunsTheDecodedCommand := by
  intro s rest v
  refine ⟨fun h => ?_, fun h => ?_⟩
  · have hstep : step s = runCommand (v.setWidth 32) (s.setHostq rest) := by
      rw [step, nextAccess, h]
      rfl
    rw [hstep, runCommand]
    exact ⟨fun i hi => by rw [hi], fun e he => by rw [he]⟩
  · rw [step, nextAccess, h]
    rfl

/-- Settles O7: register by register; the fields of `EXTENT` are read back bit by bit. -/
theorem hostReadsFollowTheRegisterMap : Obligations.HostReadsFollowTheRegisterMap := by
  intro s
  refine ⟨fun off bytes hn => ?_, fun off h => ?_, rfl, rfl, rfl, rfl, rfl, ?_, ?_, ?_, ?_, ?_, rfl, rfl, rfl, rfl, rfl,
    rfl, rfl, rfl, rfl, rfl, rfl, rfl, fun k h h' => ?_, fun i hi => ?_, fun j _ => ?_⟩
  · have hok : ¬ regAccessOk off bytes = true := fun h => hn ((regAccessOk_iff off bytes).1 h)
    exact ⟨if_neg hok, fun v => if_neg hok⟩
  · exact if_pos ((regAccessOk_iff off 8).2 ⟨rfl, h⟩)
  · exact Cfg.extentWord_field s.cfg 0 _ fun i hi => by
      rw [Cfg.extentWord_getLsbD, if_pos (by omega), Nat.zero_add]
  · exact Cfg.extentWord_field s.cfg 4 _ fun i hi => by
      rw [Cfg.extentWord_getLsbD, if_neg (by omega), if_pos (by omega), Nat.add_sub_cancel_left]
  · exact Cfg.extentWord_field s.cfg 8 _ fun i hi => by
      rw [Cfg.extentWord_getLsbD, if_neg (by omega), if_neg (by omega), if_pos (by omega), Nat.add_sub_cancel_left]
  · exact Cfg.extentWord_field s.cfg 12 _ fun i hi => by
      rw [Cfg.extentWord_getLsbD, if_neg (by omega), if_neg (by omega), if_neg (by omega), Nat.add_sub_cancel_left]
  · change s.cfg.extentWord &&& ~~~0x7777 = 0
    apply BitVec.eq_of_getLsbD_eq
    intro k hk
    rw [BitVec.getLsbD_and, BitVec.getLsbD_not, extentMask_getLsbD, ← Bool.decide_and]
    by_cases h : k < 16 ∧ k % 4 < 3
    · simp [h]
    · simp [Cfg.extentWord_unused _ _ h]
  · rw [regAt_unmapped _ h h']
    rfl
  · rw [regAt_blk i hi]
    rfl
  · rw [regAt_coef j]
    rfl

/-- Settles O8: one lemma for the register written, one for every other, through the map of offsets. -/
theorem hostWritesStoreExactlyTheWritableBits : Obligations.HostWritesStoreExactlyTheWritableBits := by
  intro s off v h h60 h78
  have hs : ∀ {o}, inSpace o → o ≠ 0x060 → regAt o ≠ .status := fun ho hne e =>
    hne (regAt_inj ho (off' := 0x060) ⟨by decide, by decide⟩ e (by rw [e]; decide))
  have hc : regAt off ≠ .cmd := fun e =>
    h78 (regAt_inj h (off' := 0x078) ⟨by decide, by decide⟩ e (by rw [e]; decide))
  have hi : (regAt off).indexOk = true := by
    obtain ⟨hu, -⟩ | ⟨-, hi⟩ := regAt_cases off h
    · rw [hu]
      rfl
    · exact hi
  obtain ⟨t, ht, hsame⟩ := writeReg_same (regAt off) v s (hs h h60) hc hi
  refine ⟨t, (if_pos ((regAccessOk_iff off 8).2 ⟨rfl, h⟩)).trans ht, ?_, fun off' h' hne h60' => ?_,
    writeReg_frame ht (hs h h60) hc⟩
  · rw [storedBits_eq off h]
    exact hsame
  · by_cases hu : regAt off' = .unmapped
    · rw [hu]
      rfl
    · exact writeReg_ne ht (hs h h60) hc hi (fun e => hne (regAt_inj h' h e hu)) (hs h' h60')

/-- Settles O9, from `STATUS` bit by bit. -/
theorem statusReadsAndClears : Obligations.StatusReadsAndClears := by
  intro s v
  have read : s.readReg (regAt 0x060) = s.status := rfl
  rw [read]
  refine ⟨fun k hk => ?_, ?_, ?_, fun k h5 h8 h9 h16 => ?_, s.clearFlags v, rfl, rfl, fun k hk => ?_⟩
  · rw [State.status_getLsbD, if_pos (by omega)]
  · rw [← State.policy_eq]
    apply BitVec.eq_of_getLsbD_eq
    intro i hi
    rw [BitVec.getLsbD_extractLsb', State.status_getLsbD, if_neg (by omega), if_pos (by omega), BitVec.getLsbD_ofNat,
      Nat.add_sub_cancel_left]
  · rw [State.status_getLsbD]
    simp
  · rw [State.status_getLsbD]
    split
    · exact BitVec.getLsbD_of_ge _ _ h5
    · split
      · exact testBit_beyond (n := 2) s.policy_lt (by omega)
      · exact decide_eq_false fun h => h16 h.1
  · simp [State.clearFlags, hk]

/-- Settles O12: the table is of fields a reset input sets as power-on does. -/
theorem resetLeavesTheTabledValues : Obligations.ResetLeavesTheTabledValues := by
  have table : resetValues State.reset := by
    unfold resetValues
    decide
  exact ⟨table, fun s => ⟨s.hardReset, rfl, table⟩⟩

/-- Settles O13: `SRST` is a reset that keeps the two files, `MEM` and the host's side. -/
theorem softResetKeepsBlocksAndMemory : Obligations.SoftResetKeepsBlocksAndMemory := fun s =>
  ⟨s.softReset, rfl, rfl, rfl, rfl, rfl, rfl, rfl, rfl, rfl, rfl, rfl, rfl, rfl⟩

end Sys2Proof.Proofs
end

section
/-! PROOFS, family 10_state: the block commands share no state between calls (10_state R37). Two runs that agree on
the parameters, the stream, `BITS` and the fault record are followed piece by piece; which of the other registers agree
is kept in a list. -/

namespace Sys2Proof.Machine

open Sys2Proof Sys2Proof.Claims

/-! ### Two states that agree -/

/-- The registers of a block that two runs may have left different. -/
inductive BlockPart where
  | blk
  | coef
  | expf
  | preceff
  deriving DecidableEq

/-- Two states hold the same in a part: the first `n` registers of a file, or the register. -/
def BlockPart.same (n : Nat) (s s' : State) : BlockPart → Prop
  | .blk => ∀ i < n, s'.blk.get i = s.blk.get i
  | .coef => ∀ j < n, s'.coef.get j = s.coef.get j
  | .expf => s'.expf = s.expf
  | .preceff => s'.preceff = s.preceff

/-- Two states with the same parameters, bitstream unit, `MEM`, `BITS` and fault record, and the same block in the
given parts. -/
structure Alike (ps : List BlockPart) (s s' : State) : Prop where
  cfg : s'.cfg = s.cfg
  fifo : s'.fifo = s.fifo
  mem : s'.mem = s.mem
  bits : s'.bits = s.bits
  flt : s'.flt = s.flt
  parts : ∀ p ∈ ps, p.same s.size s s'

namespace Alike

variable {ps qs : List BlockPart} {s s' : State}

theorem mono (h : Alike ps s s') (hq : qs ⊆ ps) : Alike qs s s' :=
  { h with parts := fun p hp => h.parts p (hq hp) }

theorem ty (h : Alike ps s s') : s'.ty = s.ty := by rw [State.ty, h.cfg, State.ty]

theorem dim (h : Alike ps s s') : s'.dim = s.dim := by rw [State.dim, h.cfg, State.dim]

theorem size (h : Alike ps s s') : s'.size = s.size := by rw [State.size, h.dim, State.size]

theorem width (h : Alike ps s s') : s'.width = s.width := by rw [State.width, h.ty, State.width]

theorem capBits (h : Alike ps s s') : s'.capBits = s.capBits := by rw [State.capBits, h.cfg, State.capBits]

theorem pos (h : Alike ps s s') : s'.pos = s.pos := by rw [State.pos, h.fifo, State.pos]

/-! Updates both states make. -/

theorem setFifo (h : Alike ps s s') (f : Fifo) : Alike ps (s.setFifo f) (s'.setFifo f) :=
  { h with fifo := rfl, parts := fun p hp => by cases p <;> exact h.parts _ hp }

theorem setMem (h : Alike ps s s') (m : Mem) : Alike ps (s.setMem m) (s'.setMem m) :=
  { h with mem := rfl, parts := fun p hp => by cases p <;> exact h.parts _ hp }

theorem setBits (h : Alike ps s s') (v : BitVec 32) : Alike ps (s.setBits v) (s'.setBits v) :=
  { h with bits := rfl, parts := fun p hp => by cases p <;> exact h.parts _ hp }

theorem raise (h : Alike ps s s') (f : HwFault) (info : Word) : Alike ps (s.raise f info) (s'.raise f info) :=
  { h with
    flt := by rw [raise_flt, raise_flt, h.flt]
    parts := fun p hp => by cases p <;> exact h.parts _ hp }

theorem setExpf (h : Alike ps s s') (v : BitVec 11) : Alike (.expf :: ps) (s.setExpf v) (s'.setExpf v) :=
  { h with
    parts := fun p hp => by
      rcases List.mem_cons.1 hp with rfl | hp
      · exact rfl
      · cases p with
        | expf => exact rfl
        | _ => exact h.parts _ hp }

theorem setPreceff (h : Alike ps s s') (v : BitVec 7) : Alike (.preceff :: ps) (s.setPreceff v) (s'.setPreceff v) :=
  { h with
    parts := fun p hp => by
      rcases List.mem_cons.1 hp with rfl | hp
      · exact rfl
      · cases p with
        | preceff => exact rfl
        | _ => exact h.parts _ hp }

theorem putCoeffs (h : Alike ps s s') {N : Nat} (vs : List (BitVec N)) :
    Alike (.coef :: ps) (s.putCoeffs vs) (s'.putCoeffs vs) :=
  { h with
    parts := fun p hp => by
      have hcoef : BlockPart.same s.size (s.putCoeffs vs) (s'.putCoeffs vs) .coef := fun j hj => by
        rw [State.putCoeffs_get, State.putCoeffs_get, if_pos hj, if_pos (h.size ▸ hj)]
      rcases List.mem_cons.1 hp with rfl | hp
      · exact hcoef
      · cases p with
        | coef => exact hcoef
        | _ => exact h.parts _ hp }

theorem putSamples (h : Alike ps s s') {N : Nat} (vs : List (BitVec N)) :
    Alike (.blk :: ps) (s.putSamples vs) (s'.putSamples vs) :=
  { h with
    parts := fun p hp => by
      have hblk : BlockPart.same s.size (s.putSamples vs) (s'.putSamples vs) .blk := fun j hj => by
        rw [State.putSamples_get, State.putSamples_get, if_pos hj, if_pos (h.size ▸ hj)]
      rcases List.mem_cons.1 hp with rfl | hp
      · exact hblk
      · cases p with
        | blk => exact hblk
        | _ => exact h.parts _ hp }

theorem pushBits (h : Alike ps s s') (v : Word) (k : Nat) : Alike ps (s.pushBits v k) (s'.pushBits v k) := by
  unfold State.pushBits State.comb
  rw [h.fifo, h.mem]
  dsimp only
  split
  · exact (h.setMem _).setFifo _
  · exact h.setFifo _

theorem pullBits (h : Alike ps s s') (k : Nat) : Alike ps (s.pullBits k) (s'.pullBits k) := by
  unfold State.pullBits
  rw [h.fifo, h.mem]
  split <;> exact h.setFifo _

theorem pullValue (h : Alike ps s s') (k : Nat) : s'.pullValue k = s.pullValue k := by
  rw [State.pullValue, h.fifo, h.mem, State.pullValue]

end Alike

/-! ### Two runs that agree -/

/-- Two runs of a piece end alike: they go on with one value, agreeing in the parts `ps`, or both have recorded one
fault, agreeing in the parts `qs`. -/
def RunAlike {α : Type} (ps qs : List BlockPart) (r r' : Run α) : Prop :=
  (∃ a t t', r = .ok a t ∧ r' = .ok a t' ∧ Alike ps t t') ∨
    ∃ t t', r = .raised t ∧ r' = .raised t' ∧ Alike qs t t' ∧ t.flt.flags ≠ 0

/-- A fault recorded leaves a flag set (60_exceptions R183). -/
theorem raise_flags_ne_zero (s : State) (f : HwFault) (info : Word) : (s.raise f info).flt.flags ≠ 0 := by
  rw [raise_flt]
  intro h
  have := congrArg (fun x => x.getLsbD f.bit) h
  cases f <;> simp [HwFault.bit] at this

namespace RunAlike

variable {α β : Type} {ps qs ps' qs' : List BlockPart} {s s' : State}

theorem ok (h : Alike ps s s') (a : α) : RunAlike ps qs (.ok a s) (.ok a s') := .inl ⟨a, s, s', rfl, rfl, h⟩

theorem raised (h : Alike qs s s') (f : HwFault) (info : Word) :
    RunAlike (α := α) ps qs (.raised (s.raise f info)) (.raised (s'.raise f info)) :=
  .inr ⟨_, _, rfl, rfl, h.raise f info, raise_flags_ne_zero s f info⟩

theorem mono {r r' : Run α} (h : RunAlike ps qs r r') (hp : ps' ⊆ ps) (hq : qs' ⊆ qs) : RunAlike ps' qs' r r' := by
  obtain ⟨a, t, t', e, e', ht⟩ | ⟨t, t', e, e', ht, hf⟩ := h
  · exact .inl ⟨a, t, t', e, e', ht.mono hp⟩
  · exact .inr ⟨t, t', e, e', ht.mono hq, hf⟩

theorem bind {r r' : Run α} {f f' : α → State → Run β} (h : RunAlike ps qs r r')
    (g : ∀ a t t', Alike ps t t' → RunAlike ps' qs (f a t) (f' a t')) : RunAlike ps' qs (r.bind f) (r'.bind f') := by
  obtain ⟨a, t, t', rfl, rfl, ht⟩ | ⟨t, t', rfl, rfl, ht⟩ := h
  · exact g a t t' ht
  · exact .inr ⟨t, t', rfl, rfl, ht⟩

end RunAlike

/-! ### The stream does not see the registers of a block -/

section

variable {ps : List BlockPart} {s s' : State}

theorem writeBits_alike (h : Alike ps s s') (v : Word) (k : Nat) :
    RunAlike ps ps (writeBits v k s) (writeBits v k s') := by
  unfold writeBits
  rw [h.fifo, h.capBits, h.pos]
  split
  · exact .raised h ..
  · split
    · exact .raised h ..
    · exact .ok (h.pushBits v k) ()

theorem writeCounted_alike (h : Alike ps s s') (b : Bool) : RunAlike ps ps (writeCounted b s) (writeCounted b s') :=
  (writeBits_alike h _ 1).bind fun _ t t' ht => by
    rw [ht.bits]
    exact .ok (ht.setBits _) ()

theorem writeHeader_alike (h : Alike ps s s') (E : Nat) : RunAlike ps ps (writeHeader E s) (writeHeader E s') := by
  unfold writeHeader
  rw [h.ty]
  refine (writeBits_alike h _ _).bind fun _ t t' ht => ?_
  rw [ht.bits]
  exact .ok (ht.setBits _) ()

theorem emitAll_alike (bs : List Bool) {s s' : State} (h : Alike ps s s') :
    RunAlike ps ps (emitAll bs s).toRun (emitAll bs s').toRun := by
  induction bs generalizing s s' with
  | nil => exact .ok h ()
  | cons b bs ih =>
    unfold emitAll
    rw [h.cfg, h.bits]
    split
    · exact .ok h ()
    · obtain ⟨a, t, t', e, e', ht⟩ | ⟨t, t', e, e', ht⟩ := writeCounted_alike h b
      · rw [e, e']
        exact ih ht
      · rw [e, e']
        exact .inr ⟨t, t', rfl, rfl, ht⟩

theorem padStream_alike (fuel : Nat) {s s' : State} (h : Alike ps s s') :
    RunAlike ps ps (padStream fuel s) (padStream fuel s') := by
  induction fuel generalizing s s' with
  | zero => exact .ok h ()
  | succ fuel ih =>
    unfold padStream
    rw [h.cfg, h.bits]
    split
    · exact (writeCounted_alike h false).bind fun _ t t' ht => ih ht
    · exact .ok h ()

theorem readBits_alike (h : Alike ps s s') (k : Nat) : RunAlike ps ps (readBits k s) (readBits k s') := by
  unfold readBits
  rw [h.fifo, h.capBits, h.pos, h.pullValue]
  split
  · exact .raised h ..
  · split
    · exact .raised h ..
    · exact .ok (h.pullBits k) _

theorem readCounted_alike (h : Alike ps s s') : RunAlike ps ps (readCounted s) (readCounted s') :=
  (readBits_alike h 1).bind fun _ t t' ht => by
    rw [ht.bits]
    exact .ok (ht.setBits _) _

theorem readHeader_alike (h : Alike ps s s') : RunAlike ps ps (readHeader s) (readHeader s') := by
  unfold readHeader
  rw [h.ty]
  refine (readBits_alike h _).bind fun _ t t' ht => ?_
  rw [ht.bits]
  exact .ok (ht.setBits _) _

theorem skipStream_alike (fuel : Nat) {s s' : State} (h : Alike ps s s') :
    RunAlike ps ps (skipStream fuel s) (skipStream fuel s') := by
  induction fuel generalizing s s' with
  | zero => exact .ok h ()
  | succ fuel ih =>
    unfold skipStream
    rw [h.cfg, h.bits]
    split
    · exact (readCounted_alike h).bind fun _ t t' ht => ih ht
    · exact .ok h ()

/-! The decoder's traversal. -/

/-- Two runs of a piece of the decoder's traversal end alike (44_bitplane_coder R144). -/
def FlowAlike {α : Type} (ps : List BlockPart) (r r' : Flow α) : Prop :=
  (∃ a t t', r = .go a t ∧ r' = .go a t' ∧ Alike ps t t') ∨
  (∃ a t t', r = .stop a t ∧ r' = .stop a t' ∧ Alike ps t t') ∨
    ∃ t t', r = .raised t ∧ r' = .raised t' ∧ Alike ps t t' ∧ t.flt.flags ≠ 0

theorem FlowAlike.andThen {α : Type} {r r' : Flow α} {f : α → State → Flow α} (h : FlowAlike ps r r')
    (g : ∀ a t t', Alike ps t t' → FlowAlike ps (f a t) (f a t')) : FlowAlike ps (r.andThen f) (r'.andThen f) := by
  obtain ⟨a, t, t', rfl, rfl, ht⟩ | ⟨a, t, t', rfl, rfl, ht⟩ | ⟨t, t', rfl, rfl, ht⟩ := h
  · exact g a t t' ht
  · exact .inr (.inl ⟨a, t, t', rfl, rfl, ht⟩)
  · exact .inr (.inr ⟨t, t', rfl, rfl, ht⟩)

theorem takeBit_alike (h : Alike ps s s') : FlowAlike ps (takeBit s) (takeBit s') := by
  unfold takeBit
  rw [h.cfg, h.bits]
  split
  · exact .inr (.inl ⟨_, _, _, rfl, rfl, h⟩)
  · obtain ⟨a, t, t', e, e', ht⟩ | ⟨t, t', e, e', ht⟩ := readCounted_alike h
    · rw [e, e']
      exact .inl ⟨a, t, t', rfl, rfl, ht⟩
    · rw [e, e']
      exact .inr (.inr ⟨t, t', rfl, rfl, ht⟩)

theorem decLeaf_alike (k lo : Nat) (w : Work) (h : Alike ps s s') :
    FlowAlike ps (decLeaf k lo w s) (decLeaf k lo w s') := by
  unfold decLeaf
  obtain ⟨b, t, t', e, e', ht⟩ | ⟨b, t, t', e, e', ht⟩ | ⟨t, t', e, e', ht⟩ := takeBit_alike h
  · rw [e, e']
    dsimp only
    split
    · obtain ⟨c, u, u', e, e', hu⟩ | ⟨c, u, u', e, e', hu⟩ | ⟨u, u', e, e', hu⟩ := takeBit_alike ht
      · rw [e, e']
        exact .inl ⟨_, u, u', rfl, rfl, hu⟩
      · rw [e, e']
        exact .inr (.inl ⟨_, u, u', rfl, rfl, hu⟩)
      · rw [e, e']
        exact .inr (.inr ⟨u, u', rfl, rfl, hu⟩)
    · exact .inl ⟨_, t, t', rfl, rfl, ht⟩
  · rw [e, e']
    exact .inr (.inl ⟨w, t, t', rfl, rfl, ht⟩)
  · rw [e, e']
    exact .inr (.inr ⟨t, t', rfl, rfl, ht⟩)

theorem decGroup_alike (k depth lo : Nat) (w : Work) {s s' : State} (h : Alike ps s s') :
    FlowAlike ps (decGroup k depth lo w s) (decGroup k depth lo w s') := by
  induction depth generalizing lo w s s' with
  | zero => exact decLeaf_alike k lo w h
  | succ depth ih =>
    unfold decGroup
    obtain ⟨b, t, t', e, e', ht⟩ | ⟨b, t, t', e, e', ht⟩ | ⟨t, t', e, e', ht⟩ := takeBit_alike h
    · rw [e, e']
      dsimp only
      split
      · exact (((ih lo w ht).andThen fun w t t' ht => ih _ w ht).andThen fun w t t' ht => ih _ w ht).andThen
          fun w t t' ht => ih _ w ht
      · exact .inl ⟨w, t, t', rfl, rfl, ht⟩
    · rw [e, e']
      exact .inr (.inl ⟨w, t, t', rfl, rfl, ht⟩)
    · rw [e, e']
      exact .inr (.inr ⟨t, t', rfl, rfl, ht⟩)

theorem decPlanes_alike (d : Nat) (ks : List Nat) (w : Work) {s s' : State} (h : Alike ps s s') :
    FlowAlike ps (decPlanes d ks w s) (decPlanes d ks w s') := by
  induction ks generalizing w s s' with
  | nil => exact .inl ⟨w, s, s', rfl, rfl, h⟩
  | cons k ks ih => exact (decGroup_alike k d 0 w h).andThen fun w t t' ht => ih w ht

end

/-! ### The registers of a block -/

/-- The state `u` with what `Alike` compares outside the block taken from `s`. -/
def State.over (s u : State) : State :=
  { u with cfg := s.cfg, fifo := s.fifo, mem := s.mem, bits := s.bits, flt := s.flt }

namespace Alike

variable {ps : List BlockPart} {s s' u : State}

theorem exists_over (h : Alike ps s s') : ∃ u, s' = s.over u := by
  refine ⟨s', ?_⟩
  rw [State.over, ← h.cfg, ← h.fifo, ← h.mem, ← h.bits, ← h.flt]

theorem samples (h : Alike ps s (s.over u)) (hp : .blk ∈ ps) : (s.over u).samples = s.samples :=
  tab_congr _ _ _ fun i hi => congrArg (fromContainer s.width) (h.parts _ hp i hi)

theorem coeffs (h : Alike ps s (s.over u)) (hp : .coef ∈ ps) : (s.over u).coeffs = s.coeffs :=
  tab_congr _ _ _ fun i hi => congrArg (fromContainer s.width) (h.parts _ hp i hi)

theorem planes (h : Alike ps s (s.over u)) (hp : .preceff ∈ ps) : (s.over u).planes = s.planes :=
  congrArg (fun x : BitVec 7 => min x.toNat s.width) (h.parts _ hp)

theorem expE (h : Alike ps s (s.over u)) (hp : .expf ∈ ps) : (s.over u).expE = s.expE :=
  congrArg (fun x : BitVec 11 => x.toNat % 2 ^ s.ty.ebits) (h.parts _ hp)

/-! What is computed from one file and stored in the other, or in the same. -/

/-- Coefficients computed alike are stored alike. -/
theorem putCoeffs_over (h : Alike ps s (s.over u)) {vs vs' : List (BitVec s.width)} (e : vs' = vs) :
    Alike (.coef :: ps) (s.putCoeffs vs) ((s.over u).putCoeffs vs') := by
  rw [e]
  exact h.putCoeffs vs

/-- Samples computed alike are stored alike. -/
theorem putSamples_over (h : Alike ps s (s.over u)) {vs vs' : List (BitVec s.width)} (e : vs' = vs) :
    Alike (.blk :: ps) (s.putSamples vs) ((s.over u).putSamples vs') := by
  rw [e]
  exact h.putSamples vs

theorem blkToCoef (h : Alike ps s s') (hp : .blk ∈ ps) : Alike (.coef :: ps) s.blkToCoef s'.blkToCoef := by
  obtain ⟨u, rfl⟩ := h.exists_over
  exact h.putCoeffs_over (h.samples hp)

theorem coefToBlk (h : Alike ps s s') (hp : .coef ∈ ps) : Alike (.blk :: ps) s.coefToBlk s'.coefToBlk := by
  obtain ⟨u, rfl⟩ := h.exists_over
  exact h.putSamples_over (h.coeffs hp)

theorem forward (h : Alike ps s s') (hp : .coef ∈ ps) : Alike ps s.forward s'.forward := by
  obtain ⟨u, rfl⟩ := h.exists_over
  exact (h.putCoeffs_over (congrArg (fwdTransform s.dim) (h.coeffs hp))).mono (List.subset_cons_self _ _)

theorem inverse (h : Alike ps s s') (hp : .coef ∈ ps) : Alike ps s.inverse s'.inverse := by
  obtain ⟨u, rfl⟩ := h.exists_over
  exact (h.putCoeffs_over (congrArg (invTransform s.dim) (h.coeffs hp))).mono (List.subset_cons_self _ _)

theorem unscale (h : Alike ps s s') (hc : .coef ∈ ps) (he : .expf ∈ ps) :
    Alike (.blk :: ps) s.unscale s'.unscale := by
  obtain ⟨u, rfl⟩ := h.exists_over
  exact h.putSamples_over (congrArg₂ (fun E C => C.map (unscaleSample s.ty s.dim E)) (h.expE he) (h.coeffs hc))

theorem zeroCoeffs (h : Alike ps s s') : Alike (.coef :: ps) s.zeroCoeffs s'.zeroCoeffs := by
  rw [State.zeroCoeffs, State.zeroCoeffs, h.size]
  exact h.putCoeffs _

theorem zeroBlock (h : Alike ps s s') : Alike (.blk :: .coef :: ps) s.zeroBlock s'.zeroBlock := by
  rw [State.zeroBlock, State.zeroBlock, h.size]
  exact h.zeroCoeffs.putSamples _

/-- `E` of a float block depends on its samples and the parameters only (45_block_codec R164, R175). -/
theorem chosenExponent (h : Alike ps s (s.over u)) (hp : .blk ∈ ps) :
    (s.over u).chosenExponent = s.chosenExponent := by
  unfold State.chosenExponent State.goesRaw
  rw [h.samples hp]
  rfl

theorem headerExponent (h : Alike ps s s') (hp : .blk ∈ ps) : s'.headerExponent = s.headerExponent := by
  obtain ⟨u, rfl⟩ := h.exists_over
  unfold State.headerExponent State.degenerate
  rw [h.chosenExponent hp]
  rfl

theorem headerPrecision (h : Alike ps s s') (hp : .blk ∈ ps) : s'.headerPrecision = s.headerPrecision := by
  obtain ⟨u, rfl⟩ := h.exists_over
  unfold State.headerPrecision State.degenerate
  rw [h.chosenExponent hp]
  rfl

theorem prepareFloat (h : Alike ps s s') (hp : .blk ∈ ps) :
    Alike (.coef :: .preceff :: .expf :: ps) s.prepareFloat s'.prepareFloat := by
  have hset := (h.setExpf (BitVec.ofNat 11 s.headerExponent)).setPreceff (BitVec.ofNat 7 s.headerPrecision)
  unfold State.prepareFloat
  rw [h.headerExponent hp, h.headerPrecision hp]
  obtain ⟨u, rfl⟩ := h.exists_over
  exact Alike.putCoeffs_over (u := (u.setExpf _).setPreceff _) hset
    (congrArg₂ (fun E B => B.map (scaleSample s.ty s.dim E)) (h.chosenExponent hp) (h.samples hp))

end Alike

/-! ### The block commands -/

section

variable {ps : List BlockPart} {s s' : State}

theorem FlowAlike.toRun {α : Type} {r r' : Flow α} (h : FlowAlike ps r r') : RunAlike ps ps r.toRun r'.toRun := by
  obtain ⟨a, t, t', rfl, rfl, ht⟩ | ⟨a, t, t', rfl, rfl, ht⟩ | ⟨t, t', rfl, rfl, ht⟩ := h
  · exact .ok ht a
  · exact .ok ht a
  · exact .inr ⟨t, t', rfl, rfl, ht⟩

theorem encodePlanes_alike (h : Alike ps s s') (hc : .coef ∈ ps) (hp : .preceff ∈ ps) :
    RunAlike ps ps (encodePlanes s) (encodePlanes s') := by
  have hbits : planeBits s'.dim s'.planes s'.coeffs = planeBits s.dim s.planes s.coeffs := by
    obtain ⟨u, rfl⟩ := h.exists_over
    rw [h.planes hp, h.coeffs hc]
    rfl
  unfold encodePlanes
  rw [hbits]
  exact emitAll_alike _ h

theorem decodePlanes_alike (h : Alike ps s s') (hp : .preceff ∈ ps) :
    RunAlike (.coef :: ps) ps (decodePlanes s) (decodePlanes s') := by
  have hplanes : s'.planes = s.planes := by
    obtain ⟨u, rfl⟩ := h.exists_over
    exact h.planes hp
  unfold decodePlanes
  rw [h.dim, h.width, h.size, hplanes]
  exact (decPlanes_alike _ _ _ h).toRun.bind fun w t t' ht => .ok (ht.putCoeffs _) ()

theorem decodeCoeffs_alike (h : Alike ps s s') (hp : .preceff ∈ ps) :
    RunAlike (.coef :: ps) ps (decodeCoeffs s) (decodeCoeffs s') :=
  (decodePlanes_alike h hp).bind fun _ _ _ ht => .ok (ht.inverse (List.mem_cons_self ..)) ()

/-- The parts that are alike where a block command is complete: all, but `EXPF` for an integer type. -/
def codedParts (float : Bool) : List BlockPart :=
  if float then [.coef, .preceff, .expf, .blk] else [.preceff, .coef, .blk]

theorem blk_mem_codedParts (float : Bool) : .blk ∈ codedParts float := by cases float <;> decide

theorem encodeInt_alike (h : Alike [.blk] s s') :
    RunAlike (codedParts false) (codedParts false) (encodeInt s) (encodeInt s') := by
  unfold encodeInt
  rw [h.cfg, h.width]
  exact encodePlanes_alike (((h.blkToCoef (by decide)).setPreceff _).forward (by decide)) (by decide) (by decide)

/-- The part of `ENCBLK` on a float block that follows the non-finite test. -/
theorem encodeFinite_alike (h : Alike [.blk] s s') :
    RunAlike (codedParts true) (codedParts true)
      ((writeHeader s.headerExponent s.prepareFloat).bind fun _ t =>
        if s.headerExponent = 0 then .ok () t.zeroCoeffs else encodePlanes t.forward)
      ((writeHeader s'.headerExponent s'.prepareFloat).bind fun _ t =>
        if s'.headerExponent = 0 then .ok () t.zeroCoeffs else encodePlanes t.forward) := by
  rw [h.headerExponent (by decide)]
  refine (writeHeader_alike (h.prepareFloat (by decide)) _).bind fun _ t t' ht => ?_
  split
  · exact .ok (ht.zeroCoeffs.mono (List.subset_cons_self _ _)) ()
  · exact encodePlanes_alike (ht.forward (by decide)) (by decide) (by decide)

theorem firstNonfinite_of_finiteBlock (s : State) (h : finiteBlock s) (ht : s.ty.isFloat = true) :
    firstNonfinite s.ty s.samples = none := by
  rw [firstNonfinite, List.findIdx?_eq_none_iff]
  intro x hx
  obtain ⟨i, hi, rfl⟩ := (mem_tab _ _ _).1 hx
  exact h ht i hi

/-- `ENCBLK` on a float block: a fault finds the parts alike but where the non-finite test raised it, which leaves
`EXPF`, `PRECEFF` and `COEF` as they were. -/
theorem encodeFloat_alike (h : Alike [.blk] s s') (ht : s.ty.isFloat = true) :
    ∃ qs, .blk ∈ qs ∧ qs ⊆ codedParts true ∧ (finiteBlock s → codedParts true ⊆ qs) ∧
      RunAlike (codedParts true) qs (encodeFloat s) (encodeFloat s') := by
  have htest : firstNonfinite s'.ty s'.samples = firstNonfinite s.ty s.samples := by
    obtain ⟨u, rfl⟩ := h.exists_over
    rw [h.samples (by decide)]
    rfl
  unfold encodeFloat needFinite
  rw [htest]
  rcases hfirst : firstNonfinite s.ty s.samples with _ | i
  · exact ⟨codedParts true, by decide, List.Subset.refl _, fun _ => List.Subset.refl _, encodeFinite_alike h⟩
  · refine ⟨[.blk], by decide, by decide, fun hfin => ?_, .raised h ..⟩
    rw [firstNonfinite_of_finiteBlock s hfin ht] at hfirst
    cases hfirst

/-- Padding leaves one block where the registers it starts from are the same (45_block_codec R161). -/
theorem Alike.pad (h : Alike [] s s') (hblk : s'.blk = s.blk) : Alike [.blk] s.pad s'.pad := by
  have hpad : s'.pad.blk = s.pad.blk := by
    obtain ⟨u, rfl⟩ := h.exists_over
    exact congrArg (padAxes s.width s.size s.extent s.dim) hblk
  exact { h with
    parts := fun p hp => by
      obtain rfl := List.mem_singleton.1 hp
      exact fun i _ => by rw [hpad] }

theorem encodeBlock_alike (h : Alike [] (s.setBits 0) (s'.setBits 0)) (hblk : s'.blk = s.blk) :
    ∃ qs, .blk ∈ qs ∧ (finiteBlock s.pad → codedParts s.ty.isFloat ⊆ qs) ∧
      RunAlike (codedParts s.ty.isFloat) qs (encodeBlock s) (encodeBlock s') := by
  have hstart := h.pad hblk
  have floor {qs : List BlockPart} {r r' : Run Unit} (hq : qs ⊆ codedParts s.ty.isFloat)
      (hr : RunAlike (codedParts s.ty.isFloat) qs r r') : RunAlike (codedParts s.ty.isFloat) qs
        (r.bind fun _ t => padStream t.cfg.minbits.toNat t) (r'.bind fun _ t => padStream t.cfg.minbits.toNat t) :=
    hr.bind fun _ t t' ht => by
      rw [ht.cfg]
      exact (padStream_alike _ ht).mono (List.Subset.refl _) hq
  unfold encodeBlock
  dsimp only
  rw [hstart.ty, pad_ty, setBits_ty]
  cases ht : s.ty.isFloat with
  | true =>
    rw [ht] at floor
    obtain ⟨qs, hb, hq, hfin, hr⟩ := encodeFloat_alike hstart ht
    exact ⟨qs, hb, hfin, floor hq hr⟩
  | false =>
    rw [ht] at floor
    exact ⟨codedParts false, by decide, fun _ => List.Subset.refl _,
      floor (List.Subset.refl _) (encodeInt_alike hstart)⟩

theorem decodeFloat_alike (h : Alike [] s s') : RunAlike (codedParts true) [] (decodeFloat s) (decodeFloat s') := by
  unfold decodeFloat
  refine (readHeader_alike h).bind fun v t t' ht => ?_
  have hE : t'.precision v.toNat = t.precision v.toNat := by
    obtain ⟨u, rfl⟩ := ht.exists_over
    rfl
  dsimp only
  rw [hE]
  have hset := (ht.setExpf (BitVec.ofNat 11 v.toNat)).setPreceff (BitVec.ofNat 7 (t.precision v.toNat))
  split
  · exact .ok (hset.zeroBlock.mono (by decide)) ()
  · exact ((decodeCoeffs_alike hset (by decide)).mono (List.Subset.refl _) (List.nil_subset _)).bind
      fun _ u u' hu => .ok ((hu.unscale (by decide) (by decide)).mono (by decide)) ()

theorem decodeInt_alike (h : Alike [] s s') : RunAlike (codedParts false) [] (decodeInt s) (decodeInt s') := by
  unfold decodeInt
  rw [h.cfg, h.width]
  exact ((decodeCoeffs_alike (h.setPreceff _) (by decide)).mono (List.Subset.refl _) (List.nil_subset _)).bind
    fun _ u u' hu => .ok ((hu.coefToBlk (by decide)).mono (by decide)) ()

theorem decodeBlock_alike (h : Alike [] (s.setBits 0) (s'.setBits 0)) :
    RunAlike (codedParts s.ty.isFloat) [] (decodeBlock s) (decodeBlock s') := by
  unfold decodeBlock
  dsimp only
  rw [h.ty, setBits_ty]
  refine RunAlike.bind (ps := codedParts s.ty.isFloat) ?_ fun _ t t' ht => ?_
  · cases s.ty.isFloat with
    | true => exact decodeFloat_alike h
    | false => exact decodeInt_alike h
  · rw [ht.cfg]
    exact (skipStream_alike _ ht).mono (List.Subset.refl _) (List.nil_subset _)

/-! ### What a block command leaves alike -/

/-- The end of two runs of one command that agree. -/
theorem RunAlike.states {r r' : Run Unit} {qs : List BlockPart} (h : RunAlike ps qs r r') :
    Alike [] r.state r'.state ∧ (ps ⊆ qs ∨ r.state.flt.flags = 0 → Alike ps r.state r'.state) := by
  obtain ⟨a, t, t', rfl, rfl, ht⟩ | ⟨t, t', rfl, rfl, ht, hf⟩ := h
  · exact ⟨ht.mono (List.nil_subset _), fun _ => ht⟩
  · exact ⟨ht.mono (List.nil_subset _), fun hq => hq.elim ht.mono fun h0 => absurd h0 hf⟩

/-- What agrees in the parts of a completed block command, part by part. -/
theorem Alike.coded {float : Bool} (h : Alike (codedParts float) s s') :
    s'.preceff = s.preceff ∧ (float = true → s'.expf = s.expf) ∧
      ∀ j < s.size, s'.blk.get j = s.blk.get j ∧ s'.coef.get j = s.coef.get j := by
  have hparts (p : BlockPart) (hp : p ∈ codedParts float) : p.same s.size s s' := h.parts p hp
  have hcoef : .coef ∈ codedParts float := by cases float <;> decide
  exact ⟨hparts .preceff (by cases float <;> decide), fun ht => hparts .expf (by rw [ht]; decide),
    fun j hj => ⟨hparts .blk (blk_mem_codedParts float) j hj, hparts .coef hcoef j hj⟩⟩

theorem Alike.encChecksPass (h : Alike ps s s') (hc : encChecksPass s) : encChecksPass s' := by
  obtain ⟨u, rfl⟩ := h.exists_over
  exact hc

theorem Alike.decChecksPass (h : Alike ps s s') (hc : decChecksPass s) : decChecksPass s' := by
  obtain ⟨u, rfl⟩ := h.exists_over
  exact hc

theorem exec_encblk (hc : encChecksPass s) (hd : s.fifo.dir = .wr) :
    exec .encblk s = .next (encodeBlock s).state := by
  obtain ⟨h1, h2, h3⟩ := hc
  simp only [exec, execEncblk, hd, ne_eq, not_true_eq_false, if_false, s.paramFault_none_iff.2 ⟨h1, h2⟩,
    s.extentsOk_iff.2 h3, if_true, Run.toOutcome]

theorem exec_decblk (hc : decChecksPass s) (hd : s.fifo.dir = .rd) :
    exec .decblk s = .next (decodeBlock s).state := by
  simp only [exec, execDecblk, hd, ne_eq, not_true_eq_false, if_false, s.paramFault_none_iff.2 hc, Run.toOutcome]

end

end Sys2Proof.Machine

namespace Sys2Proof.Proofs

open Sys2Proof Sys2Proof.Machine Sys2Proof.Claims

/-- A command other than `SRST` leaves the block size and every register of `BLK` beyond it as they were. -/
theorem exec_blk_beyond {i : Instr} {s t : State} (hi : i ≠ .srst) (h : exec i s = .next t) :
    t.size = s.size ∧ ∀ k, s.size ≤ k → t.blk.get k = s.blk.get k := by
  obtain ⟨-, hcfg, -, hblk, -⟩ := commandsWriteOnlyTheirState i s t h
  exact ⟨by rw [State.size, State.dim, hcfg hi, State.size, State.dim], hblk⟩

/-- Settles O58: `ENCBLK` and `DECBLK` write each register of the block before they read it, so two runs from such
states agree piece by piece. -/
theorem blockCommandsShareNoState : Obligations.BlockCommandsShareNoState := by
  intro s s' hcfg hfifo hmem hflt
  have h : Alike [] (s.setBits 0) (s'.setBits 0) := ⟨hcfg, hfifo, hmem, rfl, hflt, fun _ hp => absurd hp (by simp)⟩
  refine ⟨fun hc hd hblk => ?_, fun hc hd => ?_⟩
  · have e := exec_encblk hc hd
    have e' := exec_encblk (s := s') (h.encChecksPass hc) (hfifo ▸ hd)
    obtain ⟨hsize, hbeyond⟩ := exec_blk_beyond (by decide) e
    obtain ⟨-, hbeyond'⟩ := exec_blk_beyond (by decide) e'
    obtain ⟨qs, hb, hfin, hr⟩ := encodeBlock_alike h hblk
    obtain ⟨hstream, hall⟩ := hr.states
    have only {l : List BlockPart} (hl : .blk ∈ l) : [.blk] ⊆ l := List.cons_subset.2 ⟨hl, List.nil_subset _⟩
    have hlow := (hr.mono (only (blk_mem_codedParts _)) (only hb)).states.2 (.inl (List.Subset.refl _))
    refine ⟨_, _, e, e', hstream.fifo, hstream.mem, hstream.bits, hstream.flt, ?_, fun hf => ?_⟩
    · refine RegFile.ext_get _ _ fun i _ => ?_
      by_cases hi : i < s.size
      · exact hlow.parts .blk (by decide) i (hsize ▸ hi)
      · have hsize' : s'.size = s.size := h.size
        rw [hbeyond' i (by omega), hbeyond i (by omega), hblk]
    · obtain ⟨hprec, hexpf, hfiles⟩ := (hall (.inl (hfin hf))).coded
      exact ⟨hprec, hexpf, fun j hj => (hfiles j (hsize ▸ hj)).2⟩
  · have e := exec_decblk hc hd
    have e' := exec_decblk (s := s') (h.decChecksPass hc) (hfifo ▸ hd)
    obtain ⟨hsize, -⟩ := exec_blk_beyond (by decide) e
    obtain ⟨hstream, hall⟩ := (decodeBlock_alike h).states
    refine ⟨_, _, e, e', hstream.fifo, hstream.mem, hstream.bits, hstream.flt, fun h0 => ?_⟩
    obtain ⟨hprec, hexpf, hfiles⟩ := (hall (.inr h0)).coded
    exact ⟨hprec, hexpf, fun j hj => hfiles j (hsize ▸ hj)⟩

end Sys2Proof.Proofs
end

section
/-! PROOFS, family 20_memory: the host's view of `MEM` as little-endian words (20_memory R40, R44), and the bits that
the write and read commands move (20_memory R42, R43). -/

namespace Sys2Proof.Machine

open Sys2Proof Sys2Proof.Claims

/-! ### Bytes, words and the stream -/

/-- Bit `j` of `k` bytes read little-endian is a bit of byte `j div 8` (20_memory R44). -/
theorem Mem.readBytes_testBit (m : Mem) (a k j : Nat) :
    (m.readBytes a k).testBit j = (decide (j < 8 * k) && (m.readByte (a + j / 8)).getLsbD (j % 8)) := by
  by_cases hj : j < 8 * k
  · have hbyte := Mem.readBytes_div m a k (j / 8) (by omega)
    rw [decide_eq_true hj, Bool.true_and, BitVec.getLsbD, ← hbyte, show 256 = 2 ^ 8 by rfl, ← Nat.pow_mul,
      Nat.testBit_mod_two_pow, decide_eq_true (Nat.mod_lt j (by omega)), Bool.true_and, Nat.testBit_div_two_pow]
    congr 1
    omega
  · have hlt : m.readBytes a k < 2 ^ (8 * k) := by
      rw [Nat.pow_mul]
      exact Mem.readBytes_lt m a k
    rw [decide_eq_false hj, Bool.false_and, testBit_beyond hlt (by omega)]

/-- Stream bit `p` is a bit of byte `p div 8` (20_memory R42, R44). -/
theorem Mem.streamBit_eq_readByte (m : Mem) (p : Nat) : m.streamBit p = (m.readByte (p / 8)).getLsbD (p % 8) := by
  rw [Mem.readByte_eq_readWord, BitVec.getLsbD_extractLsb', decide_eq_true (Nat.mod_lt p (by omega)), Bool.true_and,
    Mem.streamBit, show p / 8 / 8 = p / 64 by omega, show 8 * (p / 8 % 8) + p % 8 = p % 64 by omega]

/-- What a host load sees are bits of the stream (20_memory R42, R44). -/
theorem Mem.readBytes_getLsbD (m : Mem) (a k j : Nat) (hj : j < 64) :
    (BitVec.ofNat 64 (m.readBytes a k)).getLsbD j = (decide (j < 8 * k) && m.streamBit (8 * a + j)) := by
  rw [BitVec.getLsbD_ofNat, decide_eq_true hj, Bool.true_and, Mem.readBytes_testBit, Mem.streamBit_eq_readByte,
    show (8 * a + j) / 8 = a + j / 8 by omega, show (8 * a + j) % 8 = j % 8 by omega]

/-- Byte `j` of a word (20_memory R44). -/
theorem extractLsb'_byte (v : Word) (j : Nat) : v.extractLsb' (8 * j) 8 = BitVec.ofNat 8 (v.toNat / 256 ^ j) := by
  apply BitVec.eq_of_toNat_eq
  rw [BitVec.extractLsb'_toNat, BitVec.toNat_ofNat, Nat.shiftRight_eq_div_pow, Nat.pow_mul]

/-! ### Host accesses to `MEM` -/

theorem memWidthOk_iff (bytes : Nat) : memWidthOk bytes = true ↔ bytes = 1 ∨ bytes = 2 ∨ bytes = 4 ∨ bytes = 8 := by
  simp only [memWidthOk, Bool.or_eq_true, decide_eq_true_eq, or_assoc]

/-- A host load of a width 20_memory R44 names, inside `MEM`. -/
theorem performAccess_memRead (s : State) (a bytes : Nat) (hw : memWidthOk bytes = true)
    (hin : a + bytes ≤ 8 * Config.memWords) :
    performAccess (.memRead a bytes) s = .next (s.setRdata (BitVec.ofNat 64 (s.mem.readBytes a bytes))) := by
  simp [performAccess, hw, memInside, hin]

/-- A host store of a width 20_memory R44 names, inside `MEM`. -/
theorem performAccess_memWrite (s : State) (a bytes : Nat) (v : Word) (hw : memWidthOk bytes = true)
    (hin : a + bytes ≤ 8 * Config.memWords) :
    performAccess (.memWrite a bytes v) s = .next (s.setMem (s.mem.writeBytes a bytes v.toNat)) := by
  simp [performAccess, hw, memInside, hin]

/-! ### The bits the stream commands move -/

theorem Wrote.appended {bs : List Bool} {s t : State} (h : Wrote bs s t) : appended bs s t :=
  ⟨h.same, h.dir, h.buffer, h.pos, h.below, h.wrote, h.ptr, h.stored⟩

theorem Consumed.advanced {k : Nat} {s t : State} (h : Consumed k s t) : advanced k s t :=
  ⟨h.same, h.dir, h.buffer, h.read, h.pos, h.next⟩

/-- `write_bits` by a writer that has room appends the low bits of the value (41_bitstream_fifo R81). -/
theorem writeBits_appends (v : Word) (k : Nat) (s : State) (hk : k ≤ 64) (h : readyToWrite s k) :
    ∃ t, writeBits v k s = .ok () t ∧ t.bits = s.bits ∧ appended (fieldBits v k) s t := by
  obtain ⟨hd, hb, hc⟩ := h
  exact ⟨s.pushBits v k, writeBits_ok v k s hd hc, by rw [State.pushBits_eq]; rfl,
    (pushBits_wrote s v k hk hd hb hc).appended⟩

/-- The field `WBIT` writes is bit 0 of `ARG` (41_bitstream_fifo R84). -/
theorem fieldBits_lowBit (v : Word) : fieldBits (BitVec.ofNat 64 (v.toNat % 2)) 1 = [v.getLsbD 0] := by
  have hbit : v.toNat % 2 = (v.getLsbD 0).toNat := by
    rw [BitVec.getLsbD, Nat.testBit_zero]
    rcases Nat.mod_two_eq_zero_or_one v.toNat with h | h <;> simp [h]
  rw [hbit]
  exact bitsOf_bool _

/-- What a read leaves in `RES` is of no concern to the stream. -/
theorem State.pullBits_setRes (s : State) (k : Nat) (v : Word) :
    ((s.pullBits k).setRes v).setRes s.res = s.pullBits k := by
  unfold State.pullBits
  split <;> rfl

theorem State.pullBits_bits (s : State) (k : Nat) : (s.pullBits k).bits = s.bits := by
  unfold State.pullBits
  split <;> rfl

/-- `read_bits` by a reader that has bits left delivers the next bits and moves past them (41_bitstream_fifo R82). -/
theorem storeRes_readBits_delivers (k : Nat) (s : State) (hk : k ≤ 64) (h : readyToRead s k) :
    ∃ t, storeRes (readBits k s) = .ok () t ∧ t.bits = s.bits ∧ advanced k s (t.setRes s.res) ∧
      ∀ j, t.res.getLsbD j = (decide (j < k) && s.nextBit j) := by
  obtain ⟨hd, hb, hr, hc⟩ := h
  refine ⟨(s.pullBits k).setRes (s.pullValue k), by rw [readBits_ok k s hd hc]; rfl, s.pullBits_bits k, ?_,
    fun j => pullValue_getLsbD s k j hk hb⟩
  rw [State.pullBits_setRes]
  exact (pullBits_consumed s k hk hd hb hr hc).advanced

end Sys2Proof.Machine

namespace Sys2Proof.Proofs

open Sys2Proof Sys2Proof.Machine Sys2Proof.Claims

/-- Settles O10: each bit of a load is the bit of its byte, and each byte is eight bits of its word. -/
theorem hostLoadsSeeLittleEndianWords : Obligations.HostLoadsSeeLittleEndianWords := by
  intro s
  refine ⟨fun a bytes hw hin => ?_, s.mem.readByte_eq_readWord, s.mem.streamBit_eq_readByte⟩
  exact ⟨_, performAccess_memRead s a bytes ((memWidthOk_iff bytes).2 hw) hin,
    fun j hj => s.mem.readBytes_getLsbD a bytes j hj⟩

/-- Settles O11: a byte named by the store takes its byte of the value, every other byte stays. -/
theorem hostStoresChangeExactlyTheirBytes : Obligations.HostStoresChangeExactlyTheirBytes := by
  intro s a bytes v hw hin
  refine ⟨_, performAccess_memWrite s a bytes v ((memWidthOk_iff bytes).2 hw) hin, rfl, fun j hj => ?_, fun b hb => ?_⟩
  · rw [setMem_mem, Mem.readByte_writeBytes, if_pos (by omega), Nat.add_sub_cancel_left, extractLsb'_byte]
  · exact Mem.readByte_writeBytes_out _ _ _ _ _ hb

/-- Settles O16: both commands are `write_bits` of a field of `ARG`. -/
theorem writeCommandsAppendTheField : Obligations.WriteCommandsAppendTheField := by
  refine ⟨fun s k hk h => ?_, fun s h => ?_⟩
  · obtain ⟨t, e, ht⟩ := writeBits_appends s.cfg.arg k.toNat s hk h
    exact ⟨t, by simp only [exec, execWbits, if_neg (Nat.not_lt.2 hk), e, Run.toOutcome, Run.state_ok], ht⟩
  · obtain ⟨t, e, ht⟩ := writeBits_appends (BitVec.ofNat 64 (s.cfg.arg.toNat % 2)) 1 s (by omega) h
    rw [fieldBits_lowBit] at ht
    exact ⟨t, by simp only [exec, execWbit, e, Run.toOutcome, Run.state_ok], ht⟩

/-- Settles O18: both commands store in `RES` what `read_bits` delivers. -/
theorem readCommandsDeliverTheNextBits : Obligations.ReadCommandsDeliverTheNextBits := by
  refine ⟨fun s k hk h => ?_, fun s h => ?_⟩
  · obtain ⟨t, e, hbits, hadv, hres⟩ := storeRes_readBits_delivers k.toNat s hk h
    exact ⟨t, by simp only [exec, execRbits, if_neg (Nat.not_lt.2 hk), e, Run.toOutcome, Run.state_ok], hbits, hadv,
      fun j _ => hres j⟩
  · obtain ⟨t, e, hbits, hadv, hres⟩ := storeRes_readBits_delivers 1 s (by omega) h
    refine ⟨t, by simp only [exec, execRbit, e, Run.toOutcome, Run.state_ok], hbits, hadv, ?_⟩
    apply BitVec.eq_of_getLsbD_eq
    intro j hj
    rw [hres j]
    by_cases h0 : j = 0
    · subst h0
      cases s.nextBit 0 <;> rfl
    · cases s.nextBit 0 <;> simp [h0]

end Sys2Proof.Proofs
end

section
/-! PROOFS, family 20_memory: no command reaches a word of `MEM` beyond the capacity (20_memory R48). Two runs of one
command, from states whose memories agree below the capacity, are followed piece by piece: they end with one value in
one state, but for the memories, which still agree below the capacity and above it are what they were. -/

namespace Sys2Proof.Machine

open Sys2Proof Sys2Proof.Claims

/-! ### Two memories that agree below the capacity -/

/-- Where two runs of one command start: the capacity in words, and the two memories. -/
structure TwoStarts where
  capw : Nat
  mem : Mem
  mem' : Mem

/-- The first run stands in `s`, the second in the same state with the memory `m`: the memories agree below the
capacity, and beyond it each is as it was at the start. -/
structure Confined (o : TwoStarts) (s : State) (m : Mem) : Prop where
  capw : s.cfg.capw.toNat = o.capw
  below : ∀ a, a < 8 * o.capw → m.readByte a = s.mem.readByte a
  beyond : ∀ a, 8 * o.capw ≤ a → s.mem.readByte a = o.mem.readByte a
  beyond' : ∀ a, 8 * o.capw ≤ a → m.readByte a = o.mem'.readByte a

namespace Confined

variable {o : TwoStarts} {s t : State} {m : Mem}

/-- A change of other registers than `CAPW`. -/
theorem update (h : Confined o s m) (hcfg : t.cfg = s.cfg) (hmem : t.mem = s.mem) : Confined o t m where
  capw := hcfg ▸ h.capw
  below := hmem ▸ h.below
  beyond := hmem ▸ h.beyond
  beyond' := h.beyond'

/-- A word below the capacity reads the same in both runs. -/
theorem readWord (h : Confined o s m) {w : Nat} (hw : w < s.cfg.capw.toNat) : m.readWord w = s.mem.readWord w := by
  have hcap := h.capw
  rw [Mem.readWord, Mem.readWord, Mem.readBytes_congr m s.mem _ _ fun j hj => h.below _ (by omega)]

/-- A word stored below the capacity, in both runs. -/
theorem writeWord (h : Confined o s m) {w : Nat} (hw : w < s.cfg.capw.toNat) (v : Word) :
    Confined o (s.setMem (s.mem.writeWord w v)) (m.writeWord w v) := by
  obtain ⟨hcap, hbelow, hbeyond, hbeyond'⟩ := h
  refine ⟨hcap, fun a ha => ?_, fun a ha => ?_, fun a ha => ?_⟩
  · rw [setMem_mem, Mem.writeWord, Mem.writeWord, Mem.readByte_writeBytes, Mem.readByte_writeBytes, hbelow a ha]
  · rw [setMem_mem, Mem.readByte_writeWord_ne _ _ _ _ (by omega), hbeyond a ha]
  · rw [Mem.readByte_writeWord_ne _ _ _ _ (by omega), hbeyond' a ha]

/-- Once the checks of `write_bits` have passed, the word it completes is below the capacity (41_bitstream_fifo R81). -/
theorem pushBits (h : Confined o s m) (hd : s.fifo.dir = .wr) (v : Word) (k : Nat) (hc : s.pos + k ≤ s.capBits) :
    ∃ m', (s.setMem m).pushBits v k = (s.pushBits v k).setMem m' ∧ Confined o (s.pushBits v k) m' := by
  have hpos := s.pos_wr hd
  have hcap : s.capBits = 64 * s.cfg.capw.toNat := rfl
  have hcomb : (s.setMem m).comb v k = s.comb v k := rfl
  unfold State.pushBits
  rw [hcomb, setMem_fifo]
  dsimp only
  split
  · exact ⟨_, rfl, (h.writeWord (by omega) _).update rfl rfl⟩
  · exact ⟨m, rfl, h.update rfl rfl⟩

/-- Once the checks of `read_bits` have passed, the word it loads is below the capacity (41_bitstream_fifo R82). -/
theorem loadedWord (h : Confined o s m) (hd : s.fifo.dir = .rd) {k : Nat} (hc : s.pos + k ≤ s.capBits)
    (hk : s.fifo.nb.toNat < k) : m.readWord s.fifo.ptr.toNat = s.mem.readWord s.fifo.ptr.toNat := by
  have hpos := s.pos_rd hd
  have hcap : s.capBits = 64 * s.cfg.capw.toNat := rfl
  exact h.readWord (by omega)

theorem pullValue (h : Confined o s m) (hd : s.fifo.dir = .rd) {k : Nat} (hc : s.pos + k ≤ s.capBits) :
    (s.setMem m).pullValue k = s.pullValue k := by
  unfold State.pullValue
  rw [setMem_fifo, setMem_mem]
  split
  · rfl
  · rw [h.loadedWord hd hc (by omega)]

theorem pullBits (h : Confined o s m) (hd : s.fifo.dir = .rd) {k : Nat} (hc : s.pos + k ≤ s.capBits) :
    (s.setMem m).pullBits k = (s.pullBits k).setMem m ∧ Confined o (s.pullBits k) m := by
  unfold State.pullBits
  rw [setMem_fifo, setMem_mem]
  split
  · exact ⟨rfl, h.update rfl rfl⟩
  · rw [h.loadedWord hd hc (by omega)]
    exact ⟨rfl, h.update rfl rfl⟩

end Confined

/-! ### Two runs of a piece -/

/-- Two runs of a piece end alike but for the memories. -/
def RunConfined {α : Type} (o : TwoStarts) (r r' : Run α) : Prop :=
  (∃ a t m, r = .ok a t ∧ r' = .ok a (t.setMem m) ∧ Confined o t m) ∨
    ∃ t m, r = .raised t ∧ r' = .raised (t.setMem m) ∧ Confined o t m

namespace RunConfined

variable {α β : Type} {o : TwoStarts} {s : State} {m : Mem}

theorem ok (h : Confined o s m) (a : α) : RunConfined o (.ok a s) (.ok a (s.setMem m)) :=
  .inl ⟨a, s, m, rfl, rfl, h⟩

theorem raised (h : Confined o s m) (f : HwFault) (info : Word) :
    RunConfined (α := α) o (.raised (s.raise f info)) (.raised ((s.setMem m).raise f info)) :=
  .inr ⟨s.raise f info, m, rfl, rfl, h.update rfl rfl⟩

theorem bind {r r' : Run α} {f f' : α → State → Run β} (h : RunConfined o r r')
    (g : ∀ a t m, Confined o t m → RunConfined o (f a t) (f' a (t.setMem m))) :
    RunConfined o (r.bind f) (r'.bind f') := by
  obtain ⟨a, t, m, rfl, rfl, ht⟩ | ⟨t, m, rfl, rfl, ht⟩ := h
  · exact g a t m ht
  · exact .inr ⟨t, m, rfl, rfl, ht⟩

end RunConfined

section

variable {o : TwoStarts} {s : State} {m : Mem}

/-! ### Writing -/

theorem writeBits_confined (h : Confined o s m) (v : Word) (k : Nat) :
    RunConfined o (writeBits v k s) (writeBits v k (s.setMem m)) := by
  by_cases hd : s.fifo.dir = .wr
  · by_cases hc : s.pos + k ≤ s.capBits
    · obtain ⟨m', e, h'⟩ := h.pushBits hd v k hc
      rw [writeBits_ok v k s hd hc, writeBits_ok v k (s.setMem m) hd hc, e]
      exact .ok h' ()
    · rw [writeBits_capacity v k s hd (by omega), writeBits_capacity v k (s.setMem m) hd (Nat.lt_of_not_le hc)]
      exact .raised h ..
  · rw [writeBits_dirErr v k s hd, writeBits_dirErr v k (s.setMem m) hd]
    exact .raised h ..

theorem writeCounted_confined (h : Confined o s m) (b : Bool) :
    RunConfined o (writeCounted b s) (writeCounted b (s.setMem m)) :=
  (writeBits_confined h _ 1).bind fun _ t _ ht => .ok (s := t.setBits (t.bits + 1)) (ht.update rfl rfl) ()

theorem writeHeader_confined (h : Confined o s m) (E : Nat) :
    RunConfined o (writeHeader E s) (writeHeader E (s.setMem m)) :=
  (writeBits_confined h _ _).bind fun _ t _ ht =>
    .ok (s := t.setBits (t.bits + BitVec.ofNat 32 s.ty.ebits)) (ht.update rfl rfl) ()

theorem emitAll_confined (bs : List Bool) {s : State} {m : Mem} (h : Confined o s m) :
    RunConfined o (emitAll bs s).toRun (emitAll bs (s.setMem m)).toRun := by
  induction bs generalizing s m with
  | nil => exact .ok h ()
  | cons b bs ih =>
    unfold emitAll
    rw [setMem_cfg, setMem_bits]
    split
    · exact .ok h ()
    · obtain ⟨a, t, m', e, e', ht⟩ | ⟨t, m', e, e', ht⟩ := writeCounted_confined h b
      · rw [e, e']
        exact ih ht
      · rw [e, e']
        exact .inr ⟨t, m', rfl, rfl, ht⟩

theorem encodePlanes_confined (h : Confined o s m) : RunConfined o (encodePlanes s) (encodePlanes (s.setMem m)) :=
  emitAll_confined (planeBits s.dim s.planes s.coeffs) h

theorem padStream_confined (fuel : Nat) {s : State} {m : Mem} (h : Confined o s m) :
    RunConfined o (padStream fuel s) (padStream fuel (s.setMem m)) := by
  induction fuel generalizing s m with
  | zero => exact .ok h ()
  | succ fuel ih =>
    unfold padStream
    rw [setMem_cfg, setMem_bits]
    split
    · exact (writeCounted_confined h false).bind fun _ _ _ ht => ih ht
    · exact .ok h ()

/-! ### Reading -/

theorem readBits_confined (h : Confined o s m) (k : Nat) :
    RunConfined o (readBits k s) (readBits k (s.setMem m)) := by
  by_cases hd : s.fifo.dir = .rd
  · by_cases hc : s.pos + k ≤ s.capBits
    · obtain ⟨e, h'⟩ := h.pullBits hd hc
      rw [readBits_ok k s hd hc, readBits_ok k (s.setMem m) hd hc, e, h.pullValue hd hc]
      exact .ok h' _
    · rw [readBits_capacity k s hd (by omega), readBits_capacity k (s.setMem m) hd (Nat.lt_of_not_le hc)]
      exact .raised h ..
  · rw [readBits_dirErr k s hd, readBits_dirErr k (s.setMem m) hd]
    exact .raised h ..

theorem storeRes_confined {r r' : Run Word} (h : RunConfined o r r') : RunConfined o (storeRes r) (storeRes r') :=
  h.bind fun v t _ ht => .ok (s := t.setRes v) (ht.update rfl rfl) ()

theorem readCounted_confined (h : Confined o s m) : RunConfined o (readCounted s) (readCounted (s.setMem m)) :=
  (readBits_confined h 1).bind fun _ t _ ht => .ok (s := t.setBits (t.bits + 1)) (ht.update rfl rfl) _

theorem readHeader_confined (h : Confined o s m) : RunConfined o (readHeader s) (readHeader (s.setMem m)) :=
  (readBits_confined h _).bind fun v t _ ht =>
    .ok (s := t.setBits (t.bits + BitVec.ofNat 32 s.ty.ebits)) (ht.update rfl rfl) v

theorem skipStream_confined (fuel : Nat) {s : State} {m : Mem} (h : Confined o s m) :
    RunConfined o (skipStream fuel s) (skipStream fuel (s.setMem m)) := by
  induction fuel generalizing s m with
  | zero => exact .ok h ()
  | succ fuel ih =>
    unfold skipStream
    rw [setMem_cfg, setMem_bits]
    split
    · exact (readCounted_confined h).bind fun _ _ _ ht => ih ht
    · exact .ok h ()

/-! ### The decoder's traversal -/

/-- Two runs of a piece of the decoder's traversal end alike but for the memories (44_bitplane_coder R144). -/
def FlowConfined {α : Type} (o : TwoStarts) (r r' : Flow α) : Prop :=
  (∃ a t m, r = .go a t ∧ r' = .go a (t.setMem m) ∧ Confined o t m) ∨
  (∃ a t m, r = .stop a t ∧ r' = .stop a (t.setMem m) ∧ Confined o t m) ∨
    ∃ t m, r = .raised t ∧ r' = .raised (t.setMem m) ∧ Confined o t m

theorem FlowConfined.andThen {α : Type} {r r' : Flow α} {f : α → State → Flow α} (h : FlowConfined o r r')
    (g : ∀ a t m, Confined o t m → FlowConfined o (f a t) (f a (t.setMem m))) :
    FlowConfined o (r.andThen f) (r'.andThen f) := by
  obtain ⟨a, t, m, rfl, rfl, ht⟩ | ⟨a, t, m, rfl, rfl, ht⟩ | ⟨t, m, rfl, rfl, ht⟩ := h
  · exact g a t m ht
  · exact .inr (.inl ⟨a, t, m, rfl, rfl, ht⟩)
  · exact .inr (.inr ⟨t, m, rfl, rfl, ht⟩)

theorem FlowConfined.toRun {α : Type} {r r' : Flow α} (h : FlowConfined o r r') : RunConfined o r.toRun r'.toRun := by
  obtain ⟨a, t, m, rfl, rfl, ht⟩ | ⟨a, t, m, rfl, rfl, ht⟩ | ⟨t, m, rfl, rfl, ht⟩ := h
  · exact .ok ht a
  · exact .ok ht a
  · exact .inr ⟨t, m, rfl, rfl, ht⟩

theorem takeBit_confined (h : Confined o s m) : FlowConfined o (takeBit s) (takeBit (s.setMem m)) := by
  unfold takeBit
  rw [setMem_cfg, setMem_bits]
  split
  · exact .inr (.inl ⟨false, s, m, rfl, rfl, h⟩)
  · obtain ⟨b, t, m', e, e', ht⟩ | ⟨t, m', e, e', ht⟩ := readCounted_confined h
    · rw [e, e']
      exact .inl ⟨b, t, m', rfl, rfl, ht⟩
    · rw [e, e']
      exact .inr (.inr ⟨t, m', rfl, rfl, ht⟩)

theorem decLeaf_confined (k lo : Nat) (w : Work) (h : Confined o s m) :
    FlowConfined o (decLeaf k lo w s) (decLeaf k lo w (s.setMem m)) := by
  unfold decLeaf
  obtain ⟨b, t, m', e, e', ht⟩ | ⟨b, t, m', e, e', ht⟩ | ⟨t, m', e, e', ht⟩ := takeBit_confined h
  · rw [e, e']
    dsimp only
    split
    · obtain ⟨c, u, m'', e, e', hu⟩ | ⟨c, u, m'', e, e', hu⟩ | ⟨u, m'', e, e', hu⟩ := takeBit_confined ht
      · rw [e, e']
        exact .inl ⟨_, u, m'', rfl, rfl, hu⟩
      · rw [e, e']
        exact .inr (.inl ⟨_, u, m'', rfl, rfl, hu⟩)
      · rw [e, e']
        exact .inr (.inr ⟨u, m'', rfl, rfl, hu⟩)
    · exact .inl ⟨_, t, m', rfl, rfl, ht⟩
  · rw [e, e']
    exact .inr (.inl ⟨w, t, m', rfl, rfl, ht⟩)
  · rw [e, e']
    exact .inr (.inr ⟨t, m', rfl, rfl, ht⟩)

theorem decGroup_confined (k depth lo : Nat) (w : Work) {s : State} {m : Mem} (h : Confined o s m) :
    FlowConfined o (decGroup k depth lo w s) (decGroup k depth lo w (s.setMem m)) := by
  induction depth generalizing lo w s m with
  | zero => exact decLeaf_confined k lo w h
  | succ depth ih =>
    unfold decGroup
    obtain ⟨b, t, m', e, e', ht⟩ | ⟨b, t, m', e, e', ht⟩ | ⟨t, m', e, e', ht⟩ := takeBit_confined h
    · rw [e, e']
      dsimp only
      split
      · exact (((ih lo w ht).andThen fun w _ _ ht => ih _ w ht).andThen fun w _ _ ht => ih _ w ht).andThen
          fun w _ _ ht => ih _ w ht
      · exact .inl ⟨w, t, m', rfl, rfl, ht⟩
    · rw [e, e']
      exact .inr (.inl ⟨w, t, m', rfl, rfl, ht⟩)
    · rw [e, e']
      exact .inr (.inr ⟨t, m', rfl, rfl, ht⟩)

theorem decPlanes_confined (d : Nat) (ks : List Nat) (w : Work) {s : State} {m : Mem} (h : Confined o s m) :
    FlowConfined o (decPlanes d ks w s) (decPlanes d ks w (s.setMem m)) := by
  induction ks generalizing w s m with
  | nil => exact .inl ⟨w, s, m, rfl, rfl, h⟩
  | cons k ks ih => exact (decGroup_confined k d 0 w h).andThen fun w _ _ ht => ih w ht

theorem decodePlanes_confined (h : Confined o s m) : RunConfined o (decodePlanes s) (decodePlanes (s.setMem m)) :=
  (decPlanes_confined s.dim (planeList s.width s.planes) (.zero s.size) h).toRun.bind fun w t _ ht =>
    .ok (s := t.putCoeffs (w.coeffs s.width s.size)) (ht.update rfl rfl) ()

/-! ### The block commands -/

theorem needFloat_confined (h : Confined o s m) {f : State → Run Unit} (hf : RunConfined o (f s) (f (s.setMem m))) :
    RunConfined o (needFloat s f) (needFloat (s.setMem m) f) := by
  unfold needFloat
  rw [setMem_ty]
  split
  · exact hf
  · exact .raised h ..

theorem needFinite_confined (h : Confined o s m) {f : State → Run Unit} (hf : RunConfined o (f s) (f (s.setMem m))) :
    RunConfined o (needFinite s f) (needFinite (s.setMem m) f) := by
  have htest : firstNonfinite (s.setMem m).ty (s.setMem m).samples = firstNonfinite s.ty s.samples := rfl
  unfold needFinite
  rw [htest]
  split
  · exact .raised h ..
  · exact hf

theorem encodeFloat_confined (h : Confined o s m) : RunConfined o (encodeFloat s) (encodeFloat (s.setMem m)) := by
  have hhead : (s.setMem m).headerExponent = s.headerExponent := rfl
  refine needFinite_confined h ?_
  rw [hhead]
  refine (writeHeader_confined (s := s.prepareFloat) (h.update rfl rfl) _).bind fun _ t _ ht => ?_
  split
  · exact .ok (s := t.zeroCoeffs) (ht.update rfl rfl) ()
  · exact encodePlanes_confined (s := t.forward) (ht.update rfl rfl)

theorem encodeBlock_confined (h : Confined o s m) : RunConfined o (encodeBlock s) (encodeBlock (s.setMem m)) := by
  have hpad : Confined o (s.setBits 0).pad m := h.update rfl rfl
  refine RunConfined.bind ?_ fun _ t _ ht => padStream_confined t.cfg.minbits.toNat ht
  change RunConfined o (if s.ty.isFloat then _ else _) (if s.ty.isFloat then _ else _)
  split
  · exact encodeFloat_confined hpad
  · exact encodePlanes_confined (s := ((s.setBits 0).pad.blkToCoef.setPreceff _).forward) (hpad.update rfl rfl)

theorem decodeCoeffs_confined (h : Confined o s m) : RunConfined o (decodeCoeffs s) (decodeCoeffs (s.setMem m)) :=
  (decodePlanes_confined h).bind fun _ t _ ht => .ok (s := t.inverse) (ht.update rfl rfl) ()

theorem zeroBlock_confined (h : Confined o s m) :
    RunConfined o (.ok () s.zeroBlock) (.ok () (s.setMem m).zeroBlock) :=
  .ok (s := s.zeroBlock) (h.update rfl rfl) ()

theorem decodeFloat_confined (h : Confined o s m) : RunConfined o (decodeFloat s) (decodeFloat (s.setMem m)) := by
  refine (readHeader_confined h).bind fun v t _ ht => ?_
  have hset : Confined o ((t.setExpf (BitVec.ofNat 11 v.toNat)).setPreceff (BitVec.ofNat 7 (t.precision v.toNat))) _ :=
    ht.update rfl rfl
  dsimp only
  split
  · exact zeroBlock_confined hset
  · exact (decodeCoeffs_confined hset).bind fun _ u _ hu => .ok (s := u.unscale) (hu.update rfl rfl) ()

theorem decodeInt_confined (h : Confined o s m) : RunConfined o (decodeInt s) (decodeInt (s.setMem m)) :=
  (decodeCoeffs_confined (s := s.setPreceff (BitVec.ofNat 7 (min s.cfg.maxprec.toNat s.width)))
    (h.update rfl rfl)).bind fun _ t _ ht => .ok (s := t.coefToBlk) (ht.update rfl rfl) ()

theorem decodeBlock_confined (h : Confined o s m) : RunConfined o (decodeBlock s) (decodeBlock (s.setMem m)) := by
  have hzero : Confined o (s.setBits 0) m := h.update rfl rfl
  refine RunConfined.bind ?_ fun _ t _ ht => skipStream_confined t.cfg.minbits.toNat ht
  change RunConfined o (if s.ty.isFloat then _ else _) (if s.ty.isFloat then _ else _)
  split
  · exact decodeFloat_confined hzero
  · exact decodeInt_confined hzero

/-! ### Every command -/

/-- Two runs of one command answer next states that are alike but for the memories. -/
def NextConfined (o : TwoStarts) (x x' : Host.Outcome State Fault Refusal) : Prop :=
  ∃ t m, x = .next t ∧ x' = .next (t.setMem m) ∧ Confined o t m

theorem RunConfined.toOutcome {α : Type} {r r' : Run α} (h : RunConfined o r r') :
    NextConfined o r.toOutcome r'.toOutcome := by
  obtain ⟨a, t, m, rfl, rfl, ht⟩ | ⟨t, m, rfl, rfl, ht⟩ := h
  · exact ⟨t, m, rfl, rfl, ht⟩
  · exact ⟨t, m, rfl, rfl, ht⟩

/-- `FLUSH` stores the pending word only where the capacity covers it (41_bitstream_fifo R85). -/
theorem flushWr_confined (h : Confined o s m) : RunConfined o (flushWr s) (flushWr (s.setMem m)) := by
  unfold flushWr
  rw [setMem_fifo, setMem_cfg]
  split
  · exact .ok (s := s.setRes 0) (h.update rfl rfl) ()
  · split
    · exact .raised h ..
    · exact .inl ⟨(), _, m.writeWord s.fifo.ptr.toNat s.fifo.buf, rfl, rfl,
        (h.writeWord (by omega) s.fifo.buf).update rfl rfl⟩

/-- A position inside a word, at most the capacity, names a word the capacity covers. -/
theorem Confined.seekWord (h : Confined o s m) {p : Nat} (hp : p ≤ s.capBits) (hin : p % 64 ≠ 0) :
    m.readWord (p / 64) = s.mem.readWord (p / 64) := by
  have hcap : s.capBits = 64 * s.cfg.capw.toNat := rfl
  exact h.readWord (by omega)

theorem seekReadFifo_confined (h : Confined o s m) {p : Nat} (hp : p ≤ s.capBits) :
    seekReadFifo m p = seekReadFifo s.mem p := by
  unfold seekReadFifo
  split
  · rename_i hin
    rw [h.seekWord hp hin]
  · rfl

theorem seekWriteFifo_confined (h : Confined o s m) {p : Nat} (hp : p ≤ s.capBits) :
    seekWriteFifo m p = seekWriteFifo s.mem p := by
  unfold seekWriteFifo
  split
  · rename_i hin
    rw [h.seekWord hp hin]
  · rfl

/-- Every command but `SRST`, which sets `CAPW`. -/
theorem exec_confined (i : Instr) (hi : i ≠ .srst) (h : Confined o s m) :
    NextConfined o (exec i s) (exec i (s.setMem m)) := by
  have done (t : State) (hcfg : t.cfg = s.cfg) (hmem : t.mem = s.mem) :
      NextConfined o (.next t) (.next (t.setMem m)) := ⟨t, m, rfl, rfl, h.update hcfg hmem⟩
  have faulted (f : HwFault) (info : Word) :
      NextConfined o (.next (s.raise f info)) (.next ((s.setMem m).raise f info)) := done (s.raise f info) rfl rfl
  cases i with
  | srst => exact absurd rfl hi
  | nop => exact done s rfl rfl
  | wbits k =>
    simp only [exec, execWbits]
    split
    · exact faulted ..
    · exact (writeBits_confined h _ _).toOutcome
  | wbit => exact (writeBits_confined h _ 1).toOutcome
  | rbits k =>
    simp only [exec, execRbits]
    split
    · exact faulted ..
    · exact (storeRes_confined (readBits_confined h _)).toOutcome
  | rbit => exact (storeRes_confined (readBits_confined h 1)).toOutcome
  | flush =>
    simp only [exec, execFlush, setMem_fifo]
    split
    · exact (flushWr_confined h).toOutcome
    · exact done (flushRd s) rfl rfl
  | tell => exact done (s.setRes _) rfl rfl
  | seekr =>
    simp only [exec, execSeekr]
    rw [setMem_capBits, setMem_cfg, setMem_mem]
    split
    · exact faulted ..
    · rw [seekReadFifo_confined h (by omega)]
      exact done (s.setFifo (seekReadFifo s.mem s.cfg.arg.toNat)) rfl rfl
  | seekw =>
    have hroll : (s.setMem m).rollsBack s.cfg.arg.toNat = s.rollsBack s.cfg.arg.toNat := rfl
    simp only [exec, execSeekw]
    rw [setMem_capBits, setMem_cfg, setMem_mem, hroll]
    split
    · exact faulted ..
    · split
      · exact done (s.setFifo _) rfl rfl
      · rw [seekWriteFifo_confined h (by omega)]
        exact done (s.setFifo (seekWriteFifo s.mem s.cfg.arg.toNat)) rfl rfl
  | fwdxf => exact done s.forward rfl rfl
  | invxf => exact done s.inverse rfl rfl
  | expb =>
    exact (needFloat_confined h (needFinite_confined h
      (.ok (s := s.storeExponent) (h.update rfl rfl) ()))).toOutcome
  | fscale =>
    have hscale : RunConfined o (.ok () s.scale) (.ok () (s.setMem m).scale) :=
      .ok (s := s.scale) (h.update rfl rfl) ()
    refine (needFloat_confined h ?_).toOutcome
    rw [setMem_expE, setMem_ty]
    split
    · exact needFinite_confined h hscale
    · exact hscale
  | iscale => exact (needFloat_confined h (.ok (s := s.unscale) (h.update rfl rfl) ())).toOutcome
  | prec => exact done (s.setPreceff _) rfl rfl
  | encpl =>
    refine RunConfined.toOutcome ?_
    rw [setMem_fifo]
    split
    · exact .raised h ..
    · exact encodePlanes_confined h
  | decpl =>
    refine RunConfined.toOutcome ?_
    rw [setMem_fifo]
    split
    · exact .raised h ..
    · exact decodePlanes_confined h
  | padblk =>
    have hok : (s.setMem m).extentsOk = s.extentsOk := rfl
    simp only [exec, execPadblk, hok]
    split
    · exact done s.pad rfl rfl
    · exact faulted ..
  | b2c => exact done s.blkToCoef rfl rfl
  | c2b => exact done s.coefToBlk rfl rfl
  | encblk =>
    have hfault : (s.setMem m).paramFault = s.paramFault := rfl
    have hok : (s.setMem m).extentsOk = s.extentsOk := rfl
    simp only [exec, execEncblk, setMem_fifo, hfault, hok]
    split
    · exact faulted ..
    · split
      · exact faulted ..
      · split
        · exact (encodeBlock_confined h).toOutcome
        · exact faulted ..
  | decblk =>
    have hfault : (s.setMem m).paramFault = s.paramFault := rfl
    simp only [exec, execDecblk, setMem_fifo, hfault]
    split
    · exact faulted ..
    · split
      · exact faulted ..
      · exact (decodeBlock_confined h).toOutcome

end

end Sys2Proof.Machine

namespace Sys2Proof.Proofs

open Sys2Proof Sys2Proof.Machine Sys2Proof.Claims

/-- Settles O26: every word a command loads or stores lies below the capacity, so the two runs stay alike; `SRST`
touches no word at all. -/
theorem noCommandReachesBeyondTheCapacity : Obligations.NoCommandReachesBeyondTheCapacity := by
  intro i s m hm
  by_cases hi : i = .srst
  · subst hi
    exact ⟨s.softReset, m, rfl, rfl, hm, fun _ _ => rfl, fun _ _ => rfl⟩
  · have hstart : Confined ⟨s.cfg.capw.toNat, s.mem, m⟩ s m := ⟨rfl, hm, fun _ _ => rfl, fun _ _ => rfl⟩
    obtain ⟨t, m', e, e', ht⟩ := exec_confined i hi hstart
    exact ⟨t, m', e, e', ht.below, ht.beyond, ht.beyond'⟩

end Sys2Proof.Proofs
end

section
/-! PROOFS, family 30_encoding: a command word is its three fields (30_encoding R60); what an opcode selects (R63); what
the decoder answers for a word (R61). -/

namespace Sys2Proof

open Sys2Proof.Claims

/-! ### The fields of a word -/

section
variable (op : BitVec 8) (rsv : BitVec 17) (imm : BitVec 7)

@[simp] theorem cmdOp_append : cmdOp (op ++ (rsv ++ imm)) = op := BitVec.extractLsb'_append_eq_left

@[simp] theorem cmdRsv_append : cmdRsv (op ++ (rsv ++ imm)) = rsv := by
  unfold cmdRsv
  rw [BitVec.extractLsb'_append_eq_of_add_le (by decide)]
  exact BitVec.extractLsb'_append_eq_left

@[simp] theorem cmdImm_append : cmdImm (op ++ (rsv ++ imm)) = imm := by
  unfold cmdImm
  rw [BitVec.extractLsb'_append_eq_of_add_le (by decide)]
  exact BitVec.extractLsb'_append_eq_right

end

theorem cmdOp_append_cmdRsv_append_cmdImm (c : CmdWord) : cmdOp c ++ (cmdRsv c ++ cmdImm c) = c := by
  unfold cmdOp cmdRsv cmdImm
  have hlow : c.extractLsb' 7 17 ++ c.extractLsb' 0 7 = c.extractLsb' 0 24 :=
    BitVec.extractLsb'_append_extractLsb'_eq_extractLsb' rfl
  have hall : c.extractLsb' 24 8 ++ c.extractLsb' 0 24 = c.extractLsb' 0 32 :=
    BitVec.extractLsb'_append_extractLsb'_eq_extractLsb' rfl
  rw [hlow, hall, BitVec.extractLsb'_eq_self]

@[simp] theorem cmdOp_encode (i : Instr) : cmdOp (encode i) = opcodeOf i := cmdOp_append ..

@[simp] theorem cmdRsv_encode (i : Instr) : cmdRsv (encode i) = 0 := cmdRsv_append ..

@[simp] theorem cmdImm_encode (i : Instr) : cmdImm (encode i) = immOf i := cmdImm_append ..

/-- A word with nothing in its reserved bits is the word of any command of its opcode and immediate. -/
theorem encode_eq_of_fields {i : Instr} {c : CmdWord} (hop : opcodeOf i = cmdOp c) (hrsv : cmdRsv c = 0)
    (himm : immOf i = cmdImm c) : encode i = c :=
  calc encode i = cmdOp c ++ (cmdRsv c ++ cmdImm c) := by rw [encode, hop, hrsv, himm]; rfl
    _ = c := cmdOp_append_cmdRsv_append_cmdImm c

/-- The word of a command as a number: the opcode from bit 24 up, the bit count from bit 0 up. -/
theorem toNat_encode (i : Instr) : (encode i).toNat = (opcodeOf i).toNat * 2 ^ 24 + (immOf i).toNat := by
  have himm : (immOf i).toNat < 2 ^ 24 := (immOf i).isLt.trans (by decide)
  calc (encode i).toNat = (opcodeOf i).toNat <<< 24 ||| (immOf i).toNat := by
        simp only [encode, BitVec.toNat_append, BitVec.toNat_ofNat, Nat.zero_mod, Nat.zero_shiftLeft, Nat.zero_or]
    _ = (opcodeOf i).toNat * 2 ^ 24 + (immOf i).toNat := by
        rw [← Nat.shiftLeft_add_eq_or_of_lt himm, Nat.shiftLeft_eq]

/-! ### The opcode map -/

/-- The 23 commands in the order of their opcodes (30_encoding R63), a count of 0 standing for every count. -/
def commands : List Instr :=
  [.nop, .srst, .wbits 0, .wbit, .rbits 0, .rbit, .flush, .tell, .seekr, .seekw, .fwdxf, .invxf,
   .expb, .fscale, .iscale, .prec, .encpl, .decpl, .padblk, .b2c, .c2b, .encblk, .decblk]

theorem opcodes_eq_map : opcodes = commands.map opcodeOf := rfl

/-- What the opcode of a command selects. -/
def kindOf : Instr → OpKind
  | .wbits _ => .counted .wbits
  | .rbits _ => .counted .rbits
  | i => .plain i

theorem opcodeKind_opcodeOf (i : Instr) : opcodeKind (opcodeOf i) = some (kindOf i) := by
  cases i <;> rfl

theorem opcodeKind_eq_none {op : BitVec 8} (h : op ∉ opcodes) : opcodeKind op = none := by
  simp only [opcodes, List.cons_append, List.nil_append, List.mem_cons, List.not_mem_nil, not_or,
    BitVec.ofNat_eq_ofNat] at h
  simp [opcodeKind, h]

theorem kindOf_eq_plain {j i : Instr} (h : kindOf j = .plain i) :
    j = i ∧ opcodeOf i ≠ 0x10 ∧ opcodeOf i ≠ 0x12 ∧ immOf i = 0 ∧ i.wellFormed = true := by
  cases j with
  | wbits k => cases h
  | rbits k => cases h
  | _ => cases h; exact ⟨rfl, by decide, by decide, rfl, rfl⟩

theorem kindOf_eq_counted {j : Instr} {f : BitVec 7 → Instr} (h : kindOf j = .counted f) :
    (opcodeOf j = 0x10 ∨ opcodeOf j = 0x12) ∧
    ∀ k, opcodeOf (f k) = opcodeOf j ∧ immOf (f k) = k ∧ (f k).wellFormed = decide (k.toNat ≤ 64) := by
  cases j with
  | wbits k => cases h; exact ⟨.inl rfl, fun _ => ⟨rfl, rfl, rfl⟩⟩
  | rbits k => cases h; exact ⟨.inr rfl, fun _ => ⟨rfl, rfl, rfl⟩⟩
  | _ => cases h

/-! ### The immediate -/

theorem immOf_eq_zero {i : Instr} (hw : opcodeOf i ≠ 0x10) (hr : opcodeOf i ≠ 0x12) : immOf i = 0 := by
  cases i with
  | wbits k => exact absurd rfl hw
  | rbits k => exact absurd rfl hr
  | _ => rfl

theorem immOf_le {i : Instr} (h : i.wellFormed = true) : (immOf i).toNat ≤ 64 := by
  cases i with
  | wbits k => exact of_decide_eq_true h
  | rbits k => exact of_decide_eq_true h
  | _ => exact Nat.zero_le 64

/-! ### The decoder -/

theorem decodeWord_encode {i : Instr} (h : i.wellFormed = true) : decodeWord (encode i) = .ok i := by
  simp only [decodeWord, cmdRsv_encode, cmdOp_encode, cmdImm_encode, opcodeKind_opcodeOf]
  have hcount : ¬ 64 < (immOf i).toNat := (immOf_le h).not_gt
  cases i with
  | wbits k => exact if_neg hcount
  | rbits k => exact if_neg hcount
  | _ => rfl

theorem decodeWord_ofNat {i : Instr} {n : Nat} (h : i.wellFormed = true)
    (hn : (opcodeOf i).toNat * 2 ^ 24 + (immOf i).toNat = n) : decodeWord (BitVec.ofNat 32 n) = .ok i := by
  rw [← hn, ← toNat_encode, BitVec.ofNat_toNat, BitVec.setWidth_eq, decodeWord_encode h]

theorem not_failsATest_encode {i : Instr} (h : i.wellFormed = true) : ¬ failsATest (encode i) := by
  rintro (hrsv | hop | ⟨hw, hr, himm⟩ | ⟨-, hcount⟩)
  · exact hrsv (cmdRsv_encode i)
  · have hnone := opcodeKind_eq_none hop
    rw [← cmdOp, cmdOp_encode, opcodeKind_opcodeOf] at hnone
    cases hnone
  · rw [← cmdOp, cmdOp_encode] at hw hr
    exact himm ((cmdImm_encode i).trans (immOf_eq_zero hw hr))
  · rw [← cmdImm, cmdImm_encode] at hcount
    exact hcount.not_ge (immOf_le h)

/-- What the decoder may answer for `c` (30_encoding R61): an error if the word fails a test, else the well-formed
command that `c` is the word of. -/
inductive Decision (c : CmdWord) : Except DecodeError Instr → Prop where
  | illegal {e : DecodeError} (fails : failsATest c) : Decision c (.error e)
  | legal {i : Instr} (word : encode i = c) (wf : i.wellFormed = true) : Decision c (.ok i)

theorem decodeWord_decision (c : CmdWord) : Decision c (decodeWord c) := by
  unfold decodeWord
  by_cases hrsv : cmdRsv c = 0
  case neg => rw [if_pos hrsv]; exact .illegal (.inl hrsv)
  by_cases hmem : cmdOp c ∈ opcodes
  case neg => rw [if_neg (not_not.2 hrsv), opcodeKind_eq_none hmem]; exact .illegal (.inr (.inl hmem))
  obtain ⟨j, -, hj⟩ := List.mem_map.1 (opcodes_eq_map ▸ hmem)
  rw [if_neg (not_not.2 hrsv), ← hj, opcodeKind_opcodeOf]
  cases hkind : kindOf j with
  | plain i =>
    obtain ⟨rfl, hw, hr, himm, hwf⟩ := kindOf_eq_plain hkind
    rw [hj] at hw hr
    dsimp only
    split
    case isTrue hstray => exact .illegal (.inr (.inr (.inl ⟨hw, hr, hstray⟩)))
    case isFalse hzero => exact .legal (encode_eq_of_fields hj hrsv (himm.trans (not_not.1 hzero).symm)) hwf
  | counted f =>
    obtain ⟨hop, hf⟩ := kindOf_eq_counted hkind
    obtain ⟨hopf, himm, hwf⟩ := hf (cmdImm c)
    rw [hj] at hop hopf
    dsimp only
    split
    case isTrue hbig => exact .illegal (.inr (.inr (.inr ⟨hop, hbig⟩)))
    case isFalse hcount =>
      exact .legal (encode_eq_of_fields hopf hrsv himm) (hwf.trans (decide_eq_true (not_lt.1 hcount)))

end Sys2Proof

namespace Sys2Proof.Proofs

open Sys2Proof Sys2Proof.Machine Sys2Proof.Claims

/-- Settles O2: the fields of the word are the command's own, and its opcode selects it. -/
theorem decodeOfEncodeIsTheCommand : Obligations.DecodeOfEncodeIsTheCommand :=
  fun _ hwf => decodeWord_encode hwf

/-- Settles O3: the decoder answers a command only for that command's word. -/
theorem encodeOfDecodeIsTheWord : Obligations.EncodeOfDecodeIsTheWord := by
  intro c i hdecode
  cases hdecode ▸ decodeWord_decision c with
  | legal word wf => exact ⟨word, wf⟩

/-- Settles O4: a word that fails a test is not the word of a well-formed command, so the decoder rejects it; any
other word is the word of the one command it decodes to. -/
theorem illegalWordsAreThoseOfTheFourTests : Obligations.IllegalWordsAreThoseOfTheFourTests := by
  intro c
  cases hdecode : decodeWord c with
  | error e =>
    cases hdecode ▸ decodeWord_decision c with
    | illegal fails => exact ⟨fun _ s => by rw [runCommand, hdecode], fun passes => absurd fails passes⟩
  | ok i =>
    cases hdecode ▸ decodeWord_decision c with
    | legal word wf =>
      subst word
      exact ⟨fun fails => absurd fails (not_failsATest_encode wf), fun _ =>
        ⟨i, wf, (cmdOp_encode i).symm, (cmdImm_encode i).symm, fun s => by rw [runCommand, hdecode]⟩⟩

/-- Settles O1: each word of the table is its command's opcode times `2 ^ 24`, plus the count. -/
theorem commandWordsOfTheTable : Obligations.CommandWordsOfTheTable := by
  refine ⟨decodeWord_ofNat rfl rfl, decodeWord_ofNat rfl rfl, decodeWord_ofNat rfl rfl, decodeWord_ofNat rfl rfl,
    decodeWord_ofNat rfl rfl, decodeWord_ofNat rfl rfl, decodeWord_ofNat rfl rfl, decodeWord_ofNat rfl rfl,
    decodeWord_ofNat rfl rfl, decodeWord_ofNat rfl rfl, decodeWord_ofNat rfl rfl, decodeWord_ofNat rfl rfl,
    decodeWord_ofNat rfl rfl, decodeWord_ofNat rfl rfl, decodeWord_ofNat rfl rfl, decodeWord_ofNat rfl rfl,
    decodeWord_ofNat rfl rfl, decodeWord_ofNat rfl rfl, decodeWord_ofNat rfl rfl, decodeWord_ofNat rfl rfl,
    decodeWord_ofNat rfl rfl, fun k hk => ?wbits, fun k hk => ?rbits⟩
  all_goals have hcount : (BitVec.ofNat 7 k).toNat = k := Nat.mod_eq_of_lt (hk.trans_lt (by decide))
  case wbits => exact decodeWord_ofNat (decide_eq_true (hcount.trans_le hk)) (by simp [opcodeOf, immOf, hcount])
  case rbits => exact decodeWord_ofNat (decide_eq_true (hcount.trans_le hk)) (by simp [opcodeOf, immOf, hcount])

end Sys2Proof.Proofs
end

section
/-! PROOFS, family 41_bitstream_fifo: the commands of the bitstream unit (41_bitstream_fifo R80 to R92), each by its
checks and what it leaves, and two round trips: fields written, flushed and read back, and a probe undone. -/

namespace Sys2Proof.Machine

open Sys2Proof Sys2Proof.Claims

/-! ### Positions -/

theorem State.capBits_le (s : State) : s.capBits ≤ 64 * (2 ^ 32 - 1) := by
  have := s.cfg.capw.isLt
  rw [State.capBits]
  omega

/-- A position is always a 64-bit number (20_memory R42). -/
theorem State.pos_lt (s : State) : s.pos < 2 ^ 64 := by
  have hp := s.fifo.ptr.isLt
  have hn := s.fifo.nb.isLt
  cases hd : s.fifo.dir with
  | wr => rw [s.pos_wr hd]; omega
  | rd => rw [s.pos_rd hd]; omega

theorem State.toNat_ofNat_pos (s : State) : (BitVec.ofNat 64 s.pos).toNat = s.pos :=
  Nat.mod_eq_of_lt s.pos_lt

/-- The next word is still one that `PTR` can name. -/
theorem State.toNat_ptr_succ (s : State) (h : s.fifo.ptr.toNat < s.cfg.capw.toNat) :
    (s.fifo.ptr + 1).toNat = s.fifo.ptr.toNat + 1 := by
  have := s.cfg.capw.isLt
  exact BitVec.toNat_add_of_lt (by change s.fifo.ptr.toNat + 1 < 2 ^ 32; omega)

/-! ### Writing and reading -/

theorem exec_wbits (k : BitVec 7) (s : State) (hk : k.toNat ≤ 64) :
    exec (.wbits k) s = (writeBits s.cfg.arg k.toNat s).toOutcome := if_neg (Nat.not_lt.2 hk)

theorem exec_rbits (k : BitVec 7) (s : State) (hk : k.toNat ≤ 64) :
    exec (.rbits k) s = (storeRes (readBits k.toNat s)).toOutcome := if_neg (Nat.not_lt.2 hk)

/-- `write_bits` when a word completes (41_bitstream_fifo R81). -/
theorem State.pushBits_of_word (s : State) (v : Word) (k : Nat) (h : 64 ≤ s.fifo.nb.toNat + k) :
    s.pushBits v k = (s.setMem (s.mem.writeWord s.fifo.ptr.toNat (BitVec.ofNat 64 (s.comb v k)))).setFifo
      ⟨s.fifo.dir, s.fifo.ptr + 1, BitVec.ofNat 64 (s.comb v k / 2 ^ 64),
        BitVec.ofNat 7 (s.fifo.nb.toNat + k - 64)⟩ := if_pos h

/-- `write_bits` when the bits stay pending (41_bitstream_fifo R81). -/
theorem State.pushBits_of_pending (s : State) (v : Word) (k : Nat) (h : s.fifo.nb.toNat + k < 64) :
    s.pushBits v k = s.setFifo
      ⟨s.fifo.dir, s.fifo.ptr, BitVec.ofNat 64 (s.comb v k), BitVec.ofNat 7 (s.fifo.nb.toNat + k)⟩ :=
  if_neg (Nat.not_le.2 h)

/-- `read_bits` from the bits held (41_bitstream_fifo R82). -/
theorem State.pullBits_of_held (s : State) (k : Nat) (h : k ≤ s.fifo.nb.toNat) :
    s.pullBits k = s.setFifo
      ⟨s.fifo.dir, s.fifo.ptr, BitVec.ofNat 64 (s.fifo.buf.toNat / 2 ^ k), BitVec.ofNat 7 (s.fifo.nb.toNat - k)⟩ :=
  if_pos h

/-- `read_bits` with bits of the next word (41_bitstream_fifo R82). -/
theorem State.pullBits_of_word (s : State) (k : Nat) (h : s.fifo.nb.toNat < k) :
    s.pullBits k = s.setFifo
      ⟨s.fifo.dir, s.fifo.ptr + 1,
        BitVec.ofNat 64 ((s.mem.readWord s.fifo.ptr.toNat).toNat / 2 ^ (k - s.fifo.nb.toNat)),
        BitVec.ofNat 7 (64 - (k - s.fifo.nb.toNat))⟩ :=
  if_neg (Nat.not_le.2 h)

/-- `WBITS k` and `WBIT` are `write_bits` of a field `x` of `ARG` (41_bitstream_fifo R83, R84). -/
theorem exec_write (s : State) {k x : Nat} {i : Instr}
    (hi : (∃ kk : BitVec 7, i = .wbits kk ∧ kk.toNat = k ∧ k ≤ 64 ∧ x = s.cfg.arg.toNat % 2 ^ k) ∨
      (i = .wbit ∧ k = 1 ∧ x = s.cfg.arg.toNat % 2)) :
    ∃ v : Word, exec i s = (writeBits v k s).toOutcome ∧ v.toNat % 2 ^ k = x := by
  obtain ⟨kk, rfl, rfl, hk, rfl⟩ | ⟨rfl, rfl, rfl⟩ := hi
  · exact ⟨s.cfg.arg, exec_wbits kk s hk, rfl⟩
  · refine ⟨_, rfl, ?_⟩
    rw [BitVec.toNat_ofNat]
    omega

/-- `RBITS k` and `RBIT` are `read_bits` into `RES` (41_bitstream_fifo R89, R90). -/
theorem exec_read (s : State) {k : Nat} {i : Instr}
    (hi : (∃ kk : BitVec 7, i = .rbits kk ∧ kk.toNat = k ∧ k ≤ 64) ∨ (i = .rbit ∧ k = 1)) :
    exec i s = (storeRes (readBits k s)).toOutcome := by
  obtain ⟨kk, rfl, rfl, hk⟩ | ⟨rfl, rfl⟩ := hi
  · exact exec_rbits kk s hk
  · rfl

/-! ### The direction of the unit -/

/-- A write-side command tests `DIR` before all else (41_bitstream_fifo R92). -/
theorem exec_writeSide_dirErr {i : Instr} {s : State} (hwf : i.wellFormed = true) (hi : isWriteSide i = true)
    (hd : s.fifo.dir ≠ .wr) : exec i s = .next (s.raise .dirErr 0) := by
  cases i with
  | wbits k =>
    rw [exec_wbits k s (of_decide_eq_true hwf), writeBits_dirErr _ _ _ hd]
    rfl
  | wbit => exact congrArg Run.toOutcome (writeBits_dirErr _ _ _ hd)
  | encpl => exact congrArg Run.toOutcome (if_pos hd)
  | encblk => exact if_pos hd
  | _ => cases hi

/-- A read-side command tests `DIR` before all else (41_bitstream_fifo R92). -/
theorem exec_readSide_dirErr {i : Instr} {s : State} (hwf : i.wellFormed = true) (hi : isReadSide i = true)
    (hd : s.fifo.dir ≠ .rd) : exec i s = .next (s.raise .dirErr 0) := by
  cases i with
  | rbits k =>
    rw [exec_rbits k s (of_decide_eq_true hwf), readBits_dirErr _ _ hd]
    rfl
  | rbit => exact congrArg (fun r => (storeRes r).toOutcome) (readBits_dirErr _ _ hd)
  | decpl => exact congrArg Run.toOutcome (if_pos hd)
  | decblk => exact if_pos hd
  | _ => cases hi

/-- The host reaches the bitstream unit only by a command or the reset input (10_state R32, R34). -/
theorem performAccess_fifo {a : HostAccess} {s t : State} (he : performAccess a s = .next t) (hr : a ≠ .reset)
    (hc : ∀ v, a ≠ .regWrite 0x078 8 v) : t.fifo = s.fifo := by
  cases a with
  | regRead off bytes =>
    simp only [performAccess] at he
    split at he
    · cases he
      rfl
    · cases he
  | regWrite off bytes v =>
    simp only [performAccess] at he
    split at he
    case isTrue hok =>
      obtain ⟨rfl, hin⟩ := (regAccessOk_iff off bytes).1 hok
      have hcmd : regAt off ≠ .cmd := fun e => by
        have hoff : off = 0x078 := regAt_inj hin ⟨by decide, by decide⟩ e (by rw [e]; decide)
        exact hc v (by rw [hoff])
      by_cases hs : regAt off = .status
      · rw [hs] at he
        cases he
        rfl
      · obtain ⟨-, hfifo, -⟩ := writeReg_frame he hs hcmd
        exact hfifo
    case isFalse => cases he
  | memRead addr bytes =>
    simp only [performAccess] at he
    split at he
    · cases he
    · split at he <;> cases he
      rfl
  | memWrite addr bytes v =>
    simp only [performAccess] at he
    split at he
    · cases he
    · split at he <;> cases he
      rfl
  | reset => exact absurd rfl hr

/-! ### `FLUSH` -/

/-- A writer that holds no bits (41_bitstream_fifo R85). -/
theorem exec_flush_aligned (s : State) (hd : s.fifo.dir = .wr) (hn : s.fifo.nb = 0) :
    exec .flush s = .next (s.setRes 0) := by
  simp [exec, execFlush, flushWr, hd, hn, Run.toOutcome]

/-- A writer that has no word left to store its bits in (41_bitstream_fifo R85). -/
theorem exec_flush_capacity (s : State) (hd : s.fifo.dir = .wr) (hn : s.fifo.nb ≠ 0)
    (hc : s.cfg.capw.toNat ≤ s.fifo.ptr.toNat) :
    exec .flush s = .next (s.raise .capacity (BitVec.ofNat 64 s.pos)) := by
  simp only [exec, execFlush, hd, flushWr, if_neg hn, if_pos hc, Run.toOutcome, Run.state_raised]

/-- A writer that stores its bits as a word (41_bitstream_fifo R85). -/
theorem exec_flush_stores (s : State) (hd : s.fifo.dir = .wr) (hn : s.fifo.nb ≠ 0)
    (hc : s.fifo.ptr.toNat < s.cfg.capw.toNat) :
    exec .flush s = .next (((s.setMem (s.mem.writeWord s.fifo.ptr.toNat s.fifo.buf)).setRes
      (BitVec.ofNat 64 (64 - s.fifo.nb.toNat))).setFifo ⟨.wr, s.fifo.ptr + 1, 0, 0⟩) := by
  simp only [exec, execFlush, hd, flushWr, if_neg hn, if_neg (Nat.not_le.2 hc), Run.toOutcome, Run.state_ok]

/-- A reader drops the bits held (41_bitstream_fifo R85). -/
theorem exec_flush_reader (s : State) (hd : s.fifo.dir = .rd) :
    exec .flush s = .next ((s.setRes (BitVec.ofNat 64 s.fifo.nb.toNat)).setFifo ⟨.rd, s.fifo.ptr, 0, 0⟩) := by
  simp only [exec, execFlush, hd, flushRd]

/-- Where `FLUSH` leaves the unit unless it faults: at the next word boundary (41_bitstream_fifo R85). -/
theorem exec_flush_pos {s t : State} (hb : s.fifo.bufferOk) (hr : s.fifo.readOk) (he : exec .flush s = .next t)
    (hc : s.fifo.dir = .rd ∨ s.fifo.nb = 0 ∨ s.fifo.ptr.toNat < s.cfg.capw.toNat) :
    t.pos % 64 = 0 ∧ s.pos ≤ t.pos ∧ t.pos < s.pos + 64 := by
  have hlt := hb.1
  cases hd : s.fifo.dir with
  | rd =>
    have hle := s.nb_le_of_readOk hb hr hd
    cases (exec_flush_reader s hd).symm.trans he
    have hpos : ((s.setRes (BitVec.ofNat 64 s.fifo.nb.toNat)).setFifo ⟨.rd, s.fifo.ptr, 0, 0⟩).pos =
        64 * s.fifo.ptr.toNat := rfl
    rw [hpos, s.pos_rd hd]
    omega
  | wr =>
    by_cases hn : s.fifo.nb = 0
    · cases (exec_flush_aligned s hd hn).symm.trans he
      have hpos : (s.setRes 0).pos = s.pos := rfl
      have hzero : s.fifo.nb.toNat = 0 := congrArg BitVec.toNat hn
      rw [hpos, s.pos_wr hd]
      omega
    · have hroom : s.fifo.ptr.toNat < s.cfg.capw.toNat := by
        rcases hc with h | h | h
        · cases hd.symm.trans h
        · exact absurd h hn
        · exact h
      have hpend : s.fifo.nb.toNat ≠ 0 := fun h => hn (BitVec.eq_of_toNat_eq h)
      cases (exec_flush_stores s hd hn hroom).symm.trans he
      have hpos : State.pos (((s.setMem (s.mem.writeWord s.fifo.ptr.toNat s.fifo.buf)).setRes
          (BitVec.ofNat 64 (64 - s.fifo.nb.toNat))).setFifo ⟨.wr, s.fifo.ptr + 1, 0, 0⟩) =
          64 * (s.fifo.ptr + 1).toNat := rfl
      rw [hpos, s.toNat_ptr_succ hroom, s.pos_wr hd]
      omega

/-- What a writer has written stands in `MEM` after `FLUSH` (41_bitstream_fifo R85, 20_memory R51). -/
theorem exec_flush_streamBit (s : State) (hd : s.fifo.dir = .wr) (hb : s.fifo.bufferOk) (hc : s.pos ≤ s.capBits) :
    ∃ u, exec .flush s = .next u ∧ u.capBits = s.capBits ∧ ∀ p < s.pos, u.mem.streamBit p = s.writtenBit p := by
  have hpos := s.pos_wr hd
  have hlt := hb.1
  by_cases hn : s.fifo.nb = 0
  · have hzero : s.fifo.nb.toNat = 0 := congrArg BitVec.toNat hn
    exact ⟨_, exec_flush_aligned s hd hn, rfl, fun p hp => (if_pos (by omega)).symm⟩
  · have hpend : s.fifo.nb.toNat ≠ 0 := fun h => hn (BitVec.eq_of_toNat_eq h)
    have hcap : s.capBits = 64 * s.cfg.capw.toNat := rfl
    refine ⟨_, exec_flush_stores s hd hn (by omega), rfl, fun p hp => ?_⟩
    rw [setFifo_mem, setRes_mem, setMem_mem, Mem.streamBit, State.writtenBit]
    by_cases hlow : p < 64 * s.fifo.ptr.toNat
    · rw [if_pos hlow, Mem.readWord_writeWord_ne _ _ _ _ (by omega), Mem.streamBit]
    · rw [if_neg hlow, show p / 64 = s.fifo.ptr.toNat by omega, Mem.readWord_writeWord,
        show p % 64 = p - 64 * s.fifo.ptr.toNat by omega]

/-! ### `SEEKR` -/

theorem exec_seekr_capacity (s : State) (hc : s.capBits < s.cfg.arg.toNat) :
    exec .seekr s = .next (s.raise .capacity s.cfg.arg) := if_pos hc

theorem exec_seekr (s : State) (hc : s.cfg.arg.toNat ≤ s.capBits) :
    exec .seekr s = .next (s.setFifo (seekReadFifo s.mem s.cfg.arg.toNat)) := if_neg (Nat.not_lt.2 hc)

theorem seekReadFifo_aligned (m : Mem) (p : Nat) (h : p % 64 = 0) :
    seekReadFifo m p = ⟨.rd, BitVec.ofNat 32 (p / 64), 0, 0⟩ := if_neg (not_not.2 h)

theorem seekReadFifo_inside (m : Mem) (p : Nat) (h : p % 64 ≠ 0) :
    seekReadFifo m p = ⟨.rd, BitVec.ofNat 32 (p / 64 + 1),
      BitVec.ofNat 64 ((m.readWord (p / 64)).toNat / 2 ^ (p % 64)), BitVec.ofNat 7 (64 - p % 64)⟩ := if_pos h

theorem seekReadFifo_dir (m : Mem) (p : Nat) : (seekReadFifo m p).dir = .rd := by
  unfold seekReadFifo
  split <;> rfl

/-- The registers of a reader placed inside a word (41_bitstream_fifo R87). -/
theorem seekReadFifo_registers_inside (m : Mem) (p : Nat) (hp : p ≤ 64 * (2 ^ 32 - 1)) (h : p % 64 ≠ 0) :
    (seekReadFifo m p).ptr.toNat = p / 64 + 1 ∧ (seekReadFifo m p).nb.toNat = 64 - p % 64 ∧
      (seekReadFifo m p).buf.toNat = (m.readWord (p / 64)).toNat / 2 ^ (p % 64) := by
  rw [seekReadFifo_inside m p h]
  refine ⟨Nat.mod_eq_of_lt (by omega), Nat.mod_eq_of_lt (by omega), Nat.mod_eq_of_lt ?_⟩
  exact (Nat.div_le_self _ _).trans_lt (BitVec.isLt _)

/-- The registers of a reader placed at a word boundary (41_bitstream_fifo R87). -/
theorem seekReadFifo_registers_aligned (m : Mem) (p : Nat) (hp : p ≤ 64 * (2 ^ 32 - 1)) (h : p % 64 = 0) :
    (seekReadFifo m p).ptr.toNat = p / 64 ∧ (seekReadFifo m p).nb = 0 ∧ (seekReadFifo m p).buf = 0 := by
  rw [seekReadFifo_aligned m p h]
  exact ⟨Nat.mod_eq_of_lt (by omega), rfl, rfl⟩

theorem State.pos_setFifo_seekReadFifo (s : State) (m : Mem) (p : Nat) (hp : p ≤ 64 * (2 ^ 32 - 1)) :
    (s.setFifo (seekReadFifo m p)).pos = p := by
  rw [State.pos_rd _ (seekReadFifo_dir m p), setFifo_fifo]
  by_cases h : p % 64 = 0
  · obtain ⟨hptr, hnb, -⟩ := seekReadFifo_registers_aligned m p hp h
    have hzero : (seekReadFifo m p).nb.toNat = 0 := congrArg BitVec.toNat hnb
    omega
  · obtain ⟨hptr, hnb, -⟩ := seekReadFifo_registers_inside m p hp h
    omega

/-- A reader placed at `p` delivers the stream of `MEM` from bit `p` on (41_bitstream_fifo R87, 20_memory R52). -/
theorem State.nextBit_setFifo_seekReadFifo (s : State) (p : Nat) (hp : p ≤ 64 * (2 ^ 32 - 1)) (j : Nat) :
    (s.setFifo (seekReadFifo s.mem p)).nextBit j = s.mem.streamBit (p + j) := by
  rw [State.nextBit, setFifo_fifo, setFifo_mem]
  by_cases h : p % 64 = 0
  · obtain ⟨hptr, hnb, -⟩ := seekReadFifo_registers_aligned s.mem p hp h
    have hzero : (seekReadFifo s.mem p).nb.toNat = 0 := congrArg BitVec.toNat hnb
    rw [hptr, hzero, if_neg (Nat.not_lt_zero j), Nat.sub_zero, show 64 * (p / 64) = p by omega]
  · obtain ⟨hptr, hnb, hbuf⟩ := seekReadFifo_registers_inside s.mem p hp h
    rw [hptr, hnb]
    by_cases hj : j < 64 - p % 64
    · rw [if_pos hj, BitVec.getLsbD, hbuf, Nat.testBit_div_two_pow, Mem.streamBit, BitVec.getLsbD,
        show (p + j) / 64 = p / 64 by omega, show (p + j) % 64 = j + p % 64 by omega]
    · rw [if_neg hj, show 64 * (p / 64 + 1) + (j - (64 - p % 64)) = p + j by omega]

/-! ### `SEEKW` -/

theorem State.rollsBack_iff (s : State) (p : Nat) : s.rollsBack p = true ↔
    s.fifo.dir = .wr ∧ p / 64 = s.fifo.ptr.toNat ∧ p % 64 ≤ s.fifo.nb.toNat := by
  simp only [State.rollsBack, Bool.and_eq_true, decide_eq_true_eq, and_assoc]

theorem exec_seekw_capacity (s : State) (hc : s.capBits < s.cfg.arg.toNat) :
    exec .seekw s = .next (s.raise .capacity s.cfg.arg) := if_pos hc

/-- A unit that writes at position `p`, with the bits of `w` below `p` pending. -/
structure Fifo.WritesAt (f : Fifo) (p : Nat) (w : Word) : Prop where
  dir : f.dir = .wr
  ptr : f.ptr.toNat = p / 64
  nb : f.nb.toNat = p % 64
  buf : f.buf.toNat = w.toNat % 2 ^ (p % 64)

theorem Fifo.WritesAt.pos {f : Fifo} {p : Nat} {w : Word} (h : f.WritesAt p w) (s : State) :
    (s.setFifo f).pos = p := by
  rw [State.pos_wr _ h.dir, setFifo_fifo, h.ptr, h.nb]
  omega

theorem toNat_ofNat_mod_two_pow (w : Word) (n : Nat) :
    (BitVec.ofNat 64 (w.toNat % 2 ^ n)).toNat = w.toNat % 2 ^ n :=
  Nat.mod_eq_of_lt ((Nat.mod_le _ _).trans_lt w.isLt)

theorem seekWriteFifo_writesAt (m : Mem) (p : Nat) (hp : p ≤ 64 * (2 ^ 32 - 1)) :
    (seekWriteFifo m p).WritesAt p (m.readWord (p / 64)) := by
  have hptr : (BitVec.ofNat 32 (p / 64)).toNat = p / 64 := Nat.mod_eq_of_lt (by omega)
  unfold seekWriteFifo
  split
  case isTrue h => exact ⟨rfl, hptr, Nat.mod_eq_of_lt (by omega), toNat_ofNat_mod_two_pow _ _⟩
  case isFalse h =>
    have hzero := not_not.1 h
    exact ⟨rfl, hptr, hzero.symm, by rw [hzero, Nat.pow_zero, Nat.mod_one]; rfl⟩

/-- `SEEKW` by roll-back inside `BUF` (41_bitstream_fifo R88, first branch). -/
theorem exec_seekw_rollsBack (s : State) (hc : s.cfg.arg.toNat ≤ s.capBits) (h : s.rollsBack s.cfg.arg.toNat = true) :
    ∃ f, exec .seekw s = .next (s.setFifo f) ∧ f.WritesAt s.cfg.arg.toNat s.fifo.buf := by
  obtain ⟨hd, hptr, -⟩ := (s.rollsBack_iff _).1 h
  refine ⟨_, (if_neg (Nat.not_lt.2 hc)).trans (if_pos h), hd, hptr.symm, Nat.mod_eq_of_lt (by omega),
    toNat_ofNat_mod_two_pow _ _⟩

/-- `SEEKW` by a reload from `MEM` (41_bitstream_fifo R88, second branch). -/
theorem exec_seekw_reloads (s : State) (hc : s.cfg.arg.toNat ≤ s.capBits)
    (h : ¬ s.rollsBack s.cfg.arg.toNat = true) :
    ∃ f, exec .seekw s = .next (s.setFifo f) ∧
      f.WritesAt s.cfg.arg.toNat (s.mem.readWord (s.cfg.arg.toNat / 64)) :=
  ⟨_, (if_neg (Nat.not_lt.2 hc)).trans (if_neg h), seekWriteFifo_writesAt _ _ (hc.trans s.capBits_le)⟩

/-- A writer that seeks back has pending what it had written below the position, whichever branch it takes
(41_bitstream_fifo R88). -/
theorem exec_seekw_back (s : State) (hd : s.fifo.dir = .wr) (hb : s.fifo.bufferOk) (hp : s.cfg.arg.toNat ≤ s.pos)
    (hc : s.cfg.arg.toNat ≤ s.capBits) :
    ∃ f w, exec .seekw s = .next (s.setFifo f) ∧ f.WritesAt s.cfg.arg.toNat w ∧
      ∀ j < s.cfg.arg.toNat % 64, w.getLsbD j = s.writtenBit (64 * (s.cfg.arg.toNat / 64) + j) := by
  have hpos := s.pos_wr hd
  have hlt := hb.1
  by_cases h : s.rollsBack s.cfg.arg.toNat = true
  · obtain ⟨f, he, hf⟩ := exec_seekw_rollsBack s hc h
    obtain ⟨-, hptr, -⟩ := (s.rollsBack_iff _).1 h
    refine ⟨f, _, he, hf, fun j _ => ?_⟩
    rw [hptr, State.writtenBit, if_neg (by omega), Nat.add_sub_cancel_left]
  · obtain ⟨f, he, hf⟩ := exec_seekw_reloads s hc h
    refine ⟨f, _, he, hf, fun j hj => ?_⟩
    have hbelow : s.cfg.arg.toNat / 64 < s.fifo.ptr.toNat := by
      rw [State.rollsBack_iff] at h
      by_contra hge
      exact h ⟨hd, by omega, by omega⟩
    rw [State.writtenBit, if_pos (by omega), Mem.streamBit,
      show (64 * (s.cfg.arg.toNat / 64) + j) / 64 = s.cfg.arg.toNat / 64 by omega,
      show (64 * (s.cfg.arg.toNat / 64) + j) % 64 = j by omega]

/-- A sound writer's unit is fixed by its position and the bits pending. -/
theorem Fifo.WritesAt.eq_fifo {f : Fifo} {w : Word} {s : State} (h : f.WritesAt s.pos w) (hd : s.fifo.dir = .wr)
    (hb : s.fifo.bufferOk) (hw : ∀ j < s.fifo.nb.toNat, w.getLsbD j = s.fifo.buf.getLsbD j) : f = s.fifo := by
  have hlt := hb.1
  have hpos := s.pos_wr hd
  have hptr : f.ptr = s.fifo.ptr := BitVec.eq_of_toNat_eq (by rw [h.ptr]; omega)
  have hnb : f.nb = s.fifo.nb := BitVec.eq_of_toNat_eq (by rw [h.nb]; omega)
  have hbuf : f.buf = s.fifo.buf := by
    apply BitVec.eq_of_toNat_eq
    rw [h.buf, show s.pos % 64 = s.fifo.nb.toNat by omega]
    apply Nat.eq_of_testBit_eq
    intro j
    rw [Nat.testBit_mod_two_pow]
    by_cases hj : j < s.fifo.nb.toNat
    · rw [decide_eq_true hj, Bool.true_and]
      exact hw j hj
    · rw [decide_eq_false hj, Bool.false_and, testBit_beyond hb.2 (by omega)]
  calc f = ⟨f.dir, f.ptr, f.buf, f.nb⟩ := rfl
    _ = ⟨s.fifo.dir, s.fifo.ptr, s.fifo.buf, s.fifo.nb⟩ := by rw [h.dir, hptr, hbuf, hnb, hd]
    _ = s.fifo := rfl

/-! ### Sequences of fields -/

theorem Wrote.setArg {bs : List Bool} {s t : State} (h : Wrote bs s t) (a : Word) :
    Wrote bs (withArg s a) (withArg t a) :=
  { h with same := by rw [h.same]; rfl }

/-- The bits of a list of fields, in the order of the stream. -/
def streamOf (l : List (Word × BitVec 7)) : List Bool := l.flatMap fun e => fieldBits e.1 e.2.toNat

theorem length_fieldBits (v : Word) (k : Nat) : (fieldBits v k).length = k := length_tab k _

theorem getD_fieldBits (v : Word) (k j : Nat) : (fieldBits v k).getD j false = (decide (j < k) && v.getLsbD j) := by
  rw [fieldBits, ← tab, getD_tab]
  by_cases h : j < k <;> simp [h]

theorem length_streamOf (l : List (Word × BitVec 7)) : (streamOf l).length = (l.map fun e => e.2.toNat).sum := by
  rw [streamOf, List.length_flatMap]
  simp only [length_fieldBits]

/-- `ARG` set and one field written (41_bitstream_fifo R83). -/
theorem exec_wbits_wrote (v : Word) (k : BitVec 7) (s : State) (hk : k.toNat ≤ 64) (h : readyToWrite s k.toNat) :
    ∃ t, exec (.wbits k) (withArg s v) = .next t ∧ t.flt = s.flt ∧
      Wrote (fieldBits v k.toNat) (withArg s v) t := by
  obtain ⟨hd, hb, hc⟩ := h
  refine ⟨(withArg s v).pushBits v k.toNat, ?_, by rw [State.pushBits_eq]; rfl,
    pushBits_wrote (withArg s v) v k.toNat hk hd hb hc⟩
  rw [exec_wbits k _ hk]
  exact congrArg Run.toOutcome (writeBits_ok v k.toNat (withArg s v) hd hc)

/-- A writer that has room writes every field of a list, one after another, and no fault is recorded. Only `ARG`
differs from what the bits written leave (41_bitstream_fifo R83). -/
theorem writeAll_wrote (l : List (Word × BitVec 7)) (s : State) (hk : ∀ e ∈ l, e.2.toNat ≤ 64)
    (h : readyToWrite s (l.map fun e => e.2.toNat).sum) :
    ∃ t, writeAll l s = some t ∧ Wrote (streamOf l) s (withArg t s.cfg.arg) := by
  induction l generalizing s with
  | nil =>
    obtain ⟨hd, hb, -⟩ := h
    exact ⟨s, rfl, .refl s hd hb⟩
  | cons e rest ih =>
    obtain ⟨v, k⟩ := e
    obtain ⟨hk0, hkrest⟩ := List.forall_mem_cons.1 hk
    obtain ⟨hd, hb, hc⟩ := h
    simp only [List.map_cons, List.sum_cons] at hc
    obtain ⟨u, hrun, hflt, hw⟩ := exec_wbits_wrote v k s hk0 ⟨hd, hb, by omega⟩
    have hpos : u.pos = s.pos + k.toNat := hw.pos.trans (congrArg (s.pos + ·) (length_fieldBits v _))
    have hcap : u.capBits = s.capBits := hw.capBits
    obtain ⟨t, ht, hwt⟩ := ih u hkrest ⟨hw.dir, hw.buffer, by omega⟩
    have harg : u.cfg.arg = v := by rw [hw.same]; rfl
    rw [harg] at hwt
    exact ⟨t, by simp only [writeAll, hrun, if_pos hflt, ht], (hw.trans hwt).setArg s.cfg.arg⟩

theorem testBit_bitsValue (bs : List Bool) (j : Nat) : (bitsValue bs).testBit j = bs.getD j false := by
  induction bs generalizing j with
  | nil => simp [bitsValue]
  | cons b bs ih =>
    have e : bitsValue (b :: bs) = b.toNat + 2 ^ 1 * bitsValue bs := rfl
    rw [e, testBit_add_mul _ _ _ _ b.toNat_lt]
    cases j with
    | zero => cases b <;> rfl
    | succ j => exact ih j

/-- A word that holds the first `k` members of a list and zeros above them. -/
theorem eq_ofNat_bitsValue_take {v : Word} {k : Nat} {bs : List Bool}
    (h : ∀ j < 64, v.getLsbD j = (decide (j < k) && bs.getD j false)) :
    v = BitVec.ofNat 64 (bitsValue (bs.take k)) := by
  apply BitVec.eq_of_getLsbD_eq
  intro j hj
  rw [h j hj, BitVec.getLsbD_ofNat, decide_eq_true hj, Bool.true_and, testBit_bitsValue,
    List.getD_eq_getElem?_getD, List.getD_eq_getElem?_getD, List.getElem?_take]
  by_cases hjk : j < k <;> simp [hjk]

theorem bitsValue_fieldBits (v : Word) (k : Nat) : bitsValue (fieldBits v k) = v.toNat % 2 ^ k := by
  apply Nat.eq_of_testBit_eq
  intro j
  rw [testBit_bitsValue, getD_fieldBits, Nat.testBit_mod_two_pow, BitVec.getLsbD]

/-- Reads of the widths written give back each field (41_bitstream_fifo R91). -/
theorem regrouped_streamOf (l : List (Word × BitVec 7)) :
    regrouped (l.map Prod.snd) (streamOf l) = l.map fun e => BitVec.ofNat 64 (e.1.toNat % 2 ^ e.2.toNat) := by
  induction l with
  | nil => rfl
  | cons e rest ih =>
    have hcons : streamOf (e :: rest) = fieldBits e.1 e.2.toNat ++ streamOf rest := List.flatMap_cons
    rw [hcons, List.map_cons, regrouped, List.take_left' (length_fieldBits _ _),
      List.drop_left' (length_fieldBits _ _), bitsValue_fieldBits, ih, List.map_cons]

/-- A reader that has bits left reads every field of a list of widths, one after another, and no fault is recorded
(41_bitstream_fifo R89). -/
theorem readAll_regrouped (ks : List (BitVec 7)) (bs : List Bool) (s : State) (hk : ∀ k ∈ ks, k.toNat ≤ 64)
    (h : readyToRead s (ks.map BitVec.toNat).sum)
    (hbits : ∀ j < (ks.map BitVec.toNat).sum, s.nextBit j = bs.getD j false) :
    readAll ks s = some (regrouped ks bs) := by
  induction ks generalizing bs s with
  | nil => rfl
  | cons k ks ih =>
    obtain ⟨hk0, hkrest⟩ := List.forall_mem_cons.1 hk
    rw [List.map_cons, List.sum_cons] at h hbits
    obtain ⟨hd, hb, hr, hc⟩ := h
    obtain ⟨t, e, -, ⟨same, dir, buffer, read, pos, next⟩, hres⟩ :=
      storeRes_readBits_delivers k.toNat s hk0 ⟨hd, hb, hr, by omega⟩
    have hrun : exec (.rbits k) s = .next t := by
      rw [exec_rbits k s hk0, e]
      rfl
    have hflt : t.flt = s.flt := (congrArg State.flt same :)
    have hcap : t.capBits = s.capBits := (congrArg State.capBits same :)
    have hrest : readAll ks t = some (regrouped ks (bs.drop k.toNat)) := by
      refine ih _ t hkrest ⟨dir, buffer, read, ?_⟩ fun j hj => ?_
      · change t.pos = _ at pos
        omega
      · rw [List.getD_eq_getElem?_getD, List.getElem?_drop, ← List.getD_eq_getElem?_getD,
          ← hbits _ (Nat.add_lt_add_left hj _)]
        exact next j
    have hval : t.res = BitVec.ofNat 64 (bitsValue (bs.take k.toNat)) := by
      refine eq_ofNat_bitsValue_take fun j _ => ?_
      rw [hres j]
      by_cases hjk : j < k.toNat
      · rw [hbits j (by omega)]
      · simp only [hjk, decide_false, Bool.false_and]
    rw [readAll, hrun, regrouped]
    simp only [if_pos hflt, hrest, Option.map_some, hval]

/-! ### Round trips -/

/-- What is written and flushed stands before a reader that seeks to where the writing began (41_bitstream_fifo
R85, R87). -/
theorem Wrote.exec_flush_seekr {bs : List Bool} {s t : State} (h : Wrote bs s t)
    (hc : s.pos + bs.length ≤ s.capBits) :
    ∃ u r, exec .flush t = .next u ∧ exec .seekr (withArg u (BitVec.ofNat 64 s.pos)) = .next r ∧
      readyToRead r bs.length ∧ ∀ j < bs.length, r.nextBit j = bs.getD j false := by
  have hpos := h.pos
  have hcapt := h.capBits
  obtain ⟨u, hu, hcapu, hstream⟩ := exec_flush_streamBit t h.dir h.buffer (by omega)
  have harg : (withArg u (BitVec.ofNat 64 s.pos)).cfg.arg.toNat = s.pos := s.toNat_ofNat_pos
  have hcap : (withArg u (BitVec.ofNat 64 s.pos)).capBits = t.capBits := hcapu
  have hseek := exec_seekr (withArg u (BitVec.ofNat 64 s.pos)) (by omega)
  rw [harg] at hseek
  have hp : s.pos ≤ 64 * (2 ^ 32 - 1) := le_trans (by omega) s.capBits_le
  obtain ⟨hbuffer, hread⟩ := seekReadFifo_sound u.mem s.pos hp
  refine ⟨u, _, hu, hseek, ⟨seekReadFifo_dir _ _, hbuffer, hread, ?_⟩, fun j hj => ?_⟩
  · rw [State.pos_setFifo_seekReadFifo _ _ _ hp, setFifo_capBits, hcap, hcapt]
    exact hc
  · calc _ = u.mem.streamBit (s.pos + j) := State.nextBit_setFifo_seekReadFifo _ _ hp j
      _ = t.writtenBit (s.pos + j) := hstream _ (by omega)
      _ = bs.getD j false := h.wrote j hj

/-- A writer that seeks back to where the writing began has the unit it had there (41_bitstream_fifo R88). -/
theorem Wrote.exec_seekw {bs : List Bool} {s t : State} (h : Wrote bs s t) (hd : s.fifo.dir = .wr)
    (hb : s.fifo.bufferOk) (harg : s.cfg.arg.toNat = s.pos) (hc : s.pos ≤ s.capBits) :
    ∃ u, exec .seekw t = .next u ∧ u.fifo = s.fifo := by
  have hlt := hb.1
  have hpos := s.pos_wr hd
  have hpost := h.pos
  have hargt : t.cfg.arg.toNat = s.pos := by rw [h.cfg, harg]
  obtain ⟨f, w, he, hf, hbits⟩ := exec_seekw_back t h.dir h.buffer (by omega) (by rw [h.capBits]; omega)
  rw [hargt] at hf hbits
  refine ⟨_, he, hf.eq_fifo hd hb fun j hj => ?_⟩
  calc w.getLsbD j = t.writtenBit (64 * (s.pos / 64) + j) := hbits j (by omega)
    _ = s.writtenBit (64 * (s.pos / 64) + j) := h.below _ (by omega)
    _ = s.fifo.buf.getLsbD j := by
      rw [show s.pos / 64 = s.fifo.ptr.toNat by omega, State.writtenBit, if_neg (by omega), Nat.add_sub_cancel_left]

end Sys2Proof.Machine

namespace Sys2Proof.Proofs

open Sys2Proof Sys2Proof.Machine Sys2Proof.Claims

/-- Settles O15: both commands are `write_bits` of a field of `ARG`, whose two branches store a word or keep the bits
pending. -/
theorem writeCommandsFollowWriteBits : Obligations.WriteCommandsFollowWriteBits := by
  intro s k x i hi
  obtain ⟨v, hexec, rfl⟩ := exec_write s hi
  rw [hexec]
  refine ⟨fun hd => by rw [writeBits_dirErr v k s hd]; rfl,
    fun hd hc => by rw [writeBits_capacity v k s hd hc]; rfl, fun hd hc => ?_⟩
  refine ⟨s.pushBits v k, by rw [writeBits_ok v k s hd hc]; rfl, s.pushBits_eq v k, ?_, fun hw => ?_, fun hw => ?_⟩
  · exact (pushBits_stored s v k hd hc).dir.trans hd
  · rw [s.pushBits_of_word v k hw]
    exact ⟨rfl, rfl, rfl, Mem.readWord_writeWord _ _ _, fun a ha => Mem.readByte_writeWord_ne _ _ _ _ ha⟩
  · rw [s.pushBits_of_pending v k hw]
    exact ⟨rfl, rfl, rfl, rfl⟩

/-- Settles O17: both commands are `read_bits` into `RES`, from the bits held or with bits of the next word. -/
theorem readCommandsFollowReadBits : Obligations.ReadCommandsFollowReadBits := by
  intro s k i hi
  rw [exec_read s hi]
  refine ⟨fun hd => by rw [readBits_dirErr k s hd]; rfl,
    fun hd hc => by rw [readBits_capacity k s hd hc]; rfl, fun hd hc => ?_⟩
  refine ⟨(s.pullBits k).setRes (s.pullValue k), by rw [readBits_ok k s hd hc]; rfl, ?_⟩
  by_cases hw : k ≤ s.fifo.nb.toNat
  · rw [s.pullBits_of_held k hw]
    exact ⟨rfl, hd, fun _ => ⟨if_pos hw, rfl, rfl, rfl⟩, fun _ _ hlt => absurd hw (Nat.not_le.2 hlt)⟩
  · rw [s.pullBits_of_word k (Nat.not_le.1 hw)]
    refine ⟨rfl, hd, fun hle => absurd hle hw, ?_⟩
    rintro need w - rfl rfl
    exact ⟨if_neg hw, rfl, rfl, rfl⟩

/-- Settles O20: the branches of `FLUSH`, and where they leave the position. -/
theorem flushAlignsToTheNextWord : Obligations.FlushAlignsToTheNextWord := by
  refine ⟨decodeWord_ofNat rfl rfl, fun s => ⟨exec_flush_aligned s, exec_flush_capacity s, fun hd hn hc => ?_,
    exec_flush_reader s, fun t => exec_flush_pos⟩⟩
  exact ⟨_, exec_flush_stores s hd hn hc, rfl, rfl, rfl, Mem.readWord_writeWord _ _ _,
    fun a ha => Mem.readByte_writeWord_ne _ _ _ _ ha⟩

/-- Settles O21: the position fits `RES`. -/
theorem tellReportsThePosition : Obligations.TellReportsThePosition :=
  ⟨decodeWord_ofNat rfl rfl, fun s => ⟨rfl, s.toNat_ofNat_pos⟩⟩

/-- Settles O22: the registers of a reader placed inside a word or at a word boundary. -/
theorem seekrPositionsTheReader : Obligations.SeekrPositionsTheReader := by
  refine ⟨decodeWord_ofNat rfl rfl, ?_⟩
  rintro s p rfl
  refine ⟨exec_seekr_capacity s, fun hc => ?_⟩
  have hp := hc.trans s.capBits_le
  exact ⟨_, exec_seekr s hc, rfl, seekReadFifo_dir _ _, s.pos_setFifo_seekReadFifo _ _ hp,
    seekReadFifo_registers_inside _ _ hp, seekReadFifo_registers_aligned _ _ hp,
    s.nextBit_setFifo_seekReadFifo _ hp⟩

/-- Settles O23: both branches place a writer at `p`, with the bits below `p` of `BUF` or of the word of `MEM`. -/
theorem seekwPositionsTheWriter : Obligations.SeekwPositionsTheWriter := by
  refine ⟨decodeWord_ofNat rfl rfl, ?_⟩
  rintro s p rfl
  refine ⟨exec_seekw_capacity s, fun hc => ?_⟩
  by_cases h : s.rollsBack s.cfg.arg.toNat = true
  · obtain ⟨f, he, hf⟩ := exec_seekw_rollsBack s hc h
    exact ⟨_, he, rfl, hf.dir, hf.pos s, hf.ptr, hf.nb, fun _ _ _ => hf.buf,
      fun hn => absurd ((s.rollsBack_iff _).1 h) hn⟩
  · obtain ⟨f, he, hf⟩ := exec_seekw_reloads s hc h
    exact ⟨_, he, rfl, hf.dir, hf.pos s, hf.ptr, hf.nb,
      fun hd hptr hnb => absurd ((s.rollsBack_iff _).2 ⟨hd, hptr, hnb⟩) h, fun _ => hf.buf⟩

/-- Settles O24: seeking back leaves pending what was written below the saved position, which the probe has not
changed, and that is what was pending there. -/
theorem seekwUndoesAProbe : Obligations.SeekwUndoesAProbe := by
  intro s l hk h
  obtain ⟨t, ht, hw⟩ := writeAll_wrote l s hk h
  obtain ⟨hd, hb, hc⟩ := h
  obtain ⟨u, hu, hfifo⟩ := (hw.setArg (BitVec.ofNat 64 s.pos)).exec_seekw hd hb s.toNat_ofNat_pos
    ((Nat.le_add_right _ _).trans hc)
  exact ⟨t, u, ht, hu, hfifo⟩

/-- Settles O19: `FLUSH` leaves the fields in `MEM`, `SEEKR` places a reader at their first bit, and reads give back
the bits in groups of their own widths. -/
theorem readsGiveBackTheFieldsWritten : Obligations.ReadsGiveBackTheFieldsWritten := by
  intro s l hk h
  obtain ⟨t, ht, hw⟩ := writeAll_wrote l s hk h
  obtain ⟨-, -, hc⟩ := h
  rw [← length_streamOf] at hc
  obtain ⟨u, r, hu, hr, ⟨hdir, hbuffer, hread, hroom⟩, hbits⟩ := (hw.setArg t.cfg.arg).exec_flush_seekr hc
  rw [length_streamOf] at hroom hbits
  have reads (ks : List (BitVec 7)) (hks : ∀ k ∈ ks, k.toNat ≤ 64)
      (hsum : (ks.map BitVec.toNat).sum ≤ (l.map fun e => e.2.toNat).sum) :
      readAll ks r = some (regrouped ks (streamOf l)) :=
    readAll_regrouped ks _ r hks ⟨hdir, hbuffer, hread, by omega⟩ fun j hj => hbits j (by omega)
  refine ⟨t, u, r, ht, hu, hr, ?_, reads⟩
  rw [← regrouped_streamOf]
  refine reads _ (fun k hkl => ?_) (by rw [List.map_map]; rfl)
  obtain ⟨e, he, rfl⟩ := List.mem_map.1 hkl
  exact hk e he

/-- Settles O25: `DIR` is in the frame of every command and register, and each side's commands test it first. -/
theorem directionLaw : Obligations.DirectionLaw := by
  refine ⟨fun i s t he hr hw hs => ?_, fun i s hwf h => ?_, fun a s t he hres hcmd => ?_⟩
  · obtain ⟨u, hu, rfl | ⟨f, info, rfl⟩⟩ := exec_next_within hs he
    all_goals exact hu.dir (by simp [hr, hw])
  · obtain ⟨hi, hd⟩ | ⟨hi, hd⟩ := h
    · exact exec_writeSide_dirErr hwf hi (by simp [hd])
    · exact exec_readSide_dirErr hwf hi (by simp [hd])
  · exact congrArg Fifo.dir (performAccess_fifo he hres hcmd)

end Sys2Proof.Proofs
end

section
/-! PROOFS, family 42_lifting_transform: the lifting of a line and its bounds, the passes and the sequency order
(42_lifting_transform R101 to R112), on which `FWDXF` and `INVXF` rest. -/

namespace Sys2Proof.Machine

open Sys2Proof Sys2Proof.Claims

variable {N : Nat}

/-! ### The lifting of a line -/

theorem fwdLine_of_eq_fwdLift {x y : Line N} (h : y = fwdLift x) :
    fwdLine x.c0 x.c1 x.c2 x.c3 y.c0 y.c1 y.c2 y.c3 := by
  subst h
  exact ⟨_, _, _, _, _, _, _, _, rfl, rfl, rfl, rfl, rfl, rfl, rfl, rfl, rfl, rfl, rfl, rfl⟩

/-- The inverse lines lead from the coefficients of a line back to its samples (42_lifting_transform R102, R103). -/
theorem invLine_of_eq_fwdLift {x y : Line N} (h : y = fwdLift x) :
    invLine y.c0 y.c1 y.c2 y.c3 x.c0 x.c1 x.c2 x.c3 := by
  obtain rfl : x = invLift y := by rw [h, invLift_fwdLift]
  exact ⟨_, _, _, _, rfl, rfl, rfl, rfl, rfl, rfl, rfl, rfl⟩

/-- A constant line has a mean and no differences (42_lifting_transform R101). -/
theorem fwdLift_constant (x : BitVec N) : fwdLift ⟨x, x, x, x⟩ = ⟨x, 0, 0, 0⟩ := by
  simp [fwdLift]

/-! ### Bounds of the lifting: lines that do not wrap -/

/-- An integer within the signed range is not wrapped (00_scope R7). -/
theorem bmod_eq_of_natAbs_le {k : Int} {M : Nat} (hN : 1 ≤ N) (hM : M < 2 ^ (N - 1)) (hk : k.natAbs ≤ M) :
    k.bmod (2 ^ N) = k := by
  rw [show 2 ^ N = 2 * 2 ^ (N - 1) by rw [← Nat.pow_succ']; congr 1; omega]
  exact Int.bmod_eq_of_le (by omega) (by omega)

theorem toInt_sshiftRight_one (x : BitVec N) : (x.sshiftRight 1).toInt = x.toInt / 2 :=
  BitVec.toInt_sshiftRight.trans (Int.shiftRight_eq_div_pow _ 1)

section

variable {x y : BitVec N} {B : Nat}

theorem toInt_sub_of_natAbs_le (hN : 1 ≤ N) (hB : 2 * B < 2 ^ (N - 1)) (hx : x.toInt.natAbs ≤ B)
    (hy : y.toInt.natAbs ≤ B) : (x - y).toInt = x.toInt - y.toInt :=
  BitVec.toInt_sub.trans (bmod_eq_of_natAbs_le hN hB (by omega))

theorem natAbs_sub_le_double (hN : 1 ≤ N) (hB : 2 * B < 2 ^ (N - 1)) (hx : x.toInt.natAbs ≤ B)
    (hy : y.toInt.natAbs ≤ B) : (x - y).toInt.natAbs ≤ 2 * B := by
  rw [toInt_sub_of_natAbs_le hN hB hx hy]
  omega

/-- The mean of two values, as `fwd_lift` forms it from one and their difference (42_lifting_transform R101). -/
theorem natAbs_mean_le (hN : 1 ≤ N) (hB : 2 * B < 2 ^ (N - 1)) (hx : x.toInt.natAbs ≤ B)
    (hy : y.toInt.natAbs ≤ B) : (y + (x - y).sshiftRight 1).toInt.natAbs ≤ B := by
  have hmean : (y.toInt + (x.toInt - y.toInt) / 2).natAbs ≤ B := by omega
  rwa [BitVec.toInt_add, toInt_sshiftRight_one, toInt_sub_of_natAbs_le hN hB hx hy,
    bmod_eq_of_natAbs_le hN (by omega) hmean]

/-- The coefficient `v` of two differences (42_lifting_transform R101). -/
theorem toInt_sub_half_of_natAbs_le (hN : 1 ≤ N) (hB : 3 * B < 2 ^ (N - 1)) (hx : x.toInt.natAbs ≤ 2 * B)
    (hy : y.toInt.natAbs ≤ 2 * B) : (y - x.sshiftRight 1).toInt = y.toInt - x.toInt / 2 := by
  rw [BitVec.toInt_sub, toInt_sshiftRight_one, bmod_eq_of_natAbs_le hN hB (by omega)]

theorem natAbs_sub_half_le (hN : 1 ≤ N) (hB : 3 * B < 2 ^ (N - 1)) (hx : x.toInt.natAbs ≤ 2 * B)
    (hy : y.toInt.natAbs ≤ 2 * B) : (y - x.sshiftRight 1).toInt.natAbs ≤ 3 * B := by
  rw [toInt_sub_half_of_natAbs_le hN hB hx hy]
  omega

/-- The coefficient `u` of two differences (42_lifting_transform R101, R112). -/
theorem natAbs_add_half_le (hN : 1 ≤ N) (hB : 3 * B < 2 ^ (N - 1)) (hx : x.toInt.natAbs ≤ 2 * B)
    (hy : y.toInt.natAbs ≤ 2 * B) :
    2 * (x + (y - x.sshiftRight 1).sshiftRight 1).toInt.natAbs ≤ 5 * B + 1 := by
  have hu : 2 * (x.toInt + (y.toInt - x.toInt / 2) / 2).natAbs ≤ 5 * B + 1 := by omega
  rwa [BitVec.toInt_add, toInt_sshiftRight_one, toInt_sub_half_of_natAbs_le hN hB hx hy,
    bmod_eq_of_natAbs_le hN hB (by omega)]

end

/-! ### Passes -/

theorem getD_linePass (lift : Line N → Line N) (n a i : Nat) (T : List (BitVec N)) (hi : i < n) :
    (linePass lift n a T).getD i 0 = (lift (lineAt T a (lineBase i a))).get (coord i a) := by
  rw [linePass, getD_tab, if_pos hi, lineBase]

/-- Each pass lifts every line along its axis (42_lifting_transform R104). -/
theorem lineAt_fwdPasses_succ {d a b : Nat} (T : List (BitVec N)) (ha : a < d) (hb : b < 4 ^ d)
    (h0 : coord b a = 0) :
    lineAt (fwdPasses (4 ^ d) (a + 1) T) a b = fwdLift (lineAt (fwdPasses (4 ^ d) a T) a b) :=
  lineAt_linePass _ _ _ _ _ ha h0 hb

/-- Member `i` is on coordinate 0 of the first `e + 1` axes when it is so of the first `e` and of axis `e`. -/
theorem mod_four_pow_succ_eq_zero (i e : Nat) : i % 4 ^ (e + 1) = 0 ↔ i % 4 ^ e = 0 ∧ coord i e = 0 := by
  simp [Nat.mod_pow_succ, coord]

/-- The axes below a line's own do not tell its members apart. -/
theorem add_mul_four_pow_mod (b c e : Nat) : (b + c * 4 ^ e) % 4 ^ e = b % 4 ^ e := Nat.add_mul_mod_self_right _ _ _

theorem lineAt_eq_constant {T : List (BitVec N)} {a b : Nat} {x : BitVec N}
    (h : ∀ k < 4, T.getD (b + k * 4 ^ a) 0 = x) : lineAt T a b = ⟨x, x, x, x⟩ := by
  refine Line.ext_get _ _ fun k hk => ?_
  rw [lineAt_get _ _ _ _ hk, h k hk]
  simp [Line.get]

/-- After the passes along the first `e` axes a constant block holds the constant on coordinate 0 of those axes and
zeros elsewhere (42_lifting_transform R104, R110). -/
theorem getD_fwdPasses_constant {d e i : Nat} {T : List (BitVec N)} {c : BitVec N}
    (hT : ∀ j < 4 ^ d, T.getD j 0 = c) (he : e ≤ d) (hi : i < 4 ^ d) :
    (fwdPasses (4 ^ d) e T).getD i 0 = if i % 4 ^ e = 0 then c else 0 := by
  induction e generalizing i with
  | zero => exact (hT i hi).trans (if_pos (Nat.mod_one i)).symm
  | succ e ih =>
    have hmod : lineBase i e % 4 ^ e = i % 4 ^ e := by
      rw [← add_mul_four_pow_mod _ (coord i e), lineBase_add]
    have hline : lineAt (fwdPasses (4 ^ d) e T) e (lineBase i e) = _ := lineAt_eq_constant fun k hk => by
      have hmember := member_lt _ _ k d (coord_lineBase i e) hk he (lt_of_le_of_lt (lineBase_le i e) hi)
      rw [ih (by omega) hmember, add_mul_four_pow_mod, hmod]
    rw [fwdPasses, getD_linePass _ _ _ _ _ hi, hline, fwdLift_constant]
    by_cases h0 : coord i e = 0 <;> simp [h0, mod_four_pow_succ_eq_zero, Line.get]

/-! ### The sequency order -/

theorem keyLt_trans {x y z : Nat × Nat × Nat} (hxy : keyLt x y = true) (hyz : keyLt y z = true) :
    keyLt x z = true := by
  simp only [keyLt, Bool.or_eq_true, Bool.and_eq_true, decide_eq_true_eq] at *
  omega

theorem keyLt_irrefl (x : Nat × Nat × Nat) : keyLt x x = false := by
  simp [keyLt]

theorem length_perm {d : Nat} (hd : 1 ≤ d) (hd' : d ≤ 4) : (perm d).length = 4 ^ d := by
  interval_cases d <;> decide +kernel

theorem mem_perm {d i : Nat} (hd : 1 ≤ d) (hd' : d ≤ 4) : i ∈ perm d ↔ i < 4 ^ d := by
  rw [← tab_getD (perm d) _ 0 (length_perm hd hd'), mem_tab]
  refine ⟨?_, fun hi => ⟨permIndex d i, (perm_permIndex d i hd hd' hi).2, (perm_permIndex d i hd hd' hi).1⟩⟩
  rintro ⟨j, hj, rfl⟩
  exact (permIndex_perm d j hd hd' hj).2

/-- The keys of a table rise from each entry to the next, and so over the whole table. -/
theorem map_sequencyKey_perm_pairwise {d : Nat} (hd : 1 ≤ d) (hd' : d ≤ 4) :
    ((perm d).map sequencyKey).Pairwise (keyLt · · = true) := by
  have hchain : ((perm d).map sequencyKey).IsChain (keyLt · · = true) := by
    interval_cases d <;> decide +kernel
  have : Trans (keyLt · · = true) (keyLt · · = true) (keyLt · · = true) := ⟨keyLt_trans⟩
  exact hchain.pairwise

/-- Keys that rise strictly are those of different indices. -/
theorem perm_nodup {d : Nat} (hd : 1 ≤ d) (hd' : d ≤ 4) : (perm d).Nodup := by
  refine (List.pairwise_map.1 (map_sequencyKey_perm_pairwise hd hd')).imp fun {i j} hlt heq => ?_
  rw [heq, keyLt_irrefl] at hlt
  exact absurd hlt Bool.false_ne_true

/-- The sequency order starts with natural index 0, and no other entry is 0. -/
theorem getD_perm_eq_zero_iff {d j : Nat} (hd : 1 ≤ d) (hd' : d ≤ 4) (hj : j < 4 ^ d) :
    (perm d).getD j 0 = 0 ↔ j = 0 := by
  have hzero : (perm d).getD 0 0 = 0 := by interval_cases d <;> rfl
  refine ⟨fun h => ?_, fun h => h ▸ hzero⟩
  calc j = permIndex d ((perm d).getD j 0) := (permIndex_perm d j hd hd' hj).1.symm
    _ = permIndex d ((perm d).getD 0 0) := by rw [h, hzero]
    _ = 0 := (permIndex_perm d 0 hd hd' (by positivity)).1

/-! ### The transform of a block -/

theorem getD_fwdTransform (d j : Nat) (T : List (BitVec N)) (hj : j < 4 ^ d) :
    (fwdTransform d T).getD j 0 = (fwdPasses (4 ^ d) d T).getD ((perm d).getD j 0) 0 := by
  rw [fwdTransform, getD_tab, if_pos hj]

/-- The transform of a constant block (42_lifting_transform R110). -/
theorem getD_fwdTransform_constant {d j : Nat} {T : List (BitVec N)} {c : BitVec N} (hd : 1 ≤ d) (hd' : d ≤ 4)
    (hT : ∀ i < 4 ^ d, T.getD i 0 = c) (hj : j < 4 ^ d) :
    (fwdTransform d T).getD j 0 = if j = 0 then c else 0 := by
  have hlt := (permIndex_perm d j hd hd' hj).2
  rw [getD_fwdTransform _ _ _ hj, getD_fwdPasses_constant hT (le_refl d) hlt, Nat.mod_eq_of_lt hlt]
  simp only [getD_perm_eq_zero_iff hd hd' hj]

theorem State.forward_get (s : State) {j : Nat} (hj : j < s.size) :
    s.forward.coef.get j = toContainer ((fwdTransform s.dim s.coeffs).getD j 0) :=
  (s.putCoeffs_get _ j).trans (if_pos hj)

theorem State.forward_get_beyond (s : State) {j : Nat} (hj : s.size ≤ j) : s.forward.coef.get j = s.coef.get j :=
  (s.putCoeffs_get _ j).trans (if_neg (Nat.not_lt.2 hj))

theorem State.inverse_get (s : State) {j : Nat} (hj : j < s.size) :
    s.inverse.coef.get j = toContainer ((invTransform s.dim s.coeffs).getD j 0) :=
  (s.putCoeffs_get _ j).trans (if_pos hj)

theorem State.inverse_get_beyond (s : State) {j : Nat} (hj : s.size ≤ j) : s.inverse.coef.get j = s.coef.get j :=
  (s.putCoeffs_get _ j).trans (if_neg (Nat.not_lt.2 hj))

theorem State.putCoeffs_putCoeffs {M : Nat} (s : State) (us : List (BitVec M)) (vs : List (BitVec N)) :
    (s.putCoeffs us).putCoeffs vs = s.putCoeffs vs := by
  have hcoef : ((s.putCoeffs us).putCoeffs vs).coef = (s.putCoeffs vs).coef := by
    refine RegFile.ext_get _ _ fun j _ => ?_
    rw [State.putCoeffs_get, State.putCoeffs_get, State.putCoeffs_get]
    change (if j < s.size then _ else _) = _
    split <;> rfl
  exact congrArg s.setCoef hcoef

/-- Either order of the two transforms stores the coefficients that were there (42_lifting_transform R111). -/
theorem State.inverse_forward (s : State) : s.forward.inverse = s.putCoeffs s.coeffs :=
  (s.putCoeffs_putCoeffs _ _).trans
    (congrArg s.putCoeffs (s.forward.coeffs_inverse.symm.trans s.coeffs_inverse_forward))

theorem State.forward_inverse (s : State) : s.inverse.forward = s.putCoeffs s.coeffs :=
  (s.putCoeffs_putCoeffs _ _).trans
    (congrArg s.putCoeffs (s.inverse.coeffs_forward.symm.trans s.coeffs_forward_inverse))

end Sys2Proof.Machine

namespace Sys2Proof.Proofs

open Sys2Proof Sys2Proof.Machine Sys2Proof.Claims

/-- Settles O27: each line of one function is undone by a line of the other. -/
theorem liftingIsExactlyInvertible : Obligations.LiftingIsExactlyInvertible :=
  fun _ a => ⟨invLift_fwdLift a, fwdLift_invLift a⟩

/-- Settles O33: a table whose keys rise strictly has no entry twice, and its entries are the indices of the block. -/
theorem sequencyTablesFollowTheKey : Obligations.SequencyTablesFollowTheKey := by
  intro d hd hd'
  refine ⟨(List.perm_ext_iff_of_nodup (perm_nodup hd hd') List.nodup_range).2 fun i => ?_,
    map_sequencyKey_perm_pairwise hd hd'⟩
  rw [mem_perm hd hd', List.mem_range]

/-- Settles O32: `s1`, `s2` and `l` are means, `d1`, `d2` and `h` are differences, and no line wraps. -/
theorem forwardLiftGrowsAtMostThreefold : Obligations.ForwardLiftGrowsAtMostThreefold := by
  intro N B a hN _ hB h0 h1 h2 h3
  have hB2 : 2 * B < 2 ^ (N - 1) := by omega
  have hs1 := natAbs_mean_le hN hB2 h0 h3
  have hs2 := natAbs_mean_le hN hB2 h1 h2
  have hd1 := natAbs_sub_le_double hN hB2 h0 h3
  have hd2 := natAbs_sub_le_double hN hB2 h1 h2
  exact ⟨natAbs_mean_le hN hB2 hs1 hs2, natAbs_add_half_le hN hB hd1 hd2, natAbs_sub_le_double hN hB2 hs1 hs2,
    natAbs_sub_half_le hN hB hd1 hd2⟩

/-- Settles O28: `T a` is the block after the passes along the first `a` axes. -/
theorem fwdxfFollowsTheLiftingSteps : Obligations.FwdxfFollowsTheLiftingSteps := by
  refine ⟨decodeWord_ofNat rfl rfl, fun s => ⟨s.forward, fun a i => (fwdPasses s.size a s.coeffs).getD i 0, rfl,
    s.forward_eq, fun i hi => s.getD_coeffs i hi,
    fun a ha b hb h0 => (fwdLine_of_eq_fwdLift (lineAt_fwdPasses_succ s.coeffs ha hb h0) :), fun j hj => ?_,
    fun j hj => s.forward_get_beyond hj⟩⟩
  rw [s.forward_get hj, getD_fwdTransform _ _ _ hj]
  rfl

/-- Settles O29: the blocks between the inverse passes are those between the forward passes from the block they end
in, each of whose lines the inverse lines take back. -/
theorem invxfFollowsTheLiftingSteps : Obligations.InvxfFollowsTheLiftingSteps := by
  refine ⟨decodeWord_ofNat rfl rfl, fun s => ⟨s.inverse,
    fun a i => (fwdPasses s.size a (invTransform s.dim s.coeffs)).getD i 0, rfl, s.inverse_eq, fun j hj => ?_,
    fun a ha b hb h0 => (invLine_of_eq_fwdLift (lineAt_fwdPasses_succ _ ha hb h0) :),
    fun i hi => s.inverse_get hi, fun i hi => s.inverse_get_beyond hi⟩⟩
  have h := getD_fwdTransform s.dim j (invTransform s.dim s.coeffs) hj
  rw [fwdTransform_invTransform _ _ s.dim_pos s.dim_le s.length_coeffs] at h
  exact h.symm.trans (s.getD_coeffs j hj)

/-- Settles O30: both orders store the coefficients that were there. -/
theorem transformRoundTrips : Obligations.TransformRoundTrips := by
  intro s
  refine ⟨s.forward, s.forward.inverse, s.inverse, s.inverse.forward, rfl, rfl, rfl, rfl, rfl,
    s.forward_inverse.trans s.inverse_forward.symm, fun j hj => ?_, fun j hj => ?_⟩
  · rw [s.inverse_forward, s.putCoeffs_get, if_pos hj, s.getD_coeffs j hj]
    rfl
  · rw [s.inverse_forward, s.putCoeffs_get, if_neg (Nat.not_lt.2 hj)]

/-- Settles O31: the passes leave the constant on coordinate 0 of every axis, which is index 0, the first of the
sequency order. -/
theorem constantBlockBecomesItsMean : Obligations.ConstantBlockBecomesItsMean := by
  intro s c hc
  have hT (i : Nat) (hi : i < 4 ^ s.dim) : s.coeffs.getD i 0 = c := (s.getD_coeffs i hi).trans (hc i hi)
  refine ⟨s.forward, rfl, ?_, fun j hpos hj => ?_⟩
  · rw [s.forward_get s.size_pos, getD_fwdTransform_constant s.dim_pos s.dim_le hT s.size_pos, if_pos rfl]
    rfl
  · rw [s.forward_get hj, getD_fwdTransform_constant s.dim_pos s.dim_le hT hj, if_neg (by omega)]
    simp [toContainer]

end Sys2Proof.Proofs
end

section
/-! PROOFS, family 43_exponent_scaler: a float as sign, exponent and fraction fields, and the fields scaling back gives
a magnitude (43_exponent_scaler R121, R125). -/

namespace Sys2Proof.Machine

open Sys2Proof Sys2Proof.Claims

variable {N : Nat} {t : ScalarType}

/-! ### Constants of the float types -/

theorem width_of_isFloat (ht : t.isFloat = true) : t.width = t.ebits + t.fbits + 1 := by
  cases t <;> revert ht <;> decide

theorem one_lt_raw (ht : t.isFloat = true) : 1 < t.raw := by
  cases t <;> revert ht <;> decide

theorem raw_ne_zero (ht : t.isFloat = true) : t.raw ≠ 0 := Nat.ne_of_gt (Nat.zero_lt_of_lt (one_lt_raw ht))

theorem raw_lt (t : ScalarType) : t.raw < 2 ^ t.ebits := Nat.sub_lt (Nat.two_pow_pos _) Nat.one_pos

/-- `MBITS = HEAD + FBITS + 1` (00_scope R6). -/
theorem mbits_of_isFloat (ht : t.isFloat = true) (d : Nat) : t.mbits d = t.head d + (t.fbits + 1) := by
  have hroom : headRoom d ≤ 7 := by unfold headRoom; split_ifs <;> omega
  refine (Nat.sub_add_cancel ?_).symm
  cases t <;> simp [ScalarType.isFloat, ScalarType.mbits, ScalarType.width, ScalarType.fbits] at ht ⊢ <;> omega

/-! ### The fields of a sample -/

theorem signBit_eq_msb (b : BitVec N) : signBit b = b.msb := b.msb_eq_getLsbD_last.symm

theorem expField_lt (t : ScalarType) (b : BitVec N) : expField t b < 2 ^ t.ebits := Nat.mod_lt _ (Nat.two_pow_pos _)

theorem fracField_lt (t : ScalarType) (b : BitVec N) : fracField t b < 2 ^ t.fbits := Nat.mod_lt _ (Nat.two_pow_pos _)

theorem one_le_effExp (t : ScalarType) (b : BitVec N) : 1 ≤ effExp t b := Nat.le_max_right _ _

theorem significand_lt (t : ScalarType) (b : BitVec N) : significand t b < 2 ^ (t.fbits + 1) := by
  have := fracField_lt t b
  rw [significand, Nat.pow_succ]
  split <;> omega

theorem isZero_iff_significand (t : ScalarType) (b : BitVec N) : isZero t b = true ↔ significand t b = 0 := by
  have := Nat.two_pow_pos t.fbits
  simp only [isZero, significand, Bool.and_eq_true, decide_eq_true_eq]
  split <;> omega

/-- A finite sample's exponent field is below `RAW`, the largest value the field has (43_exponent_scaler R122). -/
theorem expField_lt_raw {b : BitVec N} (hfin : nonfinite t b = false) : expField t b < t.raw := by
  have hne : expField t b ≠ t.raw := of_decide_eq_false hfin
  have hlt := expField_lt t b
  unfold ScalarType.raw at *
  omega

theorem effExp_lt_raw (ht : t.isFloat = true) {b : BitVec N} (hfin : nonfinite t b = false) : effExp t b < t.raw :=
  Nat.max_lt.2 ⟨expField_lt_raw hfin, one_lt_raw ht⟩

/-! ### The pattern of three fields -/

/-- The pattern `{s, ef, fr}` of a sign and a pair of fields (43_exponent_scaler R125). -/
def ofFields (t : ScalarType) (N : Nat) (neg : Bool) (f : Nat × Nat) : BitVec N :=
  BitVec.ofNat N ((if neg then 2 ^ (N - 1) else 0) + f.1 * 2 ^ t.fbits + f.2)

section

variable {f : Nat × Nat} (hN : N = t.ebits + t.fbits + 1) (hexp : f.1 < 2 ^ t.ebits) (hfrac : f.2 < 2 ^ t.fbits)

include hN

/-- The sign is the bit above the two fields. -/
theorem signBit_eq_decide (b : BitVec N) : signBit b = decide (2 ^ t.ebits ≤ b.toNat / 2 ^ t.fbits) := by
  have hpred : N - 1 = t.ebits + t.fbits := by omega
  rw [signBit_eq_msb, BitVec.msb_eq_decide, decide_eq_decide, Nat.le_div_iff_mul_le (Nat.two_pow_pos _), ← Nat.pow_add,
    hpred]

include hexp hfrac

theorem toNat_ofFields (neg : Bool) :
    (ofFields t N neg f).toNat = 2 ^ t.fbits * (neg.toNat * 2 ^ t.ebits + f.1) + f.2 := by
  have hsum : (if neg then 2 ^ (N - 1) else 0) + f.1 * 2 ^ t.fbits + f.2 =
      2 ^ t.fbits * (neg.toNat * 2 ^ t.ebits + f.1) + f.2 := by
    rw [hN, Nat.add_sub_cancel, Nat.pow_add]
    cases neg <;> simp <;> ring
  have hhigh : neg.toNat * 2 ^ t.ebits + f.1 + 1 ≤ 2 ^ (t.ebits + 1) := by
    have := Nat.mul_le_mul_right (2 ^ t.ebits) neg.toNat_le
    rw [Nat.pow_succ']
    omega
  have hlt : 2 ^ t.fbits * (neg.toNat * 2 ^ t.ebits + f.1) + f.2 < 2 ^ N :=
    calc _ < 2 ^ t.fbits * (neg.toNat * 2 ^ t.ebits + f.1 + 1) := by rw [Nat.mul_succ]; omega
      _ ≤ 2 ^ t.fbits * 2 ^ (t.ebits + 1) := Nat.mul_le_mul_left _ hhigh
      _ = 2 ^ N := by rw [← Nat.pow_add, hN]; congr 1; omega
  rw [ofFields, BitVec.toNat_ofNat, hsum, Nat.mod_eq_of_lt hlt]

theorem toNat_ofFields_div (neg : Bool) :
    (ofFields t N neg f).toNat / 2 ^ t.fbits = neg.toNat * 2 ^ t.ebits + f.1 := by
  rw [toNat_ofFields hN hexp hfrac, Nat.mul_add_div (Nat.two_pow_pos _), Nat.div_eq_of_lt hfrac, Nat.add_zero]

theorem signBit_ofFields (neg : Bool) : signBit (ofFields t N neg f) = neg := by
  rw [signBit_eq_decide hN, toNat_ofFields_div hN hexp hfrac]
  cases neg <;> simp [hexp]

theorem expField_ofFields (neg : Bool) : expField t (ofFields t N neg f) = f.1 := by
  rw [expField, toNat_ofFields_div hN hexp hfrac, Nat.mul_add_mod_self_right, Nat.mod_eq_of_lt hexp]

theorem fracField_ofFields (neg : Bool) : fracField t (ofFields t N neg f) = f.2 := by
  rw [fracField, toNat_ofFields hN hexp hfrac, Nat.mul_add_mod, Nat.mod_eq_of_lt hfrac]

end

/-- A pattern is that of its own three fields (43_exponent_scaler R121). -/
theorem ofFields_fields (hN : N = t.ebits + t.fbits + 1) (b : BitVec N) :
    ofFields t N (signBit b) (expField t b, fracField t b) = b := by
  have hhigh : b.toNat / 2 ^ t.fbits < 2 * 2 ^ t.ebits := by
    rw [Nat.div_lt_iff_lt_mul (Nat.two_pow_pos _), Nat.mul_assoc, ← Nat.pow_add, ← Nat.pow_succ']
    exact b.isLt.trans_eq (congrArg (2 ^ ·) hN)
  have hsign : (signBit b).toNat * 2 ^ t.ebits + expField t b = b.toNat / 2 ^ t.fbits := by
    rw [signBit_eq_decide hN, expField]
    by_cases h : 2 ^ t.ebits ≤ b.toNat / 2 ^ t.fbits
    · rw [Nat.mod_eq_sub_mod h, Nat.mod_eq_of_lt (by omega)]
      simp [h]
    · simp [h, Nat.mod_eq_of_lt (Nat.not_le.1 h)]
  refine BitVec.eq_of_toNat_eq ?_
  rw [toNat_ofFields hN (expField_lt t b) (fracField_lt t b), hsign]
  exact Nat.div_add_mod _ _

theorem ofFields_eq_iff (hN : N = t.ebits + t.fbits + 1) {f : Nat × Nat} (hexp : f.1 < 2 ^ t.ebits)
    (hfrac : f.2 < 2 ^ t.fbits) (neg : Bool) (b : BitVec N) :
    ofFields t N neg f = b ↔ neg = signBit b ∧ f = (expField t b, fracField t b) := by
  constructor
  · rintro rfl
    rw [signBit_ofFields hN hexp hfrac, expField_ofFields hN hexp hfrac, fracField_ofFields hN hexp hfrac]
    exact ⟨rfl, rfl⟩
  · rintro ⟨rfl, rfl⟩
    exact ofFields_fields hN b

/-! ### The fields of a magnitude -/

/-- The magnitude of the float with fields `f`, in units of the smallest subnormal (43_exponent_scaler R121, R125). -/
def fieldUnits (t : ScalarType) (f : Nat × Nat) : Nat :=
  ((if f.1 ≠ 0 then 2 ^ t.fbits else 0) + f.2) * 2 ^ (max f.1 1 - 1)

theorem fieldUnits_sample (t : ScalarType) (b : BitVec N) :
    fieldUnits t (expField t b, fracField t b) = significand t b * 2 ^ (effExp t b - 1) := rfl

theorem fbits_le_log2 {U : Nat} (hU : 2 ^ t.fbits ≤ U) : t.fbits ≤ Nat.log2 U :=
  (Nat.le_log2 (Nat.ne_of_gt (Nat.lt_of_lt_of_le (Nat.two_pow_pos _) hU))).2 hU

/-- The leading one and the `FBITS` bits below it, of a magnitude that has so many. -/
theorem leading_bounds {U : Nat} (hU : 2 ^ t.fbits ≤ U) :
    2 ^ t.fbits ≤ U / 2 ^ (Nat.log2 U - t.fbits) ∧ U / 2 ^ (Nat.log2 U - t.fbits) < 2 ^ (t.fbits + 1) := by
  have hU0 : U ≠ 0 := Nat.ne_of_gt (Nat.lt_of_lt_of_le (Nat.two_pow_pos _) hU)
  have hp := fbits_le_log2 hU
  rw [Nat.le_div_iff_mul_le (Nat.two_pow_pos _), Nat.div_lt_iff_lt_mul (Nat.two_pow_pos _), ← Nat.pow_add,
    ← Nat.pow_add, show t.fbits + (Nat.log2 U - t.fbits) = Nat.log2 U by omega,
    show t.fbits + 1 + (Nat.log2 U - t.fbits) = Nat.log2 U + 1 by omega]
  exact ⟨Nat.log2_self_le hU0, Nat.lt_log2_self⟩

/-- What `iscale1` can make of a magnitude: a subnormal, the largest finite value, or the leading bits
(43_exponent_scaler R125). -/
theorem floatFields_cases (t : ScalarType) (U : Nat) :
    (U < 2 ^ t.fbits ∧ floatFields t U = (0, U)) ∨
    (2 ^ t.fbits ≤ U ∧ t.raw ≤ Nat.log2 U - t.fbits + 1 ∧ floatFields t U = (t.raw - 1, 2 ^ t.fbits - 1)) ∨
    (2 ^ t.fbits ≤ U ∧ Nat.log2 U - t.fbits + 1 < t.raw ∧
      floatFields t U = (Nat.log2 U - t.fbits + 1, U / 2 ^ (Nat.log2 U - t.fbits) - 2 ^ t.fbits)) := by
  unfold floatFields
  split_ifs with hsub hsat
  · exact .inl ⟨hsub, rfl⟩
  · exact .inr (.inl ⟨Nat.le_of_not_lt hsub, hsat, rfl⟩)
  · exact .inr (.inr ⟨Nat.le_of_not_lt hsub, Nat.lt_of_not_le hsat, rfl⟩)

/-- Scaling back saturates below `RAW` (43_exponent_scaler R125, R134). -/
theorem floatFields_exp_lt_raw (ht : t.isFloat = true) (U : Nat) : (floatFields t U).1 < t.raw := by
  have := one_lt_raw ht
  rcases floatFields_cases t U with ⟨-, h⟩ | ⟨-, -, h⟩ | ⟨-, hlt, h⟩ <;> rw [h] <;> dsimp only <;> omega

theorem floatFields_frac_lt (t : ScalarType) (U : Nat) : (floatFields t U).2 < 2 ^ t.fbits := by
  have hpos := Nat.two_pow_pos t.fbits
  rcases floatFields_cases t U with ⟨hlt, h⟩ | ⟨-, -, h⟩ | ⟨hU, -, h⟩ <;> rw [h]
  · exact hlt
  · exact Nat.sub_lt hpos Nat.one_pos
  · have := leading_bounds hU
    rw [Nat.pow_succ] at this
    dsimp only
    omega

/-- Scaling back truncates: the float is never above the magnitude (43_exponent_scaler R125). -/
theorem fieldUnits_floatFields_le (ht : t.isFloat = true) (U : Nat) : fieldUnits t (floatFields t U) ≤ U := by
  have hraw := one_lt_raw ht
  rcases floatFields_cases t U with ⟨-, h⟩ | ⟨hU, hsat, h⟩ | ⟨hU, -, h⟩ <;> rw [h, fieldUnits]
  · simp
  · have hp := fbits_le_log2 hU
    have hpos := Nat.two_pow_pos t.fbits
    have hsig : (if t.raw - 1 ≠ 0 then 2 ^ t.fbits else 0) + (2 ^ t.fbits - 1) ≤ 2 ^ (t.fbits + 1) := by
      rw [Nat.pow_succ]
      split <;> omega
    calc _ ≤ 2 ^ (t.fbits + 1) * 2 ^ (max (t.raw - 1) 1 - 1) := Nat.mul_le_mul_right _ hsig
      _ ≤ 2 ^ Nat.log2 U := by
        rw [← Nat.pow_add]
        exact Nat.pow_le_pow_right Nat.two_pos (by omega)
      _ ≤ U := Nat.log2_self_le (by omega)
  · have hlead := (leading_bounds hU).1
    simp only [ne_eq, Nat.add_one_ne_zero, not_false_eq_true, if_true, Nat.add_sub_cancel' hlead]
    rw [Nat.max_eq_left (Nat.le_add_left 1 _), Nat.add_sub_cancel]
    exact Nat.div_mul_le_self U _

/-- A finite float's magnitude scales back to its own fields (43_exponent_scaler R127). -/
theorem floatFields_fieldUnits {f : Nat × Nat} (hexp : f.1 < t.raw) (hfrac : f.2 < 2 ^ t.fbits) :
    floatFields t (fieldUnits t f) = f := by
  obtain ⟨ef, fr⟩ := f
  dsimp only at hexp hfrac
  cases ef with
  | zero => simp [fieldUnits, floatFields, hfrac]
  | succ k =>
    have hU : fieldUnits t (k + 1, fr) = (2 ^ t.fbits + fr) * 2 ^ k := by simp [fieldUnits]
    have hle : 2 ^ (t.fbits + k) ≤ (2 ^ t.fbits + fr) * 2 ^ k := by
      rw [Nat.pow_add]
      exact Nat.mul_le_mul_right _ (Nat.le_add_right _ _)
    have hlt : (2 ^ t.fbits + fr) * 2 ^ k < 2 ^ (t.fbits + k + 1) := by
      rw [Nat.add_right_comm, Nat.pow_add _ _ k]
      exact Nat.mul_lt_mul_of_pos_right (by rw [Nat.pow_succ]; omega) (Nat.two_pow_pos _)
    have hsub : 2 ^ t.fbits ≤ 2 ^ (t.fbits + k) := Nat.pow_le_pow_right Nat.two_pos (Nat.le_add_right _ _)
    have hlog : Nat.log2 ((2 ^ t.fbits + fr) * 2 ^ k) = t.fbits + k :=
      (Nat.log2_eq_iff (Nat.ne_of_gt (Nat.lt_of_lt_of_le (Nat.two_pow_pos _) hle))).2 ⟨hle, hlt⟩
    rw [hU, floatFields, if_neg (by omega), hlog, Nat.add_sub_cancel_left, if_neg (by omega),
      Nat.mul_div_cancel _ (Nat.two_pow_pos _), Nat.add_sub_cancel_left]

end Sys2Proof.Machine
end

section
/-! PROOFS, family 43_exponent_scaler: scaling one sample and scaling it back (43_exponent_scaler R124, R125, R127,
R134), the precision (R128), and the commands of the exponent scaler (R130 to R133). -/

namespace Sys2Proof.Machine

open Sys2Proof Sys2Proof.Claims

variable {N : Nat} {t : ScalarType} {d E : Nat}

/-! ### Scaling one sample -/

/-- The scaled magnitude, by its shift `k` (43_exponent_scaler R124). -/
theorem scaledMag_eq (t : ScalarType) (d : Nat) (b : BitVec N) (E : Nat) {k : Int}
    (hk : k = (t.head d : Int) - ((E : Int) - effExp t b)) :
    scaledMag t d b E =
      if 0 ≤ k then significand t b * 2 ^ k.toNat else significand t b / 2 ^ (-k).toNat := by
  rw [scaledMag]
  by_cases h : E ≤ t.head d + effExp t b
  · rw [if_pos h, if_pos (by omega), show k.toNat = t.head d + effExp t b - E by omega]
  · rw [if_neg h, if_neg (by omega), show (-k).toNat = E - (t.head d + effExp t b) by omega]

/-- The units of a magnitude, by its shift `e` (43_exponent_scaler R125). -/
theorem subnormalUnits_eq (t : ScalarType) (d mag E : Nat) {e : Int} (he : e = (E : Int) - t.head d - 1) :
    subnormalUnits t d mag E = if 0 ≤ e then mag * 2 ^ e.toNat else mag / 2 ^ (-e).toNat := by
  rw [subnormalUnits]
  by_cases h : t.head d + 1 ≤ E
  · rw [if_pos h, if_pos (by omega), show e.toNat = E - (t.head d + 1) by omega]
  · rw [if_neg h, if_neg (by omega), show (-e).toNat = t.head d + 1 - E by omega]

/-- The two's complement of the magnitude with the sample's sign (43_exponent_scaler R124). -/
theorem fscale1_eq_ofInt (t : ScalarType) (d : Nat) (b : BitVec N) (E : Nat) :
    fscale1 t d b E =
      BitVec.ofInt N (if b.msb then -(scaledMag t d b E : Int) else (scaledMag t d b E : Int)) := by
  rw [fscale1, signBit_eq_msb]
  split
  · rw [BitVec.ofInt_neg, BitVec.ofInt_natCast]
  · rw [BitVec.ofInt_natCast]

/-- A sample scaled with an exponent not below its own gains at most `HEAD` bits (43_exponent_scaler R124). -/
theorem scaledMag_lt (ht : t.isFloat = true) (d : Nat) {b : BitVec N} (hE : effExp t b ≤ E) :
    scaledMag t d b E < 2 ^ t.mbits d := by
  have hM := significand_lt t b
  have hpow : 2 ^ t.mbits d = 2 ^ (t.fbits + 1) * 2 ^ t.head d := by
    rw [mbits_of_isFloat ht, Nat.add_comm, Nat.pow_add]
  rw [scaledMag, hpow]
  split
  · exact Nat.mul_lt_mul_of_lt_of_le hM (Nat.pow_le_pow_right Nat.two_pos (by omega)) (Nat.two_pow_pos _)
  · exact (Nat.div_le_self _ _).trans_lt (hM.trans_le (Nat.le_mul_of_pos_right _ (Nat.two_pow_pos _)))

/-- Such a sample is not wrapped (43_exponent_scaler R124). -/
theorem toInt_fscale1 (ht : t.isFloat = true) (d : Nat) {b : BitVec t.width} (hE : effExp t b ≤ E) :
    (fscale1 t d b E).toInt = if b.msb then -(scaledMag t d b E : Int) else (scaledMag t d b E : Int) := by
  have hwidth : 1 ≤ t.width := by rw [width_of_isFloat ht]; exact Nat.le_add_left 1 _
  have hlt : scaledMag t d b E < 2 ^ (t.width - 1) :=
    (scaledMag_lt ht d hE).trans_le (Nat.pow_le_pow_right Nat.two_pos (Nat.sub_le _ _))
  rw [fscale1_eq_ofInt, BitVec.toInt_ofInt]
  exact bmod_eq_of_natAbs_le hwidth hlt (by split <;> omega)

theorem natAbs_toInt_fscale1 (ht : t.isFloat = true) (d : Nat) {b : BitVec t.width} (hE : effExp t b ≤ E) :
    (fscale1 t d b E).toInt.natAbs = scaledMag t d b E := by
  rw [toInt_fscale1 ht d hE]
  split <;> omega

/-! ### Scaling one value back -/

theorem iscale1_of_natAbs_eq_zero {q : BitVec N} (h : q.toInt.natAbs = 0) : iscale1 t d q E = 0 := by
  rw [iscale1, if_pos h]

theorem subnormalUnits_zero (t : ScalarType) (d E : Nat) : subnormalUnits t d 0 E = 0 := by
  simp [subnormalUnits]

/-- The two fields apart, the exponent as a minimum (43_exponent_scaler R125). -/
theorem floatFields_eq (t : ScalarType) (U : Nat) : floatFields t U =
    (if U < 2 ^ t.fbits then 0 else min (Nat.log2 U - t.fbits + 1) (t.raw - 1),
      if U < 2 ^ t.fbits then U
      else if t.raw ≤ Nat.log2 U - t.fbits + 1 then 2 ^ t.fbits - 1
      else U / 2 ^ (Nat.log2 U - t.fbits) - 2 ^ t.fbits) := by
  rw [floatFields]
  split_ifs with hsub hsat
  · rfl
  · rw [Nat.min_eq_right (by omega)]
  · rw [Nat.min_eq_left (by omega)]

theorem floatFields_zero (t : ScalarType) : floatFields t 0 = (0, 0) := by
  simp [floatFields]

/-- The value's sign over the fields of its magnitude; the value 0 has those of `+0.0` (43_exponent_scaler R125). -/
theorem iscale1_eq_ofFields (t : ScalarType) (d : Nat) (q : BitVec N) (E : Nat) :
    iscale1 t d q E =
      ofFields t N (decide (q.toInt < 0)) (floatFields t (subnormalUnits t d q.toInt.natAbs E)) := by
  by_cases h : q.toInt.natAbs = 0
  · have hnonneg : ¬ q.toInt < 0 := by omega
    rw [iscale1_of_natAbs_eq_zero h, h, subnormalUnits_zero, floatFields_zero, ofFields]
    simp [hnonneg]
  · rw [iscale1, if_neg h, ofFields]
    simp only [decide_eq_true_eq]

section

variable (ht : t.isFloat = true) (hN : N = t.ebits + t.fbits + 1) (q : BitVec N)

include ht

theorem floatFields_exp_lt (U : Nat) : (floatFields t U).1 < 2 ^ t.ebits :=
  (floatFields_exp_lt_raw ht U).trans (raw_lt t)

include hN

theorem signBit_iscale1 : signBit (iscale1 t d q E) = decide (q.toInt < 0) := by
  rw [iscale1_eq_ofFields, signBit_ofFields hN (floatFields_exp_lt ht _) (floatFields_frac_lt t _)]

theorem expField_iscale1 :
    expField t (iscale1 t d q E) = (floatFields t (subnormalUnits t d q.toInt.natAbs E)).1 := by
  rw [iscale1_eq_ofFields, expField_ofFields hN (floatFields_exp_lt ht _) (floatFields_frac_lt t _)]

theorem fracField_iscale1 :
    fracField t (iscale1 t d q E) = (floatFields t (subnormalUnits t d q.toInt.natAbs E)).2 := by
  rw [iscale1_eq_ofFields, fracField_ofFields hN (floatFields_exp_lt ht _) (floatFields_frac_lt t _)]

/-- Scaling back never gives an infinity or a NaN (43_exponent_scaler R125, R134). -/
theorem nonfinite_iscale1 : nonfinite t (iscale1 t d q E) = false := by
  rw [nonfinite, expField_iscale1 ht hN]
  exact decide_eq_false (Nat.ne_of_lt (floatFields_exp_lt_raw ht _))

end

/-! ### Scaling there and back -/

/-- The low bits of the significand that scaling shifts out (43_exponent_scaler R127). -/
def lostBits (t : ScalarType) (d : Nat) (b : BitVec N) (E : Nat) : Nat :=
  significand t b % 2 ^ (E - effExp t b - t.head d)

/-- The magnitude that comes back is the sample's own less the bits shifted out (43_exponent_scaler R127). -/
theorem subnormalUnits_scaledMag (t : ScalarType) (d : Nat) (b : BitVec N) (E : Nat) :
    subnormalUnits t d (scaledMag t d b E) E = (significand t b - lostBits t d b E) * 2 ^ (effExp t b - 1) := by
  have hee := one_le_effExp t b
  have hkept : significand t b - lostBits t d b E =
      significand t b / 2 ^ (E - effExp t b - t.head d) * 2 ^ (E - effExp t b - t.head d) := by
    have := Nat.div_add_mod' (significand t b) (2 ^ (E - effExp t b - t.head d))
    rw [lostBits]
    omega
  rw [hkept, scaledMag, subnormalUnits]
  by_cases hk : E ≤ t.head d + effExp t b
  · rw [if_pos hk, show E - effExp t b - t.head d = 0 by omega, Nat.pow_zero, Nat.div_one, Nat.mul_one]
    split
    · rw [Nat.mul_assoc, ← Nat.pow_add]
      congr 2
      omega
    · rw [show t.head d + effExp t b - E = (effExp t b - 1) + (t.head d + 1 - E) by omega, Nat.pow_add,
        ← Nat.mul_assoc, Nat.mul_div_cancel _ (Nat.two_pow_pos _)]
  · rw [if_neg hk, if_pos (by omega), Nat.mul_assoc, ← Nat.pow_add,
      show E - (t.head d + effExp t b) = E - effExp t b - t.head d by omega,
      show E - effExp t b - t.head d + (effExp t b - 1) = E - (t.head d + 1) by omega]

/-- The sign is lost exactly with the whole magnitude (43_exponent_scaler R124, R127). -/
theorem toInt_fscale1_neg_iff (ht : t.isFloat = true) (d : Nat) {b : BitVec t.width} (hE : effExp t b ≤ E) :
    (fscale1 t d b E).toInt < 0 ↔ b.msb = true ∧ scaledMag t d b E ≠ 0 := by
  rw [toInt_fscale1 ht d hE]
  cases b.msb
  · simp
  · simp [Nat.pos_iff_ne_zero]

/-- A sample survives exactly when its sign and its magnitude do (43_exponent_scaler R127). -/
theorem iscale1_fscale1_eq_iff (ht : t.isFloat = true) (d : Nat) {b : BitVec t.width} (hfin : nonfinite t b = false)
    (hE : effExp t b ≤ E) :
    iscale1 t d (fscale1 t d b E) E = b ↔
      (b.msb = true → scaledMag t d b E ≠ 0) ∧ lostBits t d b E = 0 := by
  have hsign : decide ((fscale1 t d b E).toInt < 0) = signBit b ↔ (b.msb = true → scaledMag t d b E ≠ 0) := by
    rw [signBit_eq_msb, Bool.eq_iff_iff, decide_eq_true_iff, toInt_fscale1_neg_iff ht d hE, and_iff_left_iff_imp]
  have hfields : floatFields t (subnormalUnits t d (scaledMag t d b E) E) = (expField t b, fracField t b) ↔
      lostBits t d b E = 0 := by
    rw [subnormalUnits_scaledMag t d b E]
    constructor
    · intro h
      have hle := fieldUnits_floatFields_le ht ((significand t b - lostBits t d b E) * 2 ^ (effExp t b - 1))
      rw [h, fieldUnits_sample] at hle
      have hkept := Nat.le_of_mul_le_mul_right hle (Nat.two_pow_pos _)
      have hlost : lostBits t d b E ≤ significand t b := Nat.mod_le _ _
      omega
    · intro h
      rw [h, Nat.sub_zero, ← fieldUnits_sample]
      exact floatFields_fieldUnits (expField_lt_raw hfin) (fracField_lt t b)
  rw [iscale1_eq_ofFields, natAbs_toInt_fscale1 ht d hE,
    ofFields_eq_iff (width_of_isFloat ht) (floatFields_exp_lt ht _) (floatFields_frac_lt t _), hsign, hfields]

/-- A sample that loses no bit is scaled to 0 only when it is a zero (43_exponent_scaler R124). -/
theorem scaledMag_eq_zero_iff (t : ScalarType) (d : Nat) {b : BitVec N} (hlost : lostBits t d b E = 0) :
    scaledMag t d b E = 0 ↔ isZero t b = true := by
  rw [isZero_iff_significand]
  constructor
  · intro h
    have hunits := subnormalUnits_scaledMag t d b E
    rw [h, subnormalUnits_zero, hlost, Nat.sub_zero, eq_comm, Nat.mul_eq_zero] at hunits
    exact hunits.resolve_right (Nat.ne_of_gt (Nat.two_pow_pos _))
  · intro h
    simp [scaledMag, h]

/-! ### The precision -/

theorem toleranceFloor_le (t : ScalarType) (d : Nat) (m : Int) (E : Nat) : toleranceFloor t d m E ≤ t.width := by
  unfold toleranceFloor
  omega

theorem precisionOf_le (t : ScalarType) (d maxprec : Nat) (m : Int) (E : Nat) :
    precisionOf t d maxprec m E ≤ t.width := by
  unfold precisionOf
  split_ifs <;> omega

/-- The clamp of a float block's tolerance, as an integer (43_exponent_scaler R128). -/
theorem toleranceFloor_cast (t : ScalarType) (d : Nat) (m : Int) (E : Nat) :
    (toleranceFloor t d m E : Int) =
      min (max (m - ((E : Int) - t.bias - t.fbits - t.head d) - (d + 2)) 0) t.width := by
  unfold toleranceFloor guardPlanes
  omega

/-- The precision of a float block that is neither zero nor raw (43_exponent_scaler R128). -/
theorem precisionOf_scaled (ht : t.isFloat = true) (h0 : E ≠ 0) (hraw : E ≠ t.raw) (d maxprec : Nat) (m : Int) :
    precisionOf t d maxprec m E = min maxprec (t.width - toleranceFloor t d m E) := by
  rw [precisionOf, if_pos ht, if_neg h0, if_neg hraw]

/-- The two lowest tolerances are below the weight of every plane (43_exponent_scaler R128). -/
theorem toleranceFloor_eq_zero {m : Int} (hm : m ≤ -32767) (t : ScalarType) (d E : Nat) :
    toleranceFloor t d m E = 0 := by
  have hbound : t.bias + t.fbits + t.head d ≤ 32767 := by
    have hhead : t.head d ≤ t.width := by unfold ScalarType.head ScalarType.mbits; omega
    cases t <;> simp only [ScalarType.bias, ScalarType.fbits, ScalarType.width] at * <;> omega
  unfold toleranceFloor guardPlanes
  omega

/-! ### The commands and their tests -/

section

variable {s : State}

theorem exec_expb_of_isFloat (h : s.ty.isFloat = true) :
    exec .expb s = (needFinite s fun s => .ok () s.storeExponent).toOutcome :=
  congrArg Run.toOutcome (if_pos h)

theorem exec_fscale_of_isFloat (h : s.ty.isFloat = true) (hE : s.expE ≠ s.ty.raw) :
    exec .fscale s = (needFinite s fun s => .ok () s.scale).toOutcome :=
  congrArg Run.toOutcome ((if_pos h).trans (if_pos hE))

theorem exec_fscale_raw (h : s.ty.isFloat = true) (hE : s.expE = s.ty.raw) : exec .fscale s = .next s.scale :=
  congrArg Run.toOutcome ((if_pos h).trans (if_neg (not_not.2 hE)))

theorem exec_iscale_of_isFloat (h : s.ty.isFloat = true) : exec .iscale s = .next s.unscale :=
  congrArg Run.toOutcome (if_pos h)

variable (f : State → Run Unit)

/-- How each of the commands ends for an integer type (43_exponent_scaler R120). -/
theorem toOutcome_needFloat_of_not_isFloat (h : s.ty.isFloat = false) :
    (needFloat s f).toOutcome = .next (s.raise .badParam 3) := by
  rw [needFloat, h]
  rfl

theorem needFinite_of_finite (h : ∀ i < s.size, nonfinite s.ty (sample s i) = false) : needFinite s f = f s := by
  rcases needFinite_cases s f with ⟨-, hrun⟩ | ⟨i, hi, hnon, -, -⟩
  · exact hrun
  · exact absurd ((h i hi).symm.trans hnon) Bool.false_ne_true

/-- The index recorded is that of the first non-finite sample (43_exponent_scaler R122). -/
theorem needFinite_of_first {i : Nat} (hi : i < s.size) (hnon : nonfinite s.ty (sample s i) = true)
    (hfirst : ∀ j < i, nonfinite s.ty (sample s j) = false) :
    needFinite s f = .raised (s.raise .nonfinite (BitVec.ofNat 64 i)) := by
  rcases needFinite_cases s f with ⟨hall, -⟩ | ⟨k, -, hnonk, hfirstk, hrun⟩
  · exact absurd ((hall i hi).symm.trans hnon) Bool.false_ne_true
  · obtain hlt | rfl | hgt := Nat.lt_trichotomy i k
    · exact absurd ((hfirstk i hlt).symm.trans hnon) Bool.false_ne_true
    · exact hrun
    · exact absurd ((hfirst k hgt).symm.trans hnonk) Bool.false_ne_true

end

/-! ### The blocks the commands store -/

theorem State.mem_samples (s : State) (b : BitVec s.width) : b ∈ s.samples ↔ ∃ i < s.size, sample s i = b :=
  mem_tab _ _ _

/-- The exponent of a finite block fits below the header of a raw block (43_exponent_scaler R123). -/
theorem blockExponent_lt_raw (ht : t.isFloat = true) {B : List (BitVec N)} (hfin : ∀ b ∈ B, nonfinite t b = false) :
    blockExponent t B < t.raw := by
  rcases (blockExponent_spec t B).2 with ⟨h0, -⟩ | ⟨b, hb, -, he⟩
  · exact h0 ▸ Nat.pos_of_ne_zero (raw_ne_zero ht)
  · exact he ▸ effExp_lt_raw ht (hfin b hb)

/-- The exponent 0 is that of a block of zeros (43_exponent_scaler R123). -/
theorem blockExponent_eq_zero_iff (t : ScalarType) (B : List (BitVec N)) :
    blockExponent t B = 0 ↔ ∀ b ∈ B, isZero t b = true := by
  obtain ⟨hmax, hatt⟩ := blockExponent_spec t B
  constructor
  · intro h b hb
    by_contra hz
    have := hmax b hb (Bool.not_eq_true _ ▸ hz)
    have := one_le_effExp t b
    omega
  · intro hall
    rcases hatt with ⟨h0, -⟩ | ⟨b, hb, hz, -⟩
    · exact h0
    · exact absurd (hz.symm.trans (hall b hb)) Bool.false_ne_true

/-- What `FSCALE` stores for a sample (43_exponent_scaler R131). -/
theorem State.scale_get (s : State) {i : Nat} (hi : i < s.size) :
    s.scale.coef.get i = toContainer (scaleSample s.ty s.dim s.expE (sample s i)) := by
  rw [State.scale, State.putCoeffs_get, if_pos hi, State.samples, RegFile.values, map_tab, getD_tab, if_pos hi]
  rfl

theorem State.scale_get_beyond (s : State) {j : Nat} (hj : s.size ≤ j) : s.scale.coef.get j = s.coef.get j :=
  (s.putCoeffs_get _ j).trans (if_neg (Nat.not_lt.2 hj))

/-- What `ISCALE` stores for a coefficient (43_exponent_scaler R132). -/
theorem State.unscale_get (s : State) {i : Nat} (hi : i < s.size) :
    s.unscale.blk.get i = toContainer (unscaleSample s.ty s.dim s.expE (coefficient s i)) := by
  rw [State.unscale, State.putSamples_get, if_pos hi, State.coeffs, RegFile.values, map_tab, getD_tab, if_pos hi]
  rfl

theorem State.unscale_get_beyond (s : State) {j : Nat} (hj : s.size ≤ j) : s.unscale.blk.get j = s.blk.get j :=
  (s.putSamples_get _ j).trans (if_neg (Nat.not_lt.2 hj))

section

variable (t) (d) (b : BitVec N)

theorem scaleSample_zero : scaleSample t d 0 b = 0 := if_pos rfl

theorem scaleSample_raw (ht : t.isFloat = true) : scaleSample t d t.raw b = b :=
  (if_neg (raw_ne_zero ht)).trans (if_pos rfl)

theorem scaleSample_scaled (h0 : E ≠ 0) (hraw : E ≠ t.raw) : scaleSample t d E b = fscale1 t d b E :=
  (if_neg h0).trans (if_neg hraw)

theorem unscaleSample_zero : unscaleSample t d 0 b = 0 := if_pos rfl

theorem unscaleSample_raw (ht : t.isFloat = true) : unscaleSample t d t.raw b = b :=
  (if_neg (raw_ne_zero ht)).trans (if_pos rfl)

theorem unscaleSample_scaled (h0 : E ≠ 0) (hraw : E ≠ t.raw) : unscaleSample t d E b = iscale1 t d b E :=
  (if_neg h0).trans (if_neg hraw)

end

theorem toNat_toContainer {v : BitVec N} (h : N ≤ 64) : (toContainer v).toNat = v.toNat := by
  rw [toContainer, BitVec.toNat_setWidth, Nat.mod_eq_of_lt (v.isLt.trans_le (Nat.pow_le_pow_right Nat.two_pos h))]

end Sys2Proof.Machine

namespace Sys2Proof.Proofs

open Sys2Proof Sys2Proof.Machine Sys2Proof.Claims

/-- Settles O34: the exponent stored is that of the list of samples. -/
theorem expbStoresTheBlockExponent : Obligations.ExpbStoresTheBlockExponent := by
  refine ⟨decodeWord_ofNat rfl rfl, fun s => ⟨toOutcome_needFloat_of_not_isFloat _, fun i hi ht hnon hfirst => ?_,
    fun ht hfin => ?_⟩⟩
  · rw [exec_expb_of_isFloat ht, needFinite_of_first _ hi hnon hfirst]
    rfl
  · have hmem (i : Nat) (hi : i < s.size) : sample s i ∈ s.samples := (s.mem_samples _).2 ⟨i, hi, rfl⟩
    obtain ⟨hmax, hatt⟩ := blockExponent_spec s.ty s.samples
    refine ⟨blockExponent s.ty s.samples, ?_, blockExponent_lt_raw ht fun b hb => ?_,
      fun i hi => hmax _ (hmem i hi), ?_, fun h0 => ?_⟩
    · rw [exec_expb_of_isFloat ht, needFinite_of_finite _ hfin]
      rfl
    · obtain ⟨i, hi, rfl⟩ := (s.mem_samples b).1 hb
      exact hfin i hi
    · rw [blockExponent_eq_zero_iff]
      refine ⟨fun h i hi => h _ (hmem i hi), fun h b hb => ?_⟩
      obtain ⟨i, hi, rfl⟩ := (s.mem_samples b).1 hb
      exact h i hi
    · obtain ⟨b, hb, hz, he⟩ := hatt.resolve_left fun h => h0 h.1
      obtain ⟨i, hi, rfl⟩ := (s.mem_samples b).1 hb
      exact ⟨i, hi, hz, he⟩

/-- Settles O35: each sample is scaled on its own. -/
theorem fscaleScalesEachSample : Obligations.FscaleScalesEachSample := by
  refine ⟨decodeWord_ofNat rfl rfl, fun s => ⟨toOutcome_needFloat_of_not_isFloat _, fun i hi ht hE hnon hfirst => ?_,
    fun ht hfin => ⟨s.scale, ?_, rfl, fun j hj => s.scale_get_beyond hj, fun i hi => ?_⟩⟩⟩
  · rw [exec_fscale_of_isFloat ht hE, needFinite_of_first _ hi hnon hfirst]
    rfl
  · by_cases hE : s.expE = s.ty.raw
    · exact exec_fscale_raw ht hE
    · rw [exec_fscale_of_isFloat ht hE, needFinite_of_finite _ (hfin.resolve_left hE)]
      rfl
  · rw [s.scale_get hi]
    refine ⟨fun h => ?_, fun h => ?_, fun h0 hraw k mag hk hmag => ?_⟩
    · rw [h, scaleSample_zero]
      simp [toContainer]
    · rw [h, scaleSample_raw _ _ _ ht]
      rfl
    · rw [scaleSample_scaled _ _ _ h0 hraw, fscale1_eq_ofInt, scaledMag_eq _ _ _ _ hk, ← hmag]
      rfl

/-- Settles O36: each coefficient is scaled back on its own, to the float with the fields of its magnitude. -/
theorem iscaleScalesBack : Obligations.IscaleScalesBack := by
  refine ⟨decodeWord_ofNat rfl rfl, fun s => ⟨toOutcome_needFloat_of_not_isFloat _,
    fun ht => ⟨s.unscale, exec_iscale_of_isFloat ht, rfl, fun j hj => s.unscale_get_beyond hj, fun i hi => ?_⟩⟩⟩
  rw [s.unscale_get hi]
  refine ⟨fun h => ?_, fun h => ?_, fun h0 hraw e mag U p ef fr hmag he hU hp hef hfr => ?_⟩
  · rw [h, unscaleSample_zero]
    simp [toContainer]
  · rw [h, unscaleSample_raw _ _ _ ht]
    rfl
  · have hunits : subnormalUnits s.ty s.dim (coefficient s i).toInt.natAbs s.expE = U := by
      rw [subnormalUnits_eq _ _ _ _ he, ← hmag, hU]
    have hfields : floatFields s.ty U = (ef, fr) := by
      rw [floatFields_eq, ← hp, hef, hfr]
    have hN : s.width = s.ty.ebits + s.ty.fbits + 1 := width_of_isFloat ht
    rw [unscaleSample_scaled _ _ _ h0 hraw]
    refine ⟨fun h => ?_, fun _ => ?_⟩
    · rw [iscale1_of_natAbs_eq_zero (hmag ▸ h)]
      simp [toContainer]
    · rw [fromContainer_toContainer _ s.width_le, signBit_iscale1 ht hN, expField_iscale1 ht hN,
        fracField_iscale1 ht hN, hunits, hfields, toNat_toContainer s.width_le]
      exact ⟨rfl, rfl, rfl, BitVec.isLt _⟩

/-- Settles O37: the four cases of `precision(E)`. -/
theorem precStoresThePlaneCount : Obligations.PrecStoresThePlaneCount := by
  refine ⟨decodeWord_ofNat rfl rfl, fun s => ⟨s.precision s.expE, rfl, precisionOf_le _ _ _ _ _, fun ht => ?_,
    fun ht h => ?_, fun ht h => ?_, fun ht h0 hraw lsbexp kmin hlsb hkmin => ?_⟩⟩ <;> rw [State.precision]
  · rw [precisionOf, ht]
    rfl
  · rw [h, precisionOf, if_pos ht, if_pos rfl]
  · rw [h, precisionOf, if_pos ht, if_neg (raw_ne_zero ht), if_pos rfl]
    rfl
  · have hfloor : (toleranceFloor s.ty s.dim s.minExp s.expE : Int) = kmin := by
      rw [toleranceFloor_cast, hkmin, hlsb]
      rfl
    rw [precisionOf_scaled ht h0 hraw, ← hfloor, Nat.cast_min, Nat.cast_sub (toleranceFloor_le _ _ _ _)]
    rfl

/-- Settles O38: the clamp of R128 is at its lower end. -/
theorem noToleranceDropsNoPlane : Obligations.NoToleranceDropsNoPlane := by
  intro t d maxprec E m ht _ _ h1 hE hm
  rw [precisionOf_scaled ht (by omega) (by omega), toleranceFloor_eq_zero (by omega), Nat.sub_zero]

/-- Settles O39: a scaled sample is not wrapped, and scaling back saturates. -/
theorem scalingStaysInRange : Obligations.ScalingStaysInRange := by
  intro t d E b q ht _ _ _ _
  refine ⟨fun _ hE => ?_, nonfinite_iscale1 ht (width_of_isFloat ht) q⟩
  rw [natAbs_toInt_fscale1 ht d hE]
  exact scaledMag_lt ht d hE

/-- Settles O40: with no bit lost, a sign is lost only where it is that of `-0.0`. -/
theorem exactSamplesAreThoseThatLoseNoBit : Obligations.ExactSamplesAreThoseThatLoseNoBit := by
  intro t d E b ht _ _ _ _ hfin hE
  rw [iscale1_fscale1_eq_iff ht d hfin hE]
  refine and_congr_left fun hlost => ?_
  rw [ne_eq, scaledMag_eq_zero_iff t d hlost]
  exact ⟨fun hkeeps hnegZero => hkeeps hnegZero.2 hnegZero.1, fun hne hneg hz => hne ⟨hz, hneg⟩⟩

end Sys2Proof.Proofs
end

section
/-! PROOFS, family 44_bitplane_coder: the bits the encoder's traversal emits, plane by plane, and their number
(44_bitplane_coder R142, R146, R150). -/

namespace Sys2Proof.Machine

open Sys2Proof Sys2Proof.Claims

/-! ### Magnitudes and signs of a list of coefficients -/

theorem coefMag_lt {N : Nat} (x : BitVec N) : coefMag x < 2 ^ N := by
  have := x.isLt
  rw [coefMag, BitVec.toInt_eq_toNat_cond]
  split <;> omega

theorem getD_map_coefMag {N : Nat} (C : List (BitVec N)) (j : Nat) :
    (C.map coefMag).getD j 0 = (C.getD j 0).toInt.natAbs := by
  rw [show (0 : Nat) = coefMag (0 : BitVec N) by simp [coefMag], List.getD_map]
  rfl

theorem getD_map_coefSign {N : Nat} (C : List (BitVec N)) (j : Nat) :
    (C.map coefSign).getD j false = decide ((C.getD j 0).toInt < 0) := by
  rw [show false = coefSign (0 : BitVec N) by simp [coefSign], List.getD_map]
  rfl

/-! ### The subgroups of a group (44_bitplane_coder R143) -/

/-- The bits of four subgroups by their number. -/
def quarters (b0 b1 b2 b3 : List Bool) : Nat → List Bool
  | 0 => b0
  | 1 => b1
  | 2 => b2
  | _ => b3

/-- Subgroup `q` of a group begins `q` subgroup sizes into it. -/
theorem forall_quarters {P : Nat → List Bool → Prop} {depth lo : Nat} {b0 b1 b2 b3 : List Bool} (h0 : P lo b0)
    (h1 : P (lo + 4 ^ depth) b1) (h2 : P (lo + 2 * 4 ^ depth) b2) (h3 : P (lo + 3 * 4 ^ depth) b3) :
    ∀ q < 4, P (lo + q * 4 ^ (depth + 1) / 4) (quarters b0 b1 b2 b3 q) := by
  intro q hq
  rw [Nat.pow_succ, ← Nat.mul_assoc, Nat.mul_div_cancel _ (by decide)]
  obtain rfl | rfl | rfl | rfl : q = 0 ∨ q = 1 ∨ q = 2 ∨ q = 3 := by omega
  · rwa [Nat.zero_mul]
  · rwa [Nat.one_mul]
  · exact h2
  · exact h3

theorem groupTest_iff (mag : List Nat) (lo s k : Nat) :
    groupTest mag lo s k = true ↔ ∃ i, lo ≤ i ∧ i < lo + s ∧ mag.getD i 0 / 2 ^ k ≠ 0 := by
  simp only [groupTest, List.any_eq_true, List.mem_range, decide_eq_true_eq]
  constructor
  · rintro ⟨j, hj, hne⟩
    exact ⟨lo + j, by omega, by omega, hne⟩
  · rintro ⟨i, hlo, hi, hne⟩
    exact ⟨i - lo, by omega, by rwa [Nat.add_sub_cancel' hlo]⟩

/-- A group without a 1 bit at or above plane `k` (44_bitplane_coder R146). -/
theorem encGroup_empty (mag : List Nat) (sgn : List Bool) (k depth lo : Nat) (sig : List Bool)
    (h : groupTest mag lo (4 ^ (depth + 1)) k = false) :
    encGroup mag sgn k (depth + 1) lo sig = ([false], sig) := by
  rw [encGroup, h]
  rfl

/-! ### The marks -/

/-- The marks `SIGF` when plane `k` is coded below coefficient `lo` and plane `k + 1` from there on: those of the
coefficients with a 1 bit in the planes coded (44_bitplane_coder R142). -/
def Marked (mag : List Nat) (k lo : Nat) (sig : List Bool) : Prop :=
  sig.length = mag.length ∧
    ∀ j < mag.length, sig.getD j false = decide (mag.getD j 0 / 2 ^ (if j < lo then k else k + 1) ≠ 0)

/-- The marks between two planes: every plane down to `K` is coded. -/
def marks (mag : List Nat) (K : Nat) : List Bool := mag.map fun m => decide (m / 2 ^ K ≠ 0)

theorem getD_marks (mag : List Nat) (K j : Nat) : (marks mag K).getD j false = decide (mag.getD j 0 / 2 ^ K ≠ 0) := by
  have e : false = (fun m => decide (m / 2 ^ K ≠ 0)) 0 := by simp
  rw [marks, e, List.getD_map]

theorem marks_marked (mag : List Nat) (k : Nat) : Marked mag k 0 (marks mag (k + 1)) :=
  ⟨List.length_map _, fun j _ => getD_marks mag (k + 1) j⟩

/-- Where a plane is complete. -/
theorem Marked.eq_marks {mag : List Nat} {k lo : Nat} {sig : List Bool} (h : Marked mag k lo sig)
    (hlo : mag.length ≤ lo) : sig = marks mag k := by
  obtain ⟨hlen, hsig⟩ := h
  have hlen' : (marks mag k).length = mag.length := List.length_map _
  refine List.ext_getElem (hlen.trans hlen'.symm) fun j hj hj' => ?_
  have hget := hsig j (by omega)
  rw [if_pos (by omega : j < lo), ← getD_marks] at hget
  simpa [List.getD_eq_getElem?_getD, hj, hj'] using hget

/-- A coefficient's mark when its plane `k` has been coded: set before, or its first 1 bit. -/
theorem mark_step (m k : Nat) :
    decide (m / 2 ^ k ≠ 0) = (decide (m / 2 ^ (k + 1) ≠ 0) || m.testBit k) := by
  rw [Bool.eq_iff_iff, Bool.or_eq_true, decide_eq_true_iff, decide_eq_true_iff, ne_eq, div_succ_eq_zero m k]
  cases m.testBit k <;> simp

section

variable {mag : List Nat} {sgn : List Bool} {k lo : Nat} {sig : List Bool}

/-- A leaf marks its coefficient at its first 1 bit. -/
theorem encLeaf_marked (h : Marked mag k lo sig) (hl : lo < mag.length) :
    Marked mag k (lo + 1) (encGroup mag sgn k 0 lo sig).2 := by
  obtain ⟨hlen, hsig⟩ := h
  have hlo := hsig lo hl
  rw [if_neg (Nat.lt_irrefl lo)] at hlo
  have hset : (encGroup mag sgn k 0 lo sig).2 = sig.set lo (sig.getD lo false || (mag.getD lo 0).testBit k) := by
    rw [encGroup]
    cases hs : sig.getD lo false <;> cases (mag.getD lo 0).testBit k
    · exact (hs ▸ set_getD_self sig lo false).symm
    · rfl
    all_goals exact (hs ▸ set_getD_self sig lo false).symm
  rw [hset]
  refine ⟨by rw [List.length_set, hlen], fun j hj => ?_⟩
  rw [getD_set _ _ _ _ _ (by omega)]
  by_cases hjl : j = lo
  · rw [if_pos hjl, hjl, if_pos (Nat.lt_succ_self lo), hlo, mark_step _ k]
  · rw [if_neg hjl, hsig j hj, if_congr (by omega : j < lo + 1 ↔ j < lo) rfl rfl]

/-- A group marks the coefficients whose first 1 bit is at its plane. -/
theorem encGroup_marked {depth : Nat} (h : Marked mag k lo sig) (hl : lo + 4 ^ depth ≤ mag.length) :
    Marked mag k (lo + 4 ^ depth) (encGroup mag sgn k depth lo sig).2 := by
  induction depth generalizing lo sig with
  | zero => exact encLeaf_marked h hl
  | succ depth ih =>
    have hsize : 4 ^ (depth + 1) = 4 * 4 ^ depth := Nat.pow_succ'
    cases ht : groupTest mag lo (4 ^ (depth + 1)) k
    · rw [encGroup_empty _ _ _ _ _ _ ht]
      obtain ⟨hlen, hsig⟩ := h
      refine ⟨hlen, fun j hj => ?_⟩
      rw [hsig j hj]
      by_cases hin : lo ≤ j ∧ j < lo + 4 ^ (depth + 1)
      · have hzero : mag.getD j 0 / 2 ^ k = 0 := by
          by_contra hne
          exact Bool.noConfusion (ht.symm.trans ((groupTest_iff _ _ _ _).2 ⟨j, hin.1, hin.2, hne⟩))
        rw [if_neg (by omega), if_pos hin.2, hzero, ((div_succ_eq_zero _ _).1 hzero).1]
      · rw [if_congr (by omega : j < lo + 4 ^ (depth + 1) ↔ j < lo) rfl rfl]
    · rw [encGroup, ht, if_pos rfl]
      have h0 := ih h (by omega)
      have h1 := ih h0 (by omega)
      rw [Nat.add_assoc, ← Nat.two_mul] at h1
      have h2 := ih h1 (by omega)
      rw [Nat.add_assoc, ← Nat.succ_mul] at h2
      have h3 := ih h2 (by omega)
      rw [Nat.add_assoc, ← Nat.succ_mul, ← hsize] at h3
      exact h3

/-! ### The bits emitted -/

/-- The bits of a leaf (44_bitplane_coder R146). -/
theorem encLeaf_bits (h : Marked mag k lo sig) (hl : lo < mag.length) :
    (encGroup mag sgn k 0 lo sig).1 = leafBits (mag.getD lo 0) (sgn.getD lo false) k := by
  have hlo := h.2 lo hl
  rw [if_neg (Nat.lt_irrefl lo)] at hlo
  rw [encGroup, hlo, leafBits]
  cases (mag.getD lo 0).testBit k
  · rfl
  · by_cases hz : mag.getD lo 0 / 2 ^ (k + 1) = 0
    · rw [if_pos hz, decide_eq_false (not_not.2 hz)]
      rfl
    · rw [if_neg hz, decide_eq_true hz]
      rfl

/-- A group emits the bits R146's traversal has for it. -/
theorem encGroup_emits {depth : Nat} {f : Nat → Nat} {g : Nat → Bool} (h : Marked mag k lo sig)
    (hl : lo + 4 ^ depth ≤ mag.length)
    (hfg : ∀ i < mag.length, f i = mag.getD i 0 ∧ g i = sgn.getD i false) :
    groupEmits f g k depth lo (encGroup mag sgn k depth lo sig).1 := by
  induction depth generalizing lo sig with
  | zero =>
    obtain ⟨hf, hg⟩ := hfg lo hl
    rw [encLeaf_bits h hl, ← hf, ← hg]
    rfl
  | succ depth ih =>
    have hsize : 4 ^ (depth + 1) = 4 * 4 ^ depth := Nat.pow_succ'
    cases ht : groupTest mag lo (4 ^ (depth + 1)) k
    · rw [encGroup_empty _ _ _ _ _ _ ht]
      refine .inl ⟨fun i hlo hi => ?_, rfl⟩
      rw [(hfg i (by omega)).1]
      by_contra hne
      exact Bool.noConfusion (ht.symm.trans ((groupTest_iff _ _ _ _).2 ⟨i, hlo, hi, hne⟩))
    · obtain ⟨i, hlo, hi, hne⟩ := (groupTest_iff _ _ _ _).1 ht
      rw [← (hfg i (by omega)).1] at hne
      have h0 := encGroup_marked (sgn := sgn) h (by omega : lo + 4 ^ depth ≤ mag.length)
      have h1 := encGroup_marked (sgn := sgn) h0 (by omega : _ + 4 ^ depth ≤ mag.length)
      rw [Nat.add_assoc, ← Nat.two_mul] at h1
      have h2 := encGroup_marked (sgn := sgn) h1 (by omega : _ + 4 ^ depth ≤ mag.length)
      rw [Nat.add_assoc, ← Nat.succ_mul] at h2
      rw [encGroup, ht, if_pos rfl]
      exact .inr ⟨⟨i, hlo, hi, hne⟩, quarters _ _ _ _, forall_quarters (ih h (by omega)) (ih h0 (by omega))
        (ih h1 (by omega)) (ih h2 (by omega)), rfl⟩

end

/-! ### The planes -/

/-- The bits of plane `k` of a block. -/
def rootBits (mag : List Nat) (sgn : List Bool) (d k : Nat) : List Bool :=
  (encGroup mag sgn k d 0 (marks mag (k + 1))).1

theorem encGroup_root {mag : List Nat} {d : Nat} (hm : mag.length = 4 ^ d) (sgn : List Bool) (k : Nat) :
    encGroup mag sgn k d 0 (marks mag (k + 1)) = (rootBits mag sgn d k, marks mag k) := by
  have h := encGroup_marked (sgn := sgn) (depth := d) (marks_marked mag k) (by omega)
  exact Prod.ext rfl (h.eq_marks (by omega))

theorem planeList_succ (L prec : Nat) : planeList (L + 1) (prec + 1) = L :: planeList L prec := by
  rw [planeList, tab_succ]
  exact congrArg₂ _ (by omega) (tab_congr _ _ _ fun i _ => by omega)

/-- The planes `K - 1` down to `K - prec`, one after another (44_bitplane_coder R146). -/
theorem encPlanes_eq_flatMap {mag : List Nat} {d : Nat} (hm : mag.length = 4 ^ d) (sgn : List Bool) {prec K : Nat}
    (hp : prec ≤ K) : encPlanes mag sgn d (planeList K prec) (marks mag K) =
      (List.range prec).flatMap fun p => rootBits mag sgn d (K - 1 - p) := by
  induction prec generalizing K with
  | zero => rfl
  | succ prec ih =>
    obtain ⟨L, rfl⟩ : ∃ L, K = L + 1 := ⟨K - 1, by omega⟩
    rw [planeList_succ, encPlanes, encGroup_root hm, List.range_succ_eq_map, List.flatMap_cons, List.flatMap_map,
      ih (by omega)]
    simp only [Nat.add_sub_cancel, Nat.sub_zero, Nat.sub_sub, Nat.add_comm]

/-- Before the first plane no coefficient is marked (44_bitplane_coder R142). -/
theorem marks_width {N : Nat} (C : List (BitVec N)) : marks (C.map coefMag) N = C.map fun _ => false := by
  rw [marks, List.map_map]
  refine List.map_congr_left fun x _ => ?_
  simp only [Function.comp_apply, Nat.div_eq_of_lt (coefMag_lt x), ne_eq, not_true_eq_false, decide_false]

section

variable {N d : Nat} {C : List (BitVec N)} (hC : C.length = 4 ^ d)

include hC

theorem planeBits_eq_flatMap {prec : Nat} (hp : prec ≤ N) : planeBits d prec C =
    (List.range prec).flatMap fun p => rootBits (C.map coefMag) (C.map coefSign) d (N - 1 - p) := by
  rw [planeBits, ← marks_width]
  exact encPlanes_eq_flatMap (by rw [List.length_map, hC]) _ hp

/-- Fewer planes are a beginning of the stream (44_bitplane_coder R153). -/
theorem planeBits_isPrefix {p prec : Nat} (hpp : p ≤ prec) (hp : prec ≤ N) :
    planeBits d p C <+: planeBits d prec C := by
  rw [planeBits_eq_flatMap hC hp, planeBits_eq_flatMap hC (hpp.trans hp), ← Nat.add_sub_cancel' hpp, List.range_add,
    List.flatMap_append]
  exact List.prefix_append _ _

/-- `planeBits` is the sequence R146's traversal emits. -/
theorem planeBits_encodes {prec : Nat} (hp : prec ≤ N) {c : Nat → BitVec N} (hc : ∀ j < 4 ^ d, c j = C.getD j 0) :
    encodes d prec c (planeBits d prec C) := by
  have hm : (C.map coefMag).length = 4 ^ d := by rw [List.length_map, hC]
  refine ⟨rootBits (C.map coefMag) (C.map coefSign) d, fun k _ _ => ?_, planeBits_eq_flatMap hC hp⟩
  refine encGroup_emits (marks_marked _ k) (by omega) fun i hi => ?_
  rw [hc i (by omega), getD_map_coefMag, getD_map_coefSign]
  exact ⟨rfl, rfl⟩

end

/-! ### The number of bits (44_bitplane_coder R150) -/

/-- A group in which no test is 0 costs all its tests and leaves, and a sign bit per mark set. -/
theorem encGroup_cost_eq {mag : List Nat} {k : Nat} (hne : ∀ j < mag.length, mag.getD j 0 / 2 ^ k ≠ 0)
    (sgn : List Bool) {depth lo : Nat} {sig : List Bool} (hlen : sig.length = mag.length)
    (hl : lo + 4 ^ depth ≤ mag.length) :
    (encGroup mag sgn k depth lo sig).1.length + (encGroup mag sgn k depth lo sig).2.count false =
      groupCost depth + sig.count false := by
  induction depth generalizing lo sig with
  | zero =>
    rw [encGroup]
    split
    · next hfirst =>
      simp only [Bool.and_eq_true, Bool.not_eq_true'] at hfirst
      have hmark : (sig.set lo true).count false + 1 = sig.count false :=
        Work.unmarked_mark ⟨[], [], sig⟩ lo (by rw [hlen]; exact hl) hfirst.2
      simp only [List.length_cons, List.length_nil, groupCost]
      omega
    · rfl
  | succ depth ih =>
    have hsize : 4 ^ (depth + 1) = 4 * 4 ^ depth := Nat.pow_succ'
    have hpos : 0 < 4 ^ depth := by positivity
    have ht : groupTest mag lo (4 ^ (depth + 1)) k = true :=
      (groupTest_iff _ _ _ _).2 ⟨lo, le_refl lo, by omega, hne lo (by omega)⟩
    have keeps (lo : Nat) (sig : List Bool) (hs : sig.length = mag.length) (hl : lo + 4 ^ depth ≤ mag.length) :
        (encGroup mag sgn k depth lo sig).2.length = mag.length :=
      (encGroup_cost mag sgn k depth lo sig (by omega)).2.trans hs
    have l0 := keeps lo sig hlen (by omega)
    have l1 := keeps (lo + 4 ^ depth) _ l0 (by omega)
    have l2 := keeps (lo + 2 * 4 ^ depth) _ l1 (by omega)
    have c0 := ih hlen (by omega : lo + 4 ^ depth ≤ mag.length)
    have c1 := ih l0 (by omega : lo + 4 ^ depth + 4 ^ depth ≤ mag.length)
    have c2 := ih l1 (by omega : lo + 2 * 4 ^ depth + 4 ^ depth ≤ mag.length)
    have c3 := ih l2 (by omega : lo + 3 * 4 ^ depth + 4 ^ depth ≤ mag.length)
    rw [encGroup, ht, if_pos rfl]
    simp only [List.length_cons, List.length_append, groupCost]
    omega

theorem encPlanes_cost_eq {mag : List Nat} {d : Nat} (hm : mag.length = 4 ^ d) (sgn : List Bool) {prec K : Nat}
    (hp : prec ≤ K) (hne : ∀ k < K, ∀ j < mag.length, mag.getD j 0 / 2 ^ k ≠ 0) :
    (encPlanes mag sgn d (planeList K prec) (marks mag K)).length + (marks mag (K - prec)).count false =
      prec * groupCost d + (marks mag K).count false := by
  induction prec generalizing K with
  | zero => simp [planeList, tab, encPlanes]
  | succ prec ih =>
    obtain ⟨L, rfl⟩ : ∃ L, K = L + 1 := ⟨K - 1, by omega⟩
    have hplane := encGroup_cost_eq (hne L (Nat.lt_succ_self L)) sgn (sig := marks mag (L + 1)) (depth := d) (lo := 0)
      (List.length_map _) (by omega)
    have hrest := ih (by omega : prec ≤ L) fun k hk => hne k (by omega)
    rw [encGroup_root hm] at hplane
    rw [planeList_succ, encPlanes, encGroup_root hm, List.length_append, Nat.succ_mul,
      show L + 1 - (prec + 1) = L - prec by omega]
    simp only at hplane ⊢
    omega

theorem coefMag_intMin {N : Nat} (hN : N ≠ 0) : coefMag (BitVec.intMin N) = 2 ^ (N - 1) := by
  rw [coefMag, BitVec.toInt_intMin_of_pos (Nat.pos_of_ne_zero hN), Int.natAbs_neg]
  exact Int.natAbs_pow 2 (N - 1)

/-- Coefficients `-2^(N-1)` have a 1 bit at or above every plane, so every plane costs the most. -/
theorem planeBits_intMin_length {N d : Nat} {C : List (BitVec N)} (hN : N ≠ 0) (hC : C.length = 4 ^ d)
    (hmin : ∀ x ∈ C, x = BitVec.intMin N) : (planeBits d N C).length = worst N d := by
  have hmag : C.map coefMag = List.replicate (4 ^ d) (2 ^ (N - 1)) := by
    rw [List.eq_replicate_of_mem hmin, List.map_replicate, coefMag_intMin hN, hC]
  have hne : ∀ k < N, ∀ j < (C.map coefMag).length, (C.map coefMag).getD j 0 / 2 ^ k ≠ 0 := by
    intro k hk j hj
    rw [hmag, List.length_replicate] at hj
    rw [hmag, List.getD_replicate _ hj]
    exact Nat.ne_of_gt (Nat.div_pos (Nat.pow_le_pow_right (by decide) (by omega)) (by positivity))
  have hcost := encPlanes_cost_eq (by rw [List.length_map, hC]) (C.map coefSign) (le_refl N) hne
  have hstart : (marks (C.map coefMag) N).count false = 4 ^ d := by
    rw [marks_width, List.map_const', List.count_replicate_self, hC]
  have hend : (marks (C.map coefMag) (N - N)).count false = 0 := by
    rw [hmag, marks, List.map_replicate]
    simp [List.count_replicate]
  rw [hstart, hend, marks_width] at hcost
  rw [worst, ← groupCost_eq]
  exact hcost

theorem rootBits_zero {mag : List Nat} (hz : ∀ j, mag.getD j 0 = 0) (sgn : List Bool) (d k : Nat) :
    rootBits mag sgn d k = [false] := by
  cases d with
  | zero => simp only [rootBits, encGroup, hz, Nat.zero_testBit, Bool.false_and, Bool.false_eq_true, if_false]
  | succ d =>
    have ht : groupTest mag 0 (4 ^ (d + 1)) k = false := by
      rw [Bool.eq_false_iff, ne_eq, groupTest_iff]
      rintro ⟨i, -, -, hne⟩
      exact hne (by rw [hz, Nat.zero_div])
    rw [rootBits, encGroup_empty _ _ _ _ _ _ ht]

/-- An all-zero block has one test bit per plane. -/
theorem planeBits_zero {N d prec : Nat} {C : List (BitVec N)} (hC : C.length = 4 ^ d) (hp : prec ≤ N)
    (hz : ∀ x ∈ C, x = 0) : planeBits d prec C = List.replicate prec false := by
  have hmag : ∀ j, (C.map coefMag).getD j 0 = 0 := by
    intro j
    have hj : C.getD j 0 = 0 := by
      rw [List.eq_replicate_of_mem hz, List.getD_eq_getElem?_getD, List.getElem?_getD_replicate_default_eq]
    rw [getD_map_coefMag, hj]
    simp
  rw [planeBits_eq_flatMap hC hp]
  simp only [rootBits_zero hmag]
  rw [← List.map_eq_flatMap, List.map_const', List.length_range]

end Sys2Proof.Machine

namespace Sys2Proof.Proofs

open Sys2Proof Sys2Proof.Machine Sys2Proof.Claims

/-- Settles O45: the marks say which coefficients have had their first 1 bit, and each set costs one sign bit. -/
theorem planeCosts : Obligations.PlaneCosts := by
  intro N d prec C hN hp hC
  refine ⟨planeBits_encodes hC hp fun _ _ => rfl, ?_, ?_, planeBits_zero hC hp⟩
  · have hlen := planeBits_length d prec C hC
    have hmul := Nat.mul_le_mul_right (groupCost d) hp
    rw [worst, ← groupCost_eq]
    omega
  · rintro hmin rfl
    exact planeBits_intMin_length hN hC hmin

end Sys2Proof.Proofs
end

section
/-! PROOFS, family 44_bitplane_coder: `ENCPL` (44_bitplane_coder R144, R146, R151, R153). -/

namespace Sys2Proof.Machine

open Sys2Proof Sys2Proof.Claims

/-- The bits `ENCPL` has to write: those of the planes, cut by `MAXBITS` (44_bitplane_coder R144, R146). -/
def State.planeStream (s : State) : List Bool := (planeBits s.dim s.planes s.coeffs).take s.budget

theorem exec_encpl_dirErr (s : State) (h : s.fifo.dir = .rd) : exec .encpl s = .next (s.raise .dirErr 0) := by
  simp [exec, execEncpl, h, Run.toOutcome]

section

variable {s : State} (hd : s.fifo.dir = .wr) (hb : s.fifo.bufferOk)

include hd in
theorem exec_encpl_writer : exec .encpl s = .next (encodePlanes s).state := by
  simp [exec, execEncpl, hd, Run.toOutcome]

include hd hb

/-- With room for them `ENCPL` writes all its bits. -/
theorem exec_encpl_wrote (hc : s.planeStream.length ≤ s.room) :
    ∃ t, exec .encpl s = .next t ∧ WroteN s.planeStream s t := by
  obtain ⟨t, ht, hw⟩ := (emitAll_end (planeBits s.dim s.planes s.coeffs) s hd hb).of_room hc
  exact ⟨t, by rw [exec_encpl_writer hd, encodePlanes, ht, Run.state_ok], hw⟩

/-- Without, it writes those there is room for and records the fault. -/
theorem exec_encpl_full (hc : s.room < s.planeStream.length) :
    ∃ u, exec .encpl s = .next (u.raise .capacity (BitVec.ofNat 64 u.pos)) ∧
      WroteN (s.planeStream.take s.room) s u := by
  obtain ⟨u, hu, hw⟩ := (emitAll_end (planeBits s.dim s.planes s.coeffs) s hd hb).of_full hc
  exact ⟨u, by rw [exec_encpl_writer hd, encodePlanes, hu, Run.state_raised], hw⟩

end

theorem State.length_planeStream_le (s : State) : s.planeStream.length ≤ s.budget := List.length_take_le _ _

/-- What is written of a first part is the beginning of what is written of the whole. -/
theorem Wrote.writtenBit_eq_of_isPrefix {bs cs : List Bool} {s s' t t' : State} (h : Wrote bs s t)
    (g : Wrote cs s' t') (hpre : cs <+: bs) (hpos : s'.pos = s.pos)
    (hbits : ∀ p < s.pos, s'.writtenBit p = s.writtenBit p) {p : Nat} (hp : p < t'.pos) :
    t'.writtenBit p = t.writtenBit p := by
  by_cases hold : p < s.pos
  · rw [g.below p (by omega), h.below p hold, hbits p hold]
  · obtain ⟨j, rfl⟩ := Nat.exists_eq_add_of_le (Nat.not_lt.1 hold)
    have hj : j < cs.length := by
      have := g.pos
      omega
    obtain ⟨rest, rfl⟩ := hpre
    have hwhole := h.wrote j (by rw [List.length_append]; omega)
    have hpart := g.wrote j hj
    rw [hpos] at hpart
    rw [hwhole, hpart, List.getD_append _ _ _ _ hj]

end Sys2Proof.Machine

namespace Sys2Proof.Proofs

open Sys2Proof Sys2Proof.Machine Sys2Proof.Claims

/-- Settles O41: the traversal's bits are those of `planeBits`, of which `emit` writes those within `MAXBITS` and the
capacity. -/
theorem encplWritesThePlanes : Obligations.EncplWritesThePlanes := by
  intro s
  refine ⟨exec_encpl_dirErr s, planeBits s.dim s.planes s.coeffs, ?_, ?_⟩
  · exact planeBits_encodes s.length_coeffs (Nat.min_le_right _ _) fun j hj => (s.getD_coeffs j hj).symm
  · rintro bs rfl
    refine ⟨fun hd hb hc => ?_, fun hd hb hc => ?_⟩
    · obtain ⟨t, ht, hw⟩ := exec_encpl_wrote hd hb hc
      exact ⟨t, ht, hw.toWrote.appended, hw.count⟩
    · obtain ⟨u, hu, hw⟩ := exec_encpl_full hd hb hc
      have hlen : (s.planeStream.take s.room).length = s.room := List.length_take_of_le (Nat.le_of_lt hc)
      exact ⟨u, hu, hw.toWrote.appended, hw.count.trans (congrArg _ hlen)⟩

/-- Settles O44: fewer planes and a smaller `MAXBITS` each leave a first part of the bits to write. -/
theorem smallerLimitsGiveAPrefix : Obligations.SmallerLimitsGiveAPrefix := by
  rintro s t t' mb pe ⟨hd, hb, hc⟩ hmb hpe ht ht'
  generalize hs' : (s.setCfg { s.cfg with maxbits := mb }).setPreceff pe = s' at ht'
  have hplanes : s'.planes ≤ s.planes := by
    subst hs'
    exact min_le_min_right _ hpe
  have hbudget : s'.budget ≤ s.budget := by
    subst hs'
    exact Nat.sub_le_sub_right hmb _
  have hstream : s'.planeStream = (planeBits s.dim s'.planes s.coeffs).take s'.budget := by
    subst hs'
    rfl
  have hunit : s'.fifo = s.fifo ∧ s'.mem = s.mem ∧ s'.bits = s.bits ∧ s'.pos = s.pos ∧ s'.room = s.room := by
    subst hs'
    exact ⟨rfl, rfl, rfl, rfl, rfl⟩
  obtain ⟨hfifo, hmem, hbits, hpos, hroom⟩ := hunit
  have hpre : s'.planeStream <+: s.planeStream := by
    rw [hstream]
    exact ((planeBits_isPrefix s.length_coeffs hplanes (Nat.min_le_right _ _)).take _).trans
      (List.take_prefix_take_left hbudget)
  have hlen := hpre.length_le
  have hfits : s.planeStream.length ≤ s.room := s.length_planeStream_le.trans (Nat.le_sub_of_add_le' hc)
  obtain ⟨u, hu, hw⟩ := exec_encpl_wrote hd hb hfits
  obtain ⟨u', hu', hw'⟩ := exec_encpl_wrote (s := s') (by rw [hfifo, hd]) (by rwa [hfifo]) (by omega)
  cases ht.symm.trans hu
  cases ht'.symm.trans hu'
  refine ⟨?_, ?_, fun p => hw.toWrote.writtenBit_eq_of_isPrefix hw'.toWrote hpre hpos fun p _ => ?_⟩
  · rw [hw'.pos, hw.pos, hpos]
    omega
  · rw [hw'.count, hw.count, hbits]
    omega
  · rw [State.writtenBit, State.writtenBit, hfifo, hmem]

end Sys2Proof.Proofs
end

section
/-! PROOFS, family 44_bitplane_coder: the decoder's traversal of any bit sequence takes R147's bits for the magnitudes
and signs it leaves, and how many these are at most (44_bitplane_coder R147, R150, R153). -/

namespace Sys2Proof.Machine

open Sys2Proof Sys2Proof.Claims

/-! ### Work values and what they know -/

/-- Work values of `n` coefficients. -/
def Work.Sized (n : Nat) (w : Work) : Prop := w.mag.length = n ∧ w.sgn.length = n ∧ w.sig.length = n

theorem Work.upto_iff {mag : List Nat} {sgn : List Bool} {n k lo : Nat} {w : Work} :
    w.Upto mag sgn n k lo ↔ w.Sized n ∧ ∀ j < n, w.knows mag sgn (if j < lo then k else k + 1) j := by
  constructor
  · rintro ⟨hm, hs, hg, hlow, hhigh⟩
    refine ⟨⟨hm, hs, hg⟩, fun j hj => ?_⟩
    split
    · next hlt => exact hlow j hlt hj
    · next hge => exact hhigh j (Nat.not_lt.1 hge) hj
  · rintro ⟨⟨hm, hs, hg⟩, hknows⟩
    refine ⟨hm, hs, hg, fun j hlt hj => ?_, fun j hge hj => ?_⟩
    · simpa only [if_pos hlt] using hknows j hj
    · simpa only [if_neg (Nat.not_lt.2 hge)] using hknows j hj

/-- Work values know what they hold themselves: no 1 bit below the planes decoded, a mark where there is one. -/
def Work.Planar (n k lo : Nat) (w : Work) : Prop := w.Upto w.mag w.sgn n k lo

/-- What is known down to a plane. -/
theorem Work.knows_self_iff {w : Work} {K j : Nat} : w.knows w.mag w.sgn K j ↔
    w.mag.getD j 0 % 2 ^ K = 0 ∧ w.sig.getD j false = decide (w.mag.getD j 0 ≠ 0) := by
  have hcancel : w.mag.getD j 0 = w.mag.getD j 0 / 2 ^ K * 2 ^ K ↔ w.mag.getD j 0 % 2 ^ K = 0 := by
    have hdiv := Nat.div_add_mod' (w.mag.getD j 0) (2 ^ K)
    omega
  simp only [Work.knows, implies_true, and_true, hcancel]
  refine and_congr_right fun hmod => ?_
  have hzero : w.mag.getD j 0 / 2 ^ K = 0 ↔ w.mag.getD j 0 = 0 :=
    ⟨fun h => by rw [hcancel.2 hmod, h, Nat.zero_mul], fun h => by rw [h, Nat.zero_div]⟩
  simp only [ne_eq, hzero]

theorem Work.zero_planar (n K : Nat) : (Work.zero n).Planar n K n := by
  refine Work.upto_iff.2 ⟨by simp [Work.Sized, Work.zero], fun j hj => Work.knows_self_iff.2 ?_⟩
  simp [Work.zero, List.getD_eq_getElem?_getD, hj]

/-- The two readings of a plane's number: a magnitude down to plane `k` is that down to plane `k + 1` and one bit. -/
theorem plane_digits {m a k : Nat} {b : Bool} :
    m / 2 ^ k * 2 ^ k = a * 2 ^ (k + 1) + b.toNat * 2 ^ k ↔ m / 2 ^ (k + 1) = a ∧ m.testBit k = b := by
  constructor
  · intro h
    have hpos : 0 < 2 ^ k := by positivity
    have hdigits : m / 2 ^ k = 2 * a + b.toNat :=
      Nat.eq_of_mul_eq_mul_right hpos (by rw [h]; ring)
    have hb := b.toNat_lt
    refine ⟨by rw [Nat.pow_succ, ← Nat.div_div_eq_div_mul]; omega, ?_⟩
    rw [Nat.testBit_eq_decide_div_mod_eq, hdigits]
    cases b <;> simp
  · rintro ⟨rfl, rfl⟩
    exact plane_step m k

/-! ### A leaf -/

section

variable {n k lo : Nat} {w : Work} {β : Nat → Bool}

theorem readLeaf_mag (hl : lo < w.mag.length) (j : Nat) : (readLeaf k lo w β).1.mag.getD j 0 =
    if j = lo then w.mag.getD lo 0 + (β 0).toNat * 2 ^ k else w.mag.getD j 0 := by
  rw [← getD_set _ _ _ _ _ hl, readLeaf]
  split <;> rfl

theorem readLeaf_sig (hl : lo < w.sig.length) (j : Nat) : (readLeaf k lo w β).1.sig.getD j false =
    if j = lo then w.sig.getD lo false || β 0 else w.sig.getD j false := by
  rw [← getD_set _ _ _ _ _ hl, readLeaf]
  cases hs : w.sig.getD lo false <;> cases β 0
  · exact congrArg (List.getD · j false) (hs ▸ set_getD_self w.sig lo false).symm
  · rfl
  all_goals exact congrArg (List.getD · j false) (hs ▸ set_getD_self w.sig lo false).symm

theorem readLeaf_sgn (hl : lo < w.sgn.length) (j : Nat) : (readLeaf k lo w β).1.sgn.getD j false =
    if j = lo ∧ (β 0 && !w.sig.getD lo false) = true then β 1 else w.sgn.getD j false := by
  rw [readLeaf]
  split
  · next hfirst =>
    rw [if_congr (and_iff_left hfirst) rfl rfl, ← getD_set _ _ _ _ _ hl]
    rfl
  · next hnot =>
    rw [if_neg fun h => hnot h.2]
    rfl

theorem readLeaf_sized (h : w.Sized n) : (readLeaf k lo w β).1.Sized n := by
  obtain ⟨hm, hs, hg⟩ := h
  rw [readLeaf]
  split <;> simp [Work.Sized, Work.addBit, Work.mark, Work.setSign, hm, hs, hg]

/-- A leaf changes nothing of the other coefficients. -/
theorem readLeaf_knows_ne (hs : w.Sized n) (hl : lo < n) {mag : List Nat} {sgn : List Bool} {K j : Nat}
    (hj : j ≠ lo) : (readLeaf k lo w β).1.knows mag sgn K j ↔ w.knows mag sgn K j := by
  obtain ⟨hmag, hsgn, hsig⟩ := hs
  rw [Work.knows, readLeaf_mag (hmag ▸ hl), readLeaf_sig (hsig ▸ hl), readLeaf_sgn (hsgn ▸ hl), if_neg hj, if_neg hj,
    if_neg fun h => hj h.1]
  rfl

/-- The bits a leaf takes are those of a coefficient when they are its bit and, at its first 1 bit, its sign. -/
theorem tab_readLeaf_eq_iff {m : Nat} {sg : Bool} (hsig : w.sig.getD lo false = decide (m / 2 ^ (k + 1) ≠ 0)) :
    tab (readLeaf k lo w β).2 β = leafBits m sg k ↔
      m.testBit k = β 0 ∧ ((β 0 && !w.sig.getD lo false) = true → β 1 = sg) := by
  rw [readLeaf, leafBits, hsig]
  by_cases hz : m / 2 ^ (k + 1) = 0 <;> cases hb : β 0 <;> cases m.testBit k <;> simp [hz, hb, tab, List.range_succ]

/-- A leaf leaves a coefficient known down to its plane when it was known down to the plane above and the bits taken
are its bits. -/
theorem readLeaf_knows_iff (hs : w.Sized n) (hl : lo < n) (hself : w.knows w.mag w.sgn (k + 1) lo) {mag : List Nat}
    {sgn : List Bool} : (readLeaf k lo w β).1.knows mag sgn k lo ↔ w.knows mag sgn (k + 1) lo ∧
      tab (readLeaf k lo w β).2 β = leafBits (mag.getD lo 0) (sgn.getD lo false) k := by
  obtain ⟨hmag, hsgn, hsig⟩ := hs
  obtain ⟨hw, hmark, -⟩ := hself
  generalize hM : mag.getD lo 0 = M
  generalize hS : sgn.getD lo false = S
  have hnew : (readLeaf k lo w β).1.mag.getD lo 0 = M / 2 ^ k * 2 ^ k ↔
      M / 2 ^ (k + 1) = w.mag.getD lo 0 / 2 ^ (k + 1) ∧ M.testBit k = β 0 := by
    rw [readLeaf_mag (hmag ▸ hl), if_pos rfl, ← plane_digits, ← hw, eq_comm]
  have hold : w.mag.getD lo 0 = M / 2 ^ (k + 1) * 2 ^ (k + 1) ↔
      M / 2 ^ (k + 1) = w.mag.getD lo 0 / 2 ^ (k + 1) := by
    constructor
    · intro h
      rw [h, Nat.mul_div_cancel _ (by positivity)]
    · intro h
      rw [h, ← hw]
  rw [Work.knows, Work.knows, hM, hS, hnew, hold, readLeaf_sig (hsig ▸ hl), readLeaf_sgn (hsgn ▸ hl), if_pos rfl,
    and_assoc, and_assoc]
  refine and_congr_right fun hdiv => ?_
  rw [← hdiv] at hmark
  rw [tab_readLeaf_eq_iff hmark, mark_step M k]
  simp only [ne_eq, div_succ_eq_zero M k, hmark]
  by_cases hz : M / 2 ^ (k + 1) = 0 <;> cases hb : β 0 <;> cases M.testBit k <;> simp [hz]

/-- The leaf of the decoder, against any coefficients: it leaves plane `k` known below `lo + 1` when it was known
below `lo` and the bits taken are those of coefficient `lo`. -/
theorem readLeaf_upto_iff (hw : w.Planar n k lo) (hl : lo < n) {mag : List Nat} {sgn : List Bool} :
    (readLeaf k lo w β).1.Upto mag sgn n k (lo + 1) ↔ w.Upto mag sgn n k lo ∧
      tab (readLeaf k lo w β).2 β = leafBits (mag.getD lo 0) (sgn.getD lo false) k := by
  have hat := readLeaf_knows_iff (β := β) ⟨hw.mags, hw.sgns, hw.sigs⟩ hl (hw.high lo (le_refl lo) hl) (mag := mag)
    (sgn := sgn)
  obtain ⟨hs, -⟩ := Work.upto_iff.1 hw
  have hne (j : Nat) (hj : j ≠ lo) : (readLeaf k lo w β).1.knows mag sgn (if j < lo + 1 then k else k + 1) j ↔
      w.knows mag sgn (if j < lo then k else k + 1) j := by
    rw [readLeaf_knows_ne hs hl hj, if_congr (by omega : j < lo + 1 ↔ j < lo) rfl rfl]
  rw [Work.upto_iff, Work.upto_iff]
  constructor
  · rintro ⟨-, hknows⟩
    have hlo := hknows lo hl
    rw [if_pos (Nat.lt_succ_self lo)] at hlo
    obtain ⟨hlo', hbits⟩ := hat.1 hlo
    refine ⟨⟨hs, fun j hj => ?_⟩, hbits⟩
    by_cases hjl : j = lo
    · rw [hjl, if_neg (Nat.lt_irrefl lo)]
      exact hlo'
    · exact (hne j hjl).1 (hknows j hj)
  · rintro ⟨⟨-, hknows⟩, hbits⟩
    have hlo := hknows lo hl
    rw [if_neg (Nat.lt_irrefl lo)] at hlo
    refine ⟨readLeaf_sized hs, fun j hj => ?_⟩
    by_cases hjl : j = lo
    · rw [hjl, if_pos (Nat.lt_succ_self lo)]
      exact hat.2 ⟨hlo, hbits⟩
    · exact (hne j hjl).2 (hknows j hj)

theorem readLeaf_planar (hw : w.Planar n k lo) (hl : lo < n) : (readLeaf k lo w β).1.Planar n k (lo + 1) := by
  obtain ⟨hs, hknows⟩ := Work.upto_iff.1 hw
  refine Work.upto_iff.2 ⟨readLeaf_sized hs, fun j hj => ?_⟩
  have hj' := Work.knows_self_iff.1 (hknows j hj)
  obtain ⟨hmag, hsgn, hsig⟩ := hs
  rw [Work.knows_self_iff, readLeaf_mag (hmag ▸ hl), readLeaf_sig (hsig ▸ hl)]
  by_cases hjl : j = lo
  · subst hjl
    rw [if_neg (Nat.lt_irrefl j)] at hj'
    obtain ⟨hmod, hmark⟩ := hj'
    obtain ⟨a, ha⟩ := Nat.dvd_of_mod_eq_zero hmod
    have hpos : 0 < 2 ^ k := by positivity
    rw [if_pos rfl, if_pos rfl, if_pos (Nat.lt_succ_self j), hmark, ha]
    refine ⟨Nat.mod_eq_zero_of_dvd (Dvd.intro (2 * a + (β 0).toNat) (by ring)), ?_⟩
    cases β 0 <;> simp
  · rw [if_neg hjl, if_neg hjl, if_congr (by omega : j < lo + 1 ↔ j < lo) rfl rfl]
    exact hj'

end

/-! ### Groups and planes -/

theorem tab_add {α : Type} (a b : Nat) (f : Nat → α) : tab (a + b) f = tab a f ++ tab b fun j => f (a + j) := by
  simp only [tab, List.range_add, List.map_append, List.map_map]
  rfl

/-- The bits of one traversal after another. -/
theorem tab_readThen (p : Work × Nat) (q : Work → (Nat → Bool) → Work × Nat) (β : Nat → Bool) :
    tab (readThen p q β).2 β = tab p.2 β ++ tab (q p.1 fun j => β (p.2 + j)).2 fun j => β (p.2 + j) :=
  tab_add _ _ _

/-- A group with test bit 0 has no 1 bit at its plane. -/
theorem Work.Planar.skip {n k lo m : Nat} {w : Work} (h : w.Planar n k lo) : w.Planar n k (lo + m) := by
  obtain ⟨hs, hknows⟩ := Work.upto_iff.1 h
  refine Work.upto_iff.2 ⟨hs, fun j hj => Work.knows_self_iff.2 ?_⟩
  obtain ⟨hmod, hmark⟩ := Work.knows_self_iff.1 (hknows j hj)
  refine ⟨?_, hmark⟩
  split
  · exact Nat.mod_eq_zero_of_dvd ((Nat.pow_dvd_pow 2 (by split <;> omega)).trans (Nat.dvd_of_mod_eq_zero hmod))
  · next hge => rwa [if_neg (by omega)] at hmod

theorem readGroup_planar {n k depth lo : Nat} {w : Work} {β : Nat → Bool} (hw : w.Planar n k lo)
    (hl : lo + 4 ^ depth ≤ n) : (readGroup k depth lo w β).1.Planar n k (lo + 4 ^ depth) := by
  induction depth generalizing lo w β with
  | zero => exact readLeaf_planar hw hl
  | succ depth ih =>
    have hsize : 4 ^ (depth + 1) = 4 * 4 ^ depth := Nat.pow_succ'
    have step (p : Work × Nat) (lo : Nat) (hp : p.1.Planar n k lo) (hl : lo + 4 ^ depth ≤ n) :
        (readThen p (readGroup k depth lo) β).1.Planar n k (lo + 4 ^ depth) := ih hp hl
    rw [readGroup]
    split
    · have h1 := step (w, 1) lo hw (by omega)
      have h2 := step _ (lo + 4 ^ depth) h1 (by omega)
      rw [Nat.add_assoc, ← Nat.two_mul] at h2
      have h3 := step _ (lo + 2 * 4 ^ depth) h2 (by omega)
      rw [Nat.add_assoc, ← Nat.succ_mul] at h3
      have h4 := step _ (lo + 3 * 4 ^ depth) h3 (by omega)
      rwa [Nat.add_assoc, ← Nat.succ_mul, ← hsize] at h4
    · exact hw.skip

/-- What is known down to plane `k` and has no 1 bit there is known down to the plane above. -/
theorem Work.knows_above {mag : List Nat} {sgn : List Bool} {k j : Nat} {w : Work} (h : w.knows mag sgn k j)
    (hmod : w.mag.getD j 0 % 2 ^ (k + 1) = 0) :
    w.knows mag sgn (k + 1) j ∧ (mag.getD j 0).testBit k = false := by
  obtain ⟨hm, hmark, hsign⟩ := h
  obtain ⟨a, ha⟩ := Nat.dvd_of_mod_eq_zero hmod
  rw [Nat.mul_comm] at ha
  obtain ⟨hdiv, hbit⟩ := (plane_digits (b := false)).1 (hm.symm.trans (by simpa using ha))
  rw [mark_step, hbit, Bool.or_false] at hmark
  exact ⟨⟨by rw [ha, hdiv], hmark, fun hne => hsign fun hz => hne ((div_succ_eq_zero _ _).1 hz).1⟩, hbit⟩

theorem groupTakes_split {mag : Nat → Nat} {sgn : Nat → Bool} {k depth lo : Nat} {b0 b1 b2 b3 : List Bool}
    (h0 : groupTakes mag sgn k depth lo b0) (h1 : groupTakes mag sgn k depth (lo + 4 ^ depth) b1)
    (h2 : groupTakes mag sgn k depth (lo + 2 * 4 ^ depth) b2)
    (h3 : groupTakes mag sgn k depth (lo + 3 * 4 ^ depth) b3) :
    groupTakes mag sgn k (depth + 1) lo (true :: (b0 ++ b1 ++ b2 ++ b3)) :=
  .inr ⟨quarters b0 b1 b2 b3, forall_quarters h0 h1 h2 h3, rfl⟩

/-- A group of the decoder, against any coefficients known down to plane `k` after it: they were known down to the
plane above before it, and the bits taken are R147's for them. -/
theorem readGroup_takes {n k depth lo : Nat} {w : Work} {β : Nat → Bool} {mag : List Nat} {sgn : List Bool}
    (hw : w.Planar n k lo) (hl : lo + 4 ^ depth ≤ n)
    (h : (readGroup k depth lo w β).1.Upto mag sgn n k (lo + 4 ^ depth)) : w.Upto mag sgn n k lo ∧
      groupTakes (mag.getD · 0) (sgn.getD · false) k depth lo (tab (readGroup k depth lo w β).2 β) := by
  induction depth generalizing lo w β with
  | zero => exact (readLeaf_upto_iff hw hl).1 h
  | succ depth ih =>
    have hsize : 4 ^ (depth + 1) = 4 * 4 ^ depth := Nat.pow_succ'
    have step (p : Work × Nat) (lo : Nat) (hp : p.1.Planar n k lo) (hl : lo + 4 ^ depth ≤ n)
        (h : (readThen p (readGroup k depth lo) β).1.Upto mag sgn n k (lo + 4 ^ depth)) :
        p.1.Upto mag sgn n k lo ∧ ∃ b, tab (readThen p (readGroup k depth lo) β).2 β = tab p.2 β ++ b ∧
          groupTakes (mag.getD · 0) (sgn.getD · false) k depth lo b :=
      have hback := ih hp hl h
      ⟨hback.1, _, tab_readThen _ _ _, hback.2⟩
    have planar (p : Work × Nat) (lo : Nat) (hp : p.1.Planar n k lo) (hl : lo + 4 ^ depth ≤ n) :
        (readThen p (readGroup k depth lo) β).1.Planar n k (lo + 4 ^ depth) := readGroup_planar hp hl
    rw [readGroup] at h ⊢
    cases hb : β 0
    · rw [hb, if_neg Bool.false_ne_true] at h
      rw [if_neg Bool.false_ne_true]
      obtain ⟨hs, hknows⟩ := Work.upto_iff.1 h
      have above (j : Nat) (hlo : lo ≤ j) (hj : j < lo + 4 ^ (depth + 1)) :
          w.knows mag sgn (k + 1) j ∧ (mag.getD j 0).testBit k = false := by
        refine Work.knows_above (h.low j hj (by omega)) ?_
        exact (Work.knows_self_iff.1 (hw.high j hlo (by omega))).1
      refine ⟨Work.upto_iff.2 ⟨hs, fun j hj => ?_⟩, .inl ⟨fun j hlo hj => (above j hlo hj).2, by simp [tab, hb]⟩⟩
      by_cases hin : lo ≤ j ∧ j < lo + 4 ^ (depth + 1)
      · rw [if_neg (by omega)]
        exact (above j hin.1 hin.2).1
      · have hj' := hknows j hj
        rwa [if_congr (by omega : j < lo + 4 ^ (depth + 1) ↔ j < lo) rfl rfl] at hj'
    · rw [hb, if_pos rfl] at h
      rw [if_pos rfl]
      have h1 := planar (w, 1) lo hw (by omega)
      have h2 := planar _ (lo + 4 ^ depth) h1 (by omega)
      rw [Nat.add_assoc, ← Nat.two_mul] at h2
      have h3 := planar _ (lo + 2 * 4 ^ depth) h2 (by omega)
      rw [Nat.add_assoc, ← Nat.succ_mul] at h3
      rw [hsize, Nat.succ_mul 3, ← Nat.add_assoc] at h
      obtain ⟨g3, b3, e3, t3⟩ := step _ _ h3 (by omega) h
      rw [Nat.succ_mul, ← Nat.add_assoc] at g3
      obtain ⟨g2, b2, e2, t2⟩ := step _ _ h2 (by omega) g3
      rw [Nat.two_mul, ← Nat.add_assoc] at g2
      obtain ⟨g1, b1, e1, t1⟩ := step _ _ h1 (by omega) g2
      obtain ⟨g0, b0, e0, t0⟩ := step (w, 1) lo hw (by omega) g1
      refine ⟨g0, ?_⟩
      have hfirst : tab 1 β = [true] := by simp [tab, hb]
      rw [e3, e2, e1, e0, hfirst, List.singleton_append, List.cons_append, List.cons_append, List.cons_append]
      exact groupTakes_split t0 t1 t2 t3

/-- The most bits a group takes (44_bitplane_coder R150): its tests, its leaves and a sign bit per mark set. -/
theorem readGroup_cost {k depth lo : Nat} {w : Work} {β : Nat → Bool} (hl : lo + 4 ^ depth ≤ w.sig.length) :
    (readGroup k depth lo w β).2 + (readGroup k depth lo w β).1.unmarked ≤ groupCost depth + w.unmarked ∧
      (readGroup k depth lo w β).1.sig.length = w.sig.length := by
  induction depth generalizing lo w β with
  | zero =>
    rw [readGroup, readLeaf]
    split
    · next hfirst =>
      simp only [Bool.and_eq_true, Bool.not_eq_true'] at hfirst
      have hmark := Work.unmarked_mark w lo (by simpa using hl) hfirst.2
      refine ⟨?_, List.length_set⟩
      change 2 + (w.mark lo).unmarked ≤ 1 + w.unmarked
      omega
    · exact ⟨le_refl _, rfl⟩
  | succ depth ih =>
    have hsize : 4 ^ (depth + 1) = 4 * 4 ^ depth := Nat.pow_succ'
    have step (p : Work × Nat) (lo : Nat) (hlen : p.1.sig.length = w.sig.length)
        (hl : lo + 4 ^ depth ≤ w.sig.length) :
        (readThen p (readGroup k depth lo) β).2 + (readThen p (readGroup k depth lo) β).1.unmarked ≤
          p.2 + groupCost depth + p.1.unmarked ∧
        (readThen p (readGroup k depth lo) β).1.sig.length = w.sig.length := by
      obtain ⟨hcost, hlen'⟩ := ih (w := p.1) (β := fun j => β (p.2 + j)) (by omega : lo + 4 ^ depth ≤ p.1.sig.length)
      exact ⟨by simp only [readThen]; omega, hlen'.trans hlen⟩
    rw [readGroup]
    split
    · obtain ⟨c1, l1⟩ := step (w, 1) lo rfl (by omega)
      obtain ⟨c2, l2⟩ := step _ (lo + 4 ^ depth) l1 (by omega)
      obtain ⟨c3, l3⟩ := step _ (lo + 2 * 4 ^ depth) l2 (by omega)
      obtain ⟨c4, l4⟩ := step _ (lo + 3 * 4 ^ depth) l3 (by omega)
      refine ⟨?_, l4⟩
      simp only [groupCost] at c1 ⊢
      omega
    · refine ⟨?_, rfl⟩
      simp only [groupCost]
      omega

theorem Work.Planar.next {n K : Nat} {w : Work} (h : w.Planar n (K + 1) n) : w.Planar n K 0 := Work.Upto.next h

theorem Work.Upto.prev {mag : List Nat} {sgn : List Bool} {n K : Nat} {w : Work} (h : w.Upto mag sgn n K 0) :
    w.Upto mag sgn n (K + 1) n :=
  ⟨h.mags, h.sgns, h.sigs, fun j _ hj => h.high j (Nat.zero_le j) hj, fun _ hge hj => absurd hj (Nat.not_lt.2 hge)⟩

theorem planeByPlane_succ {L prec : Nat} {root : Nat → List Bool → Prop} {b bs : List Bool} (hp : prec ≤ L)
    (hb : root L b) (hbs : planeByPlane L prec root bs) : planeByPlane (L + 1) (prec + 1) root (b ++ bs) := by
  obtain ⟨plane, hroot, rfl⟩ := hbs
  refine ⟨fun k => if k = L then b else plane k, fun k hk hkp => ?_, ?_⟩
  · by_cases hkL : k = L
    · simpa only [hkL, if_true] using hb
    · simpa only [if_neg hkL] using hroot k (by omega) (by omega)
  · rw [List.range_succ_eq_map, List.flatMap_cons, List.flatMap_map, Nat.add_sub_cancel, Nat.sub_zero]
    simp only [if_true]
    refine congrArg (b ++ ·) (List.flatMap_congr fun p hp => ?_)
    have hp' := List.mem_range.1 hp
    rw [if_neg (by omega), Nat.succ_eq_add_one, show L - (p + 1) = L - 1 - p by omega]

section

variable {d K prec : Nat} {w : Work} {β : Nat → Bool}

theorem readPlanes_planar (hw : w.Planar (4 ^ d) K (4 ^ d)) (hp : prec ≤ K) :
    (readPlanes d (planeList K prec) w β).1.Planar (4 ^ d) (K - prec) (4 ^ d) := by
  induction prec generalizing K w β with
  | zero => exact hw
  | succ prec ih =>
    obtain ⟨L, rfl⟩ : ∃ L, K = L + 1 := ⟨K - 1, by omega⟩
    have hplane := readGroup_planar (depth := d) (β := β) hw.next (by omega)
    rw [Nat.zero_add] at hplane
    rw [planeList_succ, Nat.succ_sub_succ]
    exact ih hplane (by omega)

/-- The planes of the decoder, against any coefficients known down to the last of them: the bits taken are R147's. -/
theorem readPlanes_takes (hw : w.Planar (4 ^ d) K (4 ^ d)) (hp : prec ≤ K) {mag : List Nat} {sgn : List Bool}
    (h : (readPlanes d (planeList K prec) w β).1.Upto mag sgn (4 ^ d) (K - prec) (4 ^ d)) :
    w.Upto mag sgn (4 ^ d) K (4 ^ d) ∧
      planeByPlane K prec (fun k => groupTakes (mag.getD · 0) (sgn.getD · false) k d 0)
        (tab (readPlanes d (planeList K prec) w β).2 β) := by
  induction prec generalizing K w β with
  | zero => exact ⟨h, fun _ => [], fun k hk hkp => absurd hkp (by omega), rfl⟩
  | succ prec ih =>
    obtain ⟨L, rfl⟩ : ∃ L, K = L + 1 := ⟨K - 1, by omega⟩
    have hplane := readGroup_planar (depth := d) (β := β) hw.next (by omega)
    rw [Nat.zero_add] at hplane
    rw [planeList_succ, Nat.succ_sub_succ] at h
    obtain ⟨hroot, hrest⟩ := ih hplane (by omega) h
    obtain ⟨hbefore, htakes⟩ := readGroup_takes hw.next (by omega : 0 + 4 ^ d ≤ 4 ^ d) (by rwa [Nat.zero_add])
    rw [planeList_succ]
    refine ⟨hbefore.prev, ?_⟩
    rw [readPlanes, tab_readThen]
    exact planeByPlane_succ (by omega) htakes hrest

theorem readPlanes_cost (hl : 4 ^ d ≤ w.sig.length) (ks : List Nat) :
    (readPlanes d ks w β).2 + (readPlanes d ks w β).1.unmarked ≤ ks.length * groupCost d + w.unmarked := by
  induction ks generalizing w β with
  | nil => exact Nat.add_le_add_right (Nat.zero_le _) _
  | cons k ks ih =>
    obtain ⟨hroot, hlen⟩ := readGroup_cost (k := k) (β := β) (by omega : 0 + 4 ^ d ≤ w.sig.length)
    have hrest := ih (w := (readGroup k d 0 w β).1) (β := fun j => β ((readGroup k d 0 w β).2 + j)) (by omega)
    rw [List.length_cons, Nat.succ_mul]
    simp only [readPlanes, readThen]
    omega

/-- The planes of a decode from its start. -/
def readBlock (N d prec : Nat) (β : Nat → Bool) : Work × Nat := readPlanes d (planeList N prec) (.zero (4 ^ d)) β

theorem readBlock_length_le {N : Nat} (hp : prec ≤ N) : (readBlock N d prec β).2 ≤ worst N d := by
  have hz : (Work.zero (4 ^ d)).unmarked = 4 ^ d := by simp [Work.zero, Work.unmarked]
  have hcost := readPlanes_cost (d := d) (w := .zero (4 ^ d)) (β := β) (by simp [Work.zero]) (planeList N prec)
  have hmul := Nat.mul_le_mul_right (groupCost d) hp
  rw [planeList, length_tab, hz] at hcost
  rw [worst, ← groupCost_eq, readBlock]
  exact le_trans (Nat.le_add_right _ _) (hcost.trans (Nat.add_le_add_right hmul _))

end

/-- What a decode leaves, and the bits it takes for it (44_bitplane_coder R147, R148). -/
theorem readBlock_decodes {s : State} {off prec budget : Nat} {β : Nat → Bool} (hp : prec ≤ s.width)
    (hβ : ∀ i, β i = (decide (i < budget) && s.nextBit (off + i))) {r : Work × Nat}
    (hr : r = readBlock s.width s.dim prec β) :
    decodes s off prec budget (r.1.mag.getD · 0) (r.1.sgn.getD · false) (tab r.2 β) := by
  subst hr
  have hplanar := readPlanes_planar (β := β) (Work.zero_planar (4 ^ s.dim) s.width) hp
  obtain ⟨hzero, htakes⟩ := readPlanes_takes (Work.zero_planar (4 ^ s.dim) s.width) hp hplanar
  refine ⟨htakes, fun i hi => ?_, fun j hj => ⟨?_, ?_⟩⟩
  · rw [length_tab] at hi
    rw [getD_tab, if_pos hi, hβ]
  · obtain ⟨hmag, -⟩ := hzero.low j hj hj
    have hnone : (Work.zero (4 ^ s.dim)).mag.getD j 0 = 0 := by
      rw [Work.zero, List.getD_eq_getElem?_getD, List.getElem?_getD_replicate_default_eq]
    rw [hnone, eq_comm, Nat.mul_eq_zero, or_iff_left (by positivity : 2 ^ s.width ≠ 0)] at hmag
    exact (Nat.div_eq_zero_iff_lt (by positivity)).1 hmag
  · exact (Work.knows_self_iff.1 (hplanar.low j hj hj)).1

/-- The register a decoded coefficient is stored in (44_bitplane_coder R141, R152). -/
theorem toContainer_coefOf (N m : Nat) (sg : Bool) : toContainer (coefOf N m sg) = signed N m sg := by
  rw [toContainer, signed, coefOf]
  cases sg
  · simp only [Bool.false_eq_true, if_false, BitVec.ofInt_natCast]
  · simp only [if_true, BitVec.ofInt_neg, BitVec.ofInt_natCast]

end Sys2Proof.Machine
end

section
/-! PROOFS, family 44_bitplane_coder: `DECPL` (44_bitplane_coder R144, R147, R152). -/

namespace Sys2Proof.Machine

open Sys2Proof Sys2Proof.Claims

theorem State.planes_le (s : State) : s.planes ≤ s.width := Nat.min_le_right _ _

theorem exec_decpl_dirErr (s : State) (h : s.fifo.dir = .wr) : exec .decpl s = .next (s.raise .dirErr 0) := by
  simp [exec, execDecpl, h, Run.toOutcome]

theorem exec_decpl_reader {s : State} (hd : s.fifo.dir = .rd) : exec .decpl s = .next (decodePlanes s).state := by
  simp [exec, execDecpl, hd, Run.toOutcome]

/-- The coefficients a decode leaves. -/
def blockCoeffs (s : State) (r : Work × Nat) : List (BitVec s.width) := r.1.coeffs s.width s.size

theorem putCoeffs_blockCoeffs_get (s u : State) (r : Work × Nat) (hu : u.size = s.size) {j : Nat} (hj : j < s.size) :
    (u.putCoeffs (blockCoeffs s r)).coef.get j = signed s.width (r.1.mag.getD j 0) (r.1.sgn.getD j false) := by
  rw [State.putCoeffs_get, hu, if_pos hj, blockCoeffs, Work.coeffs, getD_tab, if_pos hj, toContainer_coefOf]

/-- Where no bit is received, every coefficient is 0. -/
theorem readBlock_silent {N d prec : Nat} {β : Nat → Bool} (h : prec = 0 ∨ β = fun _ => false) :
    (readBlock N d prec β).1.mag = (Work.zero (4 ^ d)).mag := by
  obtain rfl | rfl := h
  · rfl
  · exact (readPlanes_inert d _ _).1

theorem signed_zero (N : Nat) (sg : Bool) : signed N 0 sg = 0 := by
  cases sg <;> simp [signed]

/-- `decode_planes` and the store of `COEF`, by the traversal of the bits received (44_bitplane_coder R147, R152). -/
theorem decodePlanes_ends {s : State} (h : s.reading) {r : Work × Nat}
    (hr : r = readBlock s.width s.dim s.planes s.received) :
    (min r.2 s.budget ≤ s.room ∧ ∃ u, ConsumedN (min r.2 s.budget) s u ∧
      decodePlanes s = .ok () (u.putCoeffs (blockCoeffs s r))) ∨
    (s.room < min r.2 s.budget ∧ ∃ u, ConsumedN s.room s u ∧
      decodePlanes s = .raised (u.raise .capacity (BitVec.ofNat 64 u.pos))) :=
  decodePlanes_reads s h r hr

/-- Reading bits leaves `COEF` and the block size alone. -/
theorem Consumed.coef {k : Nat} {s t : State} (h : Consumed k s t) : t.coef = s.coef := by rw [h.same]; rfl

theorem Consumed.size {k : Nat} {s t : State} (h : Consumed k s t) : t.size = s.size := by rw [h.same]; rfl

theorem putCoeffs_setCoef {k N : Nat} {s u : State} (h : Consumed k s u) (vs : List (BitVec N)) :
    (u.putCoeffs vs).setCoef s.coef = u := by
  rw [← h.coef]
  rfl

theorem State.received_eq (s : State) (i : Nat) : s.received i = (decide (i < s.budget) && s.nextBit (0 + i)) := by
  rw [Nat.zero_add]
  rfl

/-- Without a plane or without a bit to take, no coefficient has a 1 bit. -/
theorem readBlock_received_silent {s : State} {prec j : Nat} (h : prec = 0 ∨ s.budget = 0) :
    (readBlock s.width s.dim prec s.received).1.mag.getD j 0 = 0 := by
  have hsilent : prec = 0 ∨ s.received = fun _ => false :=
    h.imp_right fun hb => funext fun i => s.received_beyond i (by omega)
  rw [readBlock_silent hsilent, Work.zero, List.getD_eq_getElem?_getD, List.getElem?_getD_replicate_default_eq]

end Sys2Proof.Machine

namespace Sys2Proof.Proofs

open Sys2Proof Sys2Proof.Machine Sys2Proof.Claims

/-- Settles O42: the magnitudes and signs are those the traversal of the bits received leaves. -/
theorem decplReadsThePlanes : Obligations.DecplReadsThePlanes := by
  intro s
  refine ⟨exec_decpl_dirErr s, ?_⟩
  rintro hd hb hrd budget rfl
  have hends := decodePlanes_ends ⟨hd, hb, hrd⟩ rfl
  have hlen := readBlock_length_le (d := s.dim) (β := s.received) s.planes_le
  have hdec := readBlock_decodes s.planes_le s.received_eq rfl
  generalize hr : readBlock s.width s.dim s.planes s.received = r at hends hlen hdec
  refine ⟨_, _, _, min r.2 s.budget, hdec, by rw [length_tab]; rfl, ?_, fun hroom => ?_, fun hk => ?_, fun hk => ?_⟩
  · exact (Nat.min_le_left _ _).trans hlen
  · exact le_trans (by rw [Nat.min_comm]; exact min_le_min_left _ hlen) (Nat.le_sub_of_add_le' hroom)
  · obtain ⟨-, u, hu, hrun⟩ := hends.resolve_right fun h => absurd hk (Nat.not_le.2 h.1)
    refine ⟨u.putCoeffs (blockCoeffs s r), by rw [exec_decpl_reader hd, hrun, Run.state_ok], ?_, hu.count,
      fun j hj => ?_, fun j hj => ?_, fun hnone => ?_⟩
    · rw [putCoeffs_setCoef hu.toConsumed]
      exact hu.toConsumed.advanced
    · exact putCoeffs_blockCoeffs_get s u r hu.toConsumed.size hj
    · rw [State.putCoeffs_get, hu.toConsumed.size, if_neg (Nat.not_lt.2 hj), hu.toConsumed.coef]
    · have hplanes : s.planes = 0 ∨ s.budget = 0 := hnone.imp_left fun h => by
        rw [State.planes, h]
        exact Nat.zero_min _
      refine ⟨?_, fun j hj => ?_⟩
      · obtain h0 | h0 := hplanes
        · rw [← hr, h0]
          exact Nat.zero_min _
        · rw [h0, Nat.min_zero]
      · rw [putCoeffs_blockCoeffs_get s u r hu.toConsumed.size hj, ← hr, readBlock_received_silent hplanes, signed_zero]
  · obtain ⟨-, u, hu, hrun⟩ := hends.resolve_left fun h => absurd hk (Nat.not_lt.2 h.1)
    exact ⟨u, by rw [exec_decpl_reader hd, hrun, Run.state_raised], hu.toConsumed.advanced, hu.count⟩

end Sys2Proof.Proofs
end

section
/-! PROOFS, family 44_bitplane_coder: the decoder's traversal of the encoder's bits cut anywhere and continued with
zeros (44_bitplane_coder R148, R149, R153). -/

namespace Sys2Proof.Machine

open Sys2Proof Sys2Proof.Claims

/-! ### A stream that ends early -/

/-- The bits `bs` up to the cut at `c`, zeros from there on. -/
def CutStream (bs : List Bool) (c : Nat) (β : Nat → Bool) : Prop :=
  (∀ j < bs.length, j < c → β j = bs.getD j false) ∧ ∀ j, c ≤ j → β j = false

theorem CutStream.left {bs cs : List Bool} {c : Nat} {β : Nat → Bool} (h : CutStream (bs ++ cs) c β) :
    CutStream bs c β := by
  obtain ⟨hbits, hzero⟩ := h
  refine ⟨fun j hj hc => ?_, hzero⟩
  rw [hbits j (by rw [List.length_append]; omega) hc, List.getD_append _ _ _ _ hj]

theorem CutStream.right {bs cs : List Bool} {c : Nat} {β : Nat → Bool} (h : CutStream (bs ++ cs) c β) :
    CutStream cs (c - bs.length) fun j => β (bs.length + j) := by
  obtain ⟨hbits, hzero⟩ := h
  refine ⟨fun j hj hc => ?_, fun j hj => hzero _ (by omega)⟩
  simp only
  rw [hbits _ (by rw [List.length_append]; omega) (by omega), List.getD_append_right _ _ _ _ (Nat.le_add_right _ _),
    Nat.add_sub_cancel_left]

/-- Nothing received. -/
theorem CutStream.silent {bs : List Bool} {β : Nat → Bool} (h : CutStream bs 0 β) : β = fun _ => false :=
  funext fun j => h.2 j (Nat.zero_le j)

/-- How a traversal `r` meets the bits `bs` cut at `c`: all of them, and then it has taken them and `P` holds; or it
goes on beyond the cut, and `Q` holds. -/
def Meets (bs : List Bool) (c : Nat) (r : Work × Nat) (P Q : Work → Prop) : Prop :=
  (bs.length ≤ c → r.2 = bs.length ∧ P r.1) ∧ (c < bs.length → c ≤ r.2 ∧ Q r.1)

theorem Meets.mono {bs : List Bool} {c : Nat} {r : Work × Nat} {P P' Q Q' : Work → Prop} (h : Meets bs c r P Q)
    (hP : ∀ w, P w → P' w) (hQ : c < bs.length → ∀ w, Q w → Q' w) : Meets bs c r P' Q' :=
  ⟨fun hc => (h.1 hc).imp_right (hP _), fun hc => (h.2 hc).imp_right (hQ hc _)⟩

/-- One traversal after another: beyond a cut in the first, the second changes no magnitude and no sign. -/
theorem Meets.followedBy {bs cs : List Bool} {c : Nat} {p : Work × Nat} {q : Work → (Nat → Bool) → Work × Nat}
    {β : Nat → Bool} {P P' Q : Work → Prop} (h : Meets bs c p P Q) (hβ : CutStream (bs ++ cs) c β) (hq : Inert q)
    (hQ : ∀ w w' : Work, w'.mag = w.mag → w'.sgn = w.sgn → Q w → Q w')
    (g : bs.length ≤ c → P p.1 → ∀ β', CutStream cs (c - bs.length) β' → Meets cs (c - bs.length) (q p.1 β') P' Q) :
    Meets (bs ++ cs) c (readThen p q β) P' Q := by
  rw [Meets, List.length_append]
  by_cases hc : bs.length ≤ c
  · obtain ⟨htaken, hP⟩ := h.1 hc
    obtain ⟨hall, hcut⟩ := g hc hP _ hβ.right
    simp only [readThen, htaken]
    refine ⟨fun hle => ?_, fun hlt => ?_⟩
    · obtain ⟨hlen, hP'⟩ := hall (by omega)
      exact ⟨congrArg _ hlen, hP'⟩
    · obtain ⟨hlen, hQ'⟩ := hcut (by omega)
      exact ⟨by omega, hQ'⟩
  · obtain ⟨htaken, hQp⟩ := h.2 (Nat.not_le.1 hc)
    have hsilent : (fun j => β (p.2 + j)) = fun _ => false := funext fun j => hβ.2 _ (by omega)
    obtain ⟨hm, hs⟩ := hq p.1
    simp only [readThen, hsilent]
    exact ⟨fun hle => absurd hle (by omega), fun _ => ⟨by omega, hQ _ _ hm hs hQp⟩⟩

/-! ### What is known beyond a cut -/

/-- Plane `k` of the coefficients below `m` and plane `k + 1` of the others have been received, but perhaps for the
sign of the last coefficient below `m`, which is then positive (44_bitplane_coder R148, R153). -/
def Work.CutAt (mag : List Nat) (sgn : List Bool) (n k m : Nat) (w : Work) : Prop :=
  ∀ j < n, w.mag.getD j 0 = truncated (if j < m then k else k + 1) (mag.getD j 0) ∧
    (w.mag.getD j 0 ≠ 0 → w.sgn.getD j false = sgn.getD j false ∨
      (j + 1 = m ∧ w.mag.getD j 0 = 2 ^ k ∧ w.sgn.getD j false = false))

section

variable {mag : List Nat} {sgn : List Bool} {n k lo c : Nat} {w : Work} {β : Nat → Bool}

theorem Work.Upto.values (h : w.Upto mag sgn n k lo) {j : Nat} (hj : j < n) :
    w.mag.getD j 0 = truncated (if j < lo then k else k + 1) (mag.getD j 0) ∧
      (w.mag.getD j 0 ≠ 0 → w.sgn.getD j false = sgn.getD j false) := by
  obtain ⟨-, hknows⟩ := Work.upto_iff.1 h
  obtain ⟨hm, -, hs⟩ := hknows j hj
  refine ⟨hm, fun hne => hs fun hz => hne ?_⟩
  rw [hm, hz, Nat.zero_mul]

theorem Work.Upto.cutAt (h : w.Upto mag sgn n k lo) : w.CutAt mag sgn n k lo :=
  fun _ hj => (h.values hj).imp_right fun hs hne => .inl (hs hne)

theorem Work.CutAt.congr {m : Nat} {w' : Work} (hm : w'.mag = w.mag) (hs : w'.sgn = w.sgn)
    (h : w.CutAt mag sgn n k m) : w'.CutAt mag sgn n k m := by
  rwa [Work.CutAt, hm, hs]

theorem Work.Upto.planar (h : w.Upto mag sgn n k lo) : w.Planar n k lo := by
  obtain ⟨hs, hknows⟩ := Work.upto_iff.1 h
  refine Work.upto_iff.2 ⟨hs, fun j hj => Work.knows_self_iff.2 ?_⟩
  obtain ⟨hm, hmark, -⟩ := hknows j hj
  generalize (if j < lo then k else k + 1) = K at hm hmark ⊢
  have hpos : 2 ^ K ≠ 0 := by positivity
  refine ⟨by rw [hm, Nat.mul_mod_left], ?_⟩
  rw [hmark, hm, decide_eq_decide, not_iff_not, Nat.mul_eq_zero, or_iff_left hpos]

/-- The decoder's marks are the encoder's. -/
theorem Work.Upto.marked (h : w.Upto mag sgn n k lo) (hn : mag.length = n) : Marked mag k lo w.sig := by
  subst hn
  exact ⟨h.sigs, fun j hj => ((Work.upto_iff.1 h).2 j hj).2.1⟩

theorem Marked.unique {sig sig' : List Bool} (h : Marked mag k lo sig) (h' : Marked mag k lo sig') : sig = sig' := by
  refine List.ext_getElem (h.1.trans h'.1.symm) fun j hj hj' => ?_
  have hlen := h.1
  have heq := (h.2 j (by omega)).trans (h'.2 j (by omega)).symm
  simpa [List.getD_eq_getElem?_getD, hj, hj'] using heq

/-- A group without a 1 bit at or above plane `k` is known down to it. -/
theorem Work.Upto.skip {m : Nat} (h : w.Upto mag sgn n k lo)
    (hz : ∀ j, lo ≤ j → j < lo + m → mag.getD j 0 / 2 ^ k = 0) : w.Upto mag sgn n k (lo + m) := by
  refine ⟨h.mags, h.sgns, h.sigs, fun j hj hjn => ?_, fun j hj hjn => h.high j (by omega) hjn⟩
  by_cases hjl : j < lo
  · exact h.low j hjl hjn
  · have hzero := hz j (Nat.not_lt.1 hjl) hj
    have hzero' := ((div_succ_eq_zero _ _).1 hzero).1
    obtain ⟨hm, hmark, -⟩ := h.high j (Nat.not_lt.1 hjl) hjn
    refine ⟨?_, ?_, fun hne => absurd hzero hne⟩
    · rw [hm, hzero, hzero', Nat.zero_mul, Nat.zero_mul]
    · rw [hmark, hzero, hzero']

/-- A cut before the first bit of a traversal. -/
theorem meets_silent {bs : List Bool} {r : Work × Nat} {P : Work → Prop} (hbs : bs ≠ []) (hw : w.Upto mag sgn n k lo)
    (hr : r.1.mag = w.mag ∧ r.1.sgn = w.sgn) :
    Meets bs 0 r P fun w' => ∃ m, w'.CutAt mag sgn n k m :=
  ⟨fun hle => absurd (List.eq_nil_of_length_eq_zero (Nat.le_zero.1 hle)) hbs,
    fun _ => ⟨Nat.zero_le _, lo, hw.cutAt.congr hr.1 hr.2⟩⟩

/-! ### A leaf, a group, the planes -/

/-- The first 1 bit of a coefficient, with its sign cut off. -/
theorem readLeaf_cut_sign (hw : w.Upto mag sgn n k lo) (hl : lo < n) (hz : mag.getD lo 0 / 2 ^ (k + 1) = 0)
    (hbit : (mag.getD lo 0).testBit k = true) (h0 : β 0 = true) (h1 : β 1 = false) :
    (readLeaf k lo w β).1.CutAt mag sgn n k (lo + 1) := by
  intro j hj
  have hold := hw.values hj
  rw [readLeaf_mag (hw.mags ▸ hl), readLeaf_sgn (hw.sgns ▸ hl)]
  by_cases hjl : j = lo
  · subst hjl
    obtain ⟨hm, hmark, -⟩ := hw.high j (le_refl j) hj
    have hnew : mag.getD j 0 / 2 ^ k * 2 ^ k = 2 ^ k := by
      rw [plane_step, hz, hbit]
      simp
    rw [hz, Nat.zero_mul] at hm
    rw [if_pos rfl, if_pos (Nat.lt_succ_self j), hm, h0, h1, truncated, hnew, hmark, hz]
    simp
  · rw [if_neg hjl, if_neg fun h : j = lo ∧ _ => hjl h.1, if_congr (by omega : j < lo + 1 ↔ j < lo) rfl rfl]
    exact hold.imp_right fun hs hne => .inl (hs hne)

theorem getD_leafBits_zero (m : Nat) (sg : Bool) : (leafBits m sg k).getD 0 false = m.testBit k := by
  rw [leafBits]
  cases m.testBit k
  · rfl
  · by_cases hz : m / 2 ^ (k + 1) = 0 <;> simp [hz]

theorem leafBits_first {m : Nat} {sg : Bool} (hbit : m.testBit k = true) (hz : m / 2 ^ (k + 1) = 0) :
    leafBits m sg k = [true, sg] := by
  rw [leafBits, if_pos hbit, if_pos hz]

theorem leafBits_length_cases (m : Nat) (sg : Bool) : (leafBits m sg k).length = 1 ∨
    (leafBits m sg k).length = 2 ∧ m.testBit k = true ∧ m / 2 ^ (k + 1) = 0 := by
  rw [leafBits]
  cases m.testBit k
  · exact .inl rfl
  · by_cases hz : m / 2 ^ (k + 1) = 0 <;> simp [hz]

theorem readLeaf_meets (hw : w.Upto mag sgn n k lo) (hl : lo < n)
    (hβ : CutStream (leafBits (mag.getD lo 0) (sgn.getD lo false) k) c β) :
    Meets (leafBits (mag.getD lo 0) (sgn.getD lo false) k) c (readLeaf k lo w β) (·.Upto mag sgn n k (lo + 1))
      fun w' => ∃ m, w'.CutAt mag sgn n k m := by
  obtain ⟨-, hmark, -⟩ := hw.high lo (le_refl lo) hl
  have hlen := leafBits_length_cases (k := k) (mag.getD lo 0) (sgn.getD lo false)
  cases c with
  | zero =>
    refine meets_silent (List.ne_nil_of_length_pos (by omega)) hw ?_
    rw [hβ.silent]
    exact readLeaf_inert k lo w
  | succ c =>
    have h0 : β 0 = (mag.getD lo 0).testBit k :=
      (hβ.1 0 (by omega) (Nat.succ_pos c)).trans (getD_leafBits_zero _ _)
    refine ⟨fun hle => ?_, fun hlt => ?_⟩
    · have hbits : tab (readLeaf k lo w β).2 β = leafBits (mag.getD lo 0) (sgn.getD lo false) k := by
        refine (tab_readLeaf_eq_iff hmark).2 ⟨h0.symm, fun hfirst => ?_⟩
        rw [Bool.and_eq_true, h0, hmark, Bool.not_eq_true', decide_eq_false_iff_not, not_not] at hfirst
        have htwo := leafBits_first (sg := sgn.getD lo false) hfirst.1 hfirst.2
        rw [htwo] at hβ hle
        exact hβ.1 1 Nat.one_lt_two hle
      exact ⟨by rw [← hbits, length_tab], (readLeaf_upto_iff hw.planar hl).2 ⟨hw, hbits⟩⟩
    · obtain hone | ⟨htwo, hbit, hz⟩ := hlen
      · omega
      · have hc : c = 0 := by omega
        subst hc
        have h1 : β 1 = false := hβ.2 1 (le_refl 1)
        refine ⟨?_, lo + 1, readLeaf_cut_sign hw hl hz hbit (h0.trans hbit) h1⟩
        rw [readLeaf]
        split <;> simp

/-- A group of the decoder on the bits of the same group of the encoder, cut anywhere (44_bitplane_coder R149). -/
theorem readGroup_meets {depth : Nat} (hn : mag.length = n) (hw : w.Upto mag sgn n k lo) (hl : lo + 4 ^ depth ≤ n)
    (hβ : CutStream (encGroup mag sgn k depth lo w.sig).1 c β) :
    Meets (encGroup mag sgn k depth lo w.sig).1 c (readGroup k depth lo w β)
      (·.Upto mag sgn n k (lo + 4 ^ depth)) fun w' => ∃ m, w'.CutAt mag sgn n k m := by
  induction depth generalizing lo w β c with
  | zero =>
    have hbits : (encGroup mag sgn k 0 lo w.sig).1 = _ := encLeaf_bits (hw.marked hn) (hn ▸ hl)
    rw [hbits] at hβ ⊢
    exact readLeaf_meets hw hl hβ
  | succ depth ih =>
    have hsize : 4 ^ (depth + 1) = 4 * 4 ^ depth := Nat.pow_succ'
    cases ht : groupTest mag lo (4 ^ (depth + 1)) k
    · rw [encGroup_empty _ _ _ _ _ _ ht] at hβ ⊢
      have hb : β 0 = false := by
        by_cases hc : 0 < c
        · exact hβ.1 0 Nat.one_pos hc
        · exact hβ.2 0 (by omega)
      rw [readGroup, hb, if_neg Bool.false_ne_true]
      refine ⟨fun _ => ⟨rfl, hw.skip fun j hlo hj => ?_⟩, fun hlt => ⟨Nat.le_of_lt hlt, lo, hw.cutAt⟩⟩
      by_contra hne
      exact Bool.noConfusion (ht.symm.trans ((groupTest_iff _ _ _ _).2 ⟨j, hlo, hj, hne⟩))
    · cases c with
      | zero =>
        refine meets_silent (by rw [encGroup, ht]; exact List.cons_ne_nil _ _) hw ?_
        rw [hβ.silent]
        exact readGroup_inert k (depth + 1) lo w
      | succ c =>
        have step {bs : List Bool} {p : Work × Nat} {lo : Nat} {sig : List Bool} (hsig : Marked mag k lo sig)
            (hl : lo + 4 ^ depth ≤ n)
            (h : Meets bs (c + 1) p (·.Upto mag sgn n k lo) fun w' => ∃ m, w'.CutAt mag sgn n k m)
            (hβ : CutStream (bs ++ (encGroup mag sgn k depth lo sig).1) (c + 1) β) :
            Meets (bs ++ (encGroup mag sgn k depth lo sig).1) (c + 1) (readThen p (readGroup k depth lo) β)
              (·.Upto mag sgn n k (lo + 4 ^ depth)) fun w' => ∃ m, w'.CutAt mag sgn n k m := by
          refine h.followedBy hβ (readGroup_inert k depth lo) (fun _ _ hm hs hcut => hcut.imp fun _ => .congr hm hs)
            fun _ hw β' hβ' => ?_
          rw [← (hw.marked hn).unique hsig] at hβ' ⊢
          exact ih hw hl hβ'
        have m0 := hw.marked hn
        have m1 := encGroup_marked (sgn := sgn) m0 (by omega : lo + 4 ^ depth ≤ mag.length)
        have m2 := encGroup_marked (sgn := sgn) m1 (by omega : _ + 4 ^ depth ≤ mag.length)
        rw [Nat.add_assoc, ← Nat.two_mul] at m2
        have m3 := encGroup_marked (sgn := sgn) m2 (by omega : _ + 4 ^ depth ≤ mag.length)
        rw [Nat.add_assoc, ← Nat.succ_mul] at m3
        have htest : Meets [true] (c + 1) (w, 1) (·.Upto mag sgn n k lo) fun w' => ∃ m, w'.CutAt mag sgn n k m :=
          ⟨fun _ => ⟨rfl, hw⟩, fun hlt => absurd hlt (by simp)⟩
        simp only [encGroup, ht, if_true] at hβ ⊢
        rw [← List.singleton_append, ← List.append_assoc, ← List.append_assoc, ← List.append_assoc] at hβ ⊢
        have hb : β 0 = true := hβ.left.left.left.left.1 0 Nat.one_pos (Nat.succ_pos c)
        rw [readGroup, hb, if_pos rfl]
        have h1 := step m0 (by omega) htest hβ.left.left.left
        have h2 := step m1 (by omega) h1 hβ.left.left
        rw [Nat.add_assoc lo, ← Nat.two_mul] at h2
        have h3 := step m2 (by omega) h2 hβ.left
        rw [Nat.add_assoc lo, ← Nat.succ_mul] at h3
        have h4 := step m3 (by omega) h3 hβ
        rwa [Nat.add_assoc lo, ← Nat.succ_mul, ← hsize] at h4

end

/-- The planes of the decoder on those of the encoder, cut anywhere: beyond the cut, which lies in plane `K - 1 - p`,
the coefficients are known to the planes received (44_bitplane_coder R149, R153). -/
theorem readPlanes_meets {mag : List Nat} {sgn : List Bool} {d K prec c : Nat} {w : Work} {β : Nat → Bool}
    (hn : mag.length = 4 ^ d) (hw : w.Upto mag sgn (4 ^ d) K (4 ^ d)) (hp : prec ≤ K)
    (hβ : CutStream (encPlanes mag sgn d (planeList K prec) (marks mag K)) c β) :
    Meets (encPlanes mag sgn d (planeList K prec) (marks mag K)) c (readPlanes d (planeList K prec) w β)
      (·.Upto mag sgn (4 ^ d) (K - prec) (4 ^ d)) fun w' => ∃ p < prec,
        (encPlanes mag sgn d (planeList K p) (marks mag K)).length ≤ c ∧
        c ≤ (encPlanes mag sgn d (planeList K (p + 1)) (marks mag K)).length ∧
        ∃ m, w'.CutAt mag sgn (4 ^ d) (K - 1 - p) m := by
  induction prec generalizing K w β c with
  | zero => exact ⟨fun _ => ⟨rfl, hw⟩, fun hlt => absurd hlt (Nat.not_lt_zero c)⟩
  | succ prec ih =>
    obtain ⟨L, rfl⟩ : ∃ L, K = L + 1 := ⟨K - 1, by omega⟩
    have hbits (p : Nat) : encPlanes mag sgn d (planeList (L + 1) (p + 1)) (marks mag (L + 1)) =
        rootBits mag sgn d L ++ encPlanes mag sgn d (planeList L p) (marks mag L) := by
      rw [planeList_succ, encPlanes, encGroup_root hn]
    have hroot : Meets (rootBits mag sgn d L) c (readGroup L d 0 w β) (·.Upto mag sgn (4 ^ d) L (4 ^ d))
        fun w' => ∃ m, w'.CutAt mag sgn (4 ^ d) L m := by
      have hmarks : w.sig = marks mag (L + 1) :=
        (hw.next.marked hn).unique (marks_marked mag L)
      rw [hbits] at hβ
      have hmeets := readGroup_meets (depth := d) (β := β) (c := c) hn hw.next (by omega)
      rw [hmarks, encGroup_root hn, Nat.zero_add] at hmeets
      exact hmeets hβ.left
    rw [hbits] at hβ
    rw [hbits, planeList_succ, Nat.add_sub_add_right]
    simp only [Nat.add_sub_cancel]
    refine Meets.followedBy (hroot.mono (fun _ h => h) fun hlt w' hcut => ⟨0, Nat.succ_pos prec, ?_⟩) hβ
      (readPlanes_inert d _) ?_ fun hc hw' β' hβ' => (ih hw' (by omega) hβ').mono (fun _ h => h) fun hlt w' hcut => ?_
    · rw [hbits, List.length_append]
      exact ⟨Nat.zero_le c, by omega, hcut⟩
    · rintro w' w'' hm hs ⟨p, hp', hlo, hhi, m, hcut⟩
      exact ⟨p, hp', hlo, hhi, m, hcut.congr hm hs⟩
    · obtain ⟨p, hp', hlo, hhi, m, hcut⟩ := hcut
      refine ⟨p + 1, by omega, ?_, ?_, m, by rwa [Nat.sub_right_comm, Nat.sub_sub] at hcut⟩
      · rw [hbits, List.length_append]
        omega
      · rw [hbits, List.length_append]
        omega

/-! ### A block -/

section

variable {N d prec : Nat} {C : List (BitVec N)} (hC : C.length = 4 ^ d) (hp : prec ≤ N) {c : Nat} {β : Nat → Bool}
  (hβ : CutStream (planeBits d prec C) c β)

include hC hp hβ

theorem readBlock_meets : Meets (planeBits d prec C) c (readBlock N d prec β)
    (·.Upto (C.map coefMag) (C.map coefSign) (4 ^ d) (N - prec) (4 ^ d)) fun w => ∃ p < prec,
      (planeBits d p C).length ≤ c ∧ c ≤ (planeBits d (p + 1) C).length ∧
      ∃ m, w.CutAt (C.map coefMag) (C.map coefSign) (4 ^ d) (N - 1 - p) m := by
  simp only [planeBits, ← marks_width] at hβ ⊢
  exact readPlanes_meets (by rw [List.length_map, hC]) (Work.zero_upto C _ hC) hp hβ

/-- The decoder takes the bits that are there (44_bitplane_coder R149). -/
theorem readBlock_taken : min (readBlock N d prec β).2 c = min (planeBits d prec C).length c := by
  obtain ⟨hall, hcut⟩ := readBlock_meets hC hp hβ
  by_cases hc : (planeBits d prec C).length ≤ c
  · rw [(hall hc).1]
  · have htaken := (hcut (Nat.not_le.1 hc)).1
    omega

/-- Every plane received, every coefficient comes back (44_bitplane_coder R149). -/
theorem readBlock_exact (hN : prec = N) (hc : (planeBits d prec C).length ≤ c) :
    (readBlock N d prec β).1.coeffs N (4 ^ d) = C := by
  subst hN
  obtain ⟨-, hknown⟩ := (readBlock_meets hC hp hβ).1 hc
  rw [Nat.sub_self] at hknown
  exact Work.coeffs_of_upto C _ hC _ hknown

/-- Whatever was cut, each coefficient is known to the planes received (44_bitplane_coder R153). -/
theorem readBlock_truncated : ∃ K m : Nat,
    (planeBits d (N - 1 - K) C).length ≤ min (planeBits d prec C).length c ∧
    min (planeBits d prec C).length c ≤ (planeBits d (N - K) C).length ∧
    (readBlock N d prec β).1.CutAt (C.map coefMag) (C.map coefSign) (4 ^ d) K m := by
  obtain ⟨hall, hcut⟩ := readBlock_meets hC hp hβ
  by_cases hc : (planeBits d prec C).length ≤ c
  · refine ⟨N - prec, 4 ^ d, ?_, ?_, (hall hc).2.cutAt⟩
    · rw [Nat.min_eq_left hc]
      exact (planeBits_isPrefix hC (by omega) hp).length_le
    · rw [Nat.min_eq_left hc, Nat.sub_sub_self hp]
  · obtain ⟨-, p, hpp, hlo, hhi, m, hknown⟩ := hcut (Nat.not_le.1 hc)
    refine ⟨N - 1 - p, m, ?_, ?_, hknown⟩
    · rw [Nat.min_eq_right (by omega), Nat.sub_sub_self (by omega)]
      exact hlo
    · rw [Nat.min_eq_right (by omega), show N - (N - 1 - p) = p + 1 by omega]
      exact hhi

end

/-- The register of a coefficient known to the planes received. -/
theorem Work.CutAt.signed {N n k m j : Nat} {C : List (BitVec N)} {w : Work}
    (h : w.CutAt (C.map coefMag) (C.map coefSign) n k m) (hj : j < n) {q : Nat}
    (hq : q = truncated (if j < m then k else k + 1) (C.getD j 0).toInt.natAbs) :
    Claims.signed N (w.mag.getD j 0) (w.sgn.getD j false) = Claims.signed N q (decide ((C.getD j 0).toInt < 0)) ∨
      (j + 1 = m ∧ q = 2 ^ k ∧
        Claims.signed N (w.mag.getD j 0) (w.sgn.getD j false) = Claims.signed N q false) := by
  obtain ⟨hm, hs⟩ := h j hj
  rw [getD_map_coefMag, ← hq] at hm
  rw [hm, getD_map_coefSign] at hs
  rw [hm]
  by_cases hzero : q = 0
  · exact .inl (by rw [hzero, signed_zero, signed_zero])
  · obtain hsign | ⟨hlast, hone, hpos⟩ := hs hzero
    · exact .inl (by rw [hsign])
    · exact .inr ⟨hlast, hone, by rw [hpos]⟩

end Sys2Proof.Machine
end

section
/-! PROOFS, family 44_bitplane_coder: `ENCPL`, `FLUSH`, `SEEKR` and `DECPL` one after another (44_bitplane_coder
R149). -/

namespace Sys2Proof.Machine

open Sys2Proof Sys2Proof.Claims

/-- What `FLUSH` of a writer within the capacity may change (41_bitstream_fifo R85). -/
theorem exec_flush_frame {s u : State} (hd : s.fifo.dir = .wr) (hb : s.fifo.bufferOk) (hc : s.pos ≤ s.capBits)
    (he : exec .flush s = .next u) : u = ((s.setFifo u.fifo).setMem u.mem).setRes u.res := by
  by_cases hn : s.fifo.nb = 0
  · cases (exec_flush_aligned s hd hn).symm.trans he
    rfl
  · have hpend : s.fifo.nb.toNat ≠ 0 := fun h => hn (BitVec.eq_of_toNat_eq h)
    have hpos := s.pos_wr hd
    have hcap : s.capBits = 64 * s.cfg.capw.toNat := rfl
    have hlt := hb.1
    cases (exec_flush_stores s hd hn (by omega)).symm.trans he
    rfl

/-- `s` with `ARG` at its own position, and another unit, `MEM` and `RES`. -/
def State.reread (s : State) (f : Fifo) (m : Mem) (v : Word) : State :=
  (((withArg s (BitVec.ofNat 64 s.pos)).setFifo f).setMem m).setRes v

/-- A writer's stream flushed, and a reader placed at its start with `BITS` as it was there (44_bitplane_coder R149,
41_bitstream_fifo R85, R87). -/
theorem Wrote.exec_reread {bs : List Bool} {s t : State} (h : Wrote bs s t) (hc : s.pos + bs.length ≤ s.capBits) :
    ∃ u r f v, exec .flush t = .next u ∧ exec .seekr (withArg u (BitVec.ofNat 64 s.pos)) = .next r ∧
      r.setBits s.bits = s.reread f u.mem v ∧ readyToRead (s.reread f u.mem v) bs.length ∧
      (s.reread f u.mem v).pos = s.pos ∧ ∀ j < bs.length, (s.reread f u.mem v).nextBit j = bs.getD j false := by
  obtain ⟨u, r, hu, hr, hready, hbits⟩ := h.exec_flush_seekr hc
  have hpos := h.pos
  have hframe := exec_flush_frame h.dir h.buffer (by rw [h.capBits]; omega) hu
  rw [h.same] at hframe
  have hcap : (withArg u (BitVec.ofNat 64 s.pos)).capBits = s.capBits := by
    rw [hframe]
    rfl
  have harg : (withArg u (BitVec.ofNat 64 s.pos)).cfg.arg.toNat = s.pos := s.toNat_ofNat_pos
  have hseek := exec_seekr (withArg u (BitVec.ofNat 64 s.pos)) (by omega)
  rw [harg] at hseek
  have hsame : r.setBits s.bits = s.reread (seekReadFifo u.mem s.pos) u.mem u.res := by
    cases hr.symm.trans hseek
    rw [hframe]
    rfl
  refine ⟨u, r, _, _, hu, hr, hsame, ?_⟩
  rw [← hsame]
  refine ⟨hready, ?_, hbits⟩
  rw [hsame]
  exact (((withArg s (BitVec.ofNat 64 s.pos)).setMem u.mem).setRes u.res).pos_setFifo_seekReadFifo u.mem s.pos
    (le_trans (by omega) s.capBits_le)

/-- The decode of a stream read back, with room for its bits. -/
theorem decodePlanes_reread {s : State} {f : Fifo} {m : Mem} {v : Word} (h : (s.reread f m v).reading) {w : Work × Nat}
    (hw : w = readBlock s.width s.dim s.planes (s.reread f m v).received)
    (hroom : min w.2 s.budget ≤ (s.reread f m v).room) :
    ∃ x, ConsumedN (min w.2 s.budget) (s.reread f m v) x ∧
      decodePlanes (s.reread f m v) = .ok () (x.putCoeffs (blockCoeffs s w)) :=
  ((decodePlanes_ends h hw).resolve_right fun hfull => absurd hfull.1 (Nat.not_lt.2 hroom)).2

/-- What a reader receives that has the bits to write before it (44_bitplane_coder R149). -/
theorem received_cutStream {s q : State} (hbudget : q.budget = s.budget)
    (hbits : ∀ j < s.planeStream.length, q.nextBit j = s.planeStream.getD j false) :
    CutStream (planeBits s.dim s.planes s.coeffs) s.budget q.received := by
  refine ⟨fun j hj hc => ?_, fun j hj => q.received_beyond j (by omega)⟩
  have hlen : j < s.planeStream.length := by
    rw [State.planeStream, List.length_take]
    omega
  rw [State.received, hbudget, decide_eq_true hc, Bool.true_and, hbits j hlen, State.planeStream,
    List.getD_eq_getElem?_getD, List.getD_eq_getElem?_getD, List.getElem?_take_of_lt hc]

end Sys2Proof.Machine

namespace Sys2Proof.Proofs

open Sys2Proof Sys2Proof.Machine Sys2Proof.Claims

/-- Settles O43: the reader receives the bits written and then zeros, on which its traversal is the encoder's as far as
they go. -/
theorem decplReadsWhatEncplWrote : Obligations.DecplReadsWhatEncplWrote := by
  rintro s all bs rfl rfl ⟨hd, hb, hc⟩
  change s.pos + s.planeStream.length ≤ s.capBits at hc
  obtain ⟨t, ht, hw⟩ := exec_encpl_wrote hd hb (Nat.le_sub_of_add_le' hc)
  obtain ⟨u, r, f, v, hu, hr, hq, ⟨hdir, hbuffer, hread, hroom⟩, hpos, hbits⟩ := hw.toWrote.exec_reread hc
  have hcut := received_cutStream (s := s) (q := s.reread f u.mem v) rfl hbits
  have hdecode := decodePlanes_reread ⟨hdir, hbuffer, hread⟩ rfl
  have htaken := readBlock_taken s.length_coeffs s.planes_le hcut
  have hexact := readBlock_exact s.length_coeffs s.planes_le hcut
  have htrunc := readBlock_truncated s.length_coeffs s.planes_le hcut
  have hstream : min (planeBits s.dim s.planes s.coeffs).length s.budget = s.planeStream.length := by
    rw [State.planeStream, List.length_take, Nat.min_comm]
  generalize readBlock s.width s.dim s.planes (s.reread f u.mem v).received = w at hdecode htaken hexact htrunc
  rw [htaken, hstream] at hdecode
  obtain ⟨x, hx, hrun⟩ := hdecode (Nat.le_sub_of_add_le' hroom)
  have hsize : x.size = s.size := hx.toConsumed.size
  have hget (j : Nat) (hj : j < s.size) : (x.putCoeffs (blockCoeffs s w)).coef.get j =
      signed s.width (w.1.mag.getD j 0) (w.1.sgn.getD j false) := putCoeffs_blockCoeffs_get s x w hsize hj
  refine ⟨t, u, r, x.putCoeffs (blockCoeffs s w), ht, hu, hr, ?_, ?_, ?_, ?_, ?_, ?_, ?_⟩
  · rw [hq, exec_decpl_reader hdir, hrun, Run.state_ok]
  · exact BitVec.eq_of_toNat_eq (hx.count.trans hw.count.symm)
  · rw [putCoeffs_pos, hx.pos, hpos, hw.pos]
  · rw [putCoeffs_flt, hx.same]
    rfl
  · rw [putCoeffs_mem, hx.same]
    rfl
  · intro hN hall j hj
    have hcoeffs : blockCoeffs s w = s.coeffs := hexact (Nat.min_eq_right hN) hall
    rw [State.putCoeffs_get, hsize, if_pos hj, hcoeffs, s.getD_coeffs j hj]
    rfl
  · obtain ⟨K, m, hlo, hhi, hknown⟩ := htrunc
    rw [hstream] at hlo hhi
    refine ⟨K, m, hlo, hhi, fun j hj q hq => ?_⟩
    have hcoeff : s.coeffs.getD j 0 = coefficient s j := s.getD_coeffs j hj
    rw [hget j hj, ← hcoeff]
    exact hknown.signed hj (hcoeff ▸ hq)

end Sys2Proof.Proofs
end

section
/-! PROOFS, family 44_bitplane_coder: `DECBLK` in its parts: the header, the planes and the inverse transform, the
`MINBITS` floor (45_block_codec R165, R166, R176, R178). -/

namespace Sys2Proof.Machine

open Sys2Proof Sys2Proof.Claims

/-! ### A block being decoded -/

/-- `t` is `s` after a part of `DECBLK` has read `k` bits: `BITS` counts them, the header's registers are `e` and
`prec`, and nothing else but the bitstream unit, `BLK` and `COEF` differs. -/
structure InBlock (s : State) (e : BitVec 11) (prec : BitVec 7) (k : Nat) (t : State) : Prop where
  consumed : Consumed k s ((((t.setBlk s.blk).setCoef s.coef).setExpf s.expf).setPreceff s.preceff)
  count : t.bits.toNat = k
  expf : t.expf = e
  preceff : t.preceff = prec

/-- The bits of the planes behind `h` bits of header, as far as `MAXBITS` lets them be taken (44_bitplane_coder
R147). -/
def State.planesBehind (s : State) (h i : Nat) : Bool := decide (i < s.cfg.maxbits.toNat - h) && s.nextBit (h + i)

section

variable {s t u : State} {e : BitVec 11} {prec : BitVec 7} {k l : Nat}

theorem Consumed.of_setBits {b : BitVec 32} (h : Consumed k (s.setBits b) t) : Consumed k s t :=
  ⟨h.same, h.dir, h.buffer, h.read, h.pos, h.next, h.fits⟩

/-- What the registers of a block hold is of no concern to the stream. -/
theorem Consumed.setBlock (h : Consumed k s t) (b c : RegFile) (e : BitVec 11) (p : BitVec 7) :
    Consumed k ((((s.setBlk b).setCoef c).setExpf e).setPreceff p)
      ((((t.setBlk b).setCoef c).setExpf e).setPreceff p) :=
  ⟨congrArg (fun x => (((State.setBlk x b).setCoef c).setExpf e).setPreceff p) h.same, h.dir, h.buffer, h.read, h.pos,
    h.next, h.fits⟩

namespace InBlock

theorem of_consumed (h : Consumed k s t) (hcount : t.bits.toNat = k) :
    InBlock s e prec k ((t.setExpf e).setPreceff prec) where
  consumed := by
    have hsame := h.same
    have hback : (((((t.setExpf e).setPreceff prec).setBlk s.blk).setCoef s.coef).setExpf s.expf).setPreceff s.preceff =
        t := by
      rw [hsame]
      rfl
    rwa [hback]
  count := hcount
  expf := rfl
  preceff := rfl

theorem cfg (h : InBlock s e prec k t) : t.cfg = s.cfg := h.consumed.cfg

theorem reading (h : InBlock s e prec k t) : t.reading := h.consumed.reading

theorem room (h : InBlock s e prec k t) : s.room = k + t.room := h.consumed.room

theorem ty (h : InBlock s e prec k t) : t.ty = s.ty := by rw [State.ty, h.cfg, State.ty]

theorem dim (h : InBlock s e prec k t) : t.dim = s.dim := by rw [State.dim, h.cfg, State.dim]

theorem size (h : InBlock s e prec k t) : t.size = s.size := by rw [State.size, h.dim, State.size]

theorem width (h : InBlock s e prec k t) : t.width = s.width := by rw [State.width, h.ty, State.width]

theorem trans (h : InBlock s e prec k t) (g : ConsumedN l t u) : InBlock s e prec (k + l) u where
  consumed := h.consumed.trans (g.toConsumed.setBlock _ _ _ _)
  count := by rw [g.count, h.count]
  expf := by rw [← h.expf, g.same]; rfl
  preceff := by rw [← h.preceff, g.same]; rfl

theorem setCoef (h : InBlock s e prec k t) (c : RegFile) : InBlock s e prec k (t.setCoef c) :=
  ⟨h.consumed, h.count, h.expf, h.preceff⟩

theorem setBlk (h : InBlock s e prec k t) (b : RegFile) : InBlock s e prec k (t.setBlk b) :=
  ⟨h.consumed, h.count, h.expf, h.preceff⟩

theorem received (h : InBlock s e prec k t) : t.received = s.planesBehind k := by
  funext i
  have hnext : t.nextBit i = s.nextBit (k + i) := h.consumed.next i
  rw [State.received, State.budget, h.cfg, h.count, hnext]
  rfl

theorem budget (h : InBlock s e prec k t) : t.budget = s.cfg.maxbits.toNat - k := by
  rw [State.budget, h.cfg, h.count]

/-- With `BLK` and `COEF` as they were, only the stream and the header's registers differ. -/
theorem advanced (h : InBlock s e prec k t) (hblk : t.blk = s.blk) (hcoef : t.coef = s.coef) :
    advanced k s ((t.setExpf s.expf).setPreceff s.preceff) := by
  have hadv := h.consumed.advanced
  rw [← hblk, ← hcoef] at hadv
  exact hadv

end InBlock

/-! ### The planes and the inverse transform -/

/-- `COEF` when the coefficients of a traversal have been stored (44_bitplane_coder R152). -/
def State.codedCoef (s : State) (r : Work × Nat) : RegFile := s.coef.putValues s.size (blockCoeffs s r)

theorem State.codedCoef_congr (hcfg : t.cfg = s.cfg) (hcoef : t.coef = s.coef) (r : Work × Nat) :
    t.codedCoef r = s.codedCoef r := by
  unfold State.codedCoef blockCoeffs State.size State.dim State.width State.ty
  rw [hcfg, hcoef]

/-- The inverse transform goes by `COEF` and the type and dimensionality of `CTRL` (42_lifting_transform R111). -/
theorem State.inverse_coef_congr (hcfg : t.cfg = s.cfg) (hcoef : t.coef = s.coef) :
    t.inverse.coef = s.inverse.coef := by
  unfold State.inverse State.coeffs State.putCoeffs State.size State.dim State.width State.ty
  simp only [setCoef_coef]
  rw [hcfg, hcoef]

/-- The planes and the inverse transform of a block (45_block_codec R176): all bits are there, or the capacity ends
with `BLK` and `COEF` as they were. -/
theorem decodeCoeffs_ends (h : InBlock s e prec k t) (hblk : t.blk = s.blk) (hcoef : t.coef = s.coef)
    (hprec : prec.toNat ≤ s.width) {r : Work × Nat}
    (hr : r = readBlock s.width s.dim prec.toNat (s.planesBehind k)) {k1 : Nat}
    (hk1 : k1 = k + min r.2 (s.cfg.maxbits.toNat - k)) :
    (k1 ≤ s.room ∧ ∃ y, decodeCoeffs t = .ok () y ∧ InBlock s e prec k1 y ∧ y.blk = s.blk ∧
      y.coef = (s.setCoef (s.codedCoef r)).inverse.coef) ∨
    (s.room < k1 ∧ ∃ u, decodeCoeffs t = .raised (u.raise .capacity (BitVec.ofNat 64 u.pos)) ∧
      InBlock s e prec s.room u ∧ u.blk = s.blk ∧ u.coef = s.coef) := by
  have hplanes : t.planes = prec.toNat := by
    rw [State.planes, h.preceff, h.width, Nat.min_eq_left hprec]
  rw [← h.width, ← h.dim, ← hplanes, ← h.received] at hr
  have hroom := h.room
  have hends := decodePlanes_ends h.reading hr
  rw [h.budget] at hends
  rw [decodeCoeffs]
  obtain ⟨hle, x, hx, hrun⟩ | ⟨hlt, x, hx, hrun⟩ := hends
  · have hxblk : x.blk = s.blk := by rw [hx.same, ← hblk]; rfl
    have hxin := h.trans hx
    rw [hrun, Run.bind_ok]
    refine .inl ⟨by omega, _, rfl, hk1 ▸ (hxin.setCoef _).setCoef _, hxblk, ?_⟩
    refine State.inverse_coef_congr hxin.cfg ?_
    rw [← State.codedCoef_congr h.cfg hcoef r, State.codedCoef, ← hx.toConsumed.coef, ← hx.toConsumed.size]
    rfl
  · rw [hrun, Run.bind_raised]
    refine .inr ⟨by omega, x, rfl, hroom ▸ h.trans hx, ?_, ?_⟩
    · rw [hx.same, ← hblk]; rfl
    · rw [hx.toConsumed.coef, hcoef]

/-! ### The decoded block -/

/-- `t` holds the block that the traversal `r` behind the header `e` decodes to (45_block_codec R165, R176). -/
structure Decoded (s : State) (e : BitVec 11) (r : Work × Nat) (t : State) : Prop where
  zero : s.ty.isFloat = true → e = 0 → ∀ i < s.size, t.coef.get i = 0 ∧ t.blk.get i = 0
  coef : ¬ (s.ty.isFloat = true ∧ e = 0) → t.coef = (s.setCoef (s.codedCoef r)).inverse.coef
  blk : ¬ (s.ty.isFloat = true ∧ e = 0) → ∀ i < s.size, t.blk.get i =
    if s.ty.isFloat = false ∨ e.toNat = s.ty.raw then (coefficient t i).setWidth 64
    else (iscale1 s.ty s.dim (coefficient t i) e.toNat).setWidth 64
  beyond : ∀ i, s.size ≤ i → t.blk.get i = s.blk.get i ∧ t.coef.get i = s.coef.get i

theorem Decoded.consumed {r : Work × Nat} (h : Decoded s e r t) (g : Consumed l t u) : Decoded s e r u := by
  rw [g.same]
  exact ⟨h.zero, h.coef, h.blk, h.beyond⟩

theorem codedCoef_inverse_beyond (s : State) (r : Work × Nat) {i : Nat} (hi : s.size ≤ i) :
    (s.setCoef (s.codedCoef r)).inverse.coef.get i = s.coef.get i := by
  refine (State.inverse_get_beyond (s.setCoef (s.codedCoef r)) hi).trans ?_
  rw [setCoef_coef, State.codedCoef, RegFile.get_putValues _ _ _ _ s.size_le,
    if_neg (Nat.not_lt.2 hi)]

theorem codedCoef_get (s : State) (r : Work × Nat) {j : Nat} (hj : j < s.size) :
    (s.codedCoef r).get j = signed s.width (r.1.mag.getD j 0) (r.1.sgn.getD j false) :=
  putCoeffs_blockCoeffs_get s s r rfl hj

/-- The block of a header 0 (45_block_codec R165). -/
theorem zeroBlock_decoded (h : InBlock s e prec k t) (hblk : t.blk = s.blk) (hcoef : t.coef = s.coef)
    (hf : s.ty.isFloat = true) (he : e = 0) (r : Work × Nat) : Decoded s e r t.zeroBlock where
  zero _ _ i hi := by
    rw [← h.size] at hi
    refine ⟨(t.putCoeffs_get _ i).trans ?_, (t.zeroCoeffs.putSamples_get _ i).trans ?_⟩
    all_goals
      rw [if_pos (by exact hi), getD_tab, ite_self]
      rfl
  coef hn := absurd ⟨hf, he⟩ hn
  blk hn := absurd ⟨hf, he⟩ hn
  beyond i hi := by
    rw [← h.size] at hi
    exact ⟨((t.zeroCoeffs.putSamples_get _ i).trans (if_neg (Nat.not_lt.2 hi))).trans (by rw [← hblk]; rfl),
      ((t.putCoeffs_get _ i).trans (if_neg (Nat.not_lt.2 hi))).trans (by rw [hcoef])⟩

/-- The samples of an integer block are its coefficients (45_block_codec R176). -/
theorem coefToBlk_decoded (h : InBlock s e prec k t) (hblk : t.blk = s.blk) {r : Work × Nat}
    (hcoef : t.coef = (s.setCoef (s.codedCoef r)).inverse.coef) (hf : s.ty.isFloat = false) :
    Decoded s e r t.coefToBlk where
  zero hf' := absurd hf' (by simp [hf])
  coef _ := hcoef
  blk _ i hi := by
    rw [if_pos (.inl hf)]
    rw [← h.size] at hi
    rw [State.coefToBlk, State.putSamples_get, if_pos hi, t.getD_coeffs i hi]
    rfl
  beyond i hi := by
    refine ⟨?_, (congrArg (·.get i) hcoef).trans (codedCoef_inverse_beyond s r hi)⟩
    rw [State.coefToBlk, State.putSamples_get, h.size, if_neg (Nat.not_lt.2 hi), hblk]

/-- The samples of a float block are its coefficients scaled back (45_block_codec R176). -/
theorem unscale_decoded (h : InBlock s e prec k t) (hblk : t.blk = s.blk) {r : Work × Nat}
    (hcoef : t.coef = (s.setCoef (s.codedCoef r)).inverse.coef) (hf : s.ty.isFloat = true) (he : e ≠ 0)
    (hlt : e.toNat < 2 ^ s.ty.ebits) : Decoded s e r t.unscale where
  zero _ he' := absurd he' he
  coef _ := hcoef
  blk _ i hi := by
    have he0 : e.toNat ≠ 0 := fun h0 => he (BitVec.eq_of_toNat_eq h0)
    have hexp : t.expE = e.toNat := by rw [State.expE, h.expf, h.ty, Nat.mod_eq_of_lt hlt]
    rw [← h.size] at hi
    rw [State.unscale_get t hi, h.ty, h.dim, hexp]
    by_cases hraw : e.toNat = s.ty.raw
    · rw [if_pos (.inr hraw), hraw, unscaleSample_raw _ _ _ hf]
      rfl
    · rw [if_neg (by simp [hf, hraw]), unscaleSample_scaled _ _ _ he0 hraw]
      rfl
  beyond i hi := by
    refine ⟨?_, (congrArg (·.get i) hcoef).trans (codedCoef_inverse_beyond s r hi)⟩
    rw [State.unscale_get_beyond t (by rwa [h.size]), hblk]

/-! ### The parts of `DECBLK` -/

/-- How the part of `DECBLK` before the floor can end when the header and the planes are `k1` bits: with the block
decoded, or at the end of the capacity with `BLK` and `COEF` as they were (45_block_codec R176, R178). -/
def BodyEnd (s : State) (e : BitVec 11) (prec : BitVec 7) (k1 : Nat) (r : Work × Nat) : Run Unit → Prop
  | .ok _ y => k1 ≤ s.room ∧ InBlock s e prec k1 y ∧ Decoded s e r y
  | .raised t => s.room < k1 ∧ ∃ u, t = u.raise .capacity (BitVec.ofNat 64 u.pos) ∧ InBlock s e prec s.room u ∧
      u.blk = s.blk ∧ u.coef = s.coef

section

variable {k1 : Nat} {r : Work × Nat} {body : Run Unit}

theorem BodyEnd.of_room (h : BodyEnd s e prec k1 r body) (hfits : k1 ≤ s.room) :
    ∃ y, body = .ok () y ∧ InBlock s e prec k1 y ∧ Decoded s e r y := by
  cases body with
  | ok a y => exact ⟨y, rfl, h.2⟩
  | raised t => exact absurd h.1 (Nat.not_lt.2 hfits)

theorem BodyEnd.of_full (h : BodyEnd s e prec k1 r body) (hfull : s.room < k1) :
    ∃ u, body = .raised (u.raise .capacity (BitVec.ofNat 64 u.pos)) ∧ InBlock s e prec s.room u ∧ u.blk = s.blk ∧
      u.coef = s.coef := by
  cases body with
  | ok a y => exact absurd h.1 (Nat.not_le.2 hfull)
  | raised t =>
    obtain ⟨-, u, rfl, hu⟩ := h
    exact ⟨u, rfl, hu⟩

end

/-- A header 0 has no planes (43_exponent_scaler R128). -/
theorem State.precision_zero (s : State) (hf : s.ty.isFloat = true) : s.precision 0 = 0 := by
  rw [State.precision, precisionOf, if_pos hf, if_pos rfl]

theorem decodeInt_end (h : s.reading) (hf : s.ty.isFloat = false)
    (hp : prec = BitVec.ofNat 7 (min s.cfg.maxprec.toNat s.width)) (hprec : prec.toNat ≤ s.width) {r : Work × Nat}
    (hr : r = readBlock s.width s.dim prec.toNat (s.planesBehind 0)) :
    BodyEnd s s.expf prec (0 + min r.2 (s.cfg.maxbits.toNat - 0)) r (decodeInt (s.setBits 0)) := by
  have hstart : Consumed 0 s (s.setBits 0) := (Consumed.refl s h.1 h.2.1 h.2.2).setBits 0
  have hin : InBlock s s.expf prec 0 ((s.setBits 0).setPreceff prec) := InBlock.of_consumed hstart rfl
  have hrun : decodeInt (s.setBits 0) =
      (decodeCoeffs ((s.setBits 0).setPreceff prec)).bind fun _ s' => .ok () s'.coefToBlk := by
    rw [hp]
    rfl
  rw [hrun]
  obtain ⟨hle, y, hy, hyin, hyblk, hycoef⟩ | ⟨hlt, u, hu, huin, hublk, hucoef⟩ :=
    decodeCoeffs_ends hin rfl rfl hprec hr rfl
  · rw [hy]
    exact ⟨hle, hyin.setBlk _, coefToBlk_decoded hyin hyblk hycoef hf⟩
  · rw [hu]
    exact ⟨hlt, u, rfl, huin, hublk, hucoef⟩

theorem toNat_lt_of_getLsbD {n : Nat} {v : Word} {f : Nat → Bool} (hv : ∀ j, v.getLsbD j = (decide (j < n) && f j)) :
    v.toNat < 2 ^ n := by
  refine Nat.lt_pow_two_of_testBit _ fun j hj => ?_
  have hbit := hv j
  rwa [decide_eq_false (Nat.not_lt.2 hj), Bool.false_and] at hbit

/-- The header of a float block that is there, and what it selects (45_block_codec R176). -/
theorem decodeFloat_end (h : s.reading) (hf : s.ty.isFloat = true) (hroom : s.ty.ebits ≤ s.room) :
    ∃ (e : BitVec 11) (prec : BitVec 7), (∀ j < 11, e.getLsbD j = (decide (j < s.ty.ebits) && s.nextBit j)) ∧
      prec.toNat = s.precision e.toNat ∧
      ∀ r, r = readBlock s.width s.dim prec.toNat (s.planesBehind s.ty.ebits) →
        BodyEnd s e prec (s.ty.ebits + min r.2 (s.cfg.maxbits.toNat - s.ty.ebits)) r (decodeFloat (s.setBits 0)) := by
  have hebits := ebits_le s.ty
  have hpos : 0 < s.ty.ebits := by
    cases ht : s.ty <;> simp [ht, ScalarType.isFloat, ScalarType.ebits] at hf ⊢
  have hcap : s.pos + s.ty.ebits ≤ s.capBits := by
    rw [State.room] at hroom
    omega
  obtain ⟨-, v, t, hrun, ht, hv⟩ := (readHeader_end (s.setBits 0) h rfl).resolve_right
    fun hfull => absurd hcap (Nat.not_le.2 hfull.1)
  have hvlt : v.toNat < 2 ^ s.ty.ebits := toNat_lt_of_getLsbD hv
  have hve : (BitVec.ofNat 11 v.toNat).toNat = v.toNat :=
    Nat.mod_eq_of_lt (hvlt.trans_le (Nat.pow_le_pow_right Nat.two_pos hebits))
  have hcons : Consumed s.ty.ebits s t := ht.toConsumed.of_setBits
  have hcount : t.bits.toNat = s.ty.ebits := ht.count.trans (Nat.zero_add _)
  have hple : s.precision v.toNat ≤ s.width := precisionOf_le _ _ _ _ _
  have hwidth := s.width_le
  have hpt : (BitVec.ofNat 7 (s.precision v.toNat)).toNat = s.precision v.toNat := Nat.mod_eq_of_lt (by omega)
  have hprect : t.precision v.toNat = s.precision v.toNat := by
    rw [hcons.same]
    rfl
  refine ⟨BitVec.ofNat 11 v.toNat, BitVec.ofNat 7 (s.precision v.toNat), fun j hj => ?_, by rw [hve, hpt], ?_⟩
  · rw [BitVec.getLsbD_ofNat, decide_eq_true hj, Bool.true_and]
    exact hv j
  · intro r hr
    have hin := InBlock.of_consumed (e := BitVec.ofNat 11 v.toNat) (prec := BitVec.ofNat 7 (s.precision v.toNat)) hcons
      hcount
    have hblk : t.blk = s.blk := by rw [hcons.same]; rfl
    simp only [decodeFloat, hrun, Run.bind_ok, hprect]
    by_cases hzero : v.toNat = 0
    · have hnone : r.2 = 0 := by
        have hprec0 : (BitVec.ofNat 7 (s.precision v.toNat)).toNat = 0 := by
          rw [hpt, hzero, s.precision_zero hf]
        rw [hr, hprec0]
        rfl
      rw [if_pos hzero, hnone, Nat.zero_min]
      refine ⟨hroom, (hin.setCoef _).setBlk _, ?_⟩
      exact zeroBlock_decoded hin hblk hcons.coef hf (by rw [hzero]; rfl) r
    · rw [if_neg hzero]
      obtain ⟨hle, y, hy, hyin, hyblk, hycoef⟩ | ⟨hlt, u, hu, huin, hublk, hucoef⟩ :=
        decodeCoeffs_ends hin hblk hcons.coef (by rw [hpt]; exact hple) hr rfl
      · rw [hy]
        refine ⟨hle, hyin.setBlk _, unscale_decoded hyin hyblk hycoef hf (fun he => hzero ?_) (by rwa [hve])⟩
        rw [← hve, he]
        rfl
      · rw [hu]
        exact ⟨hlt, u, rfl, huin, hublk, hucoef⟩

/-- The `MINBITS` floor behind a decoded block (45_block_codec R166, R176). -/
theorem skipStream_decoded {y : State} {k1 K : Nat} {r : Work × Nat} (h : InBlock s e prec k1 y) (hD : Decoded s e r y)
    (hle : k1 ≤ s.room) (hK : K = max s.cfg.minbits.toNat k1) :
    ∃ t : State, (K ≤ s.room → skipStream y.cfg.minbits.toNat y = .ok () t) ∧
      (s.room < K → skipStream y.cfg.minbits.toNat y = .raised (t.raise .capacity (BitVec.ofNat 64 t.pos))) ∧
      InBlock s e prec (min K s.room) t ∧ Decoded s e r t := by
  have hroom := h.room
  have hskip := skipStream_end y.cfg.minbits.toNat y h.reading (Nat.sub_le _ _)
  rw [h.count, h.cfg] at hskip
  rw [h.cfg]
  revert hskip
  cases skipStream s.cfg.minbits.toNat y with
  | ok a t =>
    intro ht
    have htroom := ht.toConsumed.room
    refine ⟨t, fun _ => rfl, fun hlt => absurd hlt (by omega), ?_, hD.consumed ht.toConsumed⟩
    rw [show min K s.room = k1 + (s.cfg.minbits.toNat - k1) by omega]
    exact h.trans ht
  | raised t =>
    rintro ⟨u, hlt, hu, rfl⟩
    refine ⟨u, fun hle' => absurd hle' (by omega), fun _ => rfl, ?_, hD.consumed hu.toConsumed⟩
    rw [show min K s.room = k1 + y.room by omega]
    exact h.trans hu

end

/-- `DECBLK` in its parts (45_block_codec R176). -/
theorem exec_decblk_body {s : State} (hc : decChecksPass s) (hd : s.fifo.dir = .rd) {body : Run Unit}
    (hbody : body = if s.ty.isFloat then decodeFloat (s.setBits 0) else decodeInt (s.setBits 0)) :
    exec .decblk s = .next (body.bind fun _ y => skipStream y.cfg.minbits.toNat y).state := by
  rw [exec_decblk hc hd, hbody]
  rfl

/-- The header of a block that is there, and the bits of planes behind it (45_block_codec R176). -/
theorem decodeBody_end {s : State} (h : s.reading) {n : Nat} (hn : n = if s.ty.isFloat then s.ty.ebits else 0)
    (hroom : n ≤ s.room) : ∃ (e : BitVec 11) (prec : BitVec 7) (r : Work × Nat),
      (s.ty.isFloat = false → e = s.expf ∧ prec.toNat = min s.cfg.maxprec.toNat s.width) ∧
      (s.ty.isFloat = true → (∀ j < 11, e.getLsbD j = (decide (j < s.ty.ebits) && s.nextBit j)) ∧
        prec.toNat = s.precision e.toNat) ∧
      r = readBlock s.width s.dim prec.toNat (s.planesBehind n) ∧
      BodyEnd s e prec (n + min r.2 (s.cfg.maxbits.toNat - n)) r
        (if s.ty.isFloat then decodeFloat (s.setBits 0) else decodeInt (s.setBits 0)) := by
  cases hf : s.ty.isFloat with
  | false =>
    rw [hf, if_neg Bool.false_ne_true] at hn
    subst hn
    have hwidth := s.width_le
    have hprec : (BitVec.ofNat 7 (min s.cfg.maxprec.toNat s.width)).toNat = min s.cfg.maxprec.toNat s.width :=
      Nat.mod_eq_of_lt (by omega)
    refine ⟨s.expf, _, _, fun _ => ⟨rfl, hprec⟩, fun hf' => absurd hf' Bool.false_ne_true, rfl, ?_⟩
    exact decodeInt_end h hf rfl (by omega) rfl
  | true =>
    rw [hf, if_pos rfl] at hn
    subst hn
    obtain ⟨e, prec, hbits, hprec, hend⟩ := decodeFloat_end h hf hroom
    exact ⟨e, prec, _, fun hf' => absurd hf'.symm Bool.false_ne_true, fun _ => ⟨hbits, hprec⟩, rfl, hend _ rfl⟩

end Sys2Proof.Machine

namespace Sys2Proof.Proofs

open Sys2Proof Sys2Proof.Machine Sys2Proof.Claims

/-- Settles O51: the header selects the planes, their traversal gives the coefficients, and the floor reads on behind
the decoded block. -/
theorem decblkDecodesOneBlock : Obligations.DecblkDecodesOneBlock := by
  rintro s h room budget hc hd hb hrd hh rfl rfl
  have hreading : s.reading := ⟨hd, hb, hrd⟩
  refine ⟨fun hfull => ?_, fun hroom => ?_⟩
  · have hf : s.ty.isFloat = true := by
      by_contra hn
      rw [if_neg hn] at hh
      omega
    rw [hf, if_pos rfl] at hh
    obtain ⟨-, hrun⟩ := (readHeader_end (s.setBits 0) hreading rfl).resolve_left fun hfits => by
      have hfits' : s.pos + s.ty.ebits ≤ s.capBits := hfits.1
      omega
    rw [exec_decblk_body hc hd rfl, hf, if_pos rfl, decodeFloat, hrun]
    rfl
  · obtain ⟨e, prec, r, hint, hfloat, hr, hend⟩ := decodeBody_end hreading hh hroom
    have hexec := exec_decblk_body hc hd rfl
    have hprec : prec.toNat ≤ s.width := by
      cases hf : s.ty.isFloat with
      | false => exact (hint hf).2 ▸ Nat.min_le_right _ _
      | true => exact (hfloat hf).2 ▸ precisionOf_le _ _ _ _ _
    have hbudget : h ≤ s.cfg.maxbits.toNat := by
      cases hf : s.ty.isFloat with
      | false => rw [hh, hf]; exact Nat.zero_le _
      | true => rw [hh, hf]; exact hc.2 hf
    have hworst : r.2 ≤ worst s.width s.dim := hr ▸ readBlock_length_le hprec
    generalize (if s.ty.isFloat then decodeFloat (s.setBits 0) else decodeInt (s.setBits 0)) = body at hend hexec
    refine ⟨e, prec, (r.1.mag.getD · 0), (r.1.sgn.getD · false), tab r.2 (s.planesBehind h), _, _, hint, hfloat,
      readBlock_decodes hprec (fun _ => rfl) hr, fun hf he => ?_, congrArg _ (by rw [length_tab]), rfl, ?_, ?_,
      fun hfull => ?_, fun hfits => ?_⟩
    · have hnone : prec.toNat = 0 := by
        rw [(hfloat hf).2, he]
        exact s.precision_zero hf
      rw [hr, hnone]
      rfl
    · have hmin := hc.1
      omega
    · omega
    · obtain ⟨u, rfl, hu, hublk, hucoef⟩ := hend.of_full hfull
      exact ⟨u, hexec, hu.advanced hublk hucoef, hu.count, hu.expf, hu.preceff⟩
    · obtain ⟨y, rfl, hy, hD⟩ := hend.of_room hfits
      obtain ⟨t, hok, hfull, ht, hDt⟩ := skipStream_decoded hy hD hfits rfl
      rw [Run.bind_ok] at hexec
      refine ⟨t, fun hle => by rw [hexec, hok hle]; rfl, fun hlt => by rw [hexec, hfull hlt]; rfl,
        ht.consumed.advanced, ht.count, ht.expf, ht.preceff, hDt.zero, fun hcoded => ⟨?_, hDt.blk hcoded⟩, hDt.beyond⟩
      exact ⟨s.codedCoef r, _, fun j hj => codedCoef_get s r hj, rfl, fun i _ => by rw [hDt.coef hcoded]⟩

end Sys2Proof.Proofs
end

section
/-! PROOFS, family 45_block_codec: `NOP`, `PADBLK`, `B2C` and `C2B` (45_block_codec R161, R170, R172 to R174), and the
checks of the block commands (R163). -/

namespace Sys2Proof.Machine

open Sys2Proof Sys2Proof.Claims

/-! ### System and helper commands -/

theorem opcodeOf_eq_zero_iff (i : Instr) : opcodeOf i = 0 ↔ i = .nop := by
  cases i <;> simp [opcodeOf]

/-- Every axis cut, the coordinates are those of the sample that padding copies (45_block_codec R161). -/
theorem cutAxes_eq_padSource (s : State) {i : Nat} (hi : i < s.size) (hext : ∀ a < s.dim, 1 ≤ s.extent a) :
    cutAxes s.extent s.dim i = padSource s i := by
  rw [cutAxes_eq s.extent s.dim s.dim i (le_refl _) hi hext, padSource]
  refine congrArg List.sum (List.map_congr_left fun a ha => ?_)
  rw [if_pos (List.mem_range.1 ha)]

theorem exec_padblk_pads {s : State} (hext : ∀ a < s.dim, 1 ≤ s.extent a ∧ s.extent a ≤ 4) :
    exec .padblk s = .next s.pad :=
  if_pos (s.extentsOk_iff.2 hext)

/-- A bad extent of some axis is what the check of the extents fails on (60_exceptions R187). -/
theorem State.extentsOk_eq_false (s : State) (h : ∃ a < s.dim, s.extent a = 0 ∨ 4 < s.extent a) :
    s.extentsOk = false := by
  rw [← Bool.not_eq_true, s.extentsOk_iff]
  intro hall
  obtain ⟨a, ha, hbad⟩ := h
  have := hall a ha
  omega

/-- What `B2C` stores (45_block_codec R173). -/
theorem State.blkToCoef_get (s : State) {i : Nat} (hi : i < s.size) :
    s.blkToCoef.coef.get i = (sample s i).setWidth 64 := by
  rw [State.blkToCoef, State.putCoeffs_get, if_pos hi, s.getD_samples i hi]
  rfl

/-- What `C2B` stores (45_block_codec R174). -/
theorem State.coefToBlk_get (s : State) {i : Nat} (hi : i < s.size) :
    s.coefToBlk.blk.get i = (coefficient s i).setWidth 64 := by
  rw [State.coefToBlk, State.putSamples_get, if_pos hi, s.getD_coeffs i hi]
  rfl

/-! ### The checks of the block commands -/

section

variable {s : State}

theorem exec_encblk_dirErr (hd : s.fifo.dir = .rd) : exec .encblk s = .next (s.raise .dirErr 0) :=
  if_pos (by simp [hd])

theorem exec_decblk_dirErr (hd : s.fifo.dir = .wr) : exec .decblk s = .next (s.raise .dirErr 0) :=
  if_pos (by simp [hd])

/-- A bad parameter ends either block command at once (45_block_codec R163). -/
theorem exec_block_badParam {i : Instr} {k : Nat}
    (hi : (i = .encblk ∧ s.fifo.dir = .wr) ∨ (i = .decblk ∧ s.fifo.dir = .rd)) (hk : s.paramFault = some k) :
    exec i s = .next (s.raise .badParam (BitVec.ofNat 64 k)) := by
  obtain ⟨rfl, hd⟩ | ⟨rfl, hd⟩ := hi
  · simp only [exec, execEncblk, hd, ne_eq, not_true_eq_false, if_false, hk]
  · simp only [exec, execDecblk, hd, ne_eq, not_true_eq_false, if_false, hk]

theorem State.paramFault_floor (h : s.cfg.maxbits.toNat < s.cfg.minbits.toNat) : s.paramFault = some 1 := if_pos h

theorem State.paramFault_header (h : s.cfg.minbits.toNat ≤ s.cfg.maxbits.toNat) (hf : s.ty.isFloat = true)
    (hbits : s.cfg.maxbits.toNat < s.ty.ebits) : s.paramFault = some 2 := by
  simp only [State.paramFault, if_neg (Nat.not_lt.2 h), hf, Bool.true_and, decide_eq_true hbits, if_true]

theorem exec_encblk_badExtent (hd : s.fifo.dir = .wr) (hc : decChecksPass s) (hext : s.extentsOk = false) :
    exec .encblk s = .next (s.raise .badParam 4) := by
  simp only [exec, execEncblk, hd, ne_eq, not_true_eq_false, if_false, s.paramFault_none_iff.2 hc, hext,
    Bool.false_eq_true]

end

end Sys2Proof.Machine

namespace Sys2Proof.Proofs

open Sys2Proof Sys2Proof.Machine Sys2Proof.Claims

/-- Settles O14: the only command with opcode 0 is `NOP`, whose word is all zero, so any other word with that opcode
does not decode. -/
theorem nopWritesNothing : Obligations.NopWritesNothing := by
  refine ⟨decodeWord_ofNat rfl rfl, fun _ => rfl, fun c s hop hne => ?_⟩
  cases hdecode : decodeWord c with
  | error e => rw [runCommand, hdecode]
  | ok i =>
    obtain ⟨rfl, -⟩ := encodeOfDecodeIsTheWord c i hdecode
    obtain rfl := (opcodeOf_eq_zero_iff i).1 ((cmdOp_encode i).symm.trans hop)
    exact absurd rfl hne

/-- Settles O48: each check is the first that fails. -/
theorem blockCommandChecksInOrder : Obligations.BlockCommandChecksInOrder :=
  fun s => ⟨exec_encblk_dirErr, exec_decblk_dirErr,
    fun _ hi => ⟨fun hfloor => exec_block_badParam hi (State.paramFault_floor hfloor),
      fun hle hf hbits => exec_block_badParam hi (State.paramFault_header hle hf hbits)⟩,
    fun hd hc hbad => exec_encblk_badExtent hd hc (s.extentsOk_eq_false hbad)⟩

/-- Settles O46: padding axis by axis cuts every coordinate to its extent. -/
theorem padblkReplicatesTheLastValidSample : Obligations.PadblkReplicatesTheLastValidSample := by
  refine ⟨decodeWord_ofNat rfl rfl, fun s => ⟨fun hbad => if_neg (by simp [s.extentsOk_eq_false hbad]),
    fun hext => ⟨s.pad, exec_padblk_pads hext, s.pad_eq, fun i hi => ?_, fun i _ hvalid => ?_,
      fun i hi hinvalid => ?_⟩⟩⟩
  all_goals
    have hpos (a : Nat) (ha : a < s.dim) : 1 ≤ s.extent a := (hext a ha).1
    rw [s.pad_get i hpos]
  · exact if_neg fun h => absurd h.1 (Nat.not_lt.2 hi)
  · exact if_neg fun h => h.2 hvalid
  · rw [if_pos ⟨hi, hinvalid⟩, cutAxes_eq_padSource s hi hpos]
    rfl

/-- Settles O47: each register of the block is copied through its container. -/
theorem copiesBetweenBlockAndCoefficients : Obligations.CopiesBetweenBlockAndCoefficients :=
  ⟨decodeWord_ofNat rfl rfl, decodeWord_ofNat rfl rfl, fun s =>
    ⟨⟨s.blkToCoef, rfl, rfl, fun _ => s.blkToCoef_get,
        fun i hi => (s.putCoeffs_get _ i).trans (if_neg (Nat.not_lt.2 hi))⟩,
      ⟨s.coefToBlk, rfl, rfl, fun _ => s.coefToBlk_get,
        fun i hi => (s.putSamples_get _ i).trans (if_neg (Nat.not_lt.2 hi))⟩⟩⟩

end Sys2Proof.Proofs
end

section
/-! PROOFS, family 45_block_codec: `ENCBLK` in its parts: the header, the planes, the `MINBITS` floor (45_block_codec
R162, R164 to R166, R175, R178). -/

namespace Sys2Proof.Machine

open Sys2Proof Sys2Proof.Claims

/-! ### The header of a block -/

theorem ebits_pos {t : ScalarType} (hf : t.isFloat = true) : 0 < t.ebits := by
  cases t <;> simp [ScalarType.isFloat, ScalarType.ebits] at hf ⊢

theorem toContainer_zero (N : Nat) : toContainer (0 : BitVec N) = 0 := by simp [toContainer]

theorem State.scalingExponent_eq (s : State) : scalingExponent s = s.chosenExponent := by
  unfold scalingExponent State.chosenExponent State.goesRaw
  simp only [Bool.and_eq_true, decide_eq_true_eq, Bool.not_eq_true']

theorem State.degenerate_iff (s : State) :
    s.degenerate = true ↔ s.chosenExponent = 0 ∨ s.precision s.chosenExponent = 0 := by
  simp [State.degenerate]

theorem State.headerOf_eq (s : State) : headerOf s = (s.headerExponent, s.headerPrecision) := by
  have hdeg := s.degenerate_iff
  unfold headerOf State.headerExponent State.headerPrecision
  rw [s.scalingExponent_eq]
  by_cases h : s.degenerate = true
  · rw [if_pos h, if_pos h]
    exact if_pos (hdeg.1 h)
  · rw [if_neg h, if_neg h]
    exact if_neg (hdeg.not.1 h)

theorem State.fixedSamples_eq (s : State) : fixedSamples s = s.fixedPoint := by
  unfold fixedSamples
  rw [s.scalingExponent_eq]
  rfl

theorem State.length_fixedPoint (s : State) : s.fixedPoint.length = s.size := by simp [State.fixedPoint]

theorem State.headerPrecision_le (s : State) : s.headerPrecision ≤ s.width := by
  unfold State.headerPrecision
  split
  · exact Nat.zero_le _
  · exact precisionOf_le _ _ _ _ _

/-- The header 0 is that of a degenerate block (45_block_codec R165). -/
theorem State.headerExponent_eq_zero_iff (s : State) : s.headerExponent = 0 ↔ s.degenerate = true := by
  have hdeg := s.degenerate_iff
  unfold State.headerExponent
  by_cases h : s.degenerate = true
  · simp [h]
  · rw [if_neg h]
    exact ⟨fun h0 => absurd (hdeg.2 (.inl h0)) h, fun h' => absurd h' h⟩

/-- The planes coded, whatever the type (45_block_codec R175). -/
theorem State.codedPlanes_le (s : State) : codedPlanes s ≤ s.width := by
  unfold codedPlanes
  rw [s.headerOf_eq]
  split
  · exact s.headerPrecision_le
  · exact Nat.min_le_right _ _

/-! ### The stream of a block -/

/-- The floor behind the header and the planes (45_block_codec R166). -/
def floorBits (s : State) : List Bool :=
  List.replicate (s.cfg.minbits.toNat - ((headerBits s).length + (bodyBits s).length)) false

theorem blockBits_eq (s : State) : blockBits s = headerBits s ++ (bodyBits s ++ floorBits s) := by
  rw [blockBits, floorBits, List.length_append, List.append_assoc]

theorem headerBits_int {s : State} (hf : s.ty.isFloat = false) : headerBits s = [] := by
  rw [headerBits, hf]
  rfl

theorem headerBits_float {s : State} (hf : s.ty.isFloat = true) :
    headerBits s = bitsOf (BitVec.ofNat 64 s.headerExponent) s.ty.ebits := by
  rw [headerBits, if_pos hf, s.headerOf_eq]
  rfl

theorem length_headerBits (s : State) : (headerBits s).length = if s.ty.isFloat then s.ty.ebits else 0 := by
  unfold headerBits
  split
  · exact length_fieldBits _ _
  · rfl

/-- The planes of a block that has some (45_block_codec R162). -/
theorem bodyBits_coded {s : State} (h : ¬ (s.ty.isFloat = true ∧ s.headerExponent = 0)) :
    bodyBits s = (planeBits s.dim (codedPlanes s) (codedCoeffs s)).take
      (s.cfg.maxbits.toNat - (headerBits s).length) := by
  rw [bodyBits, s.headerOf_eq]
  exact if_neg h

/-- The planes of a padded block, by the parameters `ENCBLK` finds in the state before it. -/
theorem bodyBits_pad {s : State} (h : ¬ (s.ty.isFloat = true ∧ s.pad.headerExponent = 0)) :
    bodyBits s.pad = (planeBits s.dim (codedPlanes s.pad) (codedCoeffs s.pad)).take
      (s.cfg.maxbits.toNat - (headerBits s.pad).length) := bodyBits_coded (s := s.pad) h

theorem bodyBits_degenerate {s : State} (hf : s.ty.isFloat = true) (h0 : s.headerExponent = 0) : bodyBits s = [] := by
  rw [bodyBits, s.headerOf_eq]
  exact if_pos ⟨hf, h0⟩

theorem codedCoeffs_int {s : State} (hf : s.ty.isFloat = false) : codedCoeffs s = fwdTransform s.dim s.samples := by
  rw [codedCoeffs, hf]
  rfl

theorem codedCoeffs_float {s : State} (hf : s.ty.isFloat = true) (h0 : s.headerExponent ≠ 0) :
    codedCoeffs s = fwdTransform s.dim s.fixedPoint := by
  rw [codedCoeffs, if_pos hf, s.headerOf_eq, if_neg h0, s.fixedSamples_eq]

theorem codedCoeffs_degenerate {s : State} (hf : s.ty.isFloat = true) (h0 : s.headerExponent = 0) :
    codedCoeffs s = [] := by
  rw [codedCoeffs, if_pos hf, s.headerOf_eq, if_pos h0]

/-! ### A block being encoded -/

section

variable {s t u : State} {e : BitVec 11} {prec : BitVec 7} {bs cs : List Bool} {c : RegFile}

/-- What the registers of a block hold is of no concern to the stream. -/
theorem Wrote.setBlock (h : Wrote bs s t) (b c : RegFile) (e : BitVec 11) (p : BitVec 7) :
    Wrote bs ((((s.setBlk b).setCoef c).setExpf e).setPreceff p)
      ((((t.setBlk b).setCoef c).setExpf e).setPreceff p) :=
  ⟨congrArg (fun x => (((State.setBlk x b).setCoef c).setExpf e).setPreceff p) h.same, h.dir, h.buffer, h.pos,
    h.below, h.wrote, h.ptr, h.stored, h.inside, h.wf, h.fits⟩

/-- `t` is `s` after a part of `ENCBLK` has written the bits `bs`: `BITS` counts them, `BLK` is padded, `COEF` is `c`,
the header's registers are `e` and `prec`, and nothing else but the bitstream unit and `MEM` differs. -/
structure BlockWrote (s : State) (e : BitVec 11) (prec : BitVec 7) (c : RegFile) (bs : List Bool) (t : State) :
    Prop where
  wrote : Wrote bs s ((((t.setBlk s.blk).setCoef s.coef).setExpf s.expf).setPreceff s.preceff)
  count : t.bits.toNat = bs.length
  blk : t.blk = s.pad.blk
  coef : t.coef = c
  expf : t.expf = e
  preceff : t.preceff = prec

namespace BlockWrote

/-- Where the writing begins: `BITS` 0, `BLK` padded, the other registers of the block set. -/
theorem start (hd : s.fifo.dir = .wr) (hb : s.fifo.bufferOk) (e : BitVec 11) (prec : BitVec 7) (c : RegFile) :
    BlockWrote s e prec c [] ((((s.setBits 0).pad.setExpf e).setPreceff prec).setCoef c) :=
  ⟨(Wrote.refl s hd hb).setBits 0, rfl, rfl, rfl, rfl, rfl⟩

theorem trans (h : BlockWrote s e prec c bs t) (g : WroteN cs t u) : BlockWrote s e prec c (bs ++ cs) u where
  wrote := h.wrote.trans (g.toWrote.setBlock _ _ _ _)
  count := by rw [g.count, h.count, List.length_append]
  blk := by rw [← h.blk, g.same]; rfl
  coef := by rw [← h.coef, g.same]; rfl
  expf := by rw [← h.expf, g.same]; rfl
  preceff := by rw [← h.preceff, g.same]; rfl

theorem setCoef (h : BlockWrote s e prec c bs t) (c' : RegFile) : BlockWrote s e prec c' bs (t.setCoef c') :=
  ⟨h.wrote, h.count, h.blk, rfl, h.expf, h.preceff⟩

theorem cfg (h : BlockWrote s e prec c bs t) : t.cfg = s.cfg := h.wrote.cfg

theorem dir (h : BlockWrote s e prec c bs t) : t.fifo.dir = .wr := h.wrote.dir

theorem buffer (h : BlockWrote s e prec c bs t) : t.fifo.bufferOk := h.wrote.buffer

theorem room (h : BlockWrote s e prec c bs t) : s.room = bs.length + t.room := h.wrote.room

/-- The registers of the block put into the state that has written the bits alone. -/
theorem eq_setBlock (h : BlockWrote s e prec c bs t) :
    t = (((((((t.setBlk s.blk).setCoef s.coef).setExpf s.expf).setPreceff s.preceff).setBlk s.pad.blk).setCoef
      t.coef).setExpf t.expf).setPreceff t.preceff := by
  rw [← h.blk]
  rfl

end BlockWrote

end

/-! ### The parts of `ENCBLK` -/

/-- The transform of values just stored (42_lifting_transform R110). -/
theorem State.forward_putCoeffs (s : State) (vs : List (BitVec s.width)) (h : vs.length = s.size) :
    (s.putCoeffs vs).forward = s.putCoeffs (fwdTransform s.dim vs) :=
  calc _ = s.putCoeffs (fwdTransform s.dim (s.putCoeffs vs).coeffs) := s.putCoeffs_putCoeffs _ _
    _ = _ := congrArg (fun us : List (BitVec s.width) => s.putCoeffs (fwdTransform s.dim us))
      (s.coeffs_putCoeffs vs h)

theorem State.coeffs_forward_putCoeffs (s : State) (vs : List (BitVec s.width)) (h : vs.length = s.size) :
    (s.putCoeffs vs).forward.coeffs = fwdTransform s.dim vs :=
  (s.putCoeffs vs).coeffs_forward.trans (congrArg (fwdTransform s.dim) (s.coeffs_putCoeffs vs h))

/-- The state of `ENCBLK` with its block padded and the header's registers set (45_block_codec R175). -/
def State.blockStart (s : State) : State :=
  ((s.setBits 0).pad.setExpf (if s.ty.isFloat then BitVec.ofNat 11 s.pad.headerExponent else s.expf)).setPreceff
    (BitVec.ofNat 7 (codedPlanes s.pad))

/-- `t` is `s` after `ENCBLK` has written the bits `bs` of its block and stored the coefficients `vs`. -/
def BlockCoded (s : State) {N : Nat} (vs : List (BitVec N)) (bs : List Bool) (t : State) : Prop :=
  BlockWrote s s.blockStart.expf s.blockStart.preceff (s.putCoeffs vs).coef bs t

section

variable {s : State}

theorem encodeBlock_float (hf : s.ty.isFloat = true) : encodeBlock s =
    (encodeFloat (s.setBits 0).pad).bind fun _ t => padStream t.cfg.minbits.toNat t := by
  rw [encodeBlock, if_pos (by exact hf)]

theorem encodeBlock_int (hf : s.ty.isFloat = false) : encodeBlock s =
    (encodeInt (s.setBits 0).pad).bind fun _ t => padStream t.cfg.minbits.toNat t := by
  rw [encodeBlock, if_neg (by exact hf ▸ Bool.false_ne_true)]

/-- What a finite float block does once its registers are set (45_block_codec R175). -/
theorem encodeFloat_finite (hf : s.ty.isFloat = true) (hfin : finiteBlock s.pad) :
    encodeFloat (s.setBits 0).pad =
      (writeHeader s.pad.headerExponent (s.blockStart.putCoeffs s.pad.fixedPoint)).bind fun _ t =>
        if s.pad.headerExponent = 0 then .ok () t.zeroCoeffs else encodePlanes t.forward := by
  have hstart : (s.setBits 0).pad.prepareFloat = s.blockStart.putCoeffs s.pad.fixedPoint := by
    unfold State.blockStart State.prepareFloat codedPlanes
    rw [if_pos hf, if_pos (by exact hf), s.pad.headerOf_eq]
    rfl
  rw [← hstart]
  exact needFinite_of_finite _ (hfin hf)

/-- What an integer block does once its registers are set (45_block_codec R175). -/
theorem encodeInt_eq (hf : s.ty.isFloat = false) :
    encodeInt (s.setBits 0).pad = encodePlanes (s.blockStart.putCoeffs s.pad.samples).forward := by
  unfold State.blockStart codedPlanes
  rw [if_neg (hf ▸ Bool.false_ne_true), if_neg (hf ▸ Bool.false_ne_true)]
  rfl

/-- A non-finite sample ends `ENCBLK` before a bit is written (45_block_codec R175). -/
theorem encodeBlock_nonfinite (hf : s.ty.isFloat = true) {i : Nat} (hi : i < s.size)
    (hnon : nonfinite s.ty (sample s.pad i) = true) (hfirst : ∀ j < i, nonfinite s.ty (sample s.pad j) = false) :
    encodeBlock s = .raised ((s.setBits 0).pad.raise .nonfinite (BitVec.ofNat 64 i)) := by
  have hrun : encodeFloat (s.setBits 0).pad = .raised ((s.setBits 0).pad.raise .nonfinite (BitVec.ofNat 64 i)) :=
    needFinite_of_first (s := (s.setBits 0).pad) _ hi hnon hfirst
  rw [encodeBlock_float hf, hrun, Run.bind_raised]

/-- The planes that `PRECEFF` names are those coded (44_bitplane_coder R145). -/
theorem toNat_preceff_blockStart (s : State) : s.blockStart.preceff.toNat = codedPlanes s.pad := by
  have hle := s.pad.codedPlanes_le
  have hwidth := s.pad.width_le
  exact Nat.mod_eq_of_lt (by omega)

theorem planes_blockStart (s : State) : s.blockStart.planes = codedPlanes s.pad := by
  rw [State.planes, toNat_preceff_blockStart]
  exact Nat.min_eq_left s.pad.codedPlanes_le

/-- Other coefficients stored. -/
theorem BlockCoded.setCoef {N M : Nat} {vs : List (BitVec N)} {us : List (BitVec M)} {bs : List Bool}
    {t : State} (h : BlockCoded s vs bs t) {c : RegFile} (hc : c = (s.putCoeffs us).coef) :
    BlockCoded s us bs (t.setCoef c) := by
  subst hc
  exact BlockWrote.setCoef h _

variable (hd : s.fifo.dir = .wr) (hb : s.fifo.bufferOk) {vs : List (BitVec s.pad.width)} {bs : List Bool}
  {t : State}

include hd hb

theorem BlockCoded.of_wrote (hw : WroteN bs (s.blockStart.putCoeffs vs) t) : BlockCoded s vs bs t :=
  (BlockWrote.start hd hb _ _ _).trans hw

/-- The transform once the header is written (45_block_codec R175). -/
theorem BlockCoded.forward (hlen : vs.length = s.size) (hw : WroteN bs (s.blockStart.putCoeffs vs) t) :
    BlockCoded s (fwdTransform s.dim vs) bs t.forward ∧
      planeBits t.dim t.forward.planes t.forward.coeffs =
        planeBits s.dim (codedPlanes s.pad) (fwdTransform s.dim vs) := by
  have hcoef : (s.blockStart.putCoeffs vs).forward.coef = (s.putCoeffs (fwdTransform s.dim vs)).coef :=
    (congrArg State.coef (s.blockStart.forward_putCoeffs vs hlen)).trans rfl
  have hcoeffs := s.blockStart.coeffs_forward_putCoeffs vs hlen
  have hcoded := BlockCoded.of_wrote hd hb hw
  obtain ⟨f, m, b, rfl⟩ : ∃ f m b, t = (((s.blockStart.putCoeffs vs).setFifo f).setMem m).setBits b :=
    ⟨_, _, _, hw.same⟩
  refine ⟨hcoded.setCoef hcoef, ?_⟩
  calc _ = planeBits s.dim s.blockStart.planes (s.blockStart.putCoeffs vs).forward.coeffs := rfl
    _ = planeBits s.dim s.blockStart.planes (fwdTransform s.dim vs) := congrArg (planeBits s.dim _) hcoeffs
    _ = _ := by rw [planes_blockStart]

/-- The planes and the floor of a block behind its header (45_block_codec R162, R166). -/
theorem BlockCoded.tail (hlen : vs.length = s.size) (hw : WroteN (headerBits s.pad) (s.blockStart.putCoeffs vs) t)
    (hcoded : ¬ (s.ty.isFloat = true ∧ s.pad.headerExponent = 0))
    (hvs : codedCoeffs s.pad = fwdTransform s.dim vs) :
    BlockCoded s (codedCoeffs s.pad) (headerBits s.pad) t.forward ∧
      EmitEnd (bodyBits s.pad ++ floorBits s.pad) t.forward
        ((encodePlanes t.forward).bind fun _ u => padStream u.cfg.minbits.toNat u) := by
  obtain ⟨h, hplanes⟩ := BlockCoded.forward hd hb hlen hw
  rw [hvs]
  refine ⟨h, ?_⟩
  have hbody : bodyBits s.pad = (planeBits t.forward.dim t.forward.planes t.forward.coeffs).take
      (t.forward.cfg.maxbits.toNat - t.forward.bits.toNat) := by
    rw [h.cfg, h.count, forward_dim, hplanes, ← hvs]
    exact bodyBits_pad hcoded
  have hend := encodeTail_end t.forward h.dir h.buffer _ hbody
  rw [h.count, h.cfg] at hend
  exact hend

/-- The floor of a block without planes (45_block_codec R165, R166). -/
theorem BlockCoded.degenerate (hw : WroteN (headerBits s.pad) (s.blockStart.putCoeffs vs) t)
    (hf : s.ty.isFloat = true) (h0 : s.pad.headerExponent = 0) :
    BlockCoded s (codedCoeffs s.pad) (headerBits s.pad) t.zeroCoeffs ∧
      EmitEnd (bodyBits s.pad ++ floorBits s.pad) t.zeroCoeffs (padStream t.cfg.minbits.toNat t.zeroCoeffs) := by
  have hfp : s.pad.ty.isFloat = true := hf
  have hcoef : t.zeroCoeffs.coef = (s.putCoeffs (codedCoeffs s.pad)).coef := by
    rw [codedCoeffs_degenerate hfp h0, hw.same]
    refine RegFile.ext_get _ _ fun j _ => ?_
    calc _ = ((s.blockStart.putCoeffs vs).putCoeffs (tab s.size fun _ => (0 : Word))).coef.get j := rfl
      _ = _ := by
        rw [State.putCoeffs_putCoeffs, State.putCoeffs_get, State.putCoeffs_get, getD_tab, ite_self, List.getD_nil,
          toContainer_zero, toContainer_zero]
        rfl
  have h : BlockCoded s _ _ t.zeroCoeffs := (BlockCoded.of_wrote hd hb hw).setCoef hcoef
  refine ⟨h, ?_⟩
  have hend := padStream_end t.cfg.minbits.toNat t.zeroCoeffs h.dir h.buffer (Nat.sub_le _ _)
  have hfloor : floorBits s.pad = List.replicate (t.zeroCoeffs.cfg.minbits.toNat - t.zeroCoeffs.bits.toNat) false := by
    rw [floorBits, bodyBits_degenerate hfp h0, h.count]
    exact congrArg (fun c : Cfg => List.replicate (c.minbits.toNat - _) false) h.cfg.symm
  rw [bodyBits_degenerate hfp h0, List.nil_append, hfloor]
  exact hend

end

/-- How far `ENCBLK` of a finite block comes (45_block_codec R175, R178): its header does not fit, and the fault is
recorded with the scaled samples in `COEF`; or its planes and its floor are left to write. -/
theorem encodeBlock_ends {s : State} (hd : s.fifo.dir = .wr) (hb : s.fifo.bufferOk) (hfin : finiteBlock s.pad) :
    (s.room < (headerBits s.pad).length ∧ ∃ t, BlockCoded s s.pad.fixedPoint [] t ∧
      encodeBlock s = .raised (t.raise .capacity (BitVec.ofNat 64 t.pos))) ∨
    ((headerBits s.pad).length ≤ s.room ∧ ∃ t, BlockCoded s (codedCoeffs s.pad) (headerBits s.pad) t ∧
      EmitEnd (bodyBits s.pad ++ floorBits s.pad) t (encodeBlock s)) := by
  cases hf : s.ty.isFloat with
  | false =>
    have hheader : headerBits s.pad = [] := headerBits_int hf
    have hw : WroteN (headerBits s.pad) (s.blockStart.putCoeffs s.pad.samples)
        (s.blockStart.putCoeffs s.pad.samples) := hheader ▸ WroteN.refl _ hd hb
    rw [encodeBlock_int hf, encodeInt_eq hf]
    exact .inr ⟨by simp [hheader], _, BlockCoded.tail hd hb s.pad.length_samples hw
      (fun h => Bool.false_ne_true (hf ▸ h.1)) (codedCoeffs_int hf)⟩
  | true =>
    have hstart : BlockCoded s s.pad.fixedPoint [] (s.blockStart.putCoeffs s.pad.fixedPoint) :=
      BlockWrote.start hd hb _ _ _
    have hheader : headerBits s.pad = bitsOf (BitVec.ofNat 64 s.pad.headerExponent) s.ty.ebits :=
      headerBits_float (s := s.pad) hf
    have hlen : (headerBits s.pad).length = s.ty.ebits := by rw [hheader, bitsOf, length_tab]
    rw [encodeBlock_float hf, encodeFloat_finite hf hfin, hlen]
    obtain ⟨hfits, t, ht, hw⟩ | ⟨hfull, ht⟩ :=
      writeHeader_end s.pad.headerExponent (s.blockStart.putCoeffs s.pad.fixedPoint) hd hb rfl
    · have hroom : s.ty.ebits ≤ s.room := Nat.le_sub_of_add_le' hfits
      have hw : WroteN (headerBits s.pad) _ t := hheader ▸ hw
      refine .inr ⟨hroom, ?_⟩
      rw [ht, Run.bind_ok]
      by_cases h0 : s.pad.headerExponent = 0
      · rw [if_pos h0]
        exact ⟨_, BlockCoded.degenerate hd hb hw hf h0⟩
      · rw [if_neg h0]
        exact ⟨_, BlockCoded.tail hd hb s.pad.length_fixedPoint hw (fun h => h0 h.2) (codedCoeffs_float hf h0)⟩
    · have hroom : s.room < s.ty.ebits := by
        have hpos := ebits_pos hf
        have hlt : s.capBits < s.pos + s.ty.ebits := hfull
        rw [State.room]
        omega
      refine .inl ⟨hroom, _, hstart, ?_⟩
      rw [ht]
      rfl

/-- `ENCBLK` of a finite block: with room for its stream it ends there; without, at the end of the capacity or at the
header that does not fit, with the fault recorded (45_block_codec R162, R175, R178). -/
theorem exec_encblk_ends {s : State} (hc : encChecksPass s) (hd : s.fifo.dir = .wr) (hb : s.fifo.bufferOk)
    (hfin : finiteBlock s.pad) {n : Nat}
    (hn : n = if s.room < (headerBits s.pad).length then 0 else min (blockBits s.pad).length s.room) :
    ∃ t, ((blockBits s.pad).length ≤ s.room → exec .encblk s = .next t) ∧
      (s.room < (blockBits s.pad).length → exec .encblk s = .next (t.raise .capacity (BitVec.ofNat 64 t.pos))) ∧
      BlockCoded s (if s.room < (headerBits s.pad).length then s.pad.fixedPoint else codedCoeffs s.pad)
        ((blockBits s.pad).take n) t := by
  have hbits := blockBits_eq s.pad
  have hlen := congrArg List.length hbits
  rw [List.length_append] at hlen
  rw [exec_encblk hc hd]
  obtain ⟨hfull, t, ht, hrun⟩ | ⟨hfits, x, hx, hend⟩ := encodeBlock_ends hd hb hfin
  · rw [if_pos hfull] at hn
    subst hn
    rw [if_pos hfull, hrun]
    exact ⟨t, fun hle => absurd hle (by omega), fun _ => rfl, ht⟩
  · rw [if_neg (Nat.not_lt.2 hfits)] at hn
    rw [if_neg (Nat.not_lt.2 hfits)]
    have hroom := hx.room
    by_cases hle : (blockBits s.pad).length ≤ s.room
    · obtain ⟨t, hrun, hw⟩ := hend.of_room (by omega)
      have htake : (blockBits s.pad).take n = headerBits s.pad ++ (bodyBits s.pad ++ floorBits s.pad) := by
        rw [hn, Nat.min_eq_left hle, List.take_length, hbits]
      rw [hrun, htake]
      exact ⟨t, fun _ => rfl, fun hlt => absurd hle (Nat.not_le.2 hlt), hx.trans hw⟩
    · obtain ⟨t, hrun, hw⟩ := hend.of_full (by omega)
      have htake : (blockBits s.pad).take n =
          headerBits s.pad ++ (bodyBits s.pad ++ floorBits s.pad).take x.room := by
        rw [hn, Nat.min_eq_right (Nat.le_of_not_le hle), hbits, hroom, List.take_length_add_append]
      rw [hrun, htake]
      exact ⟨t, fun h => absurd h hle, fun _ => rfl, hx.trans hw⟩

end Sys2Proof.Machine

namespace Sys2Proof.Proofs

open Sys2Proof Sys2Proof.Machine Sys2Proof.Claims

/-- Settles O50: the non-finite test stands before the header is written. -/
theorem encblkRejectsNonfiniteBlocks : Obligations.EncblkRejectsNonfiniteBlocks := by
  rintro s p i hc hd rfl hf hi hnon hfirst
  rw [exec_encblk hc hd, encodeBlock_nonfinite hf hi hnon hfirst]
  rfl

/-- Settles O49: header, planes and floor are written one after another as far as there is room, behind the registers
of the block. -/
theorem encblkWritesTheStreamLayout : Obligations.EncblkWritesTheStreamLayout := by
  rintro s p room n hc rfl hfin hd hb rfl hn
  obtain ⟨t, hok, hfull, h⟩ := exec_encblk_ends hc hd hb hfin hn
  have hle : n ≤ (blockBits s.pad).length := by
    rw [hn]
    split
    · exact Nat.zero_le _
    · exact Nat.min_le_left _ _
  refine ⟨t, _, hok, hfull, h.wrote.appended, h.count.trans (List.length_take_of_le hle), h.eq_setBlock, ?_, ?_,
    fun j hj => ?_, fun j hj => ?_⟩
  · rw [h.expf, s.pad.headerOf_eq]
    rfl
  · rw [h.preceff, toNat_preceff_blockStart]
  · rw [h.coef, State.putCoeffs_get, if_pos hj, s.pad.fixedSamples_eq]
    rfl
  · rw [h.coef, State.putCoeffs_get, if_neg (Nat.not_lt.2 hj)]

end Sys2Proof.Proofs
end

section
/-! PROOFS, family 45_block_codec: what a block command has moved when it ends (45_block_codec R178), and `ENCBLK`,
`FLUSH`, `SEEKR` and `DECBLK` one after another (R168, R177). -/

namespace Sys2Proof.Machine

open Sys2Proof Sys2Proof.Claims

/-! ### What a block command has moved -/

/-- Whatever `ENCBLK` ends with, what it has moved are the bits it has written (45_block_codec R178). -/
theorem exec_encblk_moved {s t : State} (hc : encChecksPass s) (hd : s.fifo.dir = .wr) (hb : s.fifo.bufferOk)
    (he : exec .encblk s = .next t) :
    t.pos = s.pos + t.bits.toNat ∧ ∀ p < s.pos, t.writtenBit p = s.writtenBit p := by
  by_cases hfin : finiteBlock s.pad
  · obtain ⟨x, hok, hfull, h⟩ := exec_encblk_ends hc hd hb hfin rfl
    have hmoved : x.pos = s.pos + x.bits.toNat ∧ ∀ p < s.pos, x.writtenBit p = s.writtenBit p :=
      ⟨h.wrote.pos.trans (congrArg _ h.count.symm), h.wrote.below⟩
    by_cases hle : (blockBits s.pad).length ≤ s.room
    · cases he.symm.trans (hok hle)
      exact hmoved
    · cases he.symm.trans (hfull (Nat.not_le.1 hle))
      exact hmoved
  · obtain ⟨hf, hnon⟩ := Classical.not_imp.1 hfin
    obtain ⟨hall, -⟩ | ⟨i, hi, hnoni, hfirst, -⟩ := needFinite_cases s.pad fun s => .ok () s
    · exact absurd hall hnon
    · cases he.symm.trans ((exec_encblk hc hd).trans
        (congrArg (fun r => Host.Outcome.next r.state) (encodeBlock_nonfinite (s := s) hf hi hnoni hfirst)))
      exact ⟨rfl, fun _ _ => rfl⟩

/-- Whatever `DECBLK` ends with, what it has moved are the bits it has read (45_block_codec R178). -/
theorem exec_decblk_moved {s t : State} (hc : decChecksPass s) (hd : s.fifo.dir = .rd) (hb : s.fifo.bufferOk)
    (hr : s.fifo.readOk) (he : exec .decblk s = .next t) :
    t.pos = s.pos + t.bits.toNat ∧ ∀ j, t.nextBit j = s.nextBit (t.bits.toNat + j) := by
  obtain ⟨hheader, hrest⟩ := Proofs.decblkDecodesOneBlock s _ _ _ hc hd hb hr rfl rfl rfl
  by_cases hroom : s.capBits - s.pos < if s.ty.isFloat then s.ty.ebits else 0
  · cases he.symm.trans (hheader hroom)
    exact ⟨rfl, fun j => (congrArg s.nextBit (Nat.zero_add j)).symm⟩
  · obtain ⟨e, prec, mag, sgn, bs, k1, k, -, -, -, -, -, -, -, -, hplanes, hfloor⟩ := hrest (Nat.not_lt.1 hroom)
    by_cases hk1 : s.capBits - s.pos < k1
    · obtain ⟨u, hu, ⟨-, -, -, -, hpos, hnext⟩, hcount, -⟩ := hplanes hk1
      cases he.symm.trans hu
      exact hcount ▸ ⟨hpos, hnext⟩
    · obtain ⟨u, hok, hfull, ⟨-, -, -, -, hpos, hnext⟩, hcount, -⟩ := hfloor (Nat.not_lt.1 hk1)
      have hmoved : u.pos = s.pos + u.bits.toNat ∧ ∀ j, u.nextBit j = s.nextBit (u.bits.toNat + j) :=
        hcount ▸ ⟨hpos, hnext⟩
      by_cases hk : k ≤ s.capBits - s.pos
      · cases he.symm.trans (hok hk)
        exact hmoved
      · cases he.symm.trans (hfull (Nat.not_le.1 hk))
        exact hmoved

/-! ### A block written and read back -/

theorem length_blockBits (s : State) :
    (blockBits s).length = max s.cfg.minbits.toNat ((headerBits s).length + (bodyBits s).length) := by
  rw [blockBits_eq, List.length_append, List.length_append, floorBits, List.length_replicate]
  omega

theorem codedPlanes_int {s : State} (hf : s.ty.isFloat = false) :
    codedPlanes s = min s.cfg.maxprec.toNat s.width := if_neg (hf ▸ Bool.false_ne_true)

theorem codedPlanes_float {s : State} (hf : s.ty.isFloat = true) : codedPlanes s = s.headerPrecision := by
  rw [codedPlanes, if_pos hf, s.headerOf_eq]

theorem codedPlanes_degenerate {s : State} (hf : s.ty.isFloat = true) (h0 : s.headerExponent = 0) :
    codedPlanes s = 0 := by
  rw [codedPlanes_float hf]
  exact if_pos (s.headerExponent_eq_zero_iff.1 h0)

/-- The header of a finite block fits its field (43_exponent_scaler R123). -/
theorem State.headerExponent_lt {s : State} (hfin : finiteBlock s) (hf : s.ty.isFloat = true) :
    s.headerExponent < 2 ^ s.ty.ebits := by
  have hraw := raw_lt s.ty
  have hblock : blockExponent s.ty s.samples < s.ty.raw := blockExponent_lt_raw hf fun b hb => by
    obtain ⟨i, hi, rfl⟩ := (s.mem_samples b).1 hb
    exact hfin hf i hi
  unfold State.headerExponent State.chosenExponent
  split_ifs <;> omega

/-- The decoder finds the plane count of the header it reads (45_block_codec R168). -/
theorem State.precision_headerExponent (s : State) (hf : s.ty.isFloat = true) :
    s.precision s.headerExponent = codedPlanes s := by
  by_cases h0 : s.headerExponent = 0
  · rw [codedPlanes_degenerate hf h0, h0, s.precision_zero hf]
  · have hdeg := s.headerExponent_eq_zero_iff.not.1 h0
    rw [codedPlanes_float hf, State.headerExponent, State.headerPrecision, if_neg hdeg, if_neg hdeg]

theorem length_codedCoeffs {s : State} (h : ¬ (s.ty.isFloat = true ∧ s.headerExponent = 0)) :
    (codedCoeffs s).length = 4 ^ s.dim := by
  cases hf : s.ty.isFloat with
  | false => rw [codedCoeffs_int hf, length_fwdTransform]
  | true => rw [codedCoeffs_float hf fun h0 => h ⟨hf, h0⟩, length_fwdTransform]

/-- Reading records no fault. -/
theorem Consumed.flt {k : Nat} {s t : State} (h : Consumed k s t) : t.flt = s.flt := by rw [h.same]; rfl

/-- `DECBLK` begins by setting `BITS` to 0 (45_block_codec R176). -/
theorem exec_decblk_setBits {s : State} (hc : decChecksPass s) (hd : s.fifo.dir = .rd) (b : BitVec 32) :
    exec .decblk (s.setBits b) = exec .decblk s := by
  rw [exec_decblk hc hd, exec_decblk (s := s.setBits b) hc hd]
  rfl

/-- With room for it, a block is decoded whole, down to its floor (45_block_codec R176). -/
theorem exec_decblk_whole {s : State} (hc : decChecksPass s) (h : s.reading) {e : BitVec 11} {prec : BitVec 7}
    {k1 : Nat} {r : Work × Nat} {body : Run Unit}
    (hbody : body = if s.ty.isFloat then decodeFloat (s.setBits 0) else decodeInt (s.setBits 0))
    (hend : BodyEnd s e prec k1 r body) {k : Nat} (hk : k = max s.cfg.minbits.toNat k1) (hroom : k ≤ s.room) :
    ∃ t, exec .decblk s = .next t ∧ InBlock s e prec k t ∧ Decoded s e r t := by
  obtain ⟨y, rfl, hy, hD⟩ := hend.of_room (by omega)
  obtain ⟨t, hok, -, ht, hDt⟩ := skipStream_decoded hy hD (by omega) hk
  refine ⟨t, ?_, Nat.min_eq_left hroom ▸ ht, hDt⟩
  rw [exec_decblk_body hc h.1 hbody, Run.bind_ok, hok hroom]
  rfl

section

variable {s q : State}

/-- `q` is a reader of `s`'s type and parameters that has the stream of `s`'s padded block before it. -/
structure ReadsBlock (s q : State) : Prop where
  cfg : q.cfg = { s.cfg with arg := q.cfg.arg }
  reading : q.reading
  room : (blockBits s.pad).length ≤ q.room
  bits : ∀ j < (blockBits s.pad).length, q.nextBit j = (blockBits s.pad).getD j false

namespace ReadsBlock

theorem ty (h : ReadsBlock s q) : q.ty = s.ty := by rw [State.ty, h.cfg, State.ty]

theorem dim (h : ReadsBlock s q) : q.dim = s.dim := by rw [State.dim, h.cfg, State.dim]

theorem width (h : ReadsBlock s q) : q.width = s.width := by rw [State.width, h.ty, State.width]

theorem size (h : ReadsBlock s q) : q.size = s.size := by rw [State.size, h.dim, State.size]

theorem decChecksPass (h : ReadsBlock s q) (hc : encChecksPass s) : Claims.decChecksPass q := by
  obtain ⟨hmin, hmax, -⟩ := hc
  unfold Claims.decChecksPass
  rw [h.ty, h.cfg]
  exact ⟨hmin, hmax⟩

theorem header_bits (h : ReadsBlock s q) {j : Nat} (hj : j < (headerBits s.pad).length) :
    q.nextBit j = (headerBits s.pad).getD j false := by
  have hbits := h.bits j
  rw [blockBits_eq, List.length_append] at hbits
  rw [hbits (by omega), List.getD_append _ _ _ _ hj]

theorem body_bits (h : ReadsBlock s q) {j : Nat} (hj : j < (bodyBits s.pad).length) :
    q.nextBit ((headerBits s.pad).length + j) = (bodyBits s.pad).getD j false := by
  have hbits := h.bits ((headerBits s.pad).length + j)
  rw [blockBits_eq, List.length_append, List.length_append] at hbits
  rw [hbits (by omega), List.getD_append_right _ _ _ _ (Nat.le_add_right _ _), Nat.add_sub_cancel_left,
    List.getD_append _ _ _ _ hj]

/-- The planes before the reader, cut by `MAXBITS` and continued with zeros (44_bitplane_coder R149). -/
theorem cutStream (h : ReadsBlock s q) (hcoded : ¬ (s.ty.isFloat = true ∧ s.pad.headerExponent = 0)) :
    CutStream (planeBits s.dim (codedPlanes s.pad) (codedCoeffs s.pad))
      (s.cfg.maxbits.toNat - (headerBits s.pad).length) (q.planesBehind (headerBits s.pad).length) := by
  have hbody := bodyBits_pad hcoded
  have hmax : q.cfg.maxbits = s.cfg.maxbits := by rw [h.cfg]
  refine ⟨fun j hj hc => ?_, fun j hj => ?_⟩
  · have hlen : j < (bodyBits s.pad).length := by
      rw [hbody, List.length_take]
      omega
    rw [State.planesBehind, hmax, decide_eq_true hc, Bool.true_and, h.body_bits hlen, hbody,
      List.getD_eq_getElem?_getD, List.getD_eq_getElem?_getD, List.getElem?_take_of_lt hc]
  · rw [State.planesBehind, hmax, decide_eq_false (Nat.not_lt.2 hj), Bool.false_and]

theorem precision (h : ReadsBlock s q) (E : Nat) : q.precision E = s.precision E := by
  unfold State.precision State.minExp
  rw [h.ty, h.dim, h.cfg]

/-- The header read is the header written (45_block_codec R168). -/
theorem header_eq (h : ReadsBlock s q) (hf : s.ty.isFloat = true) (hlt : s.pad.headerExponent < 2 ^ s.ty.ebits)
    {e : BitVec 11} (he : ∀ j < 11, e.getLsbD j = (decide (j < s.ty.ebits) && q.nextBit j)) :
    e.toNat = s.pad.headerExponent := by
  have hheader : headerBits s.pad = bitsOf (BitVec.ofNat 64 s.pad.headerExponent) s.ty.ebits :=
    headerBits_float (s := s.pad) hf
  have hebits := ebits_le s.ty
  refine Nat.eq_of_testBit_eq fun j => ?_
  by_cases hj : j < s.ty.ebits
  · have hbit := he j (by omega)
    rw [decide_eq_true hj, Bool.true_and, h.header_bits (by rwa [hheader, bitsOf, length_tab]), hheader, bitsOf,
      getD_tab, if_pos hj, BitVec.getLsbD_ofNat, decide_eq_true (by omega), Bool.true_and] at hbit
    exact hbit
  · rw [Nat.testBit_lt_two_pow (hlt.trans_le (Nat.pow_le_pow_right Nat.two_pos (Nat.not_lt.1 hj)))]
    by_cases hj' : j < 11
    · have hbit := he j hj'
      rwa [decide_eq_false hj, Bool.false_and] at hbit
    · exact Nat.testBit_lt_two_pow (e.isLt.trans_le (Nat.pow_le_pow_right Nat.two_pos (Nat.not_lt.1 hj')))

/-- The planes of the decoder take the bits of the planes before it (45_block_codec R168). -/
theorem taken (h : ReadsBlock s q) {r : Work × Nat}
    (hr : r = readBlock s.width s.dim (codedPlanes s.pad) (q.planesBehind (headerBits s.pad).length)) :
    min r.2 (s.cfg.maxbits.toNat - (headerBits s.pad).length) = (bodyBits s.pad).length := by
  by_cases hcoded : s.ty.isFloat = true ∧ s.pad.headerExponent = 0
  · have hnone : codedPlanes s.pad = 0 := codedPlanes_degenerate (s := s.pad) hcoded.1 hcoded.2
    rw [hr, hnone, bodyBits_degenerate (s := s.pad) hcoded.1 hcoded.2]
    exact Nat.zero_min _
  · have htaken := readBlock_taken (length_codedCoeffs (s := s.pad) hcoded) s.pad.codedPlanes_le (h.cutStream hcoded)
    rw [bodyBits_pad hcoded, List.length_take, Nat.min_comm (_ - _), hr]
    exact htaken

/-- `DECBLK` before the stream of a block (45_block_codec R168): it reads the whole of it, its header and its planes
those of the block. -/
theorem exec_decblk (h : ReadsBlock s q) (hc : encChecksPass s) (hfin : finiteBlock s.pad) :
    ∃ (b : State) (e : BitVec 11) (prec : BitVec 7) (r : Work × Nat), exec .decblk q = .next b ∧
      InBlock q e prec (blockBits s.pad).length b ∧ Decoded q e r b ∧
      r = readBlock s.width s.dim (codedPlanes s.pad) (q.planesBehind (headerBits s.pad).length) ∧
      (s.ty.isFloat = true → e.toNat = s.pad.headerExponent) := by
  have hlen := length_blockBits s.pad
  have hn : (headerBits s.pad).length = if q.ty.isFloat then q.ty.ebits else 0 := by
    rw [h.ty]
    exact length_headerBits s.pad
  obtain ⟨e, prec, r, hint, hfloat, hr, hend⟩ := decodeBody_end h.reading hn (by have := h.room; omega)
  rw [h.ty] at hint hfloat
  have he (hf : s.ty.isFloat = true) : e.toNat = s.pad.headerExponent :=
    h.header_eq hf (State.headerExponent_lt (s := s.pad) hfin hf) (hfloat hf).1
  have hprec : prec.toNat = codedPlanes s.pad := by
    cases hf : s.ty.isFloat with
    | false =>
      rw [(hint hf).2, h.width, h.cfg]
      exact (codedPlanes_int (s := s.pad) hf).symm
    | true =>
      rw [(hfloat hf).2, h.precision, he hf]
      exact s.pad.precision_headerExponent hf
  rw [h.width, h.dim, hprec] at hr
  rw [h.cfg, h.taken hr] at hend
  obtain ⟨b, hb, hin, hD⟩ := exec_decblk_whole (h.decChecksPass hc) h.reading rfl hend
    (hlen.trans (by rw [h.cfg]; rfl)) h.room
  exact ⟨b, e, prec, r, hb, hin, hD, hr, he⟩

end ReadsBlock

end

/-! ### The reversible setting -/

section

variable {s : State}

theorem codedPlanes_le_64 (s : State) : codedPlanes s ≤ 64 := s.codedPlanes_le.trans s.width_le

/-- The largest `MAXBITS` cuts no block (44_bitplane_coder R150). -/
theorem length_planeBits_le {N d prec : Nat} {C : List (BitVec N)} (hC : C.length = 4 ^ d) (hd : d ≤ 4)
    (hp : prec ≤ 64) : (planeBits d prec C).length ≤ 22080 := by
  have hcost : groupCost d ≤ 341 := by interval_cases d <;> decide
  have hsize : 4 ^ d ≤ 4 ^ 4 := Nat.pow_le_pow_right (by omega) hd
  calc (planeBits d prec C).length ≤ prec * groupCost d + 4 ^ d := planeBits_length d prec C hC
    _ ≤ 64 * 341 + 4 ^ 4 := Nat.add_le_add (Nat.mul_le_mul hp hcost) hsize

/-- Without a tolerance and a limit on the planes, every plane is coded (43_exponent_scaler R128). -/
theorem State.precision_reversible (hm : s.minExp = -32768) (hp : s.width ≤ s.cfg.maxprec.toNat) {E : Nat}
    (h0 : s.ty.isFloat = true → E ≠ 0) : s.precision E = s.width := by
  unfold State.precision precisionOf
  split
  · rename_i hf
    rw [if_neg (h0 hf), toleranceFloor_eq_zero (by rw [hm]; decide), Nat.sub_zero, ite_self]
    exact Nat.min_eq_right hp
  · exact Nat.min_eq_right hp

theorem codedPlanes_reversible (hm : s.minExp = -32768) (hp : s.width ≤ s.cfg.maxprec.toNat)
    (hcoded : ¬ (s.ty.isFloat = true ∧ s.headerExponent = 0)) : codedPlanes s = s.width := by
  cases hf : s.ty.isFloat with
  | false => exact (codedPlanes_int hf).trans (Nat.min_eq_right hp)
  | true =>
    rw [← s.precision_headerExponent hf]
    exact State.precision_reversible hm hp fun _ h0 => hcoded ⟨hf, h0⟩

/-- Under the reversible setting only a block of zeros is degenerate (45_block_codec R164, R165). -/
theorem State.headerExponent_reversible (hm : s.minExp = -32768) (hp : s.width ≤ s.cfg.maxprec.toNat) :
    s.headerExponent = s.chosenExponent := by
  unfold State.headerExponent
  split
  · rename_i hdeg
    refine (of_not_not fun hne => ?_ : s.chosenExponent = 0).symm
    have hprec := (s.degenerate_iff.1 hdeg).resolve_left hne
    rw [State.precision_reversible hm hp fun _ => hne] at hprec
    exact absurd hprec s.width_pos.ne'
  · rfl

/-- Under the reversible setting the scaling of a block loses nothing: one that would goes raw (45_block_codec R164). -/
theorem State.unscale_scale_reversible (hf : s.ty.isFloat = true) (hm : s.minExp = -32768) {i : Nat}
    (hi : i < s.size) : unscaleSample s.ty s.dim s.chosenExponent
      (scaleSample s.ty s.dim s.chosenExponent (sample s i)) = sample s i := by
  have hmem : sample s i ∈ s.samples := (s.mem_samples _).2 ⟨i, hi, rfl⟩
  unfold State.chosenExponent
  by_cases hraw : s.goesRaw = true
  · rw [if_pos hraw, scaleSample_raw _ _ _ hf, unscaleSample_raw _ _ _ hf]
  · rw [if_neg hraw]
    have hless : lossless s.ty s.dim s.samples (blockExponent s.ty s.samples) = true := by
      simpa [State.goesRaw, hm] using hraw
    unfold lossless at hless
    by_cases h0 : blockExponent s.ty s.samples = 0
    · rw [if_pos h0, List.all_eq_true] at hless
      rw [h0, unscaleSample_zero]
      exact (of_decide_eq_true (hless _ hmem)).symm
    · rw [if_neg h0, exactBlock, List.all_eq_true] at hless
      by_cases hE : blockExponent s.ty s.samples = s.ty.raw
      · rw [hE, scaleSample_raw _ _ _ hf, unscaleSample_raw _ _ _ hf]
      · rw [scaleSample_scaled _ _ _ h0 hE, unscaleSample_scaled _ _ _ h0 hE]
        exact of_decide_eq_true (hless _ hmem)

/-- The values whose transform `ENCBLK` codes: the samples, or the samples scaled (45_block_codec R175). -/
def State.fixedValues (s : State) : List (BitVec s.width) := if s.ty.isFloat then s.fixedPoint else s.samples

theorem State.length_fixedValues (s : State) : s.fixedValues.length = s.size := by
  unfold State.fixedValues
  split
  · exact s.length_fixedPoint
  · exact s.length_samples

theorem codedCoeffs_eq (h : ¬ (s.ty.isFloat = true ∧ s.headerExponent = 0)) :
    codedCoeffs s = fwdTransform s.dim s.fixedValues := by
  unfold State.fixedValues
  cases hf : s.ty.isFloat with
  | false => exact codedCoeffs_int hf
  | true => exact codedCoeffs_float hf fun h0 => h ⟨hf, h0⟩

/-- What `COEF` holds when a traversal's coefficients have been transformed back (45_block_codec R176). -/
theorem codedCoef_inverse_get (s : State) (r : Work × Nat) {i : Nat} (hi : i < s.size) :
    (s.setCoef (s.codedCoef r)).inverse.coef.get i =
      toContainer ((invTransform s.dim (r.1.coeffs s.width s.size)).getD i 0) := by
  have hcoeffs : (s.putCoeffs (blockCoeffs s r)).coeffs = r.1.coeffs s.width s.size :=
    s.coeffs_putCoeffs _ (length_tab _ _)
  calc _ = (s.putCoeffs (blockCoeffs s r)).inverse.coef.get i := rfl
    _ = _ := by
      rw [(s.putCoeffs (blockCoeffs s r)).inverse_get hi, hcoeffs]
      rfl

theorem State.fixedValues_get_int (hf : s.ty.isFloat = false) {i : Nat} (hi : i < s.size) :
    s.fixedValues.getD i 0 = sample s i := by
  rw [State.fixedValues, if_neg (hf ▸ Bool.false_ne_true), s.getD_samples i hi]
  rfl

theorem State.fixedValues_get_float (hf : s.ty.isFloat = true) {i : Nat} (hi : i < s.size) :
    s.fixedValues.getD i 0 = scaleSample s.ty s.dim s.chosenExponent (sample s i) := by
  rw [State.fixedValues, if_pos hf, State.fixedPoint, State.samples, RegFile.values, map_tab, getD_tab, if_pos hi]
  rfl

end

namespace ReadsBlock

variable {s q b : State} {e : BitVec 11} {prec : BitVec 7} {k : Nat} {r : Work × Nat}

/-- With nothing cut the coefficients come back, and their transform with them (45_block_codec R168). -/
theorem coef_get (h : ReadsBlock s q) (hcoded : ¬ (s.ty.isFloat = true ∧ s.pad.headerExponent = 0))
    (hall : codedPlanes s.pad = s.width) (hmax : s.cfg.maxbits = 65535)
    (hr : r = readBlock s.width s.dim (codedPlanes s.pad) (q.planesBehind (headerBits s.pad).length))
    (hb : b.coef = (q.setCoef (q.codedCoef r)).inverse.coef) {i : Nat} (hi : i < s.size) :
    b.coef.get i = toContainer (s.pad.fixedValues.getD i 0) := by
  have hlen := length_codedCoeffs (s := s.pad) hcoded
  have hheader : (headerBits s.pad).length ≤ 11 := by
    rw [length_headerBits]
    split
    · exact ebits_le _
    · exact Nat.zero_le _
  have hfits : (planeBits s.dim (codedPlanes s.pad) (codedCoeffs s.pad)).length ≤
      s.cfg.maxbits.toNat - (headerBits s.pad).length := by
    have hcost := length_planeBits_le hlen s.pad.dim_le (codedPlanes_le_64 s.pad)
    have hnat : s.cfg.maxbits.toNat = 65535 := by rw [hmax]; rfl
    exact hcost.trans (by omega)
  have hexact : r.1.coeffs s.width s.size = codedCoeffs s.pad := by
    rw [hr]
    exact readBlock_exact hlen s.pad.codedPlanes_le (h.cutStream hcoded) hall hfits
  rw [hb, codedCoef_inverse_get q r (by rwa [h.size]), h.width, h.dim, h.size, hexact,
    codedCoeffs_eq (s := s.pad) hcoded]
  exact congrArg (fun l => toContainer (l.getD i 0))
    (invTransform_fwdTransform s.dim _ s.dim_pos s.dim_le s.pad.length_fixedValues)

/-- Under the reversible setting the padded block comes back (45_block_codec R177). -/
theorem blk_get (h : ReadsBlock s q) (hin : InBlock q e prec k b) (hD : Decoded q e r b)
    (hr : r = readBlock s.width s.dim (codedPlanes s.pad) (q.planesBehind (headerBits s.pad).length))
    (he : s.ty.isFloat = true → e.toNat = s.pad.headerExponent) (hm : s.minExp = -32768)
    (hp : s.width ≤ s.cfg.maxprec.toNat) (hmax : s.cfg.maxbits = 65535) {i : Nat} (hi : i < s.size) :
    b.blk.get i = toContainer (sample s.pad i) := by
  have hiq : i < q.size := by rwa [h.size]
  have hE : s.pad.headerExponent = s.pad.chosenExponent := State.headerExponent_reversible (s := s.pad) hm hp
  have hback (hf : s.ty.isFloat = true) := State.unscale_scale_reversible (s := s.pad) hf hm hi
  rw [← hE] at hback
  by_cases hzero : s.ty.isFloat = true ∧ s.pad.headerExponent = 0
  · obtain ⟨hf, h0⟩ := hzero
    have he0 : e = 0 := BitVec.eq_of_toNat_eq ((he hf).trans h0)
    have hsample := hback hf
    rw [h0, unscaleSample_zero] at hsample
    rw [(hD.zero (h.ty ▸ hf) he0 i hiq).2, ← hsample, toContainer_zero]
  · have hcodedq : ¬ (q.ty.isFloat = true ∧ e = 0) := fun hq =>
      hzero ⟨h.ty ▸ hq.1, by rw [← he (h.ty ▸ hq.1), hq.2]; rfl⟩
    have hall : codedPlanes s.pad = s.width := codedPlanes_reversible (s := s.pad) hm hp hzero
    have hcoef := h.coef_get hzero hall hmax hr (hD.coef hcodedq) hi
    have hvalue : fromContainer s.width (b.coef.get i) = s.pad.fixedValues.getD i 0 := by
      rw [hcoef]
      exact fromContainer_toContainer _ s.pad.width_le
    rw [hD.blk hcodedq i hiq, coefficient, hin.width, h.width, h.ty, h.dim, hvalue]
    cases hf : s.ty.isFloat with
    | false =>
      rw [if_pos (.inl rfl), State.fixedValues_get_int (s := s.pad) hf hi]
      rfl
    | true =>
      have h0 : s.pad.headerExponent ≠ 0 := fun h0 => hzero ⟨hf, h0⟩
      rw [he hf, State.fixedValues_get_float (s := s.pad) hf hi, ← hE]
      refine Eq.trans ?_ (congrArg toContainer (hback hf))
      by_cases hraw : s.pad.headerExponent = s.ty.raw
      · rw [if_pos (.inr hraw), hraw]
        exact congrArg toContainer (unscaleSample_raw _ _ _ hf).symm
      · rw [if_neg (by simp [hraw])]
        exact congrArg toContainer (unscaleSample_scaled _ _ _ h0 hraw).symm

end ReadsBlock

/-- `FLUSH` and `SEEKR` behind `ENCBLK` place a reader before the block (45_block_codec R168). -/
theorem BlockCoded.exec_reread {s t : State} {N : Nat} {vs : List (BitVec N)} (h : BlockCoded s vs (blockBits s.pad) t)
    (hc : s.pos + (blockBits s.pad).length ≤ s.capBits) : ∃ u r q, exec .flush t = .next u ∧
      exec .seekr (withArg u (BitVec.ofNat 64 s.pos)) = .next r ∧ q = r.setBits s.bits ∧ ReadsBlock s q ∧
      q.pos = s.pos ∧ q.flt = s.flt := by
  have hw := h.wrote.setBlock t.blk t.coef t.expf t.preceff
  obtain ⟨u, r, f, v, hu, hr, hq, ⟨hdir, hbuffer, hread, hroom⟩, hpos, hbits⟩ := Wrote.exec_reread hw hc
  exact ⟨u, r, _, hu, hr, hq.symm, ⟨rfl, ⟨hdir, hbuffer, hread⟩, Nat.le_sub_of_add_le' hroom, hbits⟩, hpos,
    rfl⟩

end Sys2Proof.Machine

namespace Sys2Proof.Proofs

open Sys2Proof Sys2Proof.Machine Sys2Proof.Claims

/-- Settles O53: every end of a block command stands behind the bits it counts. -/
theorem bitsCountsWhatABlockCommandMoved : Obligations.BitsCountsWhatABlockCommandMoved :=
  ⟨fun _ _ => exec_encblk_moved, fun _ _ => exec_decblk_moved⟩

/-- Settles O52: the reader finds the header and the planes that were written, so it takes the same bits, and where
every plane was written and the scaling loses nothing it gets back the samples. -/
theorem decblkReadsBackWhatEncblkWrote : Obligations.DecblkReadsBackWhatEncblkWrote := by
  rintro s p hc rfl hfin ⟨hd, hb, hroom⟩
  have hfits : (blockBits s.pad).length ≤ s.room := Nat.le_sub_of_add_le' hroom
  have hprefix : headerBits s.pad <+: blockBits s.pad := blockBits_eq s.pad ▸ List.prefix_append _ _
  have hheader : (headerBits s.pad).length ≤ s.room := hprefix.length_le.trans hfits
  obtain ⟨t, hok, -, ht⟩ := exec_encblk_ends hc hd hb hfin rfl
  rw [if_neg (Nat.not_lt.2 hheader), if_neg (Nat.not_lt.2 hheader), Nat.min_eq_left hfits, List.take_length] at ht
  obtain ⟨u, r, q, hu, hr, hq, hreads, hpos, hflt⟩ := ht.exec_reread hroom
  obtain ⟨b, e, prec, w, hdec, hin, hD, hw, he⟩ := hreads.exec_decblk hc hfin
  have hrun : exec .decblk r = .next b := by
    subst hq
    exact (exec_decblk_setBits (s := r) (hreads.decChecksPass hc) hreads.reading.1 s.bits).symm.trans hdec
  have hpost : t.pos = s.pos + (blockBits s.pad).length := ht.wrote.pos
  have hposb : b.pos = q.pos + (blockBits s.pad).length := hin.consumed.pos
  have hfltb : b.flt = q.flt := hin.consumed.flt
  exact ⟨t, u, r, b, hok hfits, hu, hr, hrun, BitVec.eq_of_toNat_eq (hin.count.trans ht.count.symm),
    by rw [hposb, hpos, hpost], hfltb.trans hflt, fun hmin hprec hmax i hi =>
      hreads.blk_get hin hD hw he (by rw [State.minExp, hmin]; rfl) hprec hmax hi⟩

end Sys2Proof.Proofs
end

section
/-! PROOFS, family 60_exceptions: what recording a fault sets (60_exceptions R180, R183); an idle machine (R195); and
the fault record, which no command reads (R181, R184, R185). The runs of a command from every fault record are followed
at once, piece by piece: a piece goes on with one value in one state but for the record, or records one and the same
fault. -/

namespace Sys2Proof.Machine

open Sys2Proof Sys2Proof.Claims

/-! ### Recording a fault -/

theorem flagBit_eq_bit (f : HwFault) : flagBit f = f.bit := by cases f <;> rfl

theorem HwFault.bit_lt (f : HwFault) : f.bit < 5 := by cases f <;> decide

/-- The flags after a fault (60_exceptions R180, R183). -/
theorem raise_getLsbD (s : State) (f : HwFault) (info : Word) (k : Nat) :
    (s.raise f info).flt.flags.getLsbD k = (decide (k = flagBit f) || s.flt.flags.getLsbD k) := by
  rw [raise_flt, BitVec.getLsbD_or, ← BitVec.twoPow_eq, BitVec.getLsbD_twoPow, flagBit_eq_bit, Bool.or_comm]
  simp [f.bit_lt, eq_comm]

theorem raise_cause_toNat (s : State) (f : HwFault) (info : Word) :
    (s.raise f info).flt.cause.toNat = flagBit f + 1 := by
  cases f <;> rfl

/-- A flag once set stays set (60_exceptions R185). -/
theorem recorded_keeps_flag (s : State) (o : Option (HwFault × Word)) {f : FaultRec} {k : Nat}
    (h : f.flags.getLsbD k = true) : (recorded s o f).flags.getLsbD k = true := by
  cases o with
  | none => exact h
  | some e => rw [recorded, raise_getLsbD, setFlt_flt, h, Bool.or_true]

/-! ### Runs from every fault record -/

/-- A piece of command `i`, run from every fault record: it goes on with one value in one state but for the record, or
records one and the same fault, of a kind the command can raise. At either end `RES` holds `v`. -/
def RunOblivious {α : Type} (i : Instr) (v : Word) (r : FaultRec → Run α) : Prop :=
  (∃ (a : α) (t : State), (∀ f, r f = .ok a (t.setFlt f)) ∧ t.res = v) ∨
    ∃ (t : State) (fault : HwFault) (info : Word),
      (∀ f, r f = .raised ((t.setFlt f).raise fault info)) ∧ mayRaise i fault ∧ t.res = v

/-- A piece of the coder's traversal, run from every fault record (44_bitplane_coder R144). -/
def FlowOblivious {α : Type} (i : Instr) (v : Word) (r : FaultRec → Flow α) : Prop :=
  (∃ (a : α) (t : State), (∀ f, r f = .go a (t.setFlt f)) ∧ t.res = v) ∨
  (∃ (a : α) (t : State), (∀ f, r f = .stop a (t.setFlt f)) ∧ t.res = v) ∨
    ∃ (t : State) (fault : HwFault) (info : Word),
      (∀ f, r f = .raised ((t.setFlt f).raise fault info)) ∧ mayRaise i fault ∧ t.res = v

/-- The two faults of `write_bits` and `read_bits` are among those the command can raise (60_exceptions R181). -/
def MovesBits (i : Instr) : Prop := mayRaise i .dirErr ∧ mayRaise i .capacity

theorem movesBits_of_side {i : Instr} (h : (isWriteSide i || isReadSide i) = true) : MovesBits i := by
  cases i <;> simp_all [MovesBits, mayRaise, isWriteSide, isReadSide]

/-- A test that does not look at the fault record has one answer for every record. -/
theorem everyRecord_ite {α : Type} {P : (FaultRec → α) → Prop} {c : Prop} {d : FaultRec → Decidable c}
    {x y : FaultRec → α} (hx : c → P x) (hy : ¬ c → P y) : P fun f => @ite _ c (d f) (x f) (y f) := by
  by_cases hc : c
  · simp only [if_pos hc]
    exact hx hc
  · simp only [if_neg hc]
    exact hy hc

namespace RunOblivious

variable {α β : Type} {i : Instr} {v : Word} {s : State}

theorem ok (h : s.res = v) (a : α) : RunOblivious i v fun f => .ok a (s.setFlt f) := .inl ⟨a, s, fun _ => rfl, h⟩

theorem raised (h : s.res = v) {fault : HwFault} (hi : mayRaise i fault) (info : Word) :
    RunOblivious (α := α) i v fun f => .raised ((s.setFlt f).raise fault info) :=
  .inr ⟨s, fault, info, fun _ => rfl, hi, h⟩

theorem bind {r : FaultRec → Run α} {g : α → State → Run β} (h : RunOblivious i v r)
    (hg : ∀ (a : α) (t : State), t.res = v → RunOblivious i v fun f => g a (t.setFlt f)) :
    RunOblivious i v fun f => (r f).bind g := by
  obtain ⟨a, t, e, ht⟩ | ⟨t, fault, info, e, hi, ht⟩ := h
  · simp only [e]
    exact hg a t ht
  · simp only [e]
    exact raised ht hi info

end RunOblivious

namespace FlowOblivious

variable {α : Type} {i : Instr} {v : Word} {s : State}

theorem go (h : s.res = v) (a : α) : FlowOblivious i v fun f => .go a (s.setFlt f) := .inl ⟨a, s, fun _ => rfl, h⟩

theorem stop (h : s.res = v) (a : α) : FlowOblivious i v fun f => .stop a (s.setFlt f) :=
  .inr (.inl ⟨a, s, fun _ => rfl, h⟩)

theorem raised (h : s.res = v) {fault : HwFault} (hi : mayRaise i fault) (info : Word) :
    FlowOblivious (α := α) i v fun f => .raised ((s.setFlt f).raise fault info) :=
  .inr (.inr ⟨s, fault, info, fun _ => rfl, hi, h⟩)

theorem andThen {r : FaultRec → Flow α} {g : α → State → Flow α} (h : FlowOblivious i v r)
    (hg : ∀ (a : α) (t : State), t.res = v → FlowOblivious i v fun f => g a (t.setFlt f)) :
    FlowOblivious i v fun f => (r f).andThen g := by
  obtain ⟨a, t, e, ht⟩ | ⟨a, t, e, ht⟩ | ⟨t, fault, info, e, hi, ht⟩ := h
  · simp only [e]
    exact hg a t ht
  · simp only [e]
    exact stop ht a
  · simp only [e]
    exact raised ht hi info

theorem toRun {r : FaultRec → Flow α} (h : FlowOblivious i v r) : RunOblivious i v fun f => (r f).toRun := by
  obtain ⟨a, t, e, ht⟩ | ⟨a, t, e, ht⟩ | ⟨t, fault, info, e, hi, ht⟩ := h
  · simp only [e]
    exact .ok ht a
  · simp only [e]
    exact .ok ht a
  · simp only [e]
    exact .raised ht hi info

end FlowOblivious

section

variable {i : Instr} {v : Word} {s : State}

/-! ### Writing -/

theorem State.pushBits_setFlt (s : State) (w : Word) (k : Nat) (f : FaultRec) :
    (s.setFlt f).pushBits w k = (s.pushBits w k).setFlt f := by
  rcases Nat.lt_or_ge (s.fifo.nb.toNat + k) 64 with h | h
  · rw [s.pushBits_of_pending w k h, (s.setFlt f).pushBits_of_pending w k h]
    rfl
  · rw [s.pushBits_of_word w k h, (s.setFlt f).pushBits_of_word w k h]
    rfl

theorem State.pushBits_res (s : State) (w : Word) (k : Nat) : (s.pushBits w k).res = s.res := by
  rw [State.pushBits_eq]
  rfl

theorem writeBits_oblivious (hi : MovesBits i) (w : Word) (k : Nat) (h : s.res = v) :
    RunOblivious i v fun f => writeBits w k (s.setFlt f) := by
  obtain ⟨hdirErr, hcapacity⟩ := hi
  by_cases hd : s.fifo.dir = .wr
  · rcases Nat.lt_or_ge s.capBits (s.pos + k) with hc | hc
    · exact Or.inr ⟨s, .capacity, BitVec.ofNat 64 s.pos, fun f => writeBits_capacity w k (s.setFlt f) hd hc,
        hcapacity, h⟩
    · have e (f : FaultRec) : writeBits w k (s.setFlt f) = .ok () ((s.pushBits w k).setFlt f) := by
        rw [writeBits_ok w k (s.setFlt f) hd hc, s.pushBits_setFlt]
      exact Or.inl ⟨(), s.pushBits w k, e, (s.pushBits_res w k).trans h⟩
  · exact Or.inr ⟨s, .dirErr, 0, fun f => writeBits_dirErr w k (s.setFlt f) hd, hdirErr, h⟩

theorem writeCounted_oblivious (hi : MovesBits i) (b : Bool) (h : s.res = v) :
    RunOblivious i v fun f => writeCounted b (s.setFlt f) :=
  (writeBits_oblivious hi _ 1 h).bind fun _ t ht => .ok (s := t.setBits (t.bits + 1)) ht ()

theorem writeHeader_oblivious (hi : MovesBits i) (E : Nat) (h : s.res = v) :
    RunOblivious i v fun f => writeHeader E (s.setFlt f) := by
  simp only [writeHeader, setFlt_ty]
  exact (writeBits_oblivious hi _ _ h).bind fun _ t ht =>
    .ok (s := t.setBits (t.bits + BitVec.ofNat 32 s.ty.ebits)) ht ()

theorem emitAll_oblivious (hi : MovesBits i) (bs : List Bool) {s : State} (h : s.res = v) :
    FlowOblivious i v fun f => emitAll bs (s.setFlt f) := by
  induction bs generalizing s with
  | nil => exact .go h ()
  | cons b bs ih =>
    simp only [emitAll, setFlt_cfg, setFlt_bits]
    refine everyRecord_ite (fun _ => ?_) fun _ => ?_
    · exact .stop h ()
    · obtain ⟨_, t, e, ht⟩ | ⟨t, fault, info, e, hf, ht⟩ := writeCounted_oblivious hi b h
      · simp only [e]
        exact ih ht
      · simp only [e]
        exact .raised ht hf info

theorem encodePlanes_oblivious (hi : MovesBits i) (h : s.res = v) :
    RunOblivious i v fun f => encodePlanes (s.setFlt f) :=
  (emitAll_oblivious hi (planeBits s.dim s.planes s.coeffs) h).toRun

theorem padStream_oblivious (hi : MovesBits i) (fuel : Nat) {s : State} (h : s.res = v) :
    RunOblivious i v fun f => padStream fuel (s.setFlt f) := by
  induction fuel generalizing s with
  | zero => exact .ok h ()
  | succ fuel ih =>
    simp only [padStream, setFlt_cfg, setFlt_bits]
    refine everyRecord_ite (fun _ => ?_) fun _ => ?_
    · exact (writeCounted_oblivious hi false h).bind fun _ _ ht => ih ht
    · exact .ok h ()

/-! ### Reading -/

theorem State.pullBits_setFlt (s : State) (k : Nat) (f : FaultRec) :
    (s.setFlt f).pullBits k = (s.pullBits k).setFlt f := by
  rcases Nat.lt_or_ge s.fifo.nb.toNat k with h | h
  · rw [s.pullBits_of_word k h, (s.setFlt f).pullBits_of_word k h]
    rfl
  · rw [s.pullBits_of_held k h, (s.setFlt f).pullBits_of_held k h]
    rfl

theorem State.pullBits_res (s : State) (k : Nat) : (s.pullBits k).res = s.res := by
  unfold State.pullBits
  split <;> rfl

theorem readBits_oblivious (hi : MovesBits i) (k : Nat) (h : s.res = v) :
    RunOblivious i v fun f => readBits k (s.setFlt f) := by
  obtain ⟨hdirErr, hcapacity⟩ := hi
  by_cases hd : s.fifo.dir = .rd
  · rcases Nat.lt_or_ge s.capBits (s.pos + k) with hc | hc
    · exact Or.inr ⟨s, .capacity, BitVec.ofNat 64 s.pos, fun f => readBits_capacity k (s.setFlt f) hd hc,
        hcapacity, h⟩
    · have e (f : FaultRec) : readBits k (s.setFlt f) = .ok (s.pullValue k) ((s.pullBits k).setFlt f) := by
        rw [readBits_ok k (s.setFlt f) hd hc, s.pullBits_setFlt]
        rfl
      exact Or.inl ⟨s.pullValue k, s.pullBits k, e, (s.pullBits_res k).trans h⟩
  · exact Or.inr ⟨s, .dirErr, 0, fun f => readBits_dirErr k (s.setFlt f) hd, hdirErr, h⟩

theorem readCounted_oblivious (hi : MovesBits i) (h : s.res = v) :
    RunOblivious i v fun f => readCounted (s.setFlt f) :=
  (readBits_oblivious hi 1 h).bind fun _ t ht => .ok (s := t.setBits (t.bits + 1)) ht _

theorem readHeader_oblivious (hi : MovesBits i) (h : s.res = v) :
    RunOblivious i v fun f => readHeader (s.setFlt f) := by
  simp only [readHeader, setFlt_ty]
  exact (readBits_oblivious hi _ h).bind fun w t ht =>
    .ok (s := t.setBits (t.bits + BitVec.ofNat 32 s.ty.ebits)) ht w

theorem skipStream_oblivious (hi : MovesBits i) (fuel : Nat) {s : State} (h : s.res = v) :
    RunOblivious i v fun f => skipStream fuel (s.setFlt f) := by
  induction fuel generalizing s with
  | zero => exact .ok h ()
  | succ fuel ih =>
    simp only [skipStream, setFlt_cfg, setFlt_bits]
    refine everyRecord_ite (fun _ => ?_) fun _ => ?_
    · exact (readCounted_oblivious hi h).bind fun _ _ ht => ih ht
    · exact .ok h ()

/-! ### The decoder's traversal -/

theorem takeBit_oblivious (hi : MovesBits i) (h : s.res = v) :
    FlowOblivious i v fun f => takeBit (s.setFlt f) := by
  simp only [takeBit, setFlt_cfg, setFlt_bits]
  refine everyRecord_ite (fun _ => ?_) fun _ => ?_
  · exact .stop h false
  · obtain ⟨b, t, e, ht⟩ | ⟨t, fault, info, e, hf, ht⟩ := readCounted_oblivious hi h
    · simp only [e]
      exact .go ht b
    · simp only [e]
      exact .raised ht hf info

theorem decLeaf_oblivious (hi : MovesBits i) (k lo : Nat) (w : Work) (h : s.res = v) :
    FlowOblivious i v fun f => decLeaf k lo w (s.setFlt f) := by
  unfold decLeaf
  obtain ⟨b, t, e, ht⟩ | ⟨b, t, e, ht⟩ | ⟨t, fault, info, e, hf, ht⟩ := takeBit_oblivious hi h
  · simp only [e]
    refine everyRecord_ite (fun _ => ?_) fun _ => ?_
    · obtain ⟨c, u, e, hu⟩ | ⟨c, u, e, hu⟩ | ⟨u, fault, info, e, hf, hu⟩ := takeBit_oblivious hi ht
      · simp only [e]
        exact .go hu _
      · simp only [e]
        exact .stop hu _
      · simp only [e]
        exact .raised hu hf info
    · exact .go ht _
  · simp only [e]
    exact .stop ht w
  · simp only [e]
    exact .raised ht hf info

theorem decGroup_oblivious (hi : MovesBits i) (k depth lo : Nat) (w : Work) {s : State} (h : s.res = v) :
    FlowOblivious i v fun f => decGroup k depth lo w (s.setFlt f) := by
  induction depth generalizing lo w s with
  | zero => exact decLeaf_oblivious hi k lo w h
  | succ depth ih =>
    unfold decGroup
    obtain ⟨b, t, e, ht⟩ | ⟨b, t, e, ht⟩ | ⟨t, fault, info, e, hf, ht⟩ := takeBit_oblivious hi h
    · simp only [e]
      refine everyRecord_ite (fun _ => ?_) fun _ => ?_
      · exact (((ih lo w ht).andThen fun w _ ht => ih _ w ht).andThen fun w _ ht => ih _ w ht).andThen
          fun w _ ht => ih _ w ht
      · exact .go ht w
    · simp only [e]
      exact .stop ht w
    · simp only [e]
      exact .raised ht hf info

theorem decPlanes_oblivious (hi : MovesBits i) (d : Nat) (ks : List Nat) (w : Work) {s : State} (h : s.res = v) :
    FlowOblivious i v fun f => decPlanes d ks w (s.setFlt f) := by
  induction ks generalizing w s with
  | nil => exact .go h w
  | cons k ks ih => exact (decGroup_oblivious hi k d 0 w h).andThen fun w _ ht => ih w ht

theorem decodePlanes_oblivious (hi : MovesBits i) (h : s.res = v) :
    RunOblivious i v fun f => decodePlanes (s.setFlt f) := by
  simp only [decodePlanes, setFlt_dim, setFlt_width, setFlt_planes, setFlt_size]
  exact (decPlanes_oblivious hi _ _ _ h).toRun.bind fun w t ht =>
    .ok (s := t.putCoeffs (w.coeffs s.width s.size)) ht ()

/-! ### Checks -/

theorem needFloat_oblivious {g : State → Run Unit} (h : s.res = v) (hi : mayRaise i .badParam)
    (hg : RunOblivious i v fun f => g (s.setFlt f)) : RunOblivious i v fun f => needFloat (s.setFlt f) g := by
  simp only [needFloat, setFlt_ty]
  refine everyRecord_ite (fun _ => ?_) fun _ => ?_
  · exact hg
  · exact .raised h hi 3

theorem needFinite_oblivious {g : State → Run Unit} (h : s.res = v) (hi : mayRaise i .nonfinite)
    (hg : RunOblivious i v fun f => g (s.setFlt f)) : RunOblivious i v fun f => needFinite (s.setFlt f) g := by
  have htest (f : FaultRec) : firstNonfinite (s.setFlt f).ty (s.setFlt f).samples = firstNonfinite s.ty s.samples := rfl
  simp only [needFinite, htest]
  cases firstNonfinite s.ty s.samples with
  | none => exact hg
  | some j => exact .raised h hi _

/-! ### The block commands -/

theorem encodeFloat_oblivious (h : s.res = v) : RunOblivious .encblk v fun f => encodeFloat (s.setFlt f) := by
  have hhead (f : FaultRec) : (s.setFlt f).headerExponent = s.headerExponent := rfl
  refine needFinite_oblivious h HwFault.noConfusion ?_
  simp only [hhead]
  refine (writeHeader_oblivious (s := s.prepareFloat) (movesBits_of_side rfl) _ h).bind fun _ t ht => ?_
  refine everyRecord_ite (fun _ => ?_) fun _ => ?_
  · exact .ok (s := t.zeroCoeffs) ht ()
  · exact encodePlanes_oblivious (s := t.forward) (movesBits_of_side rfl) ht

theorem encodeInt_oblivious (h : s.res = v) : RunOblivious .encblk v fun f => encodeInt (s.setFlt f) := by
  have hready (f : FaultRec) (p : BitVec 7) :
      ((s.setFlt f).blkToCoef.setPreceff p).forward = (s.blkToCoef.setPreceff p).forward.setFlt f := rfl
  simp only [encodeInt, setFlt_cfg, setFlt_width, hready]
  exact encodePlanes_oblivious (movesBits_of_side rfl) h

theorem encodeBlock_oblivious (h : s.res = v) : RunOblivious .encblk v fun f => encodeBlock (s.setFlt f) := by
  have hstart (f : FaultRec) : ((s.setFlt f).setBits 0).pad = (s.setBits 0).pad.setFlt f := rfl
  simp only [encodeBlock, hstart, setFlt_ty]
  refine RunOblivious.bind ?_ fun _ t ht => padStream_oblivious (movesBits_of_side rfl) t.cfg.minbits.toNat ht
  refine everyRecord_ite (fun _ => ?_) fun _ => ?_
  · exact encodeFloat_oblivious (s := (s.setBits 0).pad) h
  · exact encodeInt_oblivious (s := (s.setBits 0).pad) h

theorem decodeCoeffs_oblivious (h : s.res = v) : RunOblivious .decblk v fun f => decodeCoeffs (s.setFlt f) :=
  (decodePlanes_oblivious (movesBits_of_side rfl) h).bind fun _ t ht => .ok (s := t.inverse) ht ()

theorem zeroBlock_oblivious (h : s.res = v) : RunOblivious i v fun f => .ok () (s.setFlt f).zeroBlock :=
  .ok (s := s.zeroBlock) h ()

theorem decodeFloat_oblivious (h : s.res = v) : RunOblivious .decblk v fun f => decodeFloat (s.setFlt f) := by
  refine (readHeader_oblivious (movesBits_of_side rfl) h).bind fun w t ht => ?_
  have hset (f : FaultRec) (E : BitVec 11) (p : BitVec 7) :
      ((t.setFlt f).setExpf E).setPreceff p = ((t.setExpf E).setPreceff p).setFlt f := rfl
  have hres (E : BitVec 11) (p : BitVec 7) : ((t.setExpf E).setPreceff p).res = v := ht
  simp only [setFlt_precision, hset]
  refine everyRecord_ite (fun _ => ?_) fun _ => ?_
  · exact zeroBlock_oblivious (hres _ _)
  · exact (decodeCoeffs_oblivious (hres _ _)).bind fun _ u hu => .ok (s := u.unscale) hu ()

theorem decodeInt_oblivious (h : s.res = v) : RunOblivious .decblk v fun f => decodeInt (s.setFlt f) :=
  (decodeCoeffs_oblivious (s := s.setPreceff (BitVec.ofNat 7 (min s.cfg.maxprec.toNat s.width))) h).bind
    fun _ t ht => .ok (s := t.coefToBlk) ht ()

theorem decodeBlock_oblivious (h : s.res = v) : RunOblivious .decblk v fun f => decodeBlock (s.setFlt f) := by
  have hstart (f : FaultRec) : (s.setFlt f).setBits 0 = (s.setBits 0).setFlt f := rfl
  simp only [decodeBlock, hstart, setFlt_ty]
  refine RunOblivious.bind ?_ fun _ t ht => skipStream_oblivious (movesBits_of_side rfl) t.cfg.minbits.toNat ht
  refine everyRecord_ite (fun _ => ?_) fun _ => ?_
  · exact decodeFloat_oblivious (s := s.setBits 0) h
  · exact decodeInt_oblivious (s := s.setBits 0) h

end

/-! ### Every command -/

/-- A command executed in `s` with every fault record: one next state but for the record, to which it does the same,
nothing or one fault of a kind it can raise, and with a fault `RES` is as it was in `s`. -/
def NextOblivious (i : Instr) (s : State) (x : FaultRec → Host.Outcome State Fault Refusal) : Prop :=
  ∃ (t : State) (o : Option (HwFault × Word)), (∀ f, x f = .next (t.setFlt (recorded s o f))) ∧
    ∀ fault info, o = some (fault, info) → mayRaise i fault ∧ t.res = s.res

namespace NextOblivious

variable {i : Instr} {s : State} {x : FaultRec → Host.Outcome State Fault Refusal}

theorem next (t : State) (e : ∀ f, x f = .next (t.setFlt f)) : NextOblivious i s x := ⟨t, none, e, nofun⟩

theorem raise {t : State} (h : t.res = s.res) {fault : HwFault} (hi : mayRaise i fault) (info : Word)
    (e : ∀ f, x f = .next ((t.setFlt f).raise fault info)) : NextOblivious i s x :=
  ⟨t, some (fault, info), e, fun _ _ hsome => by cases hsome; exact ⟨hi, h⟩⟩

theorem of_run {α : Type} {r : FaultRec → Run α} (e : ∀ f, x f = (r f).toOutcome) (h : RunOblivious i s.res r) :
    NextOblivious i s x := by
  obtain ⟨a, t, er, -⟩ | ⟨t, fault, info, er, hi, ht⟩ := h
  · exact next t fun f => by rw [e, er]; rfl
  · exact raise ht hi info fun f => by rw [e, er]; rfl

/-- A read that stores its value: after a fault there is none to store (41_bitstream_fifo R89, R90). -/
theorem of_storeRes {r : FaultRec → Run Word} (e : ∀ f, x f = (storeRes (r f)).toOutcome)
    (h : RunOblivious i s.res r) : NextOblivious i s x := by
  obtain ⟨a, t, er, -⟩ | ⟨t, fault, info, er, hi, ht⟩ := h
  · exact next (t.setRes a) fun f => by rw [e, er]; rfl
  · exact raise ht hi info fun f => by rw [e, er]; rfl

end NextOblivious

/-- `FLUSH` stores `RES` only where it raises nothing (41_bitstream_fifo R85). -/
theorem exec_flush_oblivious (s : State) : NextOblivious .flush s fun f => exec .flush (s.setFlt f) := by
  cases hd : s.fifo.dir with
  | rd => exact .next (flushRd s) fun f => by rw [exec, execFlush, setFlt_fifo, hd]; rfl
  | wr =>
    by_cases hn : s.fifo.nb = 0
    · exact .next (s.setRes 0) fun f => exec_flush_aligned (s.setFlt f) hd hn
    · rcases Nat.lt_or_ge s.fifo.ptr.toNat s.cfg.capw.toNat with hc | hc
      · exact .next (((s.setMem (s.mem.writeWord s.fifo.ptr.toNat s.fifo.buf)).setRes
          (BitVec.ofNat 64 (64 - s.fifo.nb.toNat))).setFifo ⟨.wr, s.fifo.ptr + 1, 0, 0⟩)
          fun f => exec_flush_stores (s.setFlt f) hd hn hc
      · exact .raise (t := s) (fault := .capacity) rfl rfl (BitVec.ofNat 64 s.pos) fun f =>
          exec_flush_capacity (s.setFlt f) hd hn hc

/-- `SEEKW` reads the capacity, `ARG`, the unit and `MEM` (41_bitstream_fifo R88). -/
theorem exec_seekw_oblivious (s : State) : NextOblivious .seekw s fun f => exec .seekw (s.setFlt f) := by
  have hroll (f : FaultRec) (p : Nat) : (s.setFlt f).rollsBack p = s.rollsBack p := rfl
  simp only [exec, execSeekw, setFlt_capBits, setFlt_cfg, setFlt_mem, setFlt_fifo, hroll]
  refine everyRecord_ite (fun _ => ?_) fun _ => everyRecord_ite (fun _ => ?_) fun _ => ?_
  · exact .raise (t := s) (fault := .capacity) rfl rfl s.cfg.arg fun _ => rfl
  · exact .next (s.setFifo { s.fifo with
      buf := BitVec.ofNat 64 (s.fifo.buf.toNat % 2 ^ (s.cfg.arg.toNat % 64))
      nb := BitVec.ofNat 7 (s.cfg.arg.toNat % 64) }) fun _ => rfl
  · exact .next (s.setFifo (seekWriteFifo s.mem s.cfg.arg.toNat)) fun _ => rfl

/-- `ENCBLK` makes its checks in one order whatever has been recorded (45_block_codec R163). -/
theorem exec_encblk_oblivious (s : State) : NextOblivious .encblk s fun f => exec .encblk (s.setFlt f) := by
  have hparam : mayRaise .encblk .badParam := HwFault.noConfusion
  cases hd : s.fifo.dir with
  | rd =>
    exact .raise (t := s) rfl (movesBits_of_side rfl).1 0 fun f => exec_encblk_dirErr (s := s.setFlt f) hd
  | wr =>
    cases hfault : s.paramFault with
    | some p =>
      exact .raise (t := s) rfl hparam _ fun f => exec_block_badParam (s := s.setFlt f) (.inl ⟨rfl, hd⟩) hfault
    | none =>
      obtain ⟨hmin, hmax⟩ := s.paramFault_none_iff.1 hfault
      cases hext : s.extentsOk with
      | true =>
        exact .of_run (fun f => exec_encblk (s := s.setFlt f) ⟨hmin, hmax, s.extentsOk_iff.1 hext⟩ hd)
          (encodeBlock_oblivious rfl)
      | false =>
        exact .raise (t := s) rfl hparam 4 fun f => exec_encblk_badExtent (s := s.setFlt f) hd ⟨hmin, hmax⟩ hext

/-- `DECBLK` makes its checks in one order whatever has been recorded (45_block_codec R163). -/
theorem exec_decblk_oblivious (s : State) : NextOblivious .decblk s fun f => exec .decblk (s.setFlt f) := by
  cases hd : s.fifo.dir with
  | wr =>
    exact .raise (t := s) rfl (movesBits_of_side rfl).1 0 fun f => exec_decblk_dirErr (s := s.setFlt f) hd
  | rd =>
    cases hfault : s.paramFault with
    | some p =>
      exact .raise (t := s) (fault := .badParam) rfl (Or.inr (Or.inl rfl)) _ fun f =>
        exec_block_badParam (s := s.setFlt f) (.inr ⟨rfl, hd⟩) hfault
    | none =>
      exact .of_run (fun f => exec_decblk (s := s.setFlt f) (s.paramFault_none_iff.1 hfault) hd)
        (decodeBlock_oblivious rfl)

/-- No command but `SRST` reads the fault record (60_exceptions R185). -/
theorem exec_oblivious (i : Instr) (hi : i ≠ .srst) (s : State) : NextOblivious i s fun f => exec i (s.setFlt f) := by
  have done (t : State) (e : ∀ f, exec i (s.setFlt f) = .next (t.setFlt f)) :
      NextOblivious i s fun f => exec i (s.setFlt f) := .next t e
  cases i with
  | srst => exact absurd rfl hi
  | nop => exact done s fun _ => rfl
  | wbits k =>
    by_cases hk : k.toNat ≤ 64
    · exact .of_run (r := fun f => writeBits s.cfg.arg k.toNat (s.setFlt f)) (fun f => exec_wbits k (s.setFlt f) hk)
        (writeBits_oblivious (movesBits_of_side rfl) _ _ rfl)
    · have hlt := Nat.lt_of_not_le hk
      have hkind : mayRaise (.wbits k) .illegal := Or.inr (Or.inr ⟨rfl, hlt⟩)
      exact .raise (t := s) rfl hkind _ fun _ => if_pos hlt
  | wbit =>
    exact .of_run (r := fun f => writeBits (BitVec.ofNat 64 (s.cfg.arg.toNat % 2)) 1 (s.setFlt f)) (fun _ => rfl)
      (writeBits_oblivious (movesBits_of_side rfl) _ 1 rfl)
  | rbits k =>
    by_cases hk : k.toNat ≤ 64
    · exact .of_storeRes (fun f => exec_rbits k (s.setFlt f) hk) (readBits_oblivious (movesBits_of_side rfl) _ rfl)
    · have hlt := Nat.lt_of_not_le hk
      have hkind : mayRaise (.rbits k) .illegal := Or.inr (Or.inr ⟨rfl, hlt⟩)
      exact .raise (t := s) rfl hkind _ fun _ => if_pos hlt
  | rbit => exact .of_storeRes (fun _ => rfl) (readBits_oblivious (movesBits_of_side rfl) 1 rfl)
  | flush => exact exec_flush_oblivious s
  | tell => exact done (s.setRes (BitVec.ofNat 64 s.pos)) fun _ => rfl
  | seekr =>
    rcases Nat.lt_or_ge s.capBits s.cfg.arg.toNat with hc | hc
    · exact .raise (t := s) (fault := .capacity) rfl rfl s.cfg.arg fun f => exec_seekr_capacity (s.setFlt f) hc
    · exact done (s.setFifo (seekReadFifo s.mem s.cfg.arg.toNat)) fun f => exec_seekr (s.setFlt f) hc
  | seekw => exact exec_seekw_oblivious s
  | fwdxf => exact done s.forward fun _ => rfl
  | invxf => exact done s.inverse fun _ => rfl
  | expb =>
    exact .of_run (fun _ => rfl) (needFloat_oblivious rfl (Or.inl rfl) (needFinite_oblivious rfl (Or.inr rfl)
      (.ok (s := s.storeExponent) rfl ())))
  | fscale =>
    have hscale : RunOblivious .fscale s.res fun f => .ok () (s.setFlt f).scale := .ok (s := s.scale) rfl ()
    refine .of_run (fun _ => rfl) (needFloat_oblivious rfl (Or.inl rfl) ?_)
    simp only [setFlt_expE, setFlt_ty]
    exact everyRecord_ite (fun _ => needFinite_oblivious rfl (Or.inr rfl) hscale) fun _ => hscale
  | iscale =>
    exact .of_run (fun _ => rfl) (needFloat_oblivious (i := .iscale) rfl rfl (.ok (s := s.unscale) rfl ()))
  | prec => exact done (s.setPreceff (BitVec.ofNat 7 (s.precision s.expE))) fun _ => rfl
  | encpl =>
    cases hd : s.fifo.dir with
    | rd => exact .raise (t := s) rfl (movesBits_of_side rfl).1 0 fun f => exec_encpl_dirErr (s.setFlt f) hd
    | wr =>
      exact .of_run (fun f => exec_encpl_writer (s := s.setFlt f) hd)
        (encodePlanes_oblivious (movesBits_of_side rfl) rfl)
  | decpl =>
    cases hd : s.fifo.dir with
    | wr => exact .raise (t := s) rfl (movesBits_of_side rfl).1 0 fun f => exec_decpl_dirErr (s.setFlt f) hd
    | rd =>
      exact .of_run (fun f => exec_decpl_reader (s := s.setFlt f) hd)
        (decodePlanes_oblivious (movesBits_of_side rfl) rfl)
  | padblk =>
    by_cases hext : s.extentsOk = true
    · exact done s.pad fun _ => if_pos hext
    · exact .raise (t := s) (fault := .badParam) rfl rfl 4 fun _ => if_neg hext
  | b2c => exact done s.blkToCoef fun _ => rfl
  | c2b => exact done s.coefToBlk fun _ => rfl
  | encblk => exact exec_encblk_oblivious s
  | decblk => exact exec_decblk_oblivious s

end Sys2Proof.Machine

namespace Sys2Proof.Proofs

open Sys2Proof Sys2Proof.Machine Sys2Proof.Claims

/-- Settles O54: R180's number of the fault is the bit that is set, and the record is all that changes. -/
theorem raiseRecordsTheFault : Obligations.RaiseRecordsTheFault := fun s f info =>
  ⟨fun k _ => raise_getLsbD s f info k, raise_cause_toNat s f info, rfl, rfl⟩

/-- Settles O6: a step takes no access from an empty queue. -/
theorem idleKeepsAllState : Obligations.IdleKeepsAllState := fun s h => by
  rw [step, nextAccess, h]

/-- Settles O55: no piece of a command reads the record; `SRST` sets it. -/
theorem faultRecordChangesNoCommand : Obligations.FaultRecordChangesNoCommand := by
  refine ⟨fun i s hi => ?_, fun s => ⟨s.softReset, fun _ => rfl⟩⟩
  obtain ⟨t, o, e, -⟩ := exec_oblivious i hi s
  exact ⟨t, o, fun f => ⟨e f, fun _ _ hk => recorded_keeps_flag s o hk⟩⟩

/-- Settles O56: the run from the state's own record is one of the runs from every record. -/
theorem atMostOneFaultOfItsOwnKind : Obligations.AtMostOneFaultOfItsOwnKind := by
  intro i s t hi h
  obtain ⟨u, o, e, hfault⟩ := exec_oblivious i hi s
  obtain rfl : u.setFlt (recorded s o s.flt) = t := Host.Outcome.next.inj ((e s.flt).symm.trans h)
  cases o with
  | none => exact .inl rfl
  | some p =>
    obtain ⟨fault, info⟩ := p
    obtain ⟨hkind, hres⟩ := hfault fault info rfl
    exact .inr ⟨fault, info, hkind, rfl, hres⟩

end Sys2Proof.Proofs
end
